-- ==== Sys2Proof/Word.lean ====
section
/-! DEFINITION. The word types of HUFFCORE (00_scope.md R6, R8; 10_state.md R29). Every number is unsigned. -/

namespace Sys2Proof

/-- One byte of a stream (20_memory.md R69). -/
abbrev Byte := BitVec 8

/-- A symbol, `SYM_W` = 8 bits (R6). -/
abbrev Sym := BitVec 8

/-- A count, an operand `WDATA` or a result `RDATA`: `FREQ_W` = `DATA_W` = 64 bits (R6). -/
abbrev Word := BitVec 64

/-- The code bits of one symbol as `CBITS` stores them, 256 bits (10_state.md R27). -/
abbrev CodeBits := BitVec 256

/-- A command word, `CMD_W` = 16 bits (R6, 30_encoding.md R90). -/
abbrev CmdWord := BitVec 16

/-- An index of the node memory: 0 to 510 (R29). -/
abbrev NodeIdx := Fin 511

/-- A node pointer, `PTR_W` = 9 bits: a node index, or `none` for `NIL` = 0x1FF (R6, R29; log 17). -/
abbrev Ptr := Option NodeIdx

end Sys2Proof
end

