-- ==== Sys2Proof/Config.lean ====
section
/-! DEFINITION. The parameters of HUFFCORE (00_scope.md R6). "None is left open": there is no free value here. What the
spec leaves free (R7) is the environment's and stands in State. -/

namespace Sys2Proof

/-- `NODE_CAP`: entries of the node memory (R6). -/
abbrev Config.nodeCap : Nat := 511

/-- `NSYM`: the alphabet size, and so the most records a header has (R6, 30_encoding.md R113). -/
abbrev Config.nsym : Nat := 256

/-- `CODE_MAX`: the greatest code length in bits (R6, 44_code_table.md R204). -/
abbrev Config.codeMax : Nat := 255

/-- Bytes of `H_TOTAL`: `HDR_TOTAL_W` = 64 bits (R6, 30_encoding.md R111). -/
abbrev Config.hdrTotalBytes : Nat := 8

/-- Bytes of `H_N`, `HDR_N_W` = 16 bits, and of a record's `len`, `HDR_LEN_W` = 16 bits (R6, R111, R114). -/
abbrev Config.hdrShortBytes : Nat := 2

/-- How many read-only registers `RDREG` knows (10_state.md R38). -/
abbrev Config.regCount : Nat := 5

end Sys2Proof
end

