-- ==== Sys2Proof/Syntax.lean ====
section
/-! DEFINITION. The commands of HUFFCORE, its instruction set: one constructor per row of spec/opcode_table.json
(30_encoding.md R90 to R97). Operands are kept as the raw fields of the word; WellFormed says which values are legal. -/

namespace Sys2Proof

/-- One command of the command port, its operands named as in R93 to R96. -/
inductive Instr where
  | nop
  | rst
  | finc (sym : Sym)
  /-- `count` is `WDATA`, all 64 bits (R94; log 9). -/
  | fset (sym : Sym) (count : Word)
  | build
  | gen
  | hdrw
  | enc (sym : Sym)
  | close
  | hdrr
  | recon
  | dstep
  | drun
  | rdreg (r : BitVec 9)
  | rdtabF (sym : Sym)
  | rdtabL (sym : Sym)
  | rdtabB0 (sym : Sym)
  | rdtabB1 (sym : Sym)
  | rdtabB2 (sym : Sym)
  | rdtabB3 (sym : Sym)
  | rdnodeL (idx : BitVec 9)
  | rdnodeF (idx : BitVec 9)
  deriving DecidableEq, Repr

/-- What the host presents on the command port: the pair `(CMD, WDATA)` (R90). -/
structure Command where
  cmd : CmdWord
  wdata : Word
  deriving DecidableEq, Repr

end Sys2Proof
end

