-- ==== Sys2Proof/WellFormed.lean ====
section
/-! DEFINITION. Which operand values a legal command word can carry (30_encoding.md R95, R96, R98). A symbol operand has
8 bits and is always legal; the two checks are those of cases I4 and I8. -/

namespace Sys2Proof

/-- A register number that exists: 0 to 4 (10_state.md R38; case I4 of R98 refuses the rest). -/
def legalReg (r : BitVec 9) : Bool := decide (r.toNat < Config.regCount)

/-- A node index that exists: 0 to 510 (10_state.md R29; case I8 of R98 refuses 511). -/
def legalNode (idx : BitVec 9) : Bool := decide (idx.toNat < Config.nodeCap)

/-- The instruction is one that some legal command word stands for (R96). -/
def Instr.wellFormed : Instr → Bool
  | .nop => true
  | .rst => true
  | .finc _ => true
  | .fset _ _ => true
  | .build => true
  | .gen => true
  | .hdrw => true
  | .enc _ => true
  | .close => true
  | .hdrr => true
  | .recon => true
  | .dstep => true
  | .drun => true
  | .rdreg r => legalReg r
  | .rdtabF _ => true
  | .rdtabL _ => true
  | .rdtabB0 _ => true
  | .rdtabB1 _ => true
  | .rdtabB2 _ => true
  | .rdtabB3 _ => true
  | .rdnodeL idx => legalNode idx
  | .rdnodeF idx => legalNode idx

end Sys2Proof
end

