-- ==== Sys2Proof/Decode.lean ====
section
/-! DEFINITION. From a command word to an instruction, and back (30_encoding.md R90 to R101). The decoder reads `op`,
then checks `f` and `a` (R101); a word outside R93 to R97 is rejected under the name of its case of R98. -/

namespace Sys2Proof

/-- Why a command word is illegal: the eight cases of R98. -/
inductive Illegal where
  /-- I1: a format N opcode with `CMD[11:0] != 0`. -/
  | i1
  /-- I2: a format S opcode with `CMD[11:8] != 0`. -/
  | i2
  /-- I3: `RDREG` with `f != 0`. -/
  | i3
  /-- I4: `RDREG` with `f = 0` and `a > 4`. -/
  | i4
  /-- I5: `RDTAB` with `f = 6` or `f = 7`. -/
  | i5
  /-- I6: `RDTAB` with `a[8] = 1`. -/
  | i6
  /-- I7: `RDNODE` with `f >= 2`. -/
  | i7
  /-- I8: `RDNODE` with `a = 511`. -/
  | i8
  deriving DecidableEq, Repr

/-- `op = CMD[15:12]` (R90). -/
def opField (w : CmdWord) : BitVec 4 := w.extractLsb' 12 4

/-- `f = CMD[11:9]` (R90). -/
def fField (w : CmdWord) : BitVec 3 := w.extractLsb' 9 3

/-- `a = CMD[8:0]` (R90). -/
def aField (w : CmdWord) : BitVec 9 := w.extractLsb' 0 9

/-- `sym = CMD[7:0]` (R94, R95). -/
def symField (w : CmdWord) : Sym := w.extractLsb' 0 8

/-- Format N (R93): `CMD[11:0]` must be 0. -/
def decodeN (w : CmdWord) (i : Instr) : Except Illegal Instr :=
  if w.extractLsb' 0 12 = 0#12 then .ok i else .error .i1

/-- Format S (R94): `CMD[11:8]` must be 0. -/
def decodeS (w : CmdWord) (i : Instr) : Except Illegal Instr :=
  if w.extractLsb' 8 4 = 0#4 then .ok i else .error .i2

/-- `RDREG` (R95, R96): `f = 0`, then the register number. -/
def decodeRdreg (w : CmdWord) : Except Illegal Instr :=
  if fField w ≠ 0#3 then .error .i3
  else if legalReg (aField w) then .ok (.rdreg (aField w)) else .error .i4

/-- The function select of `RDTAB` (R97). -/
def rdtabSelect (f : BitVec 3) (y : Sym) : Option Instr :=
  match f.toNat with
  | 0 => some (.rdtabF y)
  | 1 => some (.rdtabL y)
  | 2 => some (.rdtabB0 y)
  | 3 => some (.rdtabB1 y)
  | 4 => some (.rdtabB2 y)
  | 5 => some (.rdtabB3 y)
  | _ => none

/-- `RDTAB` (R95 to R97): the select, then `a[8] = 0`. -/
def decodeRdtab (w : CmdWord) : Except Illegal Instr :=
  match rdtabSelect (fField w) (symField w) with
  | none => .error .i5
  | some i => if (aField w).getLsbD 8 then .error .i6 else .ok i

/-- The function select of `RDNODE` (R97). -/
def rdnodeSelect (f : BitVec 3) (a : BitVec 9) : Option Instr :=
  match f.toNat with
  | 0 => some (.rdnodeL a)
  | 1 => some (.rdnodeF a)
  | _ => none

/-- `RDNODE` (R95 to R97): the select, then the node index. -/
def decodeRdnode (w : CmdWord) : Except Illegal Instr :=
  match rdnodeSelect (fField w) (aField w) with
  | none => .error .i7
  | some i => if legalNode (aField w) then .ok i else .error .i8

/-- The decoder, total on every command (R96, R101): all sixteen opcodes are assigned. -/
def decode (c : Command) : Except Illegal Instr :=
  let w := c.cmd
  match (opField w).toNat with
  | 0x0 => decodeN w .nop
  | 0x1 => decodeN w .rst
  | 0x2 => decodeS w (.finc (symField w))
  | 0x3 => decodeS w (.fset (symField w) c.wdata)
  | 0x4 => decodeN w .build
  | 0x5 => decodeN w .gen
  | 0x6 => decodeN w .hdrw
  | 0x7 => decodeS w (.enc (symField w))
  | 0x8 => decodeN w .close
  | 0x9 => decodeN w .hdrr
  | 0xA => decodeN w .recon
  | 0xB => decodeN w .dstep
  | 0xC => decodeN w .drun
  | 0xD => decodeRdreg w
  | 0xE => decodeRdtab w
  | _ => decodeRdnode w

/-- The word `{op, f, a}` (R90). -/
def wordR (op : BitVec 4) (f : BitVec 3) (a : BitVec 9) : CmdWord := op ++ f ++ a

/-- The word of a format N command (R93). -/
def wordN (op : BitVec 4) : CmdWord := wordR op 0#3 0#9

/-- The word of a command whose `a` is a symbol: format S (R94) with `f = 0`, or `RDTAB` (R95). -/
def wordS (op : BitVec 4) (f : BitVec 3) (y : Sym) : CmdWord := wordR op f (0#1 ++ y)

/-- The command that stands for an instruction (R93 to R97); `WDATA` is 0 where the command ignores it (R96; log 9). -/
def encode : Instr → Command
  | .nop => ⟨wordN 0x0#4, 0#64⟩
  | .rst => ⟨wordN 0x1#4, 0#64⟩
  | .finc y => ⟨wordS 0x2#4 0#3 y, 0#64⟩
  | .fset y n => ⟨wordS 0x3#4 0#3 y, n⟩
  | .build => ⟨wordN 0x4#4, 0#64⟩
  | .gen => ⟨wordN 0x5#4, 0#64⟩
  | .hdrw => ⟨wordN 0x6#4, 0#64⟩
  | .enc y => ⟨wordS 0x7#4 0#3 y, 0#64⟩
  | .close => ⟨wordN 0x8#4, 0#64⟩
  | .hdrr => ⟨wordN 0x9#4, 0#64⟩
  | .recon => ⟨wordN 0xA#4, 0#64⟩
  | .dstep => ⟨wordN 0xB#4, 0#64⟩
  | .drun => ⟨wordN 0xC#4, 0#64⟩
  | .rdreg r => ⟨wordR 0xD#4 0#3 r, 0#64⟩
  | .rdtabF y => ⟨wordS 0xE#4 0#3 y, 0#64⟩
  | .rdtabL y => ⟨wordS 0xE#4 1#3 y, 0#64⟩
  | .rdtabB0 y => ⟨wordS 0xE#4 2#3 y, 0#64⟩
  | .rdtabB1 y => ⟨wordS 0xE#4 3#3 y, 0#64⟩
  | .rdtabB2 y => ⟨wordS 0xE#4 4#3 y, 0#64⟩
  | .rdtabB3 y => ⟨wordS 0xE#4 5#3 y, 0#64⟩
  | .rdnodeL a => ⟨wordR 0xF#4 0#3 a, 0#64⟩
  | .rdnodeF a => ⟨wordR 0xF#4 1#3 a, 0#64⟩

/-- The command whose bits are `w`, numbered as the opcode table numbers them: `CMD` is bits 15..0, `WDATA` the operand
above it, bits 79..16; the bits from `nbits` up are 0 (log 9). -/
def commandOfBits (nbits w : Nat) : Command :=
  let v := w % 2 ^ nbits
  ⟨BitVec.ofNat 16 v, BitVec.ofNat 64 (v / 2 ^ 16)⟩

/-- The instruction the decoder reads from a word of the opcode table. -/
def decodeTableWord (nbits w : Nat) : Option Instr :=
  match decode (commandOfBits nbits w) with
  | .ok i => some i
  | .error _ => none

end Sys2Proof
end

