-- ==== Sys2Proof/Machine/State.lean ====
section
/-! DEFINITION. The state of HUFFCORE as plain data (10_state.md R20 to R35), the environment it runs in (20_memory.md
R61), the command port (30_encoding.md R90 to R92), and its reset (10_state.md R46). -/

namespace Sys2Proof.Machine

/-- The sequencer state `PHASE`, its eight values in the order of their numbers 0 to 7 (R21). -/
inductive Phase where
  | idle
  | tree
  | codes
  | enc
  | hdr
  | dec
  | done
  | err
  deriving DecidableEq, Repr

/-- The error kind `ERR`, in the order of its numbers 0 to 4 (R22, 60_exceptions.md R290). -/
inductive ErrKind where
  | noError
  | ioError
  | corruptHeader
  | emptyInput
  | internalInvariant
  deriving DecidableEq, Repr

/-- The sub-codes a `raise` names: the whole table of 60_exceptions.md R291, in its order. -/
inductive SubCode where
  | sinkWrite
  | srcRead
  | hdrEos
  | hdrTotal0
  | hdrNrec
  | hdrOrder
  | hdrLen
  | hdrPad
  | hdrPrefix
  | hdrNodes
  | empty
  | badCmd
  | badPhase
  | freqOvf
  | noCode
  | count
  | bodyEos
  | walkNil
  deriving DecidableEq, Repr

/-- The `tag` of a node: leaf or internal is told by it alone (R29). -/
inductive NodeTag where
  | int
  | leaf
  deriving DecidableEq, Repr

/-- One TreeNode, an entry of the node memory (R29). -/
structure Node where
  tag : NodeTag
  sym : Sym
  freq : Word
  left : Ptr
  right : Ptr
  deriving DecidableEq, Repr

/-- The free pattern `{tag = INT, sym = 0, freq = 0, left = NIL, right = NIL}` (R30). -/
def Node.free : Node := { tag := .int, sym := 0#8, freq := 0#64, left := none, right := none }

/-- What a command answers: `(ok, RDATA)` (30_encoding.md R92). -/
structure Response where
  ok : Bool
  rdata : Word
  deriving DecidableEq, Repr

/-- What the host can do to the block, one act at a time (30_encoding.md R91; 70_reset_and_hazards.md R320, R323). -/
inductive HostAct where
  /-- present a command on the command port (R90) -/
  | command (c : Command)
  /-- assert and release the hardware reset input (R320 (a); log 8) -/
  | hardReset
  /-- bind a byte source, positioned at its first byte, with the failure draws of its accesses (R323 (3), R61; log 4) -/
  | bindSource (bytes : List Byte) (fails : List Bool)
  /-- bind an empty, open byte sink, with the failure draws of its accesses (R323 (2), R61; log 4) -/
  | bindSink (fails : List Bool)
  deriving DecidableEq, Repr

/-- Why the machine stops with no further step. Every one is SAFE: it is raised only where the spec's pseudocode has no
effect to give, in states that no run reaches, and the machine does less there than any hardware could (log 13 to 16). -/
inductive Fault where
  /-- Raised by `GEN`, `DSTEP` and `DRUN` where the pseudocode reads `NODE[NIL]`, an entry that does not exist (R60). Safe
  (log 13, log 14). -/
  | nilPointer
  /-- Raised by `GEN` where its walk is more than `CODE_MAX` levels deep: a code that does not fit `CLEN`, or a walk that
  does not end (44_code_table.md R204). Safe (log 13). -/
  | walkTooDeep
  /-- Raised by `BUILD` if its queue or the node memory were to run out: never, from any state (43_tree_builder.md R184).
  Safe (log 15). -/
  | buildOverrun
  /-- Raised by `DRUN` if it were to need more iterations than R244 allows: never, from any state. Safe (log 16). -/
  | runOverrun
  deriving DecidableEq, Repr

/-- Why the model has no move. -/
inductive Refusal where
  /-- Raised by `exec` for an instruction that has no meaning yet: none in this model. Safe. -/
  | notModelled (mnemonic : String)
  /-- Raised by `step` when the host binds a source while a decoding run owns the source (70_reset_and_hazards.md R330;
  93_implementation_defined.md U20: "refuse"). Safe (log 7). -/
  | sourceInUse
  /-- Raised by `step` when the host binds a sink while a run has its sink open (R330, U20: "refuse"). Safe (log 7). -/
  | sinkInUse
  deriving DecidableEq, Repr

/-- Everything the spec gives the machine. The first part is the core's state, "and nothing else survives from one command
to the next" (R20); then the environment (20_memory.md R61); then the command port. -/
structure State where
  /-- `PHASE` (R21) -/
  phase : Phase
  /-- `ERR` (R22) -/
  err : ErrKind
  /-- `ERRINFO` (R22) -/
  errInfo : BitVec 8
  /-- `EPHASE` (R22) -/
  ePhase : Phase
  /-- `FREQ[0..255]` (R23) -/
  freq : Vector Word 256
  /-- `TOTAL` (R24) -/
  total : Word
  /-- `SCNT` (R25) -/
  scnt : Word
  /-- `CLEN[0..255]` (R26) -/
  clen : Vector (BitVec 8) 256
  /-- `CBITS[0..255]` (R27) -/
  cbits : Vector CodeBits 256
  /-- `NODE[0..510]` (R29) -/
  node : Vector Node 511
  /-- `NCNT` (R30) -/
  ncnt : BitVec 9
  /-- `ROOT` (R31) -/
  root : Ptr
  /-- `CUR` (R31) -/
  cur : Ptr
  /-- `WACC` (R33) -/
  wacc : Byte
  /-- `WCNT` (R33) -/
  wcnt : BitVec 3
  /-- `RBUF` (R34) -/
  rbuf : Byte
  /-- `RCNT`, 0 to 8 (R34; log 17) -/
  rcnt : Fin 9
  /-- `SINK_OPEN` (R35) -/
  sinkOpen : Bool
  /-- environment: `SRC` (20_memory.md R61) -/
  src : List Byte
  /-- environment: `SPOS` (R61) -/
  spos : Nat
  /-- environment: `SINK`, oldest byte first (R61) -/
  sink : List Byte
  /-- environment: `SINK_CLOSED` (R61) -/
  sinkClosed : Bool
  /-- environment: the draws `src_fail` still to come, one per source access (R61, R62; log 4) -/
  srcFail : List Bool
  /-- environment: the draws `sink_fail` still to come, one per sink access (R61, R63; log 4) -/
  sinkFail : List Bool
  /-- command port: what the host will do, next act first (30_encoding.md R91; log 1) -/
  host : List HostAct
  /-- command port: the responses given so far, oldest first (30_encoding.md R92; log 3) -/
  responses : List Response
  deriving DecidableEq, Repr

/-- The machine right after reset: the core's state at the values of R46; the environment and the command port empty
(log 1, log 3, log 4, log 5). -/
def State.reset : State :=
  { phase := .idle
    err := .noError
    errInfo := 0#8
    ePhase := .idle
    freq := Vector.replicate 256 0#64
    total := 0#64
    scnt := 0#64
    clen := Vector.replicate 256 0#8
    cbits := Vector.replicate 256 0#256
    node := Vector.replicate 511 Node.free
    ncnt := 0#9
    root := none
    cur := none
    wacc := 0#8
    wcnt := 0#3
    rbuf := 0#8
    rcnt := 0
    sinkOpen := false
    src := []
    spos := 0
    sink := []
    sinkClosed := false
    srcFail := []
    sinkFail := []
    host := []
    responses := [] }

end Sys2Proof.Machine
end

