-- ==== Sys2Proof/Machine/Flags.lean ====
section
/-! DEFINITION. The numbers of the control and error registers. HUFFCORE has no arithmetic flag and no condition code
(10_state.md R37): its status bits are `PHASE`, `ERR`, `ERRINFO`, `EPHASE` and `SINK_OPEN`, shown by `STATUS` (R39). -/

namespace Sys2Proof.Machine

/-- The 3-bit value of `PHASE` and `EPHASE` (10_state.md R21). -/
def phaseBits : Phase → BitVec 3
  | .idle => 0#3
  | .tree => 1#3
  | .codes => 2#3
  | .enc => 3#3
  | .hdr => 4#3
  | .dec => 5#3
  | .done => 6#3
  | .err => 7#3

/-- The 3-bit value of `ERR` (60_exceptions.md R290). -/
def errBits : ErrKind → BitVec 3
  | .noError => 0#3
  | .ioError => 1#3
  | .corruptHeader => 2#3
  | .emptyInput => 3#3
  | .internalInvariant => 4#3

/-- The 8-bit value of `ERRINFO` for a sub-code (60_exceptions.md R291). -/
def subCodeBits : SubCode → BitVec 8
  | .sinkWrite => 0x01#8
  | .srcRead => 0x02#8
  | .hdrEos => 0x10#8
  | .hdrTotal0 => 0x11#8
  | .hdrNrec => 0x12#8
  | .hdrOrder => 0x13#8
  | .hdrLen => 0x14#8
  | .hdrPad => 0x15#8
  | .hdrPrefix => 0x16#8
  | .hdrNodes => 0x17#8
  | .empty => 0x20#8
  | .badCmd => 0x30#8
  | .badPhase => 0x31#8
  | .freqOvf => 0x32#8
  | .noCode => 0x33#8
  | .count => 0x34#8
  | .bodyEos => 0x35#8
  | .walkNil => 0x36#8

/-- The kind each sub-code belongs to (60_exceptions.md R291, column "kind"). -/
def subCodeKind : SubCode → ErrKind
  | .sinkWrite => .ioError
  | .srcRead => .ioError
  | .hdrEos => .corruptHeader
  | .hdrTotal0 => .corruptHeader
  | .hdrNrec => .corruptHeader
  | .hdrOrder => .corruptHeader
  | .hdrLen => .corruptHeader
  | .hdrPad => .corruptHeader
  | .hdrPrefix => .corruptHeader
  | .hdrNodes => .corruptHeader
  | .empty => .emptyInput
  | .badCmd => .internalInvariant
  | .badPhase => .internalInvariant
  | .freqOvf => .internalInvariant
  | .noCode => .internalInvariant
  | .count => .internalInvariant
  | .bodyEos => .internalInvariant
  | .walkNil => .internalInvariant

end Sys2Proof.Machine
end

