-- ==== Sys2Proof/Machine/Operands.lean ====
section
/-! DEFINITION. What a command reads: table entries, code views, the header's bytes and the read-only registers
(10_state.md R23 to R42; 30_encoding.md R111 to R115). -/

namespace Sys2Proof.Machine

/-- `w` with bit `i` set to `b` (00_scope.md R8; the assignment `WACC[7 - WCNT] <- b` of 41_bit_io.md R151). -/
def setBit {n : Nat} (w : BitVec n) (i : Nat) (b : Bool) : BitVec n :=
  if b then w ||| (1#n <<< i) else w &&& ~~~(1#n <<< i)

/-- A bit as a word of width 1. -/
def bit (b : Bool) : BitVec 1 := if b then 1#1 else 0#1

/-- Entry `y` of a symbol-indexed table (00_scope.md R10, `T[i]`). -/
def lookup {α : Type} (t : Vector α 256) (y : Sym) : α := t[y.toNat]'y.isLt

/-- A symbol-indexed table with entry `y` replaced (00_scope.md R10, `T[i] <- v`). -/
def update {α : Type} (t : Vector α 256) (y : Sym) (v : α) : Vector α 256 := t.set y.toNat v y.isLt

/-- `FREQ[y]` (R23). -/
def freqOf (s : State) (y : Sym) : Word := lookup s.freq y

/-- `CLEN[y]` (R26). -/
def clenOf (s : State) (y : Sym) : BitVec 8 := lookup s.clen y

/-- `CBITS[y]` (R27). -/
def cbitsOf (s : State) (y : Sym) : CodeBits := lookup s.cbits y

/-- `NODE[i]` (R29). -/
def nodeAt (s : State) (i : NodeIdx) : Node := s.node[i.val]'i.isLt

/-- The symbols 0 to 255 in ascending order: `for s in 0..255` (00_scope.md R10). -/
def allSyms : List Sym := (List.range Config.nsym).map (BitVec.ofNat 8)

/-- The symbols that have an entry in the FrequencyTable: `FREQ[s] > 0` (R23). -/
def presentSyms (s : State) : List Sym := allSyms.filter fun y => decide (freqOf s y ≠ 0#64)

/-- The symbols that have a code: `CLEN[s] > 0` (R26). -/
def codedSyms (s : State) : List Sym := allSyms.filter fun y => decide (clenOf s y ≠ 0#8)

/-- The sum of the FrequencyTable, exact (00_scope.md R8, 43_tree_builder.md R185). -/
def freqSum (s : State) : Nat := (allSyms.map fun y => (freqOf s y).toNat).sum

/-- The code held in a word and a length: bit `i` of the code is bit `255 - i` of the word (R27). -/
def codeView (w : CodeBits) (len : Nat) : List Bool := (List.range len).map fun i => w.getLsbD (255 - i)

/-- `CODE[y]`, the code of `y` as a bit sequence, first bit first (R27). -/
def codeOf (s : State) (y : Sym) : List Bool := codeView (cbitsOf s y) (clenOf s y).toNat

/-- The bits `p` put at bit positions `255 - j`, `254 - j`, ...; all other bits 0. -/
def packFrom : Nat → List Bool → CodeBits
  | _, [] => 0#256
  | j, b :: p => setBit (packFrom (j + 1) p) (255 - j) b

/-- The 256-bit word with bit `255 - j` equal to `p[j]`, other bits 0 (44_code_table.md R200). -/
def packCode (p : List Bool) : CodeBits := packFrom 0 p

/-- How many bytes hold `len` code bits: `ceil(len / 8)` (30_encoding.md R114). -/
def codeBytes (len : Nat) : Nat := (len + 7) / 8

/-- Byte `j` of the packed code bits: `CBITS[255 - 8j : 248 - 8j]` (30_encoding.md R114). -/
def codeByte (w : CodeBits) (j : Nat) : Byte := w.extractLsb' (248 - 8 * j) 8

/-- Code bytes put at `w[255 - 8j : 248 - 8j]`, the first of `bs` at `j`; all other bits 0. -/
def packBytesFrom : Nat → List Byte → CodeBits
  | _, [] => 0#256
  | j, b :: bs => packBytesFrom (j + 1) bs ||| (b.setWidth 256 <<< (248 - 8 * j))

/-- The word `w` that `HDRR` assembles from a record's code bytes (46_decoder.md R230). -/
def packBytes (bs : List Byte) : CodeBits := packBytesFrom 0 bs

/-- Big-endian value of a byte sequence (20_memory.md R67): `t <- (t << 8) | get()` repeated (46_decoder.md R230). -/
def beNat (bs : List Byte) : Nat := bs.foldl (fun t b => t * 256 + b.toNat) 0

/-- `H_TOTAL`: 8 bytes, most significant first (30_encoding.md R112). -/
def totalBytes (t : Word) : List Byte :=
  ((List.range Config.hdrTotalBytes).reverse).map fun j => t.extractLsb' (8 * j) 8

/-- A 16-bit header field, most significant byte first (30_encoding.md R113, R114). -/
def shortBytes (n : Nat) : List Byte :=
  [(BitVec.ofNat 16 n).extractLsb' 8 8, (BitVec.ofNat 16 n).extractLsb' 0 8]

/-- One header record: `sym`, `len`, the packed code bits (30_encoding.md R114). -/
def recordBytes (y : Sym) (len : Nat) (w : CodeBits) : List Byte :=
  y :: shortBytes len ++ (List.range (codeBytes len)).map (codeByte w)

/-- The header of a CodeTable: `H_TOTAL`, `H_N`, then one record per symbol that has a code, ascending
(30_encoding.md R111 to R115). -/
def headerBytes (s : State) : List Byte :=
  totalBytes s.total ++ shortBytes (codedSyms s).length
    ++ (codedSyms s).flatMap fun y => recordBytes y (clenOf s y).toNat (cbitsOf s y)

/-- The 9-bit value of a pointer; `NIL` is 0x1FF (R29; log 17). -/
def ptrBits : Ptr → BitVec 9
  | none => 0x1FF#9
  | some i => BitVec.ofNat 9 i.val

/-- The child of a node that a code bit selects: 0 left, 1 right (44_code_table.md R201, 46_decoder.md R235). -/
def child (nd : Node) (b : Bool) : Ptr := if b then nd.right else nd.left

/-- The 1-bit value of a tag: 1 = LEAF, 0 = INT (R29). -/
def tagBits : NodeTag → BitVec 1
  | .int => 0#1
  | .leaf => 1#1

/-- The link word of a node (R42). -/
def linkWord (nd : Node) : Word :=
  0#37 ++ ptrBits nd.right ++ ptrBits nd.left ++ nd.sym ++ tagBits nd.tag

/-- The frequency word of a node (R42). -/
def freqWord (nd : Node) : Word := nd.freq

/-- Register 0, `STATUS` (R39). -/
def statusReg (s : State) : Word :=
  0#45 ++ phaseBits s.ePhase ++ s.errInfo ++ 0#1 ++ errBits s.err ++ bit s.sinkOpen ++ phaseBits s.phase

/-- Register 3, `TREE` (R40). -/
def treeReg (s : State) : Word :=
  0#23 ++ ptrBits s.cur ++ 0#7 ++ s.ncnt ++ 0#7 ++ ptrBits s.root

/-- Register 4, `BITIO` (R41). -/
def bitioReg (s : State) : Word :=
  0#36 ++ BitVec.ofNat 4 s.rcnt.val ++ s.rbuf ++ 0#5 ++ s.wcnt ++ s.wacc

/-- The registers of `RDREG` by number (R38); numbers from 5 up do not exist. -/
def regValue (s : State) (r : BitVec 9) : Option Word :=
  match r.toNat with
  | 0 => some (statusReg s)
  | 1 => some s.total
  | 2 => some s.scnt
  | 3 => some (treeReg s)
  | 4 => some (bitioReg s)
  | _ => none

/-- Word `k` of `CBITS[y]`: `CBITS[y][255 - 64k : 192 - 64k]` (40_system_and_read.md R134). -/
def cbitsWord (s : State) (y : Sym) (k : Nat) : Word := (cbitsOf s y).extractLsb' (192 - 64 * k) 64

/-- The node an index operand names; index 511 does not exist (40_system_and_read.md R135, case I8 of R98). -/
def nodeOperand (s : State) (idx : BitVec 9) : Option Node :=
  if h : idx.toNat < 511 then some (nodeAt s ⟨idx.toNat, h⟩) else none

end Sys2Proof.Machine
end

