-- ==== Sys2Proof/Machine/Ops.lean ====
section
/-! DEFINITION. The shared operations: what a command's pseudocode can do (00_scope.md R10), the fault entry
(60_exceptions.md R296), reset (10_state.md R46), the three port primitives (20_memory.md R62 to R64), the bit operations
(41_bit_io.md) and node allocation (10_state.md R30). -/

namespace Sys2Proof.Machine

/-- The outcome of an instruction or of a step. -/
abbrev Out := Host.Outcome State Fault Refusal

/-! ### Responses (30_encoding.md R92) -/

/-- The command answers `(ok, v)`. -/
def respond (ok : Bool) (v : Word) (s : State) : State := { s with responses := s.responses ++ [⟨ok, v⟩] }

/-- A command that is ignored because `PHASE = ERR`: `ok = 0`, `RDATA = 0`, no state changes (60_exceptions.md R298). -/
def ignore (s : State) : State := respond false 0#64 s

/-! ### Faults: entry, and the only way out (60_exceptions.md R296, R301) -/

/-- `SinkClose()` (20_memory.md R64). -/
def sinkClose (s : State) : State := { s with sinkClosed := true }

/-- `if SINK_OPEN = 1: SinkClose(); SINK_OPEN <- 0` (R296; 10_state.md R35). -/
def releaseSink (s : State) : State := if s.sinkOpen then { sinkClose s with sinkOpen := false } else s

/-- Taking a fault: the entry sequence that `raise K(info)` performs (R296). The sub-code names its kind (R291). -/
def raiseFault (c : SubCode) (s : State) : State :=
  respond false 0#64
    { releaseSink { s with ePhase := s.phase, err := subCodeKind c, errInfo := subCodeBits c } with phase := .err }

/-- Every item of the core's state at its reset value (10_state.md R46); the environment, which the core does not reset
(70_reset_and_hazards.md R321), and the command port as they were. -/
def resetCore (s : State) : State :=
  { State.reset with
    src := s.src
    spos := s.spos
    sink := s.sink
    sinkClosed := s.sinkClosed
    srcFail := s.srcFail
    sinkFail := s.sinkFail
    host := s.host
    responses := s.responses }

/-! ### Results of a command's pseudocode -/

/-- How a piece of pseudocode ends: with a value, at a `raise` (the state written so far stays, R297), or where the spec
gives it no effect. -/
inductive Res (α : Type) where
  | ok (v : α) (s : State)
  | raised (c : SubCode) (s : State)
  | stuck (r : Fault)
  deriving DecidableEq, Repr

/-- Run `x`, then `f` on its value and state. -/
def Res.bind {α β : Type} (x : Res α) (f : α → State → Res β) : Res β :=
  match x with
  | .ok v s => f v s
  | .raised c s => .raised c s
  | .stuck r => .stuck r

/-- The end of a command: `return v`, the fault entry, or a stop. -/
def finish : Res Word → Out
  | .ok v s => .next (respond true v s)
  | .raised c s => .next (raiseFault c s)
  | .stuck r => .fault r

/-- The check order of 30_encoding.md R100 (1), (3), (4) for a command that is legal in the one phase `p` (47_flows.md
R260). -/
def inPhase (p : Phase) (body : State → Res Word) (s : State) : Out :=
  if s.phase = .err then .next (ignore s)
  else if s.phase = p then finish (body s)
  else .next (raiseFault .badPhase s)

/-- An illegal command word: ignored in phase `ERR`, else `BAD_CMD` (30_encoding.md R99, R100 (1), (2)). -/
def illegalWord (s : State) : State :=
  if s.phase = .err then ignore s else raiseFault .badCmd s

/-- A read: answers the item read, or is an illegal word where the item does not exist (R98, cases I4 and I8; log 10). -/
def readItem (v : Option Word) (s : State) : Out :=
  match v with
  | some w => .next (respond true w s)
  | none => .next (illegalWord s)

/-! ### The ports (20_memory.md R62 to R64) -/

/-- The next draw of a list of draws; past its end no access fails (R61; log 4). -/
def draw : List Bool → Bool × List Bool
  | [] => (false, [])
  | b :: bs => (b, bs)

/-- What a source access returns (R62). -/
inductive SrcReply where
  | byte (b : Byte)
  | eos
  | fail
  deriving DecidableEq, Repr

/-- `SrcRead()` (R62; a position past the end reads as the end: log 18). -/
def srcRead (s : State) : SrcReply × State :=
  let s1 := { s with srcFail := (draw s.srcFail).2 }
  if (draw s.srcFail).1 then (.fail, s1)
  else match s.src[s.spos]? with
    | none => (.eos, s1)
    | some b => (.byte b, { s1 with spos := s.spos + 1 })

/-- `SinkWrite(b)`: `true` is `ok` (R63). -/
def sinkWrite (b : Byte) (s : State) : Bool × State :=
  let s1 := { s with sinkFail := (draw s.sinkFail).2 }
  if (draw s.sinkFail).1 then (false, s1) else (true, { s1 with sink := s.sink ++ [b] })

/-- `if SinkWrite(b) = fail: raise IoError(SINK_WRITE)` (R63; `put` of 45_encoder.md R210). -/
def put (b : Byte) (s : State) : Res Unit :=
  match sinkWrite b s with
  | (true, s1) => .ok () s1
  | (false, s1) => .raised .sinkWrite s1

/-- `put` of each byte in order. -/
def putAll : List Byte → State → Res Unit
  | [], s => .ok () s
  | b :: bs, s => (put b s).bind fun _ s1 => putAll bs s1

/-- `get()` of 46_decoder.md R230: a byte of the header, or `IoError(SRC_READ)`, or `CorruptHeader(HDR_EOS)`. -/
def getByte (s : State) : Res Byte :=
  match srcRead s with
  | (.byte b, s1) => .ok b s1
  | (.eos, s1) => .raised .hdrEos s1
  | (.fail, s1) => .raised .srcRead s1

/-- `n` times `get()`. -/
def getBytes : Nat → State → Res (List Byte)
  | 0, s => .ok [] s
  | n + 1, s => (getByte s).bind fun b s1 => (getBytes n s1).bind fun bs s2 => .ok (b :: bs) s2

/-! ### The BitWriter and the BitReader (41_bit_io.md) -/

/-- `write_bit(b)` (R151). -/
def writeBit (b : Bool) (s : State) : Res Unit :=
  let s1 := { s with wacc := setBit s.wacc (7 - s.wcnt.toNat) b }
  if s.wcnt = 7#3 then (put s1.wacc s1).bind fun _ s2 => .ok () { s2 with wacc := 0#8, wcnt := 0#3 }
  else .ok () { s1 with wcnt := s.wcnt + 1#3 }

/-- `write_bits(c)` (R152). -/
def writeBits : List Bool → State → Res Unit
  | [], s => .ok () s
  | b :: c, s => (writeBit b s).bind fun _ s1 => writeBits c s1

/-- The flush of `close()`: the partial byte, its low bits already 0, if there is one (R153). -/
def flushPartial (s : State) : Res Unit :=
  if s.wcnt = 0#3 then .ok () s
  else (put s.wacc s).bind fun _ s1 => .ok () { s1 with wacc := 0#8, wcnt := 0#3 }

/-- `close()` (R153). -/
def closeBody (s : State) : Res Unit :=
  (flushPartial s).bind fun _ s1 => .ok () { sinkClose s1 with sinkOpen := false }

/-- The next bit of a buffer of which `n` bits are unread: `RCNT <- RCNT - 1; return RBUF[RCNT]` (R154). -/
def takeBit (n : Nat) (h : n < 8) (s : State) : Res (Option Bool) :=
  .ok (some (s.rbuf.getLsbD n)) { s with rcnt := ⟨n, Nat.lt_succ_of_lt h⟩ }

/-- `read_bit()`: `none` is `EOS` (R154). -/
def readBit (s : State) : Res (Option Bool) :=
  match s.rcnt with
  | ⟨n + 1, h⟩ => takeBit n (Nat.lt_of_succ_lt_succ h) s
  | ⟨0, _⟩ =>
    match srcRead s with
    | (.fail, s1) => .raised .srcRead s1
    | (.eos, s1) => .ok none s1
    | (.byte b, s1) => takeBit 7 (by decide) { s1 with rbuf := b }

/-! ### Tables and the tree -/

/-- `FREQ[y] <- v` (42_frequency.md R170, R172). -/
def setFreq (y : Sym) (v : Word) (s : State) : State := { s with freq := update s.freq y v }

/-- `CLEN[y] <- len; CBITS[y] <- w` (44_code_table.md R200, 46_decoder.md R230). -/
def setCode (y : Sym) (len : Nat) (w : CodeBits) (s : State) : State :=
  { s with clen := update s.clen y (BitVec.ofNat 8 len), cbits := update s.cbits y w }

/-- `NODE[i] <- nd`. -/
def setNode (i : NodeIdx) (nd : Node) (s : State) : State := { s with node := s.node.set i.val nd i.isLt }

/-- A new node takes index `NCNT`, then `NCNT` grows by one; `none` when all 511 entries are used (10_state.md R30). -/
def allocNode (nd : Node) (s : State) : Option (NodeIdx × State) :=
  if h : s.ncnt.toNat < 511 then
    some (⟨s.ncnt.toNat, h⟩, { setNode ⟨s.ncnt.toNat, h⟩ nd s with ncnt := s.ncnt + 1#9 })
  else none

/-- `child(i, b) <- p` (46_decoder.md R235). -/
def setChild (i : NodeIdx) (b : Bool) (p : Ptr) (s : State) : State :=
  setNode i (if b then { nodeAt s i with right := p } else { nodeAt s i with left := p }) s

end Sys2Proof.Machine
end

