-- ==== Sys2Proof/Machine/Builder.lean ====
section
/-! DEFINITION. The Huffman tree builder, `BUILD` (43_tree_builder.md). The priority queue is a list of node indexes that
lives only inside the command (10_state.md R43). -/

namespace Sys2Proof.Machine

/-- The queue's order: the pair `(NODE[i].freq, i)`, lexicographic (R183). -/
def queueBefore (s : State) (i j : NodeIdx) : Bool :=
  let fi := (nodeAt s i).freq.toNat
  let fj := (nodeAt s j).freq.toNat
  decide (fi < fj) || (decide (fi = fj) && decide (i.val < j.val))

/-- The least of `i` and the members of `q` (R183). -/
def queueMin (s : State) : NodeIdx → List NodeIdx → NodeIdx
  | i, [] => i
  | i, j :: q => queueMin s (if queueBefore s j i then j else i) q

/-- `remove_min(Q)`: the least member and the queue without it; `none` for an empty queue (R183). -/
def removeMin (s : State) : List NodeIdx → Option (NodeIdx × List NodeIdx)
  | [] => none
  | i :: q => some (queueMin s i q, (i :: q).erase (queueMin s i q))

/-- Node allocation inside `BUILD`, where the node memory never runs out (R184; log 15). -/
def buildNode (nd : Node) (s : State) : Res NodeIdx :=
  match allocNode nd s with
  | some (i, s1) => .ok i s1
  | none => .stuck .buildOverrun

/-- Seeding (R182): one leaf per symbol of the list, in its order; the value is the queue of their indexes. -/
def seedLeaves : List Sym → State → Res (List NodeIdx)
  | [], s => .ok [] s
  | y :: ys, s =>
    (buildNode { tag := .leaf, sym := y, freq := freqOf s y, left := none, right := none } s).bind fun i s1 =>
      (seedLeaves ys s1).bind fun q s2 => .ok (i :: q) s2

/-- The node a merge makes: the first removed becomes the left child, the second the right (R184). -/
def mergedNode (s : State) (a b : NodeIdx) : Node :=
  { tag := .int, sym := 0#8, freq := (nodeAt s a).freq + (nodeAt s b).freq, left := some a, right := some b }

/-- The merge loop, while the queue has more than one member; its value is the last member, the root (R184). The number
bounds the merges: the queue's length is enough (log 15). -/
def mergeLoop : Nat → List NodeIdx → State → Res NodeIdx
  | n, q, s =>
    match removeMin s q with
    | none => .stuck .buildOverrun
    | some (a, q1) =>
      match removeMin s q1, n with
      | none, _ => .ok a s
      | some _, 0 => .stuck .buildOverrun
      | some (b, q2), n + 1 =>
        (buildNode (mergedNode s a b) s).bind fun i s1 => mergeLoop n (q2 ++ [i]) s1

/-- The tree over the seeded queue: the lone leaf of a one-symbol alphabet gets a synthetic parent (R186), two or more
leaves are merged (R184). -/
def growTree (q : List NodeIdx) (s : State) : Res NodeIdx :=
  match q with
  | [i] => buildNode { tag := .int, sym := 0#8, freq := (nodeAt s i).freq, left := some i, right := none } s
  | q => mergeLoop q.length q s

/-- `BUILD` past the common checks (R180): the checks of R181 and R185 come before any write. Leaf `k` takes index `k`
because `NCNT` starts from 0. -/
def buildBody (s : State) : Res Word :=
  if presentSyms s = [] then .raised .empty s
  else if 2 ^ 64 ≤ freqSum s then .raised .freqOvf s
  else
    (seedLeaves (presentSyms s) { s with ncnt := 0#9 }).bind fun q s1 =>
      (growTree q s1).bind fun r s2 =>
        .ok 0#64 { s2 with root := some r, total := (nodeAt s2 r).freq, phase := .tree }

/-- `BUILD` (R180). -/
def execBuild (s : State) : Out := inPhase .idle buildBody s

end Sys2Proof.Machine
end

