-- ==== Sys2Proof/Machine/CodeTable.lean ====
section
/-! DEFINITION. The code-table generator, `GEN` (44_code_table.md). -/

namespace Sys2Proof.Machine

/-- `walk(i, p)` (R200): at a leaf the path is its symbol's code; else left with 0, then right with 1, an absent child
skipped (R205). The number is how many levels may still be entered (R204; log 13). -/
def genWalk : Nat → NodeIdx → List Bool → State → Res Unit
  | 0, _, _, _ => .stuck .walkTooDeep
  | d + 1, i, p, s =>
    if (nodeAt s i).tag = .leaf then .ok () (setCode (nodeAt s i).sym p.length (packCode p) s)
    else
      (match (nodeAt s i).left with
        | none => Res.ok () s
        | some l => genWalk d l (p ++ [false]) s).bind fun _ s1 =>
      match (nodeAt s i).right with
        | none => Res.ok () s1
        | some r => genWalk d r (p ++ [true]) s1

/-- `GEN` past the common checks (R200). -/
def genBody (s : State) : Res Word :=
  match s.root with
  | none => .stuck .nilPointer
  | some r => (genWalk (Config.codeMax + 1) r [] s).bind fun _ s1 => .ok 0#64 { s1 with phase := .codes }

/-- `GEN` (R200). -/
def execGen (s : State) : Out := inPhase .tree genBody s

end Sys2Proof.Machine
end

