-- ==== Sys2Proof/Machine/Decoder.lean ====
section
/-! DEFINITION. The bit-serial decoder: `HDRR`, `RECON`, `DSTEP`, `DRUN` (46_decoder.md). -/

namespace Sys2Proof.Machine

/-! ### The header (R230 to R234) -/

/-- One record (R230): its symbol must exceed `prev`, its length be 1 to 255, the bits past the code be 0. The low
`256 - len` bits of `w` are what `w <<< len` keeps. The value is the new `prev`. -/
def readRecord (prev : Int) (s : State) : Res Int :=
  (getByte s).bind fun y s1 =>
    if (y.toNat : Int) ≤ prev then .raised .hdrOrder s1
    else (getBytes Config.hdrShortBytes s1).bind fun lb s2 =>
      if beNat lb = 0 ∨ beNat lb > Config.codeMax then .raised .hdrLen s2
      else (getBytes (codeBytes (beNat lb)) s2).bind fun cb s3 =>
        if packBytes cb <<< beNat lb ≠ 0#256 then .raised .hdrPad s3
        else .ok (y.toNat : Int) (setCode y (beNat lb) (packBytes cb) s3)

/-- `repeat N times` a record (R230). -/
def readRecords : Nat → Int → State → Res Unit
  | 0, _, s => .ok () s
  | n + 1, prev, s => (readRecord prev s).bind fun p s1 => readRecords n p s1

/-- `HDRR` past the common checks (R230, R232): `TOTAL` is written once it is known not to be 0. -/
def hdrrBody (s : State) : Res Word :=
  (getBytes Config.hdrTotalBytes s).bind fun tb s1 =>
    if beNat tb = 0 then .raised .hdrTotal0 s1
    else (getBytes Config.hdrShortBytes { s1 with total := BitVec.ofNat 64 (beNat tb) }).bind fun nb s2 =>
      if beNat nb = 0 ∨ beNat nb > Config.nsym then .raised .hdrNrec s2
      else (readRecords (beNat nb) (-1) s2).bind fun _ s3 => .ok 0#64 { s3 with phase := .hdr }

/-- `HDRR` (R230). -/
def execHdrr (s : State) : Out := inPhase .idle hdrrBody s

/-! ### The tree (R235 to R239) -/

/-- Walk or create the nodes of a code from node `i` (R235); its value is the node the path ends on. -/
def insertPath : NodeIdx → List Bool → State → Res NodeIdx
  | i, [], s => .ok i s
  | i, b :: c, s =>
    if (nodeAt s i).tag = .leaf then .raised .hdrPrefix s
    else match child (nodeAt s i) b with
      | some j => insertPath j c s
      | none =>
        match allocNode Node.free s with
        | none => .raised .hdrNodes s
        | some (j, s1) => insertPath j c (setChild i b (some j) s1)

/-- A node on which a path may end: no leaf, no child (R235, R236 (b), (c)). -/
def isBare (nd : Node) : Bool := decide (nd.tag = .int ∧ nd.left = none ∧ nd.right = none)

/-- Insert one symbol's code below the root `NODE[0]` and mark its leaf (R235). -/
def insertCode (y : Sym) (s : State) : Res Unit :=
  (insertPath 0 (codeOf s y) s).bind fun i s1 =>
    if isBare (nodeAt s1 i) then .ok () (setNode i { nodeAt s1 i with tag := .leaf, sym := y } s1)
    else .raised .hdrPrefix s1

/-- Insert the codes of the symbols of a list, in its order. -/
def insertCodes : List Sym → State → Res Unit
  | [], s => .ok () s
  | y :: ys, s => (insertCode y s).bind fun _ s1 => insertCodes ys s1

/-- "An empty root": `NODE[0] <- FREE; NCNT <- 1; ROOT <- 0` (R235). -/
def emptyRoot (s : State) : State := { setNode 0 Node.free s with ncnt := 1#9, root := some 0 }

/-- `RECON` past the common checks (R235, R239). -/
def reconBody (s : State) : Res Word :=
  (insertCodes (codedSyms s) (emptyRoot s)).bind fun _ s1 =>
    .ok 0#64
      { s1 with cur := some 0, scnt := 0#64, rbuf := 0#8, rcnt := 0, sinkOpen := true, phase := .dec }

/-- `RECON` (R235). -/
def execRecon (s : State) : Out := inPhase .hdr reconBody s

/-! ### The walk (R240 to R244) -/

/-- The end of a run after its last symbol: `SinkClose(); SINK_OPEN <- 0; PHASE <- DONE` (R240). -/
def endRun (s : State) : State := { sinkClose s with sinkOpen := false, phase := .done }

/-- At a leaf: emit its symbol, count it, return to the root, stop at `TOTAL` symbols (R240). -/
def emitLeaf (y : Sym) (s : State) : Res Word :=
  (put y s).bind fun _ s1 =>
    let s2 := { s1 with scnt := s1.scnt + 1#64, cur := s1.root }
    .ok 0#64 (if s2.scnt = s2.total then endRun s2 else s2)

/-- Descend from node `i` by one bit (R240, R242). -/
def descend (i : NodeIdx) (b : Bool) (s : State) : Res Word :=
  match child (nodeAt s i) b with
  | none => .raised .walkNil s
  | some j =>
    let s1 := { s with cur := some j }
    if (nodeAt s j).tag = .leaf then emitLeaf (nodeAt s j).sym s1 else .ok 0#64 s1

/-- `DSTEP` past the common checks (R240, R241). -/
def dstepBody (s : State) : Res Word :=
  (readBit s).bind fun r s1 =>
    match r with
    | none => .raised .bodyEos s1
    | some b =>
      match s1.cur with
      | none => .stuck .nilPointer
      | some i => descend i b s1

/-- `DSTEP` (R240). -/
def execDstep (s : State) : Out := inPhase .dec dstepBody s

/-- How many iterations `DRUN` can need: `RCNT + 8 * (len(SRC) - SPOS) + 1` (R244). -/
def runBound (s : State) : Nat := s.rcnt.val + 8 * (s.src.length - s.spos) + 1

/-- `while PHASE = DEC: perform the body of DSTEP` (R243). The number bounds the iterations (log 16). -/
def runLoop : Nat → State → Res Word
  | 0, s => if s.phase = .dec then .stuck .runOverrun else .ok 0#64 s
  | n + 1, s => if s.phase = .dec then (dstepBody s).bind fun _ s1 => runLoop n s1 else .ok 0#64 s

/-- `DRUN` (R243). -/
def execDrun (s : State) : Out := inPhase .dec (fun s => runLoop (runBound s) s) s

end Sys2Proof.Machine
end

