-- ==== Sys2Proof/Machine/Encoder.lean ====
section
/-! DEFINITION. The bit-serial encoder: `HDRW`, `ENC`, `CLOSE` (45_encoder.md). -/

namespace Sys2Proof.Machine

/-- `HDRW` past the common checks (R210). The bytes depend on `TOTAL`, `CLEN`, `CBITS` only, which writing does not
change, so they are computed first (log 20). -/
def hdrwBody (s : State) : Res Word :=
  (putAll (headerBytes s) { s with sinkOpen := true }).bind fun _ s1 =>
    .ok 0#64 { s1 with wacc := 0#8, wcnt := 0#3, scnt := 0#64, phase := .enc }

/-- `HDRW` (R210). -/
def execHdrw (s : State) : Out := inPhase .codes hdrwBody s

/-- `ENC` past the common checks (R213): `NO_CODE` before `COUNT` (R214), then the code's bits. -/
def encBody (y : Sym) (s : State) : Res Word :=
  if clenOf s y = 0#8 then .raised .noCode s
  else if s.scnt = s.total then .raised .count s
  else (writeBits (codeOf s y) s).bind fun _ s1 => .ok 0#64 { s1 with scnt := s1.scnt + 1#64 }

/-- `ENC sym` (R213). -/
def execEnc (y : Sym) (s : State) : Out := inPhase .enc (encBody y) s

/-- `CLOSE` past the common checks (R215, R216). -/
def closeCmdBody (s : State) : Res Word :=
  if s.scnt ≠ s.total then .raised .count s
  else (closeBody s).bind fun _ s1 => .ok 0#64 { s1 with phase := .done }

/-- `CLOSE` (R215). -/
def execClose (s : State) : Out := inPhase .enc closeCmdBody s

end Sys2Proof.Machine
end

