-- ==== Sys2Proof/Machine/Frequency.lean ====
section
/-! DEFINITION. The frequency table commands `FINC` and `FSET` (42_frequency.md). -/

namespace Sys2Proof.Machine

/-- `FINC` past the common checks (R170): a count neither wraps nor saturates (R171). -/
def fincBody (y : Sym) (s : State) : Res Word :=
  if freqOf s y = BitVec.allOnes 64 then .raised .freqOvf s
  else .ok 0#64 (setFreq y (freqOf s y + 1#64) s)

/-- `FINC sym` (R170). -/
def execFinc (y : Sym) (s : State) : Out := inPhase .idle (fincBody y) s

/-- `FSET sym, count` (R172). -/
def execFset (y : Sym) (n : Word) (s : State) : Out := inPhase .idle (fun s => .ok 0#64 (setFreq y n s)) s

end Sys2Proof.Machine
end

