-- ==== Sys2Proof/Machine/System.lean ====
section
/-! DEFINITION. `NOP`, `RST` and the read commands (40_system_and_read.md R130 to R136): legal in every phase, `ERR`
included. -/

namespace Sys2Proof.Machine

/-- `NOP` (R130). -/
def execNop (s : State) : Out := .next (respond true 0#64 s)

/-- `RST` (R131): `SinkClose()` if the sink is open, then every item of the core's state to its reset value. -/
def execRst (s : State) : Out := .next (respond true 0#64 (resetCore (releaseSink s)))

/-- `RDREG r` (R132). -/
def execRdreg (r : BitVec 9) (s : State) : Out := readItem (regValue s r) s

/-- `RDTAB.F sym` (R133). -/
def execRdtabF (y : Sym) (s : State) : Out := readItem (some (freqOf s y)) s

/-- `RDTAB.L sym` (R133). -/
def execRdtabL (y : Sym) (s : State) : Out := readItem (some ((clenOf s y).setWidth 64)) s

/-- `RDTAB.B0 sym` (R134). -/
def execRdtabB0 (y : Sym) (s : State) : Out := readItem (some (cbitsWord s y 0)) s

/-- `RDTAB.B1 sym` (R134). -/
def execRdtabB1 (y : Sym) (s : State) : Out := readItem (some (cbitsWord s y 1)) s

/-- `RDTAB.B2 sym` (R134). -/
def execRdtabB2 (y : Sym) (s : State) : Out := readItem (some (cbitsWord s y 2)) s

/-- `RDTAB.B3 sym` (R134). -/
def execRdtabB3 (y : Sym) (s : State) : Out := readItem (some (cbitsWord s y 3)) s

/-- `RDNODE.L idx` (R135). -/
def execRdnodeL (idx : BitVec 9) (s : State) : Out := readItem ((nodeOperand s idx).map linkWord) s

/-- `RDNODE.F idx` (R135). -/
def execRdnodeF (idx : BitVec 9) (s : State) : Out := readItem ((nodeOperand s idx).map freqWord) s

end Sys2Proof.Machine
end

