-- ==== Sys2Proof/Machine/Dispatch.lean ====
section
/-! DEFINITION. The meaning of every command: one arm per constructor of Instr (30_encoding.md R96). -/

namespace Sys2Proof.Machine

def exec (i : Instr) (s : State) : Host.Outcome State Fault Refusal :=
  match i with
  | .nop => Sys2Proof.Machine.execNop s
  | .rst => Sys2Proof.Machine.execRst s
  | .finc y => Sys2Proof.Machine.execFinc y s
  | .fset y n => Sys2Proof.Machine.execFset y n s
  | .build => Sys2Proof.Machine.execBuild s
  | .gen => Sys2Proof.Machine.execGen s
  | .hdrw => Sys2Proof.Machine.execHdrw s
  | .enc y => Sys2Proof.Machine.execEnc y s
  | .close => Sys2Proof.Machine.execClose s
  | .hdrr => Sys2Proof.Machine.execHdrr s
  | .recon => Sys2Proof.Machine.execRecon s
  | .dstep => Sys2Proof.Machine.execDstep s
  | .drun => Sys2Proof.Machine.execDrun s
  | .rdreg r => Sys2Proof.Machine.execRdreg r s
  | .rdtabF y => Sys2Proof.Machine.execRdtabF y s
  | .rdtabL y => Sys2Proof.Machine.execRdtabL y s
  | .rdtabB0 y => Sys2Proof.Machine.execRdtabB0 y s
  | .rdtabB1 y => Sys2Proof.Machine.execRdtabB1 y s
  | .rdtabB2 y => Sys2Proof.Machine.execRdtabB2 y s
  | .rdtabB3 y => Sys2Proof.Machine.execRdtabB3 y s
  | .rdnodeL idx => Sys2Proof.Machine.execRdnodeL idx s
  | .rdnodeF idx => Sys2Proof.Machine.execRdnodeF idx s

end Sys2Proof.Machine
end

