-- ==== Sys2Proof/Machine/Fetch.lean ====
section
/-! DEFINITION. What the block does with one act of the host: take a command from the command port (30_encoding.md R90,
R91, R99, R100), hardware reset (70_reset_and_hazards.md R320, R321), the binding of a stream (R323, R330). -/

namespace Sys2Proof.Machine

/-- A command on the port: an illegal word is refused before anything else is looked at but phase `ERR` (R100). -/
def runCommand (c : Command) (s : State) : Out :=
  match decode c with
  | .ok i => exec i s
  | .error _ => .next (illegalWord s)

/-- Hardware reset: the core's state at its reset values, no port access (R320, R321). -/
def hardReset (s : State) : State := resetCore s

/-- A decoding run owns the source from `HDRR` to its end (R330; log 7). -/
def sourceInUse (s : State) : Bool := decide (s.phase = .hdr ∨ s.phase = .dec)

/-- A run owns the sink from the command that opens it to its end (R330; log 7). -/
def sinkInUse (s : State) : Bool := decide (s.phase = .enc ∨ s.phase = .dec)

/-- The host binds a source at its first byte (R323 (3), R61). -/
def bindSource (bytes : List Byte) (fails : List Bool) (s : State) : Out :=
  if sourceInUse s then .refused .sourceInUse
  else .next { s with src := bytes, spos := 0, srcFail := fails }

/-- The host binds an empty, open sink (R323 (2), R61). -/
def bindSink (fails : List Bool) (s : State) : Out :=
  if sinkInUse s then .refused .sinkInUse
  else .next { s with sink := [], sinkClosed := false, sinkFail := fails }

/-- One act of the host, already taken from the list. -/
def runAct (a : HostAct) (s : State) : Out :=
  match a with
  | .command c => runCommand c s
  | .hardReset => .next (hardReset s)
  | .bindSource bytes fails => bindSource bytes fails s
  | .bindSink fails => bindSink fails s

/-- The host presents command `c` before anything else it was going to do. -/
def present (c : Command) (s : State) : State := { s with host := .command c :: s.host }

end Sys2Proof.Machine
end

