-- ==== Sys2Proof/Machine/Step.lean ====
section
/-! DEFINITION. One step: the host's next act. With none left the core is idle and holds its state (60_exceptions.md
R315, 70_reset_and_hazards.md R322; log 2). -/

namespace Sys2Proof.Machine

/-- One step of the machine: one command executed to completion (30_encoding.md R91), or another act of the host. -/
def step (s : State) : Host.Outcome State Fault Refusal :=
  match s.host with
  | [] => .next s
  | a :: rest => runAct a { s with host := rest }

/-- `s` with the instruction of the opcode table whose bits are `w` presented on the command port, so that the next step
runs exactly it (log 1, log 9). -/
def State.withFetchWord (s : State) (nbits w : Nat) : State := present (commandOfBits nbits w) s

end Sys2Proof.Machine
end

