-- ==== Sys2Proof/Safety.lean ====
section
/-! DEFINITION. What counts as a safe run, in the terms the statements use: the spec's own tables as data (10_state.md R45,
47_flows.md R260), the facts that hold in each phase (10_state.md R22 to R35, R47) gathered in one invariant, the paths of
a tree, and the bit sequences of the two streams (00_scope.md R9). -/

namespace Sys2Proof.Machine

/-! ### Responses -/

/-- The command answered `ok = 1` with value `v` (30_encoding.md R92). -/
def answeredOk (s t : State) (v : Word) : Prop := t.responses = s.responses ++ [⟨true, v⟩]

/-- The command answered `ok = 0`, `RDATA = 0`: it raised a fault or was ignored (30_encoding.md R92). -/
def answeredFail (s t : State) : Prop := t.responses = s.responses ++ [⟨false, 0#64⟩]

/-- The state after a command that raised in state `s`, written out: the fault is recorded, the sink closed if it was open, the
command answered `ok = 0` (60_exceptions.md R296). -/
def faulted (kind : ErrKind) (info : Byte) (s : State) : State :=
  { s with
    ePhase := s.phase
    err := kind
    errInfo := info
    sinkClosed := s.sinkClosed || s.sinkOpen
    sinkOpen := false
    phase := .err
    responses := s.responses ++ [⟨false, 0#64⟩] }

/-- The table of the sub-codes: the kind and the value of `ERRINFO` of each (60_exceptions.md R291). -/
def subCodeTable : List (SubCode × ErrKind × Nat) :=
  [(.sinkWrite, .ioError, 0x01), (.srcRead, .ioError, 0x02), (.hdrEos, .corruptHeader, 0x10),
    (.hdrTotal0, .corruptHeader, 0x11), (.hdrNrec, .corruptHeader, 0x12), (.hdrOrder, .corruptHeader, 0x13),
    (.hdrLen, .corruptHeader, 0x14), (.hdrPad, .corruptHeader, 0x15), (.hdrPrefix, .corruptHeader, 0x16),
    (.hdrNodes, .corruptHeader, 0x17), (.empty, .emptyInput, 0x20), (.badCmd, .internalInvariant, 0x30),
    (.badPhase, .internalInvariant, 0x31), (.freqOvf, .internalInvariant, 0x32), (.noCode, .internalInvariant, 0x33),
    (.count, .internalInvariant, 0x34), (.bodyEos, .internalInvariant, 0x35), (.walkNil, .internalInvariant, 0x36)]

/-! ### The environment's premise that port accesses do not fail (20_memory.md R61, 47_flows.md R267) -/

/-- None of the next `n` accesses that take their draws from `l` fails. -/
def passes (n : Nat) (l : List Bool) : Prop := ∀ b ∈ l.take n, b = false

/-! ### Illegal command words (30_encoding.md R98) -/

/-- The condition of each case of the table of illegal words (R98), on the bits of `CMD`. -/
def illegalCase : Illegal → CmdWord → Prop
  | .i1, w => (w.extractLsb' 12 4).toNat ∈ [0x0, 0x1, 0x4, 0x5, 0x6, 0x8, 0x9, 0xA, 0xB, 0xC] ∧ w.extractLsb' 0 12 ≠ 0#12
  | .i2, w => (w.extractLsb' 12 4).toNat ∈ [0x2, 0x3, 0x7] ∧ w.extractLsb' 8 4 ≠ 0#4
  | .i3, w => w.extractLsb' 12 4 = 0xD#4 ∧ w.extractLsb' 9 3 ≠ 0#3
  | .i4, w => w.extractLsb' 12 4 = 0xD#4 ∧ w.extractLsb' 9 3 = 0#3 ∧ 4 < (w.extractLsb' 0 9).toNat
  | .i5, w => w.extractLsb' 12 4 = 0xE#4 ∧ 6 ≤ (w.extractLsb' 9 3).toNat
  | .i6, w => w.extractLsb' 12 4 = 0xE#4 ∧ (w.extractLsb' 9 3).toNat < 6 ∧ w.getLsbD 8 = true
  | .i7, w => w.extractLsb' 12 4 = 0xF#4 ∧ 2 ≤ (w.extractLsb' 9 3).toNat
  | .i8, w => w.extractLsb' 12 4 = 0xF#4 ∧ (w.extractLsb' 9 3).toNat < 2 ∧ w.extractLsb' 0 9 = 511#9

/-! ### Reset (10_state.md R46) -/

/-- Every item of the core's state has the value of the table of R46. -/
structure CoreIsReset (s : State) : Prop where
  phase : s.phase = .idle
  err : s.err = .noError
  errInfo : s.errInfo = 0#8
  ePhase : s.ePhase = .idle
  freq : ∀ y, freqOf s y = 0#64
  total : s.total = 0#64
  scnt : s.scnt = 0#64
  clen : ∀ y, clenOf s y = 0#8
  cbits : ∀ y, cbitsOf s y = 0#256
  node : ∀ i, nodeAt s i = { tag := .int, sym := 0#8, freq := 0#64, left := none, right := none }
  ncnt : s.ncnt = 0#9
  root : s.root = none
  cur : s.cur = none
  wacc : s.wacc = 0#8
  wcnt : s.wcnt = 0#3
  rbuf : s.rbuf = 0#8
  rcnt : s.rcnt = 0
  sinkOpen : s.sinkOpen = false

/-! ### The access matrix (10_state.md R45) -/

/-- The items of state a command can write. `source` is the position in the source with its draws, `sinkStream` the
accepted bytes with their draws. `SRC` and the host's further acts are no command's to change (R61, R44). -/
inductive Item where
  | phase
  | errRecord
  | freq
  | total
  | scnt
  | codeTable
  | node
  | ncnt
  | root
  | cur
  | writer
  | reader
  | sinkOpen
  | sinkClosed
  | source
  | sinkStream
  | hostSide
  deriving DecidableEq, Repr

/-- The item is the same in both states. -/
def sameItem : Item → State → State → Prop
  | .phase, s, t => t.phase = s.phase
  | .errRecord, s, t => t.err = s.err ∧ t.errInfo = s.errInfo ∧ t.ePhase = s.ePhase
  | .freq, s, t => t.freq = s.freq
  | .total, s, t => t.total = s.total
  | .scnt, s, t => t.scnt = s.scnt
  | .codeTable, s, t => t.clen = s.clen ∧ t.cbits = s.cbits
  | .node, s, t => t.node = s.node
  | .ncnt, s, t => t.ncnt = s.ncnt
  | .root, s, t => t.root = s.root
  | .cur, s, t => t.cur = s.cur
  | .writer, s, t => t.wacc = s.wacc ∧ t.wcnt = s.wcnt
  | .reader, s, t => t.rbuf = s.rbuf ∧ t.rcnt = s.rcnt
  | .sinkOpen, s, t => t.sinkOpen = s.sinkOpen
  | .sinkClosed, s, t => t.sinkClosed = s.sinkClosed
  | .source, s, t => t.spos = s.spos ∧ t.srcFail = s.srcFail
  | .sinkStream, s, t => t.sink = s.sink ∧ t.sinkFail = s.sinkFail
  | .hostSide, s, t => t.src = s.src ∧ t.host = s.host

/-- Column "writes" of the access matrix (R45). -/
def writes : Instr → List Item
  | .nop => []
  | .rst =>
    [.phase, .errRecord, .freq, .total, .scnt, .codeTable, .node, .ncnt, .root, .cur, .writer, .reader, .sinkOpen,
      .sinkClosed]
  | .finc _ => [.freq]
  | .fset _ _ => [.freq]
  | .build => [.node, .ncnt, .root, .total, .phase]
  | .gen => [.codeTable, .phase]
  | .hdrw => [.sinkOpen, .writer, .scnt, .phase, .sinkStream]
  | .enc _ => [.writer, .scnt, .sinkStream]
  | .close => [.writer, .sinkOpen, .phase, .sinkStream, .sinkClosed]
  | .hdrr => [.total, .codeTable, .phase, .source]
  | .recon => [.node, .ncnt, .root, .cur, .scnt, .reader, .sinkOpen, .phase]
  | .dstep => [.cur, .reader, .scnt, .sinkOpen, .phase, .source, .sinkStream, .sinkClosed]
  | .drun => [.cur, .reader, .scnt, .sinkOpen, .phase, .source, .sinkStream, .sinkClosed]
  | .rdreg _ => []
  | .rdtabF _ => []
  | .rdtabL _ => []
  | .rdtabB0 _ => []
  | .rdtabB1 _ => []
  | .rdtabB2 _ => []
  | .rdtabB3 _ => []
  | .rdnodeL _ => []
  | .rdnodeF _ => []

/-- What a fault writes besides (R45, 60_exceptions.md R296). -/
def faultWrites : List Item := [.phase, .errRecord, .sinkOpen, .sinkClosed]

/-- The commands that answer a value: the reads (40_system_and_read.md R136). -/
def isRead : Instr → Bool
  | .nop => false
  | .rst => false
  | .finc _ => false
  | .fset _ _ => false
  | .build => false
  | .gen => false
  | .hdrw => false
  | .enc _ => false
  | .close => false
  | .hdrr => false
  | .recon => false
  | .dstep => false
  | .drun => false
  | .rdreg _ => true
  | .rdtabF _ => true
  | .rdtabL _ => true
  | .rdtabB0 _ => true
  | .rdtabB1 _ => true
  | .rdtabB2 _ => true
  | .rdtabB3 _ => true
  | .rdnodeL _ => true
  | .rdnodeF _ => true

/-! ### The phase table (47_flows.md R260) -/

/-- A cell of the phase table. -/
inductive Cell where
  /-- legal; on success the command leaves one of these phases -/
  | to (ps : List Phase)
  /-- a blank cell: `BAD_PHASE` -/
  | blank
  /-- `ign`: the command is ignored -/
  | ignored
  deriving DecidableEq, Repr

/-- The row of a command that is legal in the one phase `p`, where it leads to one of `ps`. -/
def cellOnly (p : Phase) (ps : List Phase) (q : Phase) : Cell :=
  if q = .err then .ignored else if q = p then .to ps else .blank

/-- The phase table, row by row (R260). -/
def phaseCell (i : Instr) (q : Phase) : Cell :=
  match i with
  | .nop => .to [q]
  | .rst => .to [.idle]
  | .finc _ => cellOnly .idle [.idle] q
  | .fset _ _ => cellOnly .idle [.idle] q
  | .build => cellOnly .idle [.tree] q
  | .gen => cellOnly .tree [.codes] q
  | .hdrw => cellOnly .codes [.enc] q
  | .enc _ => cellOnly .enc [.enc] q
  | .close => cellOnly .enc [.done] q
  | .hdrr => cellOnly .idle [.hdr] q
  | .recon => cellOnly .hdr [.dec] q
  | .dstep => cellOnly .dec [.dec, .done] q
  | .drun => cellOnly .dec [.dec, .done] q
  | .rdreg _ => .to [q]
  | .rdtabF _ => .to [q]
  | .rdtabL _ => .to [q]
  | .rdtabB0 _ => .to [q]
  | .rdtabB1 _ => .to [q]
  | .rdtabB2 _ => .to [q]
  | .rdtabB3 _ => .to [q]
  | .rdnodeL _ => .to [q]
  | .rdnodeF _ => .to [q]

/-! ### The merges of the builder (43_tree_builder.md R183, R184) -/

/-- The pair (frequency, index) of node `a` is below that of node `b` in lexicographic order (R183). -/
def lowerPair (s : State) (a b : NodeIdx) : Prop :=
  (nodeAt s a).freq.toNat < (nodeAt s b).freq.toNat ∨
    ((nodeAt s a).freq.toNat = (nodeAt s b).freq.toNat ∧ a.val < b.val)

/-- Node `j` is one of the nodes before `i` and is no child of a node before `i`: a member of the queue when node `i` is made
(R184). -/
def isRootBelow (s : State) (i j : NodeIdx) : Prop :=
  j.val < i.val ∧ ∀ k : NodeIdx, k.val < i.val → (nodeAt s k).left ≠ some j ∧ (nodeAt s k).right ≠ some j

/-! ### Paths in the tree, and codes (44_code_table.md R201, 10_state.md R28) -/

/-- The node reached from `i` by the choices `p` (0 left, 1 right), descending from internal nodes only. -/
def follow (s : State) : NodeIdx → List Bool → Option NodeIdx
  | i, [] => some i
  | i, b :: p =>
    if (nodeAt s i).tag = .leaf then none
    else match child (nodeAt s i) b with
      | none => none
      | some j => follow s j p

/-- The path `p` from node `r` ends on the leaf of symbol `y`. -/
def leafPath (s : State) (r : NodeIdx) (p : List Bool) (y : Sym) : Prop :=
  ∃ j, follow s r p = some j ∧ (nodeAt s j).tag = .leaf ∧ (nodeAt s j).sym = y

/-- The cost of giving each symbol a code of `len` bits: the sum over the symbols of frequency times code length, which is the
body length in bits (43_tree_builder.md R189, 44_code_table.md R203 (d)). -/
def bodyBits (s : State) (len : Sym → Nat) : Nat := (allSyms.map fun y => (freqOf s y).toNat * len y).sum

/-- `c` is a binary prefix code for the present symbols, of non-empty words where there is only one (R189). -/
structure IsPrefixCode (s : State) (c : Sym → List Bool) : Prop where
  apart : ∀ y z, y ≠ z → freqOf s y ≠ 0#64 → freqOf s z ≠ 0#64 → ¬ (c y <+: c z)
  word : (presentSyms s).length = 1 → ∀ y, freqOf s y ≠ 0#64 → c y ≠ []

/-- The code lengths `len` are minimal: no prefix code for the present symbols costs less (R189). -/
def minimalCost (s : State) (len : Sym → Nat) : Prop :=
  ∀ c, IsPrefixCode s c → bodyBits s len ≤ bodyBits s fun y => (c y).length

/-- There is a root, and no path from it is longer than `CODE_MAX` (44_code_table.md R204). -/
def walkFits (s : State) : Prop :=
  ∃ r, s.root = some r ∧ ∀ p j, follow s r p = some j → p.length ≤ Config.codeMax

/-- No code is a prefix of another symbol's code (10_state.md R28). -/
def prefixFree (s : State) : Prop :=
  ∀ y z, y ≠ z → clenOf s y ≠ 0#8 → clenOf s z ≠ 0#8 → ¬ (codeOf s y <+: codeOf s z)

/-- The distinct prefixes of the codes, the empty one included: the nodes a tree of the codes needs (46_decoder.md R237). -/
def codePrefixes (s : State) : List (List Bool) := ((codedSyms s).flatMap fun y => (codeOf s y).inits).dedup

/-- All bits of `CBITS[y]` below the code are 0, for every symbol (10_state.md R27). -/
def codesPadded (s : State) : Prop := ∀ y i, i < 256 - (clenOf s y).toNat → (cbitsOf s y).getLsbD i = false

/-! ### Bit sequences of the streams (00_scope.md R9, 20_memory.md R66) -/

/-- The bits of a byte, most significant first. -/
def bitsOfByte (b : Byte) : List Bool := (List.range 8).map fun i => b.getLsbD (7 - i)

/-- The bits of a byte sequence in stream order. -/
def bitsOfBytes (bs : List Byte) : List Bool := bs.flatMap bitsOfByte

/-- The whole bytes of a bit sequence, eight bits each, most significant first; what is left over makes no byte. -/
def wholeBytes : List Bool → List Byte
  | b0 :: b1 :: b2 :: b3 :: b4 :: b5 :: b6 :: b7 :: rest =>
    BitVec.ofNat 8 ([b0, b1, b2, b3, b4, b5, b6, b7].foldl (fun n b => 2 * n + b.toNat) 0) :: wholeBytes rest
  | _ => []

/-- The bits the BitWriter holds, first written first (10_state.md R33). -/
def pendingBits (s : State) : List Bool := (List.range s.wcnt.toNat).map fun i => s.wacc.getLsbD (7 - i)

/-- The bits `read_bit` has still to deliver: the buffer's, then the source's (10_state.md R34, 20_memory.md R66). -/
def unreadBits (s : State) : List Bool :=
  ((List.range s.rcnt.val).map fun i => s.rbuf.getLsbD (s.rcnt.val - 1 - i)) ++ bitsOfBytes (s.src.drop s.spos)

/-- How many bytes the BitReader takes from the source to deliver `n` bits: those its buffer does not hold (41_bit_io.md R154). -/
def bytesNeeded (s : State) (n : Nat) : Nat := (n - s.rcnt.val + 7) / 8

/-- The bits of `WACC` below the pending ones are 0 (10_state.md R33). -/
def lowBitsZero (s : State) : Prop := ∀ i, i < 8 - s.wcnt.toNat → s.wacc.getLsbD i = false

/-! ### Header records (30_encoding.md R114, 46_decoder.md R230, R232) -/

/-- The bytes of one header record: `sym`, the two bytes of `len`, the packed code bits (R114). -/
structure HdrRecord where
  sym : Byte
  lenHigh : Byte
  lenLow : Byte
  code : List Byte
  deriving DecidableEq, Repr

/-- The record in stream order. -/
def HdrRecord.bytes (r : HdrRecord) : List Byte := r.sym :: r.lenHigh :: r.lenLow :: r.code

/-- `len`, most significant byte first. -/
def HdrRecord.len (r : HdrRecord) : Nat := beNat [r.lenHigh, r.lenLow]

/-- `len` is 1 to 255, its code bytes are all there, and the bits after the `len`-th are 0 (R232). -/
def HdrRecord.good (r : HdrRecord) : Prop :=
  1 ≤ r.len ∧ r.len ≤ 255 ∧ r.code.length = (r.len + 7) / 8 ∧ ∀ b ∈ (bitsOfBytes r.code).drop r.len, b = false

/-- Good records in strictly ascending order of their symbols (R232). -/
def goodRecords (rs : List HdrRecord) : Prop :=
  (∀ r ∈ rs, r.good) ∧ rs.Pairwise fun r r' => r.sym.toNat < r'.sym.toNat

/-- The CodeTable of `u` has the code of each of the records, padded with zeros, and is that of `s` elsewhere (R230). -/
def holdsRecords (rs : List HdrRecord) (s u : State) : Prop :=
  (∀ r ∈ rs, (clenOf u r.sym).toNat = r.len ∧ codeOf u r.sym = (bitsOfBytes r.code).take r.len ∧
    ∀ i, i < 256 - r.len → (cbitsOf u r.sym).getLsbD i = false) ∧
  ∀ y, (∀ r ∈ rs, r.sym ≠ y) → clenOf u y = clenOf s y ∧ cbitsOf u y = cbitsOf s y

/-- `HDRR` from `s` has read `n` bytes, `H_TOTAL` among them, and has written `TOTAL` and the CodeTable, nothing else. -/
def readTo (s : State) (total n : Nat) (u : State) : Prop :=
  u = { s with total := u.total, clen := u.clen, cbits := u.cbits, spos := s.spos + n, srcFail := s.srcFail.drop n } ∧
    u.total.toNat = total

/-! ### The invariant of every run -/

/-- `ERR`, `ERRINFO`, `EPHASE` record the first fault, and are 0 when there is none (10_state.md R22). -/
def errRecorded (s : State) : Prop :=
  (s.phase ≠ .err → s.err = .noError ∧ s.errInfo = 0#8 ∧ s.ePhase = .idle) ∧
  (s.phase = .err → s.ePhase ≠ .err ∧ ∃ c, s.err = subCodeKind c ∧ s.errInfo = subCodeBits c)

/-- `SINK_OPEN` is 1 exactly while a run has its sink (10_state.md R35, R47). -/
def sinkFlag (s : State) : Prop := s.sinkOpen = true ↔ (s.phase = .enc ∨ s.phase = .dec)

/-- The symbol counters in each phase (10_state.md R24, R25). -/
def countersOk (s : State) : Prop :=
  (s.phase ≠ .idle → s.phase ≠ .err → s.total ≠ 0#64) ∧
  (s.phase = .enc → s.scnt.toNat ≤ s.total.toNat) ∧
  (s.phase = .dec → s.scnt.toNat < s.total.toNat) ∧
  (s.phase = .done → s.scnt = s.total)

/-- The BitWriter in each phase (10_state.md R33, read with 60_exceptions.md R296: log 11). -/
def writerOk (s : State) : Prop :=
  (s.phase ≠ .err → lowBitsZero s) ∧
  (s.phase ≠ .enc → ¬ (s.phase = .err ∧ s.ePhase = .enc) → s.wacc = 0#8 ∧ s.wcnt = 0#3)

/-- The BitReader in each phase (10_state.md R34). -/
def readerOk (s : State) : Prop :=
  s.phase ≠ .dec → s.phase ≠ .done → ¬ (s.phase = .err ∧ (s.ePhase = .dec ∨ s.ePhase = .done)) →
    s.rbuf = 0#8 ∧ s.rcnt = 0

/-- Entries from `NCNT` up hold the free pattern (10_state.md R30). -/
def freeAbove (s : State) : Prop := ∀ i : NodeIdx, s.ncnt.toNat ≤ i.val → nodeAt s i = Node.free

/-- No tree exists in phases `IDLE` and `HDR` (10_state.md R31, R47). -/
def noTreeYet (s : State) : Prop :=
  (s.phase = .idle ∨ s.phase = .hdr) → s.root = none ∧ s.cur = none ∧ s.ncnt = 0#9

/-- No code exists before `GEN` or `HDRR` (10_state.md R26, R47). -/
def noCodesYet (s : State) : Prop := (s.phase = .idle ∨ s.phase = .tree) → ∀ y, clenOf s y = 0#8

/-- The prefix-code invariant, in the phases where it holds (10_state.md R28). -/
def prefixCode (s : State) : Prop :=
  (s.phase = .codes ∨ s.phase = .enc ∨ s.phase = .dec ∨ s.phase = .done) → prefixFree s

/-- In phase `DEC` the root and the cursor are internal nodes (10_state.md R31, R47). -/
def cursorOk (s : State) : Prop :=
  s.phase = .dec → ∃ r c, s.root = some r ∧ s.cur = some c ∧ (nodeAt s r).tag = .int ∧ (nodeAt s c).tag = .int

/-- What holds in every state of every run (10_state.md R22 to R35 and R47; 20_memory.md R61). -/
structure Inv (s : State) : Prop where
  errRecorded : errRecorded s
  sinkFlag : sinkFlag s
  countersOk : countersOk s
  writerOk : writerOk s
  readerOk : readerOk s
  codesPadded : codesPadded s
  freeAbove : freeAbove s
  noTreeYet : noTreeYet s
  noCodesYet : noCodesYet s
  treeWalks : s.phase = .tree → walkFits s
  prefixCode : prefixCode s
  cursorOk : cursorOk s
  position : s.spos ≤ s.src.length

/-- The machine answers: it neither stops nor refuses. -/
def runsOn (o : Out) : Prop := ∃ t, o = .next t

/-- The host rebinds a stream that the core owns, to which the spec gives no meaning (70_reset_and_hazards.md R330). -/
def rebinds (s : State) : Prop :=
  (∃ bytes fails rest, s.host = .bindSource bytes fails :: rest ∧ sourceInUse s = true) ∨
  (∃ fails rest, s.host = .bindSink fails :: rest ∧ sinkInUse s = true)

end Sys2Proof.Machine
end

