-- ==== Sys2Proof/Certificates/Slice0/Obligations.lean ====
section
/-! DEFINITION. The statements about HUFFCORE, from the numbered rules of spec/. Each docstring names the rule or section it
formalises. -/

open Sys2Proof Sys2Proof.Machine

/-! ### Encoding (30_encoding.md Part A) -/

/-- Decoding the command that stands for a well-formed instruction gives the instruction back, with every operand. -/
def Obligations.DecodeOfEncodeIsTheInstruction : Prop :=
  ∀ i : Instr, i.wellFormed = true → decode (encode i) = .ok i

/-- A legal word stands for exactly one instruction, which is well formed and whose word it is; `FSET` carries `WDATA`. -/
def Obligations.EncodeOfDecodeIsTheWord : Prop :=
  ∀ (c : Command) (i : Instr), decode c = .ok i →
    i.wellFormed = true ∧ (encode i).cmd = c.cmd ∧ ∀ y n, i = .fset y n → n = c.wdata

/-- A word is rejected exactly in the eight cases I1 to I8, and under the name of its case (section A.3). -/
def Obligations.IllegalWordsAreTheEightCases : Prop :=
  ∀ (c : Command) (k : Illegal), decode c = .error k ↔ illegalCase k c.cmd

/-- Words the spec writes out decode to the commands it names (sections A.2 and A.4; 95_test_vectors.md V12, V15). -/
def Obligations.WrittenWordsDecode : Prop :=
  decode ⟨0x3041#16, 5#64⟩ = .ok (.fset 0x41#8 5#64) ∧ decode ⟨0x7042#16, 9#64⟩ = .ok (.enc 0x42#8) ∧
  decode ⟨0xD000#16, 0#64⟩ = .ok (.rdreg 0#9) ∧ decode ⟨0xE241#16, 0#64⟩ = .ok (.rdtabL 0x41#8) ∧
  decode ⟨0xEA43#16, 0#64⟩ = .ok (.rdtabB3 0x43#8) ∧ decode ⟨0xF206#16, 0#64⟩ = .ok (.rdnodeF 6#9) ∧
  decode ⟨0xB000#16, 0#64⟩ = .ok .dstep ∧ decode ⟨0x2141#16, 0#64⟩ = .error .i2

/-! ### The step, the command port and faults -/

/-- A step whose next host act is a legal command runs that command, taken from the port, and nothing else: "The host presents
one command; the core accepts it, executes it to completion" (R91). That the host's commands stand in a list of acts whose head
a step takes is the model's choice (log 1). -/
def Obligations.StepRunsTheDecodedCommand : Prop :=
  ∀ (s : State) (c : Command) (i : Instr) (rest : List HostAct), s.host = .command c :: rest → decode c = .ok i →
    step s = exec i { s with host := rest }

/-- R292: an illegal word raises `BAD_CMD` in any phase but `ERR` (where it is ignored, R298). -/
def Obligations.IllegalWordRaisesBadCmd : Prop :=
  ∀ (s : State) (c : Command) (k : Illegal) (rest : List HostAct), s.host = .command c :: rest → decode c = .error k →
    (s.phase ≠ .err → step s = .next (raiseFault .badCmd { s with host := rest })) ∧
    (s.phase = .err → step s =
      .next { s with host := rest, responses := s.responses ++ [⟨false, 0#64⟩] })

/-- R296: the fault entry sequence, and nothing but it. The kind and the number of every sub-code are those of the table of
section 1 (R291), the kinds' numbers those of R290, and the sub-code's high nibble is `ERR - 1`. -/
def Obligations.FaultEntrySequence : Prop :=
  (∀ c : SubCode, (c, subCodeKind c, (subCodeBits c).toNat) ∈ subCodeTable) ∧
  [ErrKind.noError, .ioError, .corruptHeader, .emptyInput, .internalInvariant].map (fun k => (errBits k).toNat) =
    [0, 1, 2, 3, 4] ∧
  ∀ (c : SubCode) (s : State),
    raiseFault c s =
      { s with
        ePhase := s.phase
        err := subCodeKind c
        errInfo := subCodeBits c
        sinkClosed := s.sinkClosed || s.sinkOpen
        sinkOpen := false
        phase := .err
        responses := s.responses ++ [⟨false, 0#64⟩] } ∧
    (subCodeBits c).toNat / 16 + 1 = (errBits (subCodeKind c)).toNat

/-- R260: the phase table. A blank cell raises `BAD_PHASE`, `ign` ignores; in a legal cell `BAD_PHASE` is not raised and a
success leaves in a phase of the cell; any other answer leaves in `ERR`. (A term that no command word stands for, log 10, is
ignored in `ERR` as an illegal word; the clause on `BAD_PHASE` takes it in everywhere else.) -/
def Obligations.PhaseTable : Prop :=
  ∀ (i : Instr) (s : State),
    (phaseCell i s.phase = .blank → exec i s = .next (raiseFault .badPhase s)) ∧
    (phaseCell i s.phase = .ignored → exec i s = .next (ignore s)) ∧
    (∀ ps u, phaseCell i s.phase = .to ps → (i.wellFormed = true ∨ s.phase ≠ .err) →
      exec i s ≠ .next (raiseFault .badPhase u)) ∧
    (∀ ps t v, phaseCell i s.phase = .to ps → exec i s = .next t → answeredOk s t v → t.phase ∈ ps) ∧
    (∀ t, exec i s = .next t → answeredFail s t → t.phase = .err)

/-- R298: in phase `ERR` `NOP` and the reads execute, `RST` leaves, everything else is ignored; but for `RST` no command
changes any state. -/
def Obligations.ErrPhaseIgnoresAllButReadsAndReset : Prop :=
  ∀ (s : State) (c : Command) (rest : List HostAct), s.phase = .err → s.host = .command c :: rest →
    (decode c = .ok .rst → ∃ t, step s = .next t ∧ t.phase = .idle ∧ answeredOk s t 0#64) ∧
    (∀ i, decode c = .ok i → (i = .nop ∨ isRead i = true) →
      ∃ v, step s = .next { s with host := rest, responses := s.responses ++ [⟨true, v⟩] }) ∧
    ((∀ i, decode c = .ok i → i ≠ .rst ∧ i ≠ .nop ∧ isRead i = false) →
      step s = .next { s with host := rest, responses := s.responses ++ [⟨false, 0#64⟩] })

/-- R301: only `RST` and hardware reset leave `ERR`, and both re-initialise everything. -/
def Obligations.OnlyResetLeavesErr : Prop :=
  ∀ (s t : State) (a : HostAct) (rest : List HostAct), s.phase = .err → s.host = a :: rest → step s = .next t →
    t.phase ≠ .err → (a = .hardReset ∨ ∃ w, a = .command ⟨0x1000#16, w⟩) ∧ CoreIsReset t

/-- A command gives exactly one response; a value other than 0 comes only from a read that answers `ok`; `ok = 0` is given
only in phase `ERR` (30_encoding.md, the command port). -/
def Obligations.EveryCommandAnswersOnce : Prop :=
  ∀ (i : Instr) (s t : State), exec i s = .next t →
    ∃ ok v, t.responses = s.responses ++ [⟨ok, v⟩] ∧ (v ≠ 0#64 → ok = true ∧ isRead i = true) ∧
      (ok = false → t.phase = .err)

/-- The access matrix (10_state.md section 10): a command writes nothing that is not listed for it, except that a command
that does not answer `ok` may also write what the fault entry writes. -/
def Obligations.AccessMatrix : Prop :=
  ∀ (i : Instr) (s t : State) (x : Item), exec i s = .next t → x ∉ writes i →
    (x ∈ faultWrites → ∃ v, answeredOk s t v) → sameItem x s t

/-- R46 and R320: hardware reset and `RST` give every item of the core its reset value and leave the environment; `RST`
first closes an open sink and answers. `State.reset` has those values. -/
def Obligations.ResetsGiveTheResetValues : Prop :=
  CoreIsReset State.reset ∧
  (∀ s rest, s.host = .hardReset :: rest →
    ∃ t, step s = .next t ∧ CoreIsReset t ∧ t.src = s.src ∧ t.spos = s.spos ∧ t.sink = s.sink ∧
      t.sinkClosed = s.sinkClosed ∧ t.srcFail = s.srcFail ∧ t.sinkFail = s.sinkFail ∧ t.host = rest ∧
      t.responses = s.responses) ∧
  (∀ s, ∃ t, exec .rst s = .next t ∧ CoreIsReset t ∧ t.src = s.src ∧ t.spos = s.spos ∧ t.sink = s.sink ∧
    t.sinkClosed = (s.sinkClosed || s.sinkOpen) ∧ t.srcFail = s.srcFail ∧ t.sinkFail = s.sinkFail ∧ t.host = s.host ∧
    answeredOk s t 0#64)

/-- After reset the core is in phase `IDLE` (70_reset_and_hazards.md section 1), and with no act of the host it does nothing, in
any state: "Between commands the core is idle and holds its state" (60_exceptions.md R315). That such a step answers the same
state is the model's reading (log 2), and that the list of acts is empty at reset is its choice (log 1). -/
def Obligations.NothingRunsWithoutACommand : Prop :=
  State.reset.phase = .idle ∧ State.reset.host = [] ∧ ∀ s : State, s.host = [] → step s = .next s

/-- The host binds a stream while the core does not own it, and has no move while it does: the model's reading of
70_reset_and_hazards.md sections 2 and 3 (log 7). -/
def Obligations.StreamsAreBoundOnlyBetweenRuns : Prop :=
  ∀ (s : State) (rest : List HostAct),
    (∀ bytes fails, s.host = .bindSource bytes fails :: rest →
      (s.phase ≠ .hdr → s.phase ≠ .dec →
        step s = .next { s with host := rest, src := bytes, spos := 0, srcFail := fails }) ∧
      (s.phase = .hdr ∨ s.phase = .dec → step s = .refused .sourceInUse)) ∧
    (∀ fails, s.host = .bindSink fails :: rest →
      (s.phase ≠ .enc → s.phase ≠ .dec →
        step s = .next { s with host := rest, sink := [], sinkClosed := false, sinkFail := fails }) ∧
      (s.phase = .enc ∨ s.phase = .dec → step s = .refused .sinkInUse))

/-! ### System and read commands (40_system_and_read.md) -/

/-- R39, R40, R41: the fields of `STATUS`, `TREE` and `BITIO` as `RDREG` answers them in any phase, the bits not named 0,
and their reset values; the numbers of the phases (R21) and of the node pointers, `NIL` 0x1FF (R29). -/
def Obligations.RegisterLayouts : Prop :=
  [Phase.idle, .tree, .codes, .enc, .hdr, .dec, .done, .err].map (fun p => (phaseBits p).toNat) = [0, 1, 2, 3, 4, 5, 6, 7] ∧
  ptrBits none = 0x1FF#9 ∧ (∀ i : NodeIdx, (ptrBits (some i)).toNat = i.val) ∧
  (∀ s : State, ∃ v : Word, exec (.rdreg 0#9) s = .next { s with responses := s.responses ++ [⟨true, v⟩] } ∧
    v.extractLsb' 0 3 = phaseBits s.phase ∧ v.getLsbD 3 = s.sinkOpen ∧ v.extractLsb' 4 3 = errBits s.err ∧
    v.getLsbD 7 = false ∧ v.extractLsb' 8 8 = s.errInfo ∧ v.extractLsb' 16 3 = phaseBits s.ePhase ∧
    v.extractLsb' 19 45 = 0#45) ∧
  (∀ s : State, ∃ v : Word, exec (.rdreg 3#9) s = .next { s with responses := s.responses ++ [⟨true, v⟩] } ∧
    v.extractLsb' 0 9 = ptrBits s.root ∧ v.extractLsb' 9 7 = 0#7 ∧ v.extractLsb' 16 9 = s.ncnt ∧
    v.extractLsb' 25 7 = 0#7 ∧ v.extractLsb' 32 9 = ptrBits s.cur ∧ v.extractLsb' 41 23 = 0#23) ∧
  (∀ s : State, ∃ v : Word, exec (.rdreg 4#9) s = .next { s with responses := s.responses ++ [⟨true, v⟩] } ∧
    v.extractLsb' 0 8 = s.wacc ∧ v.extractLsb' 8 3 = s.wcnt ∧ v.extractLsb' 11 5 = 0#5 ∧ v.extractLsb' 16 8 = s.rbuf ∧
    (v.extractLsb' 24 4).toNat = s.rcnt.val ∧ v.extractLsb' 28 36 = 0#36) ∧
  statusReg State.reset = 0#64 ∧ treeReg State.reset = 0x000001FF000001FF#64 ∧ bitioReg State.reset = 0#64

/-- `NOP` in any phase answers `ok`, 0 and changes nothing; `RDREG` answers `TOTAL` and `SCNT`; a register number above 4
is an illegal word (10_state.md section 8; 40_system_and_read.md). -/
def Obligations.NopAndCounterRegisters : Prop :=
  ∀ s : State,
    exec .nop s = .next { s with responses := s.responses ++ [⟨true, 0#64⟩] } ∧
    exec (.rdreg 1#9) s = .next { s with responses := s.responses ++ [⟨true, s.total⟩] } ∧
    exec (.rdreg 2#9) s = .next { s with responses := s.responses ++ [⟨true, s.scnt⟩] } ∧
    ∀ r : BitVec 9, 4 < r.toNat →
      (s.phase ≠ .err → exec (.rdreg r) s = .next (raiseFault .badCmd s)) ∧
      (s.phase = .err → exec (.rdreg r) s = .next (ignore s))

/-- `RDTAB` in any phase: the count, the length, and word `k` of the code bits with code bit `64k + j` at bit `63 - j`; in
a padded table the bits past the code read 0. Nothing but the response changes. -/
def Obligations.TableReads : Prop :=
  ∀ (s : State) (y : Sym),
    exec (.rdtabF y) s = .next { s with responses := s.responses ++ [⟨true, freqOf s y⟩] } ∧
    (∃ v : Word, v.toNat = (clenOf s y).toNat ∧
      exec (.rdtabL y) s = .next { s with responses := s.responses ++ [⟨true, v⟩] }) ∧
    ∀ (k : Nat) (i : Instr), (k, i) ∈ [(0, Instr.rdtabB0 y), (1, .rdtabB1 y), (2, .rdtabB2 y), (3, .rdtabB3 y)] →
      ∃ v : Word, exec i s = .next { s with responses := s.responses ++ [⟨true, v⟩] } ∧
        ∀ j, j < 64 → v.getLsbD (63 - j) = (cbitsOf s y).getLsbD (255 - (64 * k + j)) ∧
          (codesPadded s → (clenOf s y).toNat ≤ 64 * k + j → v.getLsbD (63 - j) = false)

/-- `RDNODE` in any phase: the fields of the link word and the frequency word of an entry; entries from `NCNT` up read the
free pattern where the node memory holds it; index 511 is an illegal word. Nothing but the response changes. -/
def Obligations.NodeReads : Prop :=
  ∀ (s : State) (idx : BitVec 9),
    (∀ h : idx.toNat < 511, ∃ v : Word,
      exec (.rdnodeL idx) s = .next { s with responses := s.responses ++ [⟨true, v⟩] } ∧
      exec (.rdnodeF idx) s =
        .next { s with responses := s.responses ++ [⟨true, (nodeAt s ⟨idx.toNat, h⟩).freq⟩] } ∧
      (v.getLsbD 0 = true ↔ (nodeAt s ⟨idx.toNat, h⟩).tag = .leaf) ∧
      v.extractLsb' 1 8 = (nodeAt s ⟨idx.toNat, h⟩).sym ∧
      v.extractLsb' 9 9 = ptrBits (nodeAt s ⟨idx.toNat, h⟩).left ∧
      v.extractLsb' 18 9 = ptrBits (nodeAt s ⟨idx.toNat, h⟩).right ∧ v.extractLsb' 27 37 = 0#37 ∧
      (freeAbove s → s.ncnt.toNat ≤ idx.toNat →
        v = 0x07FFFE00#64 ∧ (nodeAt s ⟨idx.toNat, h⟩).freq = 0#64)) ∧
    (idx = 511#9 → s.phase ≠ .err →
      exec (.rdnodeL idx) s = .next (raiseFault .badCmd s) ∧ exec (.rdnodeF idx) s = .next (raiseFault .badCmd s)) ∧
    (idx = 511#9 → s.phase = .err →
      exec (.rdnodeL idx) s = .next (ignore s) ∧ exec (.rdnodeF idx) s = .next (ignore s))

/-! ### The frequency table (42_frequency.md) -/

/-- `FINC` in phase `IDLE` counts one occurrence and changes nothing else. -/
def Obligations.FincCountsOne : Prop :=
  ∀ (s : State) (y : Sym), s.phase = .idle → (freqOf s y).toNat < 2 ^ 64 - 1 →
    ∃ t, exec (.finc y) s = .next t ∧
      t = { s with freq := t.freq, responses := s.responses ++ [⟨true, 0#64⟩] } ∧
      (freqOf t y).toNat = (freqOf s y).toNat + 1 ∧ ∀ z, z ≠ y → freqOf t z = freqOf s z

/-- R171: a count of `2^64 - 1` neither wraps nor saturates: `FINC` faults and leaves it. -/
def Obligations.FincOverflowFaults : Prop :=
  ∀ (s : State) (y : Sym), s.phase = .idle → (freqOf s y).toNat = 2 ^ 64 - 1 →
    exec (.finc y) s = .next (raiseFault .freqOvf s) ∧ (raiseFault .freqOvf s).freq = s.freq ∧
      (raiseFault .freqOvf s).err = .internalInvariant ∧ (raiseFault .freqOvf s).errInfo = 0x32#8

/-- `FSET` in phase `IDLE` stores its operand, any value, and changes nothing else. -/
def Obligations.FsetStoresTheCount : Prop :=
  ∀ (s : State) (y : Sym) (n : Word), s.phase = .idle →
    ∃ t, exec (.fset y n) s = .next t ∧
      t = { s with freq := t.freq, responses := s.responses ++ [⟨true, 0#64⟩] } ∧
      freqOf t y = n ∧ ∀ z, z ≠ y → freqOf t z = freqOf s z

/-- Each table is read-only after the phase that fills it: `FREQ` changes in phase `IDLE` only, the CodeTable by `GEN` in
`TREE` and by `HDRR` in `IDLE` only, but for `RST` (10_state.md sections 3 and 4). -/
def Obligations.TablesAreReadOnlyAfterTheirPhase : Prop :=
  ∀ (i : Instr) (s t : State), exec i s = .next t → i ≠ .rst →
    (s.phase ≠ .idle → t.freq = s.freq) ∧
    (t.clen ≠ s.clen ∨ t.cbits ≠ s.cbits → (i = .gen ∧ s.phase = .tree) ∨ (i = .hdrr ∧ s.phase = .idle))

/-! ### The tree builder (43_tree_builder.md) -/

/-- R181: an empty table is rejected with nothing written; a `BUILD` that succeeds leaves `TOTAL >= 1`. A table whose sum
reaches `2^64` is rejected with nothing written too (section 2, arithmetic). -/
def Obligations.BuildRejectsEmptyAndOversizeTables : Prop :=
  ∀ s : State, s.phase = .idle →
    ((∀ y, freqOf s y = 0#64) → exec .build s = .next (raiseFault .empty s) ∧ (raiseFault .empty s).err = .emptyInput ∧
      (raiseFault .empty s).errInfo = 0x20#8 ∧ (raiseFault .empty s).sink = s.sink ∧
      (s.sinkOpen = false → (raiseFault .empty s).sinkClosed = s.sinkClosed)) ∧
    (∀ t, exec .build s = .next t → t.phase = .tree → t.total ≠ 0#64) ∧
    (2 ^ 64 ≤ ∑ y : Fin 256, (freqOf s (BitVec.ofFin y)).toNat → exec .build s = .next (raiseFault .freqOvf s))

/-- `BUILD` of a table with an entry and a sum below `2^64` completes: `TOTAL` is the exact sum and the root's frequency,
the root is the last node made, and only `NODE`, `NCNT`, `ROOT`, `TOTAL`, `PHASE` change. -/
def Obligations.BuildCompletes : Prop :=
  ∀ s : State, s.phase = .idle → (∃ y, freqOf s y ≠ 0#64) →
    ∑ y : Fin 256, (freqOf s (BitVec.ofFin y)).toNat < 2 ^ 64 →
    ∃ t r, exec .build s = .next t ∧
      t = { s with node := t.node, ncnt := t.ncnt, root := some r, total := t.total, phase := .tree,
                   responses := s.responses ++ [⟨true, 0#64⟩] } ∧
      t.total = (nodeAt t r).freq ∧ t.total.toNat = ∑ y : Fin 256, (freqOf s (BitVec.ofFin y)).toNat ∧
      ((presentSyms s).length = 1 → t.ncnt.toNat = 2 ∧ r.val = 1) ∧
      (2 ≤ (presentSyms s).length →
        t.ncnt.toNat = 2 * (presentSyms s).length - 1 ∧ r.val = 2 * (presentSyms s).length - 2) ∧
      ∀ i : NodeIdx, t.ncnt.toNat ≤ i.val → nodeAt t i = nodeAt s i

/-- The leaves are the first entries, one per present symbol in ascending order; a one-symbol table gets the synthetic
parent (section 2, seeding and the one-symbol alphabet; section 3 (b)). -/
def Obligations.BuildSeedsTheLeavesInOrder : Prop :=
  ∀ s t : State, s.phase = .idle → exec .build s = .next t → t.phase = .tree →
    (presentSyms s).Pairwise (fun y z => y.toNat < z.toNat) ∧ (∀ y, y ∈ presentSyms s ↔ freqOf s y ≠ 0#64) ∧
    (∀ (k : NodeIdx) (h : k.val < (presentSyms s).length),
      nodeAt t k =
        { tag := .leaf, sym := (presentSyms s)[k.val], freq := freqOf s (presentSyms s)[k.val], left := none,
          right := none }) ∧
    ((presentSyms s).length = 1 →
      nodeAt t 1 = { tag := .int, sym := 0#8, freq := (nodeAt t 0).freq, left := some 0, right := none })

/-- Every internal node of a tree over two or more symbols has two different children made before it, the first of no
greater frequency, and their exact sum; the two are the least and the next of the pairs (frequency, index) of the nodes that
are then no one's child (R183, R184); every node but the root is a child of exactly one node, on one side (section 3 (a),
(c), (d), (e)). -/
def Obligations.BuildMergesIntoOneStrictTree : Prop :=
  ∀ s t : State, s.phase = .idle → exec .build s = .next t → t.phase = .tree → 2 ≤ (presentSyms s).length →
    (∀ i : NodeIdx, (presentSyms s).length ≤ i.val → i.val < 2 * (presentSyms s).length - 1 →
      ∃ a b : NodeIdx, (nodeAt t i).tag = .int ∧ (nodeAt t i).sym = 0#8 ∧ (nodeAt t i).left = some a ∧
        (nodeAt t i).right = some b ∧ a.val < i.val ∧ b.val < i.val ∧ a ≠ b ∧
        (nodeAt t i).freq.toNat = (nodeAt t a).freq.toNat + (nodeAt t b).freq.toNat ∧
        (nodeAt t a).freq.toNat ≤ (nodeAt t b).freq.toNat ∧
        isRootBelow t i a ∧ isRootBelow t i b ∧ lowerPair t a b ∧
        ∀ j, isRootBelow t i j → j ≠ a → j ≠ b → lowerPair t b j) ∧
    (∀ j : NodeIdx, j.val < 2 * (presentSyms s).length - 2 →
      ∃! i : NodeIdx, i.val < 2 * (presentSyms s).length - 1 ∧
        ((nodeAt t i).left = some j ∨ (nodeAt t i).right = some j))

/-- R183: `remove_min` removes the member whose pair (frequency, index) is least in lexicographic order. -/
def Obligations.RemoveMinTakesTheLeast : Prop :=
  ∀ (s : State) (q : List NodeIdx),
    (removeMin s q = none ↔ q = []) ∧
    ∀ a q', removeMin s q = some (a, q') → q.Perm (a :: q') ∧
      ∀ j ∈ q', (nodeAt s a).freq.toNat < (nodeAt s j).freq.toNat ∨
        ((nodeAt s a).freq.toNat = (nodeAt s j).freq.toNat ∧ a.val ≤ j.val)

/-- Every present symbol's leaf is reached from the root by exactly one path, of 1 to 255 choices, and no other leaf is
(10_state.md section 5 (c); 44_code_table.md, the bound on the code length). -/
def Obligations.BuildTreeReachesEachSymbolOnce : Prop :=
  ∀ s t : State, s.phase = .idle → exec .build s = .next t → t.phase = .tree →
    ∃ r, t.root = some r ∧ (∀ p j, follow t r p = some j → p.length ≤ 255) ∧
      (∀ y, freqOf s y ≠ 0#64 → ∃! p, leafPath t r p y) ∧
      (∀ p y, leafPath t r p y → freqOf s y ≠ 0#64 ∧ p ≠ [])

/-! ### The code-table generator (44_code_table.md) -/

/-- `GEN` on a tree whose paths are at most 255 long and that has one leaf per symbol completes: the code of each leaf's
symbol is its path, left-aligned with zeros below; other symbols keep their entries; only the CodeTable and `PHASE` change. -/
def Obligations.GenWritesThePathsAsCodes : Prop :=
  ∀ (s : State) (r : NodeIdx), s.phase = .tree → s.root = some r →
    (∀ p j, follow s r p = some j → p.length ≤ 255) →
    (∀ p q y, leafPath s r p y → leafPath s r q y → p = q) →
    ∃ t, exec .gen s = .next t ∧
      t = { s with clen := t.clen, cbits := t.cbits, phase := .codes, responses := s.responses ++ [⟨true, 0#64⟩] } ∧
      (∀ p y, leafPath s r p y → (clenOf t y).toNat = p.length ∧ codeOf t y = p ∧
        ∀ i, i < 256 - p.length → (cbitsOf t y).getLsbD i = false) ∧
      (∀ y, (∀ p, ¬ leafPath s r p y) → clenOf t y = clenOf s y ∧ cbitsOf t y = cbitsOf s y)

/-- What `GEN` makes of an empty CodeTable is prefix-free, whatever the tree (section on what holds of the result, (b)). -/
def Obligations.GenMakesAPrefixCode : Prop :=
  ∀ s t : State, s.phase = .tree → (∀ y, clenOf s y = 0#8) → exec .gen s = .next t → t.phase = .codes → prefixFree t

/-- After `BUILD` and `GEN` a symbol has a code exactly when it has a count, and over two or more symbols the code is
complete: the sum of `2^(-CLEN)` is 1 (section on what holds of the result, (a), (c)). -/
def Obligations.BuildAndGenGiveACompleteCode : Prop :=
  ∀ s t u : State, s.phase = .idle → (∀ y, clenOf s y = 0#8) → exec .build s = .next t → t.phase = .tree →
    exec .gen t = .next u →
    u.phase = .codes ∧ (∀ y, clenOf u y ≠ 0#8 ↔ freqOf u y ≠ 0#64) ∧
    (2 ≤ (presentSyms s).length →
      ∑ y : Fin 256, (if clenOf u (BitVec.ofFin y) = 0#8 then 0 else 2 ^ (255 - (clenOf u (BitVec.ofFin y)).toNat))
        = 2 ^ 255)

/-! ### The encoder (45_encoder.md) -/

/-- `HDRW` in phase `CODES`, none of its writes failing, appends the header, one draw a byte, opens the sink and the BitWriter, and
changes nothing else. -/
def Obligations.HdrwWritesTheHeader : Prop :=
  ∀ s : State, s.phase = .codes → passes (headerBytes s).length s.sinkFail →
    exec .hdrw s = .next
      { s with
        sinkOpen := true
        sink := s.sink ++ headerBytes s
        sinkFail := s.sinkFail.drop (headerBytes s).length
        wacc := 0#8
        wcnt := 0#3
        scnt := 0#64
        phase := .enc
        responses := s.responses ++ [⟨true, 0#64⟩] }

/-- The layout of the header: its length, `H_TOTAL` and `H_N` big-endian, then the records of the coded symbols in ascending
order (30_encoding.md section B.1). -/
def Obligations.HeaderLayout : Prop :=
  ∀ s : State,
    (headerBytes s).length = 10 + ((codedSyms s).map fun y => 3 + ((clenOf s y).toNat + 7) / 8).sum ∧
    beNat ((headerBytes s).take 8) = s.total.toNat ∧
    beNat (((headerBytes s).drop 8).take 2) = (codedSyms s).length ∧
    (headerBytes s).drop 10 = ((codedSyms s).flatMap fun y =>
      y :: 0#8 :: clenOf s y ::
        (List.range (((clenOf s y).toNat + 7) / 8)).map fun j => (cbitsOf s y).extractLsb' (248 - 8 * j) 8) ∧
    (codedSyms s).Pairwise (fun y z => y.toNat < z.toNat) ∧ (∀ y, y ∈ codedSyms s ↔ clenOf s y ≠ 0#8)

/-- R211: when a write of the header fails, the bytes accepted stay, the fault entry closes the sink, `EPHASE = CODES`. -/
def Obligations.HdrwKeepsWhatTheSinkAccepted : Prop :=
  ∀ (s : State) (k : Nat) (rest : List Bool), s.phase = .codes → k < (headerBytes s).length →
    s.sinkFail = List.replicate k false ++ true :: rest →
    exec .hdrw s = .next
      { s with
        sink := s.sink ++ (headerBytes s).take k
        sinkFail := rest
        sinkOpen := false
        sinkClosed := true
        ePhase := .codes
        err := .ioError
        errInfo := 0x01#8
        phase := .err
        responses := s.responses ++ [⟨false, 0#64⟩] }

/-- `ENC` of a symbol with a code, before `TOTAL` symbols. No write failing, the code's bits follow the pending ones, every eight
make a byte of the sink, the rest stay pending, `SCNT` grows by one, nothing else changes. When the flush of byte `k` fails it is
`SINK_WRITE`: the `k` bytes before it stay in the sink, `WACC` holds byte `k`, `WCNT = 7`, `SCNT` is not incremented. -/
def Obligations.EncAppendsTheCode : Prop :=
  ∀ (s : State) (y : Sym), s.phase = .enc → clenOf s y ≠ 0#8 → s.scnt ≠ s.total → lowBitsZero s →
    (passes ((s.wcnt.toNat + (clenOf s y).toNat) / 8) s.sinkFail →
      ∃ t, exec (.enc y) s = .next t ∧
        t = { s with
              wacc := t.wacc
              wcnt := t.wcnt
              scnt := s.scnt + 1#64
              sink := s.sink ++ wholeBytes (pendingBits s ++ codeOf s y)
              sinkFail := s.sinkFail.drop ((s.wcnt.toNat + (clenOf s y).toNat) / 8)
              responses := s.responses ++ [⟨true, 0#64⟩] } ∧
        t.wcnt.toNat = (s.wcnt.toNat + (clenOf s y).toNat) % 8 ∧
        pendingBits t =
          (pendingBits s ++ codeOf s y).drop (8 * ((s.wcnt.toNat + (clenOf s y).toNat) / 8)) ∧
        lowBitsZero t) ∧
    (∀ (k : Nat) (rest : List Bool), k < (s.wcnt.toNat + (clenOf s y).toNat) / 8 →
      s.sinkFail = List.replicate k false ++ true :: rest →
      ∃ b, (wholeBytes (pendingBits s ++ codeOf s y))[k]? = some b ∧
        exec (.enc y) s = .next (faulted .ioError 0x01#8
          { s with
            wacc := b
            wcnt := 7#3
            sink := s.sink ++ (wholeBytes (pendingBits s ++ codeOf s y)).take k
            sinkFail := rest }))

/-- R214: `NO_CODE` first, then `COUNT`, each before anything is written. -/
def Obligations.EncChecksBeforeItWrites : Prop :=
  ∀ (s : State) (y : Sym), s.phase = .enc →
    (clenOf s y = 0#8 → exec (.enc y) s = .next (raiseFault .noCode s)) ∧
    (clenOf s y ≠ 0#8 → s.scnt = s.total → exec (.enc y) s = .next (raiseFault .count s))

/-- `CLOSE` after `TOTAL` symbols. With no bit pending, or its one write not failing, `WACC` is the last byte if bits are pending, the sink is closed, nothing
else changes. In a state that keeps R33 that byte is the pending bits and zeros below them. When its write fails it is
`SINK_WRITE`: `WACC` and `WCNT` are kept and the fault closes the sink. -/
def Obligations.CloseFlushesAndCloses : Prop :=
  ∀ s : State, s.phase = .enc → s.scnt = s.total →
    ((s.wcnt ≠ 0#3 → passes 1 s.sinkFail) →
      exec .close s = .next
        { s with
          sink := if s.wcnt = 0#3 then s.sink else s.sink ++ [s.wacc]
          sinkFail := if s.wcnt = 0#3 then s.sinkFail else s.sinkFail.drop 1
          wacc := if s.wcnt = 0#3 then s.wacc else 0#8
          wcnt := 0#3
          sinkClosed := true
          sinkOpen := false
          phase := .done
          responses := s.responses ++ [⟨true, 0#64⟩] }) ∧
    (lowBitsZero s → s.wcnt ≠ 0#3 →
      bitsOfByte s.wacc = pendingBits s ++ List.replicate (8 - s.wcnt.toNat) false) ∧
    (∀ rest, s.wcnt ≠ 0#3 → s.sinkFail = true :: rest →
      exec .close s = .next (faulted .ioError 0x01#8 { s with sinkFail := rest }))

/-- R216: `CLOSE` before `TOTAL` symbols faults with `COUNT`, and so does one straight after `HDRW`. -/
def Obligations.CloseShortOfTotalFaults : Prop :=
  (∀ s : State, s.phase = .enc → s.scnt.toNat < s.total.toNat → exec .close s = .next (raiseFault .count s)) ∧
  (∀ s t : State, s.total ≠ 0#64 → exec .hdrw s = .next t → t.phase = .enc →
    exec .close t = .next (raiseFault .count t))

/-- R155: what the BitWriter writes from an empty accumulator and closes is, byte for byte, the bits and their zero pad; and
the BitReader delivers the bits of its source one by one, then `EOS`. -/
def Obligations.BitsWrittenAreBitsRead : Prop :=
  (∀ (s : State) (c : List Bool), s.wcnt = 0#3 → s.wacc = 0#8 → passes ((c.length + 7) / 8) s.sinkFail →
    ∃ t ys, ((writeBits c s).bind fun _ s1 => closeBody s1) = .ok () t ∧ t.sink = s.sink ++ ys ∧
      ys.length = (c.length + 7) / 8 ∧ bitsOfBytes ys = c ++ List.replicate ((8 - c.length % 8) % 8) false) ∧
  (∀ (s : State) (b : Bool) (rest : List Bool), (s.rcnt = 0 → passes 1 s.srcFail) → unreadBits s = b :: rest →
    ∃ t, readBit s = .ok (some b) t ∧ unreadBits t = rest ∧
      t = { s with
            rbuf := t.rbuf
            rcnt := t.rcnt
            spos := if s.rcnt = 0 then s.spos + 1 else s.spos
            srcFail := if s.rcnt = 0 then s.srcFail.drop 1 else s.srcFail }) ∧
  (∀ s : State, passes 1 s.srcFail → unreadBits s = [] →
    ∃ t, readBit s = .ok none t ∧ t = { s with srcFail := s.srcFail.drop 1 })

/-! ### The decoder (46_decoder.md) -/

/-- R231: `HDRR` of a header that `HDRW` writes recovers the writer's `TOTAL`, `CLEN` and `CBITS`, stops at the first body
byte, and changes nothing else. -/
def Obligations.HeaderReadGivesWhatWasWritten : Prop :=
  ∀ (w s : State) (rest : List Byte), w.total ≠ 0#64 → codesPadded w → codedSyms w ≠ [] →
    s.phase = .idle → passes (headerBytes w).length s.srcFail → (∀ y, clenOf s y = 0#8 ∧ cbitsOf s y = 0#256) →
    s.src.drop s.spos = headerBytes w ++ rest →
    exec .hdrr s = .next
      { s with
        total := w.total
        clen := w.clen
        cbits := w.cbits
        phase := .hdr
        spos := s.spos + (headerBytes w).length
        srcFail := s.srcFail.drop (headerBytes w).length
        responses := s.responses ++ [⟨true, 0#64⟩] }

/-- R233: inside the header the end of the source is `HDR_EOS` and a failed read is `SRC_READ`; an empty source gives
`HDR_EOS` at the first read. `HDRR` whose first read fails, or whose read `k` fails inside a header that `HDRW` writes, is
`SRC_READ`, the `k` bytes before it consumed. -/
def Obligations.HeaderEndIsNotReadFailure : Prop :=
  (∀ s : State, ((srcRead s).1 = .eos → getByte s = .raised .hdrEos (srcRead s).2) ∧
    ((srcRead s).1 = .fail → getByte s = .raised .srcRead (srcRead s).2)) ∧
  subCodeKind .hdrEos = .corruptHeader ∧ subCodeKind .srcRead = .ioError ∧
  (∀ s : State, s.phase = .idle → s.src = [] → passes 1 s.srcFail →
    exec .hdrr s = .next (raiseFault .hdrEos { s with srcFail := s.srcFail.drop 1 })) ∧
  (∀ (s : State) (rest : List Bool), s.phase = .idle → s.srcFail = true :: rest →
    exec .hdrr s = .next (faulted .ioError 0x02#8 { s with srcFail := rest })) ∧
  (∀ (w s : State) (k : Nat) (rest : List Bool), w.total ≠ 0#64 → codesPadded w → codedSyms w ≠ [] →
    k < (headerBytes w).length → s.phase = .idle → s.srcFail = List.replicate k false ++ true :: rest →
    (headerBytes w).take k <+: s.src.drop s.spos →
    ∃ u, exec .hdrr s = .next (faulted .ioError 0x02#8 u) ∧
      u = { s with total := u.total, clen := u.clen, cbits := u.cbits, spos := s.spos + k, srcFail := rest })

/-- A source that ends inside a header `HDRW` writes is `CorruptHeader(HDR_EOS)`, wherever it ends (section 1). -/
def Obligations.TruncatedHeaderIsCorrupt : Prop :=
  ∀ (w s : State) (k : Nat), w.total ≠ 0#64 → codesPadded w → codedSyms w ≠ [] → k < (headerBytes w).length →
    s.phase = .idle → passes (k + 1) s.srcFail → s.spos ≤ s.src.length → s.src.drop s.spos = (headerBytes w).take k →
    ∃ t, exec .hdrr s = .next t ∧ t.phase = .err ∧ t.ePhase = .idle ∧ t.err = .corruptHeader ∧ t.errInfo = 0x10#8 ∧
      t.spos = s.src.length

/-- The checks of the header parser, in its order (R230, R232): `H_TOTAL`, `H_N`, and for a record its symbol, its length, its
pad. `HDRR` over any header of good records, in ascending order of their symbols, stores them and completes; after good
records the next one is checked against the last symbol read (`HDR_ORDER`, 0x13), then for its length (`HDR_LEN`, 0x14), then
for its pad (`HDR_PAD`, 0x15), the records before it stored. The parser of one record does the same with any last symbol. -/
def Obligations.HeaderChecksInOrder : Prop :=
  (∀ (s : State) (tb rest : List Byte), s.phase = .idle → passes 8 s.srcFail → tb.length = 8 →
    s.src.drop s.spos = tb ++ rest → beNat tb = 0 →
    exec .hdrr s = .next (faulted .corruptHeader 0x11#8 { s with spos := s.spos + 8, srcFail := s.srcFail.drop 8 })) ∧
  (∀ (s : State) (tb nb rest : List Byte), s.phase = .idle → passes 10 s.srcFail → tb.length = 8 → nb.length = 2 →
    s.src.drop s.spos = tb ++ nb ++ rest → beNat tb ≠ 0 → beNat nb = 0 ∨ 256 < beNat nb →
    ∃ u, exec .hdrr s = .next (faulted .corruptHeader 0x12#8 u) ∧ readTo s (beNat tb) 10 u ∧ holdsRecords [] s u) ∧
  (∀ (s : State) (tb nb : List Byte) (rs : List HdrRecord) (tail : List Byte), s.phase = .idle → tb.length = 8 →
    nb.length = 2 → beNat tb ≠ 0 → 1 ≤ beNat nb → beNat nb ≤ 256 → goodRecords rs →
    s.src.drop s.spos = tb ++ nb ++ rs.flatMap HdrRecord.bytes ++ tail →
    (rs.length = beNat nb → passes (10 + (rs.flatMap HdrRecord.bytes).length) s.srcFail →
      ∃ u, exec .hdrr s = .next { u with phase := .hdr, responses := s.responses ++ [⟨true, 0#64⟩] } ∧
        readTo s (beNat tb) (10 + (rs.flatMap HdrRecord.bytes).length) u ∧ holdsRecords rs s u) ∧
    (∀ (y : Byte) (rest : List Byte), rs.length < beNat nb → tail = y :: rest → (∃ r ∈ rs, y.toNat ≤ r.sym.toNat) →
      passes (10 + (rs.flatMap HdrRecord.bytes).length + 1) s.srcFail →
      ∃ u, exec .hdrr s = .next (faulted .corruptHeader 0x13#8 u) ∧
        readTo s (beNat tb) (10 + (rs.flatMap HdrRecord.bytes).length + 1) u ∧ holdsRecords rs s u) ∧
    (∀ (y l1 l2 : Byte) (rest : List Byte), rs.length < beNat nb → tail = y :: l1 :: l2 :: rest →
      (∀ r ∈ rs, r.sym.toNat < y.toNat) → beNat [l1, l2] = 0 ∨ 255 < beNat [l1, l2] →
      passes (10 + (rs.flatMap HdrRecord.bytes).length + 3) s.srcFail →
      ∃ u, exec .hdrr s = .next (faulted .corruptHeader 0x14#8 u) ∧
        readTo s (beNat tb) (10 + (rs.flatMap HdrRecord.bytes).length + 3) u ∧ holdsRecords rs s u) ∧
    (∀ (r : HdrRecord) (rest : List Byte), rs.length < beNat nb → tail = r.bytes ++ rest →
      (∀ r' ∈ rs, r'.sym.toNat < r.sym.toNat) → 1 ≤ r.len → r.len ≤ 255 → r.code.length = (r.len + 7) / 8 →
      (∃ b ∈ (bitsOfBytes r.code).drop r.len, b = true) →
      passes (10 + (rs.flatMap HdrRecord.bytes).length + r.bytes.length) s.srcFail →
      ∃ u, exec .hdrr s = .next (faulted .corruptHeader 0x15#8 u) ∧
        readTo s (beNat tb) (10 + (rs.flatMap HdrRecord.bytes).length + r.bytes.length) u ∧ holdsRecords rs s u)) ∧
  (∀ (s : State) (prev : Int) (y l1 l2 : Byte) (bs rest : List Byte), s.src.drop s.spos = y :: l1 :: l2 :: (bs ++ rest) →
    ((y.toNat : Int) ≤ prev → passes 1 s.srcFail → ∃ u, readRecord prev s = .raised .hdrOrder u ∧ u.spos = s.spos + 1) ∧
    (prev < (y.toNat : Int) → beNat [l1, l2] = 0 ∨ 255 < beNat [l1, l2] → passes 3 s.srcFail →
      ∃ u, readRecord prev s = .raised .hdrLen u ∧ u.spos = s.spos + 3) ∧
    (prev < (y.toNat : Int) → 1 ≤ beNat [l1, l2] → beNat [l1, l2] ≤ 255 → bs.length = (beNat [l1, l2] + 7) / 8 →
      passes (3 + bs.length) s.srcFail →
      ((∃ b ∈ (bitsOfBytes bs).drop (beNat [l1, l2]), b = true) → ∃ u, readRecord prev s = .raised .hdrPad u) ∧
      ((∀ b ∈ (bitsOfBytes bs).drop (beNat [l1, l2]), b = false) →
        ∃ u, readRecord prev s = .ok (y.toNat : Int) u ∧ (clenOf u y).toNat = beNat [l1, l2] ∧
          codeOf u y = (bitsOfBytes bs).take (beNat [l1, l2]) ∧
          u = { s with clen := u.clen, cbits := u.cbits, spos := s.spos + 3 + bs.length,
                       srcFail := s.srcFail.drop (3 + bs.length) } ∧
          ∀ z, z ≠ y → clenOf u z = clenOf s z ∧ cbitsOf u z = cbitsOf s z)))

/-- `RECON` of a prefix-free CodeTable whose tree fits the node memory completes: each code leads from the root to the leaf
of its symbol, these are all the leaves, all frequencies are 0, and the decode is opened (section 2). -/
def Obligations.ReconBuildsTheTreeOfTheCodes : Prop :=
  ∀ s : State, s.phase = .hdr → prefixFree s → (codePrefixes s).length ≤ 511 →
    ∃ t, exec .recon s = .next t ∧
      t = { s with
            node := t.node
            ncnt := t.ncnt
            root := some 0
            cur := some 0
            scnt := 0#64
            rbuf := 0#8
            rcnt := 0
            sinkOpen := true
            phase := .dec
            responses := s.responses ++ [⟨true, 0#64⟩] } ∧
      t.ncnt.toNat = max 1 (codePrefixes s).length ∧
      (∀ i : NodeIdx, i.val < t.ncnt.toNat → (nodeAt t i).freq = 0#64) ∧
      (∀ y, clenOf s y ≠ 0#8 → leafPath t 0 (codeOf s y) y) ∧
      (∀ p y, leafPath t 0 p y → clenOf s y ≠ 0#8 ∧ p = codeOf s y)

/-- `RECON` rejects every other CodeTable: `HDR_PREFIX` where the codes are not prefix-free, `HDR_NODES` where the tree does
not fit (section 2). -/
def Obligations.ReconRejectsBadCodeTables : Prop :=
  ∀ s : State, s.phase = .hdr →
    (¬ prefixFree s → (codePrefixes s).length ≤ 511 →
      ∃ t, exec .recon s = .next t ∧ t.phase = .err ∧ t.err = .corruptHeader ∧ t.errInfo = 0x16#8) ∧
    (prefixFree s → 511 < (codePrefixes s).length →
      ∃ t, exec .recon s = .next t ∧ t.phase = .err ∧ t.err = .corruptHeader ∧ t.errInfo = 0x17#8) ∧
    (¬ prefixFree s → 511 < (codePrefixes s).length →
      ∃ t, exec .recon s = .next t ∧ t.phase = .err ∧ t.err = .corruptHeader ∧
        (t.errInfo = 0x16#8 ∨ t.errInfo = 0x17#8))

/-- `DSTEP` consumes one bit and descends to the internal node it selects; nothing but the cursor, the BitReader and the
source changes (section 3). When the bit needs a byte and its read fails, `DSTEP`, and `DRUN` at that bit, is `SRC_READ` with
`RBUF`, `RCNT` and `CUR` unchanged. -/
def Obligations.DstepDescendsOneBit : Prop :=
  (∀ (s : State) (b : Bool) (rest : List Bool) (i j : NodeIdx), s.phase = .dec → (s.rcnt = 0 → passes 1 s.srcFail) →
    unreadBits s = b :: rest → s.cur = some i → child (nodeAt s i) b = some j → (nodeAt s j).tag = .int →
    ∃ t, exec .dstep s = .next t ∧ unreadBits t = rest ∧
      t = { s with
            cur := some j
            rbuf := t.rbuf
            rcnt := t.rcnt
            spos := if s.rcnt = 0 then s.spos + 1 else s.spos
            srcFail := if s.rcnt = 0 then s.srcFail.drop 1 else s.srcFail
            responses := s.responses ++ [⟨true, 0#64⟩] }) ∧
  (∀ (s : State) (rest : List Bool), s.phase = .dec → s.rcnt = 0 → s.srcFail = true :: rest →
    exec .dstep s = .next (faulted .ioError 0x02#8 { s with srcFail := rest }) ∧
    exec .drun s = .next (faulted .ioError 0x02#8 { s with srcFail := rest }))

/-- `DSTEP` onto a leaf emits its symbol, counts it and returns to the root; after the last symbol it closes the sink and
the run is `DONE` (section 3). When the symbol's write fails, `DSTEP`, and `DRUN` at that bit, is `SINK_WRITE` with the bit
consumed, `CUR` on the leaf and `SCNT` as it was. -/
def Obligations.DstepEmitsAtALeaf : Prop :=
  ∀ (s : State) (b : Bool) (rest : List Bool) (i j : NodeIdx), s.phase = .dec → (s.rcnt = 0 → passes 1 s.srcFail) →
    unreadBits s = b :: rest → s.cur = some i → child (nodeAt s i) b = some j → (nodeAt s j).tag = .leaf →
    (passes 1 s.sinkFail →
      ∃ t, exec .dstep s = .next t ∧ unreadBits t = rest ∧
        t = { s with
              cur := s.root
              rbuf := t.rbuf
              rcnt := t.rcnt
              spos := if s.rcnt = 0 then s.spos + 1 else s.spos
              srcFail := if s.rcnt = 0 then s.srcFail.drop 1 else s.srcFail
              sink := s.sink ++ [(nodeAt s j).sym]
              sinkFail := s.sinkFail.drop 1
              scnt := s.scnt + 1#64
              phase := if s.scnt + 1#64 = s.total then .done else .dec
              sinkOpen := if s.scnt + 1#64 = s.total then false else s.sinkOpen
              sinkClosed := if s.scnt + 1#64 = s.total then true else s.sinkClosed
              responses := s.responses ++ [⟨true, 0#64⟩] }) ∧
    (∀ fails, s.sinkFail = true :: fails →
      ∃ u, exec .dstep s = .next (faulted .ioError 0x01#8 u) ∧ exec .drun s = .next (faulted .ioError 0x01#8 u) ∧
        unreadBits u = rest ∧
        u = { s with
              cur := some j
              rbuf := u.rbuf
              rcnt := u.rcnt
              spos := if s.rcnt = 0 then s.spos + 1 else s.spos
              srcFail := if s.rcnt = 0 then s.srcFail.drop 1 else s.srcFail
              sinkFail := fails })

/-- R241: a body that ends before `TOTAL` symbols is `BODY_EOS`, for `DSTEP` and for `DRUN`. -/
def Obligations.BodyEndingEarlyFaults : Prop :=
  ∀ s : State, s.phase = .dec → passes 1 s.srcFail → unreadBits s = [] →
    exec .dstep s = .next (raiseFault .bodyEos { s with srcFail := s.srcFail.drop 1 }) ∧
    exec .drun s = .next (raiseFault .bodyEos { s with srcFail := s.srcFail.drop 1 }) ∧
    subCodeKind .bodyEos = .internalInvariant

/-- A bit that selects an absent child is `WALK_NIL`, the bit consumed and the cursor unchanged (section 3). -/
def Obligations.AbsentChildFaults : Prop :=
  ∀ (s : State) (b : Bool) (rest : List Bool) (i : NodeIdx), s.phase = .dec → (s.rcnt = 0 → passes 1 s.srcFail) →
    unreadBits s = b :: rest → s.cur = some i → child (nodeAt s i) b = none →
    ∃ u, exec .dstep s = .next (raiseFault .walkNil u) ∧ unreadBits u = rest ∧
      u = { s with
            rbuf := u.rbuf
            rcnt := u.rcnt
            spos := if s.rcnt = 0 then s.spos + 1 else s.spos
            srcFail := if s.rcnt = 0 then s.srcFail.drop 1 else s.srcFail }

/-- R243: `DRUN` equals the `DSTEP` commands a host would issue until one leaves `DEC` (but for their responses), and ends
in `DONE` with `ok = 1` or in `ERR` with `ok = 0`. -/
def Obligations.DrunIsDstepsUntilTheEnd : Prop :=
  ∀ s u : State, s.phase = .dec → exec .dstep s = .next u →
    (u.phase = .dec → exec .drun s = exec .drun { u with responses := s.responses }) ∧
    (u.phase ≠ .dec → exec .drun s = .next u) ∧
    (∀ t, exec .drun s = .next t →
      (t.phase = .done ∧ answeredOk s t 0#64) ∨ (t.phase = .err ∧ answeredFail s t))

/-- R244: `DRUN` terminates within `RCNT + 8 * (len(SRC) - SPOS) + 1` iterations, from every state. -/
def Obligations.DrunTerminates : Prop :=
  (∀ s : State, runLoop (s.rcnt.val + 8 * (s.src.length - s.spos) + 1) s ≠ .stuck .runOverrun) ∧
  (∀ s : State, s.phase = .dec → s.root ≠ none → s.cur ≠ none →
    ∃ t, exec .drun s = .next t ∧ (t.phase = .done ∨ t.phase = .err))

/-- Greedy decoding is right: over a tree in which each symbol of `xs` has its path, a body that begins with the paths of
`xs` decodes to `xs`, stops after the last symbol, and leaves the bits after it unread (section 3). Of the source it reads as
many bytes as the bits need, and only those accesses, and the writes of `xs`, must not fail. -/
def Obligations.DrunDecodesTheBody : Prop :=
  ∀ (s : State) (r : NodeIdx) (path : Sym → List Bool) (xs : List Sym) (rest : List Bool),
    s.phase = .dec → s.root = some r → s.cur = some r → (nodeAt s r).tag = .int →
    xs ≠ [] → s.scnt.toNat + xs.length = s.total.toNat → (∀ x ∈ xs, leafPath s r (path x) x) →
    unreadBits s = xs.flatMap path ++ rest → passes (bytesNeeded s (xs.flatMap path).length) s.srcFail →
    passes xs.length s.sinkFail →
    ∃ t, exec .drun s = .next t ∧ unreadBits t = rest ∧
      t = { s with
            rbuf := t.rbuf
            rcnt := t.rcnt
            spos := s.spos + bytesNeeded s (xs.flatMap path).length
            srcFail := s.srcFail.drop (bytesNeeded s (xs.flatMap path).length)
            sink := s.sink ++ xs
            sinkFail := s.sinkFail.drop xs.length
            scnt := s.total
            sinkOpen := false
            sinkClosed := true
            phase := .done
            responses := s.responses ++ [⟨true, 0#64⟩] }

/-! ### The streams (20_memory.md) -/

/-- The three port primitives: a draw is consumed by each access; a failed access changes nothing in the stream; a read
takes the next byte or is at the end; a write appends; closing only marks (section 1). -/
def Obligations.PortPrimitives : Prop :=
  ∀ (s : State) (b : Byte),
    (∀ rest, s.srcFail = true :: rest → srcRead s = (.fail, { s with srcFail := rest })) ∧
    (passes 1 s.srcFail → s.src.length ≤ s.spos → srcRead s = (.eos, { s with srcFail := s.srcFail.drop 1 })) ∧
    (∀ h : s.spos < s.src.length, passes 1 s.srcFail →
      srcRead s = (.byte s.src[s.spos], { s with srcFail := s.srcFail.drop 1, spos := s.spos + 1 })) ∧
    (∀ rest, s.sinkFail = true :: rest → sinkWrite b s = (false, { s with sinkFail := rest })) ∧
    (passes 1 s.sinkFail →
      sinkWrite b s = (true, { s with sinkFail := s.sinkFail.drop 1, sink := s.sink ++ [b] })) ∧
    sinkClose s = { s with sinkClosed := true }

/-- The streams only move forward: but for the host binding new ones, the sink's bytes are only appended to and the source
is only consumed (sections 1 and 4). -/
def Obligations.StreamsOnlyMoveForward : Prop :=
  ∀ (s t : State) (a : HostAct) (rest : List HostAct), s.host = a :: rest → step s = .next t →
    ((∀ f, a ≠ .bindSink f) → s.sink <+: t.sink ∧ (s.sinkClosed = true → t.sinkClosed = true)) ∧
    ((∀ bs f, a ≠ .bindSource bs f) → t.src = s.src ∧ s.spos ≤ t.spos)

/-- No byte reaches the sink unless `SINK_OPEN` is 1: in a state whose `SINK_OPEN` agrees with its phase, a command that
changes the sink finds it open or is the `HDRW` that opens it (section 1). -/
def Obligations.SinkIsWrittenOnlyWhileOpen : Prop :=
  ∀ (i : Instr) (s t : State), sinkFlag s → exec i s = .next t → t.sink ≠ s.sink →
    s.sinkOpen = true ∨ (i = .hdrw ∧ s.phase = .codes)

/-! ### The invariant (10_state.md section 12) -/

/-- The invariant holds after reset. -/
def Obligations.ResetMeetsTheInvariant : Prop := Inv State.reset

/-- Every step keeps the invariant. -/
def Obligations.StepKeepsTheInvariant : Prop :=
  ∀ s t : State, Inv s → step s = .next t → Inv t

/-- A machine in the invariant never stops, and refuses only a host that rebinds a stream the core owns: every command, legal
or not, in any phase, is answered. It rests on the model's assumption that every port call answers (log 6, unsafe; R74), and its
premise on the model's reading of when the host may bind a stream (log 7; 70_reset_and_hazards.md R330). -/
def Obligations.MachineNeverStops : Prop :=
  ∀ s : State, Inv s → ¬ rebinds s → runsOn (step s)

/-! ### Optimality (43_tree_builder.md section 3) -/

/-- The tree of `BUILD` is optimal (R189): over the present symbols the sum of frequency times depth is no greater than the
sum of frequency times code length of any binary prefix code, for one symbol of any code of non-empty words; and after `GEN`
the same holds of the code lengths in `CLEN`. -/
def Obligations.BuildIsOptimal : Prop :=
  ∀ (s t : State) (r : NodeIdx), s.phase = .idle → exec .build s = .next t → t.phase = .tree → t.root = some r →
    (∀ path : Sym → List Bool, (∀ y, freqOf s y ≠ 0#64 → leafPath t r (path y) y) →
      minimalCost s fun y => (path y).length) ∧
    ∀ u, (∀ y, clenOf s y = 0#8) → exec .gen t = .next u → minimalCost s fun y => (clenOf u y).toNat
end

