-- ==== Sys2Proof/Laws/State.lean ====
section
/-! SUPPORT. One lemma per field per shared state update, so that no later proof unfolds a record update. -/

namespace Sys2Proof.Machine

/-! ### respond -/

@[simp] theorem respond_phase (ok : Bool) (v : Word) (s : State) : (respond ok v s).phase = s.phase := rfl
@[simp] theorem respond_err (ok : Bool) (v : Word) (s : State) : (respond ok v s).err = s.err := rfl
@[simp] theorem respond_errInfo (ok : Bool) (v : Word) (s : State) : (respond ok v s).errInfo = s.errInfo := rfl
@[simp] theorem respond_ePhase (ok : Bool) (v : Word) (s : State) : (respond ok v s).ePhase = s.ePhase := rfl
@[simp] theorem respond_freq (ok : Bool) (v : Word) (s : State) : (respond ok v s).freq = s.freq := rfl
@[simp] theorem respond_total (ok : Bool) (v : Word) (s : State) : (respond ok v s).total = s.total := rfl
@[simp] theorem respond_scnt (ok : Bool) (v : Word) (s : State) : (respond ok v s).scnt = s.scnt := rfl
@[simp] theorem respond_clen (ok : Bool) (v : Word) (s : State) : (respond ok v s).clen = s.clen := rfl
@[simp] theorem respond_cbits (ok : Bool) (v : Word) (s : State) : (respond ok v s).cbits = s.cbits := rfl
@[simp] theorem respond_node (ok : Bool) (v : Word) (s : State) : (respond ok v s).node = s.node := rfl
@[simp] theorem respond_ncnt (ok : Bool) (v : Word) (s : State) : (respond ok v s).ncnt = s.ncnt := rfl
@[simp] theorem respond_root (ok : Bool) (v : Word) (s : State) : (respond ok v s).root = s.root := rfl
@[simp] theorem respond_cur (ok : Bool) (v : Word) (s : State) : (respond ok v s).cur = s.cur := rfl
@[simp] theorem respond_wacc (ok : Bool) (v : Word) (s : State) : (respond ok v s).wacc = s.wacc := rfl
@[simp] theorem respond_wcnt (ok : Bool) (v : Word) (s : State) : (respond ok v s).wcnt = s.wcnt := rfl
@[simp] theorem respond_rbuf (ok : Bool) (v : Word) (s : State) : (respond ok v s).rbuf = s.rbuf := rfl
@[simp] theorem respond_rcnt (ok : Bool) (v : Word) (s : State) : (respond ok v s).rcnt = s.rcnt := rfl
@[simp] theorem respond_sinkOpen (ok : Bool) (v : Word) (s : State) : (respond ok v s).sinkOpen = s.sinkOpen := rfl
@[simp] theorem respond_src (ok : Bool) (v : Word) (s : State) : (respond ok v s).src = s.src := rfl
@[simp] theorem respond_spos (ok : Bool) (v : Word) (s : State) : (respond ok v s).spos = s.spos := rfl
@[simp] theorem respond_sink (ok : Bool) (v : Word) (s : State) : (respond ok v s).sink = s.sink := rfl
@[simp] theorem respond_sinkClosed (ok : Bool) (v : Word) (s : State) : (respond ok v s).sinkClosed = s.sinkClosed := rfl
@[simp] theorem respond_srcFail (ok : Bool) (v : Word) (s : State) : (respond ok v s).srcFail = s.srcFail := rfl
@[simp] theorem respond_sinkFail (ok : Bool) (v : Word) (s : State) : (respond ok v s).sinkFail = s.sinkFail := rfl
@[simp] theorem respond_host (ok : Bool) (v : Word) (s : State) : (respond ok v s).host = s.host := rfl
@[simp] theorem respond_responses (ok : Bool) (v : Word) (s : State) : (respond ok v s).responses = s.responses ++ [⟨ok, v⟩] := rfl

/-! ### ignore -/

@[simp] theorem ignore_phase (s : State) : (ignore s).phase = s.phase := rfl
@[simp] theorem ignore_err (s : State) : (ignore s).err = s.err := rfl
@[simp] theorem ignore_errInfo (s : State) : (ignore s).errInfo = s.errInfo := rfl
@[simp] theorem ignore_ePhase (s : State) : (ignore s).ePhase = s.ePhase := rfl
@[simp] theorem ignore_freq (s : State) : (ignore s).freq = s.freq := rfl
@[simp] theorem ignore_total (s : State) : (ignore s).total = s.total := rfl
@[simp] theorem ignore_scnt (s : State) : (ignore s).scnt = s.scnt := rfl
@[simp] theorem ignore_clen (s : State) : (ignore s).clen = s.clen := rfl
@[simp] theorem ignore_cbits (s : State) : (ignore s).cbits = s.cbits := rfl
@[simp] theorem ignore_node (s : State) : (ignore s).node = s.node := rfl
@[simp] theorem ignore_ncnt (s : State) : (ignore s).ncnt = s.ncnt := rfl
@[simp] theorem ignore_root (s : State) : (ignore s).root = s.root := rfl
@[simp] theorem ignore_cur (s : State) : (ignore s).cur = s.cur := rfl
@[simp] theorem ignore_wacc (s : State) : (ignore s).wacc = s.wacc := rfl
@[simp] theorem ignore_wcnt (s : State) : (ignore s).wcnt = s.wcnt := rfl
@[simp] theorem ignore_rbuf (s : State) : (ignore s).rbuf = s.rbuf := rfl
@[simp] theorem ignore_rcnt (s : State) : (ignore s).rcnt = s.rcnt := rfl
@[simp] theorem ignore_sinkOpen (s : State) : (ignore s).sinkOpen = s.sinkOpen := rfl
@[simp] theorem ignore_src (s : State) : (ignore s).src = s.src := rfl
@[simp] theorem ignore_spos (s : State) : (ignore s).spos = s.spos := rfl
@[simp] theorem ignore_sink (s : State) : (ignore s).sink = s.sink := rfl
@[simp] theorem ignore_sinkClosed (s : State) : (ignore s).sinkClosed = s.sinkClosed := rfl
@[simp] theorem ignore_srcFail (s : State) : (ignore s).srcFail = s.srcFail := rfl
@[simp] theorem ignore_sinkFail (s : State) : (ignore s).sinkFail = s.sinkFail := rfl
@[simp] theorem ignore_host (s : State) : (ignore s).host = s.host := rfl
@[simp] theorem ignore_responses (s : State) : (ignore s).responses = s.responses ++ [⟨false, 0#64⟩] := rfl

/-! ### sinkClose -/

@[simp] theorem sinkClose_phase (s : State) : (sinkClose s).phase = s.phase := rfl
@[simp] theorem sinkClose_err (s : State) : (sinkClose s).err = s.err := rfl
@[simp] theorem sinkClose_errInfo (s : State) : (sinkClose s).errInfo = s.errInfo := rfl
@[simp] theorem sinkClose_ePhase (s : State) : (sinkClose s).ePhase = s.ePhase := rfl
@[simp] theorem sinkClose_freq (s : State) : (sinkClose s).freq = s.freq := rfl
@[simp] theorem sinkClose_total (s : State) : (sinkClose s).total = s.total := rfl
@[simp] theorem sinkClose_scnt (s : State) : (sinkClose s).scnt = s.scnt := rfl
@[simp] theorem sinkClose_clen (s : State) : (sinkClose s).clen = s.clen := rfl
@[simp] theorem sinkClose_cbits (s : State) : (sinkClose s).cbits = s.cbits := rfl
@[simp] theorem sinkClose_node (s : State) : (sinkClose s).node = s.node := rfl
@[simp] theorem sinkClose_ncnt (s : State) : (sinkClose s).ncnt = s.ncnt := rfl
@[simp] theorem sinkClose_root (s : State) : (sinkClose s).root = s.root := rfl
@[simp] theorem sinkClose_cur (s : State) : (sinkClose s).cur = s.cur := rfl
@[simp] theorem sinkClose_wacc (s : State) : (sinkClose s).wacc = s.wacc := rfl
@[simp] theorem sinkClose_wcnt (s : State) : (sinkClose s).wcnt = s.wcnt := rfl
@[simp] theorem sinkClose_rbuf (s : State) : (sinkClose s).rbuf = s.rbuf := rfl
@[simp] theorem sinkClose_rcnt (s : State) : (sinkClose s).rcnt = s.rcnt := rfl
@[simp] theorem sinkClose_sinkOpen (s : State) : (sinkClose s).sinkOpen = s.sinkOpen := rfl
@[simp] theorem sinkClose_src (s : State) : (sinkClose s).src = s.src := rfl
@[simp] theorem sinkClose_spos (s : State) : (sinkClose s).spos = s.spos := rfl
@[simp] theorem sinkClose_sink (s : State) : (sinkClose s).sink = s.sink := rfl
@[simp] theorem sinkClose_sinkClosed (s : State) : (sinkClose s).sinkClosed = true := rfl
@[simp] theorem sinkClose_srcFail (s : State) : (sinkClose s).srcFail = s.srcFail := rfl
@[simp] theorem sinkClose_sinkFail (s : State) : (sinkClose s).sinkFail = s.sinkFail := rfl
@[simp] theorem sinkClose_host (s : State) : (sinkClose s).host = s.host := rfl
@[simp] theorem sinkClose_responses (s : State) : (sinkClose s).responses = s.responses := rfl

/-- What releasing the sink does, in one record (60_exceptions.md R296). -/
theorem releaseSink_eq (s : State) :
    releaseSink s = { s with sinkClosed := s.sinkClosed || s.sinkOpen, sinkOpen := false } := by
  unfold releaseSink
  cases h : s.sinkOpen
  · cases s; simp_all
  · simp [sinkClose]

/-! ### releaseSink -/

@[simp] theorem releaseSink_phase (s : State) : (releaseSink s).phase = s.phase := by rw [releaseSink_eq]
@[simp] theorem releaseSink_err (s : State) : (releaseSink s).err = s.err := by rw [releaseSink_eq]
@[simp] theorem releaseSink_errInfo (s : State) : (releaseSink s).errInfo = s.errInfo := by rw [releaseSink_eq]
@[simp] theorem releaseSink_ePhase (s : State) : (releaseSink s).ePhase = s.ePhase := by rw [releaseSink_eq]
@[simp] theorem releaseSink_freq (s : State) : (releaseSink s).freq = s.freq := by rw [releaseSink_eq]
@[simp] theorem releaseSink_total (s : State) : (releaseSink s).total = s.total := by rw [releaseSink_eq]
@[simp] theorem releaseSink_scnt (s : State) : (releaseSink s).scnt = s.scnt := by rw [releaseSink_eq]
@[simp] theorem releaseSink_clen (s : State) : (releaseSink s).clen = s.clen := by rw [releaseSink_eq]
@[simp] theorem releaseSink_cbits (s : State) : (releaseSink s).cbits = s.cbits := by rw [releaseSink_eq]
@[simp] theorem releaseSink_node (s : State) : (releaseSink s).node = s.node := by rw [releaseSink_eq]
@[simp] theorem releaseSink_ncnt (s : State) : (releaseSink s).ncnt = s.ncnt := by rw [releaseSink_eq]
@[simp] theorem releaseSink_root (s : State) : (releaseSink s).root = s.root := by rw [releaseSink_eq]
@[simp] theorem releaseSink_cur (s : State) : (releaseSink s).cur = s.cur := by rw [releaseSink_eq]
@[simp] theorem releaseSink_wacc (s : State) : (releaseSink s).wacc = s.wacc := by rw [releaseSink_eq]
@[simp] theorem releaseSink_wcnt (s : State) : (releaseSink s).wcnt = s.wcnt := by rw [releaseSink_eq]
@[simp] theorem releaseSink_rbuf (s : State) : (releaseSink s).rbuf = s.rbuf := by rw [releaseSink_eq]
@[simp] theorem releaseSink_rcnt (s : State) : (releaseSink s).rcnt = s.rcnt := by rw [releaseSink_eq]
@[simp] theorem releaseSink_sinkOpen (s : State) : (releaseSink s).sinkOpen = false := by rw [releaseSink_eq]
@[simp] theorem releaseSink_src (s : State) : (releaseSink s).src = s.src := by rw [releaseSink_eq]
@[simp] theorem releaseSink_spos (s : State) : (releaseSink s).spos = s.spos := by rw [releaseSink_eq]
@[simp] theorem releaseSink_sink (s : State) : (releaseSink s).sink = s.sink := by rw [releaseSink_eq]
@[simp] theorem releaseSink_sinkClosed (s : State) : (releaseSink s).sinkClosed = (s.sinkClosed || s.sinkOpen) := by rw [releaseSink_eq]
@[simp] theorem releaseSink_srcFail (s : State) : (releaseSink s).srcFail = s.srcFail := by rw [releaseSink_eq]
@[simp] theorem releaseSink_sinkFail (s : State) : (releaseSink s).sinkFail = s.sinkFail := by rw [releaseSink_eq]
@[simp] theorem releaseSink_host (s : State) : (releaseSink s).host = s.host := by rw [releaseSink_eq]
@[simp] theorem releaseSink_responses (s : State) : (releaseSink s).responses = s.responses := by rw [releaseSink_eq]

/-! ### raiseFault -/

@[simp] theorem raiseFault_phase (c : SubCode) (s : State) : (raiseFault c s).phase = .err := by simp [raiseFault]
@[simp] theorem raiseFault_err (c : SubCode) (s : State) : (raiseFault c s).err = subCodeKind c := by simp [raiseFault]
@[simp] theorem raiseFault_errInfo (c : SubCode) (s : State) : (raiseFault c s).errInfo = subCodeBits c := by simp [raiseFault]
@[simp] theorem raiseFault_ePhase (c : SubCode) (s : State) : (raiseFault c s).ePhase = s.phase := by simp [raiseFault]
@[simp] theorem raiseFault_freq (c : SubCode) (s : State) : (raiseFault c s).freq = s.freq := by simp [raiseFault]
@[simp] theorem raiseFault_total (c : SubCode) (s : State) : (raiseFault c s).total = s.total := by simp [raiseFault]
@[simp] theorem raiseFault_scnt (c : SubCode) (s : State) : (raiseFault c s).scnt = s.scnt := by simp [raiseFault]
@[simp] theorem raiseFault_clen (c : SubCode) (s : State) : (raiseFault c s).clen = s.clen := by simp [raiseFault]
@[simp] theorem raiseFault_cbits (c : SubCode) (s : State) : (raiseFault c s).cbits = s.cbits := by simp [raiseFault]
@[simp] theorem raiseFault_node (c : SubCode) (s : State) : (raiseFault c s).node = s.node := by simp [raiseFault]
@[simp] theorem raiseFault_ncnt (c : SubCode) (s : State) : (raiseFault c s).ncnt = s.ncnt := by simp [raiseFault]
@[simp] theorem raiseFault_root (c : SubCode) (s : State) : (raiseFault c s).root = s.root := by simp [raiseFault]
@[simp] theorem raiseFault_cur (c : SubCode) (s : State) : (raiseFault c s).cur = s.cur := by simp [raiseFault]
@[simp] theorem raiseFault_wacc (c : SubCode) (s : State) : (raiseFault c s).wacc = s.wacc := by simp [raiseFault]
@[simp] theorem raiseFault_wcnt (c : SubCode) (s : State) : (raiseFault c s).wcnt = s.wcnt := by simp [raiseFault]
@[simp] theorem raiseFault_rbuf (c : SubCode) (s : State) : (raiseFault c s).rbuf = s.rbuf := by simp [raiseFault]
@[simp] theorem raiseFault_rcnt (c : SubCode) (s : State) : (raiseFault c s).rcnt = s.rcnt := by simp [raiseFault]
@[simp] theorem raiseFault_sinkOpen (c : SubCode) (s : State) : (raiseFault c s).sinkOpen = false := by simp [raiseFault]
@[simp] theorem raiseFault_src (c : SubCode) (s : State) : (raiseFault c s).src = s.src := by simp [raiseFault]
@[simp] theorem raiseFault_spos (c : SubCode) (s : State) : (raiseFault c s).spos = s.spos := by simp [raiseFault]
@[simp] theorem raiseFault_sink (c : SubCode) (s : State) : (raiseFault c s).sink = s.sink := by simp [raiseFault]
@[simp] theorem raiseFault_sinkClosed (c : SubCode) (s : State) : (raiseFault c s).sinkClosed = (s.sinkClosed || s.sinkOpen) := by simp [raiseFault]
@[simp] theorem raiseFault_srcFail (c : SubCode) (s : State) : (raiseFault c s).srcFail = s.srcFail := by simp [raiseFault]
@[simp] theorem raiseFault_sinkFail (c : SubCode) (s : State) : (raiseFault c s).sinkFail = s.sinkFail := by simp [raiseFault]
@[simp] theorem raiseFault_host (c : SubCode) (s : State) : (raiseFault c s).host = s.host := by simp [raiseFault]
@[simp] theorem raiseFault_responses (c : SubCode) (s : State) : (raiseFault c s).responses = s.responses ++ [⟨false, 0#64⟩] := by simp [raiseFault]

/-! ### resetCore -/

@[simp] theorem resetCore_phase (s : State) : (resetCore s).phase = State.reset.phase := rfl
@[simp] theorem resetCore_err (s : State) : (resetCore s).err = State.reset.err := rfl
@[simp] theorem resetCore_errInfo (s : State) : (resetCore s).errInfo = State.reset.errInfo := rfl
@[simp] theorem resetCore_ePhase (s : State) : (resetCore s).ePhase = State.reset.ePhase := rfl
@[simp] theorem resetCore_freq (s : State) : (resetCore s).freq = State.reset.freq := rfl
@[simp] theorem resetCore_total (s : State) : (resetCore s).total = State.reset.total := rfl
@[simp] theorem resetCore_scnt (s : State) : (resetCore s).scnt = State.reset.scnt := rfl
@[simp] theorem resetCore_clen (s : State) : (resetCore s).clen = State.reset.clen := rfl
@[simp] theorem resetCore_cbits (s : State) : (resetCore s).cbits = State.reset.cbits := rfl
@[simp] theorem resetCore_node (s : State) : (resetCore s).node = State.reset.node := rfl
@[simp] theorem resetCore_ncnt (s : State) : (resetCore s).ncnt = State.reset.ncnt := rfl
@[simp] theorem resetCore_root (s : State) : (resetCore s).root = State.reset.root := rfl
@[simp] theorem resetCore_cur (s : State) : (resetCore s).cur = State.reset.cur := rfl
@[simp] theorem resetCore_wacc (s : State) : (resetCore s).wacc = State.reset.wacc := rfl
@[simp] theorem resetCore_wcnt (s : State) : (resetCore s).wcnt = State.reset.wcnt := rfl
@[simp] theorem resetCore_rbuf (s : State) : (resetCore s).rbuf = State.reset.rbuf := rfl
@[simp] theorem resetCore_rcnt (s : State) : (resetCore s).rcnt = State.reset.rcnt := rfl
@[simp] theorem resetCore_sinkOpen (s : State) : (resetCore s).sinkOpen = State.reset.sinkOpen := rfl
@[simp] theorem resetCore_src (s : State) : (resetCore s).src = s.src := rfl
@[simp] theorem resetCore_spos (s : State) : (resetCore s).spos = s.spos := rfl
@[simp] theorem resetCore_sink (s : State) : (resetCore s).sink = s.sink := rfl
@[simp] theorem resetCore_sinkClosed (s : State) : (resetCore s).sinkClosed = s.sinkClosed := rfl
@[simp] theorem resetCore_srcFail (s : State) : (resetCore s).srcFail = s.srcFail := rfl
@[simp] theorem resetCore_sinkFail (s : State) : (resetCore s).sinkFail = s.sinkFail := rfl
@[simp] theorem resetCore_host (s : State) : (resetCore s).host = s.host := rfl
@[simp] theorem resetCore_responses (s : State) : (resetCore s).responses = s.responses := rfl

/-! ### setFreq -/

@[simp] theorem setFreq_phase (y : Sym) (v : Word) (s : State) : (setFreq y v s).phase = s.phase := rfl
@[simp] theorem setFreq_err (y : Sym) (v : Word) (s : State) : (setFreq y v s).err = s.err := rfl
@[simp] theorem setFreq_errInfo (y : Sym) (v : Word) (s : State) : (setFreq y v s).errInfo = s.errInfo := rfl
@[simp] theorem setFreq_ePhase (y : Sym) (v : Word) (s : State) : (setFreq y v s).ePhase = s.ePhase := rfl
@[simp] theorem setFreq_freq (y : Sym) (v : Word) (s : State) : (setFreq y v s).freq = update s.freq y v := rfl
@[simp] theorem setFreq_total (y : Sym) (v : Word) (s : State) : (setFreq y v s).total = s.total := rfl
@[simp] theorem setFreq_scnt (y : Sym) (v : Word) (s : State) : (setFreq y v s).scnt = s.scnt := rfl
@[simp] theorem setFreq_clen (y : Sym) (v : Word) (s : State) : (setFreq y v s).clen = s.clen := rfl
@[simp] theorem setFreq_cbits (y : Sym) (v : Word) (s : State) : (setFreq y v s).cbits = s.cbits := rfl
@[simp] theorem setFreq_node (y : Sym) (v : Word) (s : State) : (setFreq y v s).node = s.node := rfl
@[simp] theorem setFreq_ncnt (y : Sym) (v : Word) (s : State) : (setFreq y v s).ncnt = s.ncnt := rfl
@[simp] theorem setFreq_root (y : Sym) (v : Word) (s : State) : (setFreq y v s).root = s.root := rfl
@[simp] theorem setFreq_cur (y : Sym) (v : Word) (s : State) : (setFreq y v s).cur = s.cur := rfl
@[simp] theorem setFreq_wacc (y : Sym) (v : Word) (s : State) : (setFreq y v s).wacc = s.wacc := rfl
@[simp] theorem setFreq_wcnt (y : Sym) (v : Word) (s : State) : (setFreq y v s).wcnt = s.wcnt := rfl
@[simp] theorem setFreq_rbuf (y : Sym) (v : Word) (s : State) : (setFreq y v s).rbuf = s.rbuf := rfl
@[simp] theorem setFreq_rcnt (y : Sym) (v : Word) (s : State) : (setFreq y v s).rcnt = s.rcnt := rfl
@[simp] theorem setFreq_sinkOpen (y : Sym) (v : Word) (s : State) : (setFreq y v s).sinkOpen = s.sinkOpen := rfl
@[simp] theorem setFreq_src (y : Sym) (v : Word) (s : State) : (setFreq y v s).src = s.src := rfl
@[simp] theorem setFreq_spos (y : Sym) (v : Word) (s : State) : (setFreq y v s).spos = s.spos := rfl
@[simp] theorem setFreq_sink (y : Sym) (v : Word) (s : State) : (setFreq y v s).sink = s.sink := rfl
@[simp] theorem setFreq_sinkClosed (y : Sym) (v : Word) (s : State) : (setFreq y v s).sinkClosed = s.sinkClosed := rfl
@[simp] theorem setFreq_srcFail (y : Sym) (v : Word) (s : State) : (setFreq y v s).srcFail = s.srcFail := rfl
@[simp] theorem setFreq_sinkFail (y : Sym) (v : Word) (s : State) : (setFreq y v s).sinkFail = s.sinkFail := rfl
@[simp] theorem setFreq_host (y : Sym) (v : Word) (s : State) : (setFreq y v s).host = s.host := rfl
@[simp] theorem setFreq_responses (y : Sym) (v : Word) (s : State) : (setFreq y v s).responses = s.responses := rfl

/-! ### setCode -/

@[simp] theorem setCode_phase (y : Sym) (len : Nat) (w : CodeBits) (s : State) : (setCode y len w s).phase = s.phase := rfl
@[simp] theorem setCode_err (y : Sym) (len : Nat) (w : CodeBits) (s : State) : (setCode y len w s).err = s.err := rfl
@[simp] theorem setCode_errInfo (y : Sym) (len : Nat) (w : CodeBits) (s : State) : (setCode y len w s).errInfo = s.errInfo := rfl
@[simp] theorem setCode_ePhase (y : Sym) (len : Nat) (w : CodeBits) (s : State) : (setCode y len w s).ePhase = s.ePhase := rfl
@[simp] theorem setCode_freq (y : Sym) (len : Nat) (w : CodeBits) (s : State) : (setCode y len w s).freq = s.freq := rfl
@[simp] theorem setCode_total (y : Sym) (len : Nat) (w : CodeBits) (s : State) : (setCode y len w s).total = s.total := rfl
@[simp] theorem setCode_scnt (y : Sym) (len : Nat) (w : CodeBits) (s : State) : (setCode y len w s).scnt = s.scnt := rfl
@[simp] theorem setCode_clen (y : Sym) (len : Nat) (w : CodeBits) (s : State) : (setCode y len w s).clen = update s.clen y (BitVec.ofNat 8 len) := rfl
@[simp] theorem setCode_cbits (y : Sym) (len : Nat) (w : CodeBits) (s : State) : (setCode y len w s).cbits = update s.cbits y w := rfl
@[simp] theorem setCode_node (y : Sym) (len : Nat) (w : CodeBits) (s : State) : (setCode y len w s).node = s.node := rfl
@[simp] theorem setCode_ncnt (y : Sym) (len : Nat) (w : CodeBits) (s : State) : (setCode y len w s).ncnt = s.ncnt := rfl
@[simp] theorem setCode_root (y : Sym) (len : Nat) (w : CodeBits) (s : State) : (setCode y len w s).root = s.root := rfl
@[simp] theorem setCode_cur (y : Sym) (len : Nat) (w : CodeBits) (s : State) : (setCode y len w s).cur = s.cur := rfl
@[simp] theorem setCode_wacc (y : Sym) (len : Nat) (w : CodeBits) (s : State) : (setCode y len w s).wacc = s.wacc := rfl
@[simp] theorem setCode_wcnt (y : Sym) (len : Nat) (w : CodeBits) (s : State) : (setCode y len w s).wcnt = s.wcnt := rfl
@[simp] theorem setCode_rbuf (y : Sym) (len : Nat) (w : CodeBits) (s : State) : (setCode y len w s).rbuf = s.rbuf := rfl
@[simp] theorem setCode_rcnt (y : Sym) (len : Nat) (w : CodeBits) (s : State) : (setCode y len w s).rcnt = s.rcnt := rfl
@[simp] theorem setCode_sinkOpen (y : Sym) (len : Nat) (w : CodeBits) (s : State) : (setCode y len w s).sinkOpen = s.sinkOpen := rfl
@[simp] theorem setCode_src (y : Sym) (len : Nat) (w : CodeBits) (s : State) : (setCode y len w s).src = s.src := rfl
@[simp] theorem setCode_spos (y : Sym) (len : Nat) (w : CodeBits) (s : State) : (setCode y len w s).spos = s.spos := rfl
@[simp] theorem setCode_sink (y : Sym) (len : Nat) (w : CodeBits) (s : State) : (setCode y len w s).sink = s.sink := rfl
@[simp] theorem setCode_sinkClosed (y : Sym) (len : Nat) (w : CodeBits) (s : State) : (setCode y len w s).sinkClosed = s.sinkClosed := rfl
@[simp] theorem setCode_srcFail (y : Sym) (len : Nat) (w : CodeBits) (s : State) : (setCode y len w s).srcFail = s.srcFail := rfl
@[simp] theorem setCode_sinkFail (y : Sym) (len : Nat) (w : CodeBits) (s : State) : (setCode y len w s).sinkFail = s.sinkFail := rfl
@[simp] theorem setCode_host (y : Sym) (len : Nat) (w : CodeBits) (s : State) : (setCode y len w s).host = s.host := rfl
@[simp] theorem setCode_responses (y : Sym) (len : Nat) (w : CodeBits) (s : State) : (setCode y len w s).responses = s.responses := rfl

/-! ### setNode -/

@[simp] theorem setNode_phase (i : NodeIdx) (nd : Node) (s : State) : (setNode i nd s).phase = s.phase := rfl
@[simp] theorem setNode_err (i : NodeIdx) (nd : Node) (s : State) : (setNode i nd s).err = s.err := rfl
@[simp] theorem setNode_errInfo (i : NodeIdx) (nd : Node) (s : State) : (setNode i nd s).errInfo = s.errInfo := rfl
@[simp] theorem setNode_ePhase (i : NodeIdx) (nd : Node) (s : State) : (setNode i nd s).ePhase = s.ePhase := rfl
@[simp] theorem setNode_freq (i : NodeIdx) (nd : Node) (s : State) : (setNode i nd s).freq = s.freq := rfl
@[simp] theorem setNode_total (i : NodeIdx) (nd : Node) (s : State) : (setNode i nd s).total = s.total := rfl
@[simp] theorem setNode_scnt (i : NodeIdx) (nd : Node) (s : State) : (setNode i nd s).scnt = s.scnt := rfl
@[simp] theorem setNode_clen (i : NodeIdx) (nd : Node) (s : State) : (setNode i nd s).clen = s.clen := rfl
@[simp] theorem setNode_cbits (i : NodeIdx) (nd : Node) (s : State) : (setNode i nd s).cbits = s.cbits := rfl
@[simp] theorem setNode_node (i : NodeIdx) (nd : Node) (s : State) : (setNode i nd s).node = s.node.set i.val nd i.isLt := rfl
@[simp] theorem setNode_ncnt (i : NodeIdx) (nd : Node) (s : State) : (setNode i nd s).ncnt = s.ncnt := rfl
@[simp] theorem setNode_root (i : NodeIdx) (nd : Node) (s : State) : (setNode i nd s).root = s.root := rfl
@[simp] theorem setNode_cur (i : NodeIdx) (nd : Node) (s : State) : (setNode i nd s).cur = s.cur := rfl
@[simp] theorem setNode_wacc (i : NodeIdx) (nd : Node) (s : State) : (setNode i nd s).wacc = s.wacc := rfl
@[simp] theorem setNode_wcnt (i : NodeIdx) (nd : Node) (s : State) : (setNode i nd s).wcnt = s.wcnt := rfl
@[simp] theorem setNode_rbuf (i : NodeIdx) (nd : Node) (s : State) : (setNode i nd s).rbuf = s.rbuf := rfl
@[simp] theorem setNode_rcnt (i : NodeIdx) (nd : Node) (s : State) : (setNode i nd s).rcnt = s.rcnt := rfl
@[simp] theorem setNode_sinkOpen (i : NodeIdx) (nd : Node) (s : State) : (setNode i nd s).sinkOpen = s.sinkOpen := rfl
@[simp] theorem setNode_src (i : NodeIdx) (nd : Node) (s : State) : (setNode i nd s).src = s.src := rfl
@[simp] theorem setNode_spos (i : NodeIdx) (nd : Node) (s : State) : (setNode i nd s).spos = s.spos := rfl
@[simp] theorem setNode_sink (i : NodeIdx) (nd : Node) (s : State) : (setNode i nd s).sink = s.sink := rfl
@[simp] theorem setNode_sinkClosed (i : NodeIdx) (nd : Node) (s : State) : (setNode i nd s).sinkClosed = s.sinkClosed := rfl
@[simp] theorem setNode_srcFail (i : NodeIdx) (nd : Node) (s : State) : (setNode i nd s).srcFail = s.srcFail := rfl
@[simp] theorem setNode_sinkFail (i : NodeIdx) (nd : Node) (s : State) : (setNode i nd s).sinkFail = s.sinkFail := rfl
@[simp] theorem setNode_host (i : NodeIdx) (nd : Node) (s : State) : (setNode i nd s).host = s.host := rfl
@[simp] theorem setNode_responses (i : NodeIdx) (nd : Node) (s : State) : (setNode i nd s).responses = s.responses := rfl

/-! ### setChild -/

@[simp] theorem setChild_phase (i : NodeIdx) (b : Bool) (p : Ptr) (s : State) : (setChild i b p s).phase = s.phase := rfl
@[simp] theorem setChild_err (i : NodeIdx) (b : Bool) (p : Ptr) (s : State) : (setChild i b p s).err = s.err := rfl
@[simp] theorem setChild_errInfo (i : NodeIdx) (b : Bool) (p : Ptr) (s : State) : (setChild i b p s).errInfo = s.errInfo := rfl
@[simp] theorem setChild_ePhase (i : NodeIdx) (b : Bool) (p : Ptr) (s : State) : (setChild i b p s).ePhase = s.ePhase := rfl
@[simp] theorem setChild_freq (i : NodeIdx) (b : Bool) (p : Ptr) (s : State) : (setChild i b p s).freq = s.freq := rfl
@[simp] theorem setChild_total (i : NodeIdx) (b : Bool) (p : Ptr) (s : State) : (setChild i b p s).total = s.total := rfl
@[simp] theorem setChild_scnt (i : NodeIdx) (b : Bool) (p : Ptr) (s : State) : (setChild i b p s).scnt = s.scnt := rfl
@[simp] theorem setChild_clen (i : NodeIdx) (b : Bool) (p : Ptr) (s : State) : (setChild i b p s).clen = s.clen := rfl
@[simp] theorem setChild_cbits (i : NodeIdx) (b : Bool) (p : Ptr) (s : State) : (setChild i b p s).cbits = s.cbits := rfl
@[simp] theorem setChild_ncnt (i : NodeIdx) (b : Bool) (p : Ptr) (s : State) : (setChild i b p s).ncnt = s.ncnt := rfl
@[simp] theorem setChild_root (i : NodeIdx) (b : Bool) (p : Ptr) (s : State) : (setChild i b p s).root = s.root := rfl
@[simp] theorem setChild_cur (i : NodeIdx) (b : Bool) (p : Ptr) (s : State) : (setChild i b p s).cur = s.cur := rfl
@[simp] theorem setChild_wacc (i : NodeIdx) (b : Bool) (p : Ptr) (s : State) : (setChild i b p s).wacc = s.wacc := rfl
@[simp] theorem setChild_wcnt (i : NodeIdx) (b : Bool) (p : Ptr) (s : State) : (setChild i b p s).wcnt = s.wcnt := rfl
@[simp] theorem setChild_rbuf (i : NodeIdx) (b : Bool) (p : Ptr) (s : State) : (setChild i b p s).rbuf = s.rbuf := rfl
@[simp] theorem setChild_rcnt (i : NodeIdx) (b : Bool) (p : Ptr) (s : State) : (setChild i b p s).rcnt = s.rcnt := rfl
@[simp] theorem setChild_sinkOpen (i : NodeIdx) (b : Bool) (p : Ptr) (s : State) : (setChild i b p s).sinkOpen = s.sinkOpen := rfl
@[simp] theorem setChild_src (i : NodeIdx) (b : Bool) (p : Ptr) (s : State) : (setChild i b p s).src = s.src := rfl
@[simp] theorem setChild_spos (i : NodeIdx) (b : Bool) (p : Ptr) (s : State) : (setChild i b p s).spos = s.spos := rfl
@[simp] theorem setChild_sink (i : NodeIdx) (b : Bool) (p : Ptr) (s : State) : (setChild i b p s).sink = s.sink := rfl
@[simp] theorem setChild_sinkClosed (i : NodeIdx) (b : Bool) (p : Ptr) (s : State) : (setChild i b p s).sinkClosed = s.sinkClosed := rfl
@[simp] theorem setChild_srcFail (i : NodeIdx) (b : Bool) (p : Ptr) (s : State) : (setChild i b p s).srcFail = s.srcFail := rfl
@[simp] theorem setChild_sinkFail (i : NodeIdx) (b : Bool) (p : Ptr) (s : State) : (setChild i b p s).sinkFail = s.sinkFail := rfl
@[simp] theorem setChild_host (i : NodeIdx) (b : Bool) (p : Ptr) (s : State) : (setChild i b p s).host = s.host := rfl
@[simp] theorem setChild_responses (i : NodeIdx) (b : Bool) (p : Ptr) (s : State) : (setChild i b p s).responses = s.responses := rfl

end Sys2Proof.Machine
end

