-- ==== Sys2Proof/Laws/Results.lean ====
section
/-! SUPPORT. How a command's pseudocode composes and ends, and the check order: inversion lemmas for `Res.bind`, `finish`,
`inPhase`, `readItem` and `step` (30_encoding.md R100). -/

namespace Sys2Proof.Machine

/-! ### Sequencing -/

@[simp] theorem bind_ok {α β : Type} (v : α) (s : State) (f : α → State → Res β) : (Res.ok v s).bind f = f v s := rfl

@[simp] theorem bind_raised {α β : Type} (c : SubCode) (s : State) (f : α → State → Res β) :
    (Res.raised c s : Res α).bind f = .raised c s := rfl

@[simp] theorem bind_stuck {α β : Type} (r : Fault) (f : α → State → Res β) :
    (Res.stuck r : Res α).bind f = .stuck r := rfl

theorem bind_assoc {α β γ : Type} (x : Res α) (f : α → State → Res β) (g : β → State → Res γ) :
    (x.bind f).bind g = x.bind fun v s => (f v s).bind g := by cases x <;> rfl

theorem bind_eq_ok {α β : Type} {x : Res α} {f : α → State → Res β} {w : β} {t : State} :
    x.bind f = .ok w t ↔ ∃ v s, x = .ok v s ∧ f v s = .ok w t := by cases x <;> simp [Res.bind]

theorem bind_eq_raised {α β : Type} {x : Res α} {f : α → State → Res β} {c : SubCode} {t : State} :
    x.bind f = .raised c t ↔ x = .raised c t ∨ ∃ v s, x = .ok v s ∧ f v s = .raised c t := by
  cases x <;> simp [Res.bind]

theorem bind_eq_stuck {α β : Type} {x : Res α} {f : α → State → Res β} {r : Fault} :
    x.bind f = .stuck r ↔ x = .stuck r ∨ ∃ v s, x = .ok v s ∧ f v s = .stuck r := by
  cases x <;> simp [Res.bind]

/-! ### The end of a command -/

@[simp] theorem finish_ok (v : Word) (s : State) : finish (.ok v s) = .next (respond true v s) := rfl

@[simp] theorem finish_raised (c : SubCode) (s : State) : finish (.raised c s) = .next (raiseFault c s) := rfl

@[simp] theorem finish_stuck (r : Fault) : finish (.stuck r) = .fault r := rfl

/-- A command that answers returned a value or raised. -/
theorem finish_eq_next {x : Res Word} {t : State} :
    finish x = .next t ↔
      (∃ v s, x = .ok v s ∧ t = respond true v s) ∨ (∃ c s, x = .raised c s ∧ t = raiseFault c s) := by
  cases x <;> simp [finish, eq_comm]

theorem finish_eq_fault {x : Res Word} {r : Fault} : finish x = .fault r ↔ x = .stuck r := by
  cases x <;> simp [finish]

theorem finish_ne_refused (x : Res Word) (r : Refusal) : finish x ≠ .refused r := by
  cases x <;> simp [finish]

/-! ### The check order (30_encoding.md R100) -/

theorem inPhase_err {p : Phase} {body : State → Res Word} {s : State} (h : s.phase = .err) :
    inPhase p body s = .next (ignore s) := by simp [inPhase, h]

theorem inPhase_legal {p : Phase} {body : State → Res Word} {s : State} (h : s.phase = p) (hp : p ≠ .err) :
    inPhase p body s = finish (body s) := by simp [inPhase, h, hp]

theorem inPhase_blank {p : Phase} {body : State → Res Word} {s : State} (h : s.phase ≠ p) (he : s.phase ≠ .err) :
    inPhase p body s = .next (raiseFault .badPhase s) := by simp [inPhase, h, he]

/-- Everything a command with one legal phase can do. -/
theorem inPhase_cases {p : Phase} (hp : p ≠ .err) (body : State → Res Word) (s : State) :
    (s.phase = .err ∧ inPhase p body s = .next (ignore s)) ∨
    (s.phase = p ∧ inPhase p body s = finish (body s)) ∨
    (s.phase ≠ .err ∧ s.phase ≠ p ∧ inPhase p body s = .next (raiseFault .badPhase s)) := by
  by_cases he : s.phase = .err
  · exact .inl ⟨he, inPhase_err he⟩
  · by_cases h : s.phase = p
    · exact .inr (.inl ⟨h, inPhase_legal h hp⟩)
    · exact .inr (.inr ⟨he, h, inPhase_blank h he⟩)

/-- A command that answers was ignored, was out of phase, returned a value or raised. -/
theorem inPhase_eq_next {p : Phase} (hp : p ≠ .err) {body : State → Res Word} {s t : State}
    (h : inPhase p body s = .next t) :
    (s.phase = .err ∧ t = ignore s) ∨
    (s.phase ≠ .err ∧ s.phase ≠ p ∧ t = raiseFault .badPhase s) ∨
    (s.phase = p ∧ ∃ v u, body s = .ok v u ∧ t = respond true v u) ∨
    (s.phase = p ∧ ∃ c u, body s = .raised c u ∧ t = raiseFault c u) := by
  rcases inPhase_cases hp body s with ⟨he, e⟩ | ⟨hs, e⟩ | ⟨he, hs, e⟩ <;> rw [e] at h
  · exact .inl ⟨he, by simpa using h.symm⟩
  · rcases finish_eq_next.mp h with ⟨v, u, hb, ht⟩ | ⟨c, u, hb, ht⟩
    · exact .inr (.inr (.inl ⟨hs, v, u, hb, ht⟩))
    · exact .inr (.inr (.inr ⟨hs, c, u, hb, ht⟩))
  · exact .inr (.inl ⟨he, hs, by simpa using h.symm⟩)

/-- `BAD_PHASE` has a number of its own (60_exceptions.md R291). -/
theorem subCodeBits_ne_badPhase {c : SubCode} (h : c ≠ .badPhase) : subCodeBits c ≠ subCodeBits .badPhase := by
  revert h; cases c <;> decide

/-- In its legal phase a command whose body does not raise `BAD_PHASE` does not answer with it (60_exceptions.md R293). -/
theorem inPhase_ne_badPhase {p : Phase} (hp : p ≠ .err) {body : State → Res Word} {s : State} (hs : s.phase = p)
    (hb : ∀ c t, body s = .raised c t → c ≠ .badPhase) (u : State) : inPhase p body s ≠ .next (raiseFault .badPhase u) := by
  intro h
  rcases inPhase_eq_next hp h with ⟨he, _⟩ | ⟨_, hn, _⟩ | ⟨_, v, w, _, ht⟩ | ⟨_, c, w, hc, ht⟩
  · exact hp (hs.symm.trans he)
  · exact hn hs
  · have := congrArg (fun s => s.responses.getLast?) ht
    simp [respond] at this
  · have := congrArg State.errInfo ht
    simp only [raiseFault_errInfo] at this
    exact subCodeBits_ne_badPhase (hb c w hc) this.symm

/-- A read answers the item or is an illegal word. -/
theorem readItem_eq_next {v : Option Word} {s t : State} (h : readItem v s = .next t) :
    (∃ w, v = some w ∧ t = respond true w s) ∨ (v = none ∧ t = illegalWord s) := by
  cases v <;> simp_all [readItem, eq_comm]

theorem readItem_runs (v : Option Word) (s : State) : ∃ t, readItem v s = .next t := by
  cases v <;> exact ⟨_, rfl⟩

/-- An illegal word is ignored in `ERR` and raises `BAD_CMD` elsewhere (30_encoding.md R99). -/
theorem illegalWord_cases (s : State) :
    (s.phase = .err ∧ illegalWord s = ignore s) ∨ (s.phase ≠ .err ∧ illegalWord s = raiseFault .badCmd s) := by
  by_cases h : s.phase = .err <;> simp [illegalWord, h]

/-! ### The step -/

theorem step_idle {s : State} (h : s.host = []) : step s = .next s := by simp [step, h]

theorem step_act {s : State} {a : HostAct} {rest : List HostAct} (h : s.host = a :: rest) :
    step s = runAct a { s with host := rest } := by simp [step, h]

/-- Everything a step that answers can do. -/
theorem step_eq_next {s t : State} (h : step s = .next t) :
    (s.host = [] ∧ t = s) ∨
    (∃ c i rest, s.host = .command c :: rest ∧ decode c = .ok i ∧ exec i { s with host := rest } = .next t) ∨
    (∃ c k rest, s.host = .command c :: rest ∧ decode c = .error k ∧ t = illegalWord { s with host := rest }) ∨
    (∃ rest, s.host = .hardReset :: rest ∧ t = resetCore { s with host := rest }) ∨
    (∃ bytes fails rest, s.host = .bindSource bytes fails :: rest ∧ sourceInUse s = false ∧
      t = { s with host := rest, src := bytes, spos := 0, srcFail := fails }) ∨
    (∃ fails rest, s.host = .bindSink fails :: rest ∧ sinkInUse s = false ∧
      t = { s with host := rest, sink := [], sinkClosed := false, sinkFail := fails }) := by
  cases hh : s.host with
  | nil => exact .inl ⟨rfl, by simpa [step, hh] using h.symm⟩
  | cons a rest =>
    rw [step_act hh] at h
    refine .inr ?_
    cases a with
    | command c =>
      cases hd : decode c with
      | ok i => exact .inl ⟨c, i, rest, rfl, hd, by simpa [runAct, runCommand, hd] using h⟩
      | error k => exact .inr (.inl ⟨c, k, rest, rfl, hd, by simpa [runAct, runCommand, hd] using h.symm⟩)
    | hardReset => exact .inr (.inr (.inl ⟨rest, rfl, by simpa [runAct, hardReset] using h.symm⟩))
    | bindSource bytes fails =>
      by_cases hu : sourceInUse s = true
      · have : sourceInUse { s with host := rest } = true := hu
        simp [runAct, bindSource, this] at h
      · have h0 : sourceInUse s = false := by simpa using hu
        have : sourceInUse { s with host := rest } = false := h0
        exact .inr (.inr (.inr (.inl ⟨bytes, fails, rest, rfl, h0, by simpa [runAct, bindSource, this] using h.symm⟩)))
    | bindSink fails =>
      by_cases hu : sinkInUse s = true
      · have : sinkInUse { s with host := rest } = true := hu
        simp [runAct, bindSink, this] at h
      · have h0 : sinkInUse s = false := by simpa using hu
        have : sinkInUse { s with host := rest } = false := h0
        exact .inr (.inr (.inr (.inr ⟨fails, rest, rfl, h0, by simpa [runAct, bindSink, this] using h.symm⟩)))

end Sys2Proof.Machine
end

