-- ==== Sys2Proof/Laws/Ports.lean ====
section
/-! SUPPORT. The ports: what each primitive can do, and what a run of accesses does when none fails, or when the k-th does
(20_memory.md R62, R63). -/

namespace Sys2Proof.Machine

/-- An access that passes, and the accesses after it. -/
theorem draw_of_passes {n : Nat} {l : List Bool} (h : passes (n + 1) l) :
    draw l = (false, l.drop 1) ∧ passes n (l.drop 1) := by
  cases l with
  | nil => exact ⟨rfl, by simp [passes]⟩
  | cons b bs => exact ⟨by simp [draw, h b (by simp)], fun x hx => h x (by simpa using .inr hx)⟩

/-- The draws up to the first failure pass. -/
theorem draw_replicate (k : Nat) (rest : List Bool) :
    draw (List.replicate (k + 1) false ++ true :: rest) = (false, List.replicate k false ++ true :: rest) := rfl

theorem passes_mono {m n : Nat} {l : List Bool} (h : passes n l) (hm : m ≤ n) : passes m l :=
  fun b hb => h b (List.take_subset_take_left l hm hb)

/-- The accesses after the first `m`. -/
theorem passes_drop {m n : Nat} {l : List Bool} (h : passes (m + n) l) : passes n (l.drop m) :=
  fun b hb => h b (by rw [List.take_add]; exact List.mem_append_right _ hb)

theorem passes_nil (n : Nat) : passes n [] := by simp [passes]

/-- The fault entry written out (60_exceptions.md R296). -/
theorem raiseFault_eq (c : SubCode) (s : State) : raiseFault c s = faulted (subCodeKind c) (subCodeBits c) s := by
  cases h : s.sinkOpen <;> simp [raiseFault, releaseSink, sinkClose, respond, faulted, h]

/-- The three outcomes of a source access (R62). -/
theorem srcRead_cases (s : State) :
    (srcRead s = (.fail, { s with srcFail := (draw s.srcFail).2 }) ∧ (draw s.srcFail).1 = true) ∨
    (srcRead s = (.eos, { s with srcFail := (draw s.srcFail).2 }) ∧ (draw s.srcFail).1 = false ∧
      s.src.length ≤ s.spos) ∨
    (∃ h : s.spos < s.src.length, (draw s.srcFail).1 = false ∧
      srcRead s = (.byte s.src[s.spos], { s with srcFail := (draw s.srcFail).2, spos := s.spos + 1 })) := by
  unfold srcRead
  cases hd : (draw s.srcFail).1
  · by_cases hl : s.spos < s.src.length
    · exact .inr (.inr ⟨hl, rfl, by simp [hl]⟩)
    · exact .inr (.inl ⟨by simp [List.getElem?_eq_none (Nat.le_of_not_lt hl)], rfl, by omega⟩)
  · exact .inl ⟨by simp, rfl⟩

/-- The two outcomes of a sink access (R63). -/
theorem sinkWrite_cases (b : Byte) (s : State) :
    (sinkWrite b s = (false, { s with sinkFail := (draw s.sinkFail).2 }) ∧ (draw s.sinkFail).1 = true) ∨
    (sinkWrite b s = (true, { s with sinkFail := (draw s.sinkFail).2, sink := s.sink ++ [b] }) ∧
      (draw s.sinkFail).1 = false) := by
  unfold sinkWrite
  cases hd : (draw s.sinkFail).1 <;> simp

/-- The two outcomes of `put` (45_encoder.md R210). -/
theorem put_cases (b : Byte) (s : State) :
    (put b s = .raised .sinkWrite { s with sinkFail := (draw s.sinkFail).2 } ∧ (draw s.sinkFail).1 = true) ∨
    (put b s = .ok () { s with sinkFail := (draw s.sinkFail).2, sink := s.sink ++ [b] } ∧
      (draw s.sinkFail).1 = false) := by
  rcases sinkWrite_cases b s with ⟨h, hd⟩ | ⟨h, hd⟩
  · exact .inl ⟨by simp [put, h], hd⟩
  · exact .inr ⟨by simp [put, h], hd⟩

theorem put_ok {s : State} (h : passes 1 s.sinkFail) (b : Byte) :
    put b s = .ok () { s with sinkFail := s.sinkFail.drop 1, sink := s.sink ++ [b] } := by
  have hd := (draw_of_passes h).1
  rcases put_cases b s with ⟨_, h1⟩ | ⟨h2, _⟩
  · simp [hd] at h1
  · simpa [hd] using h2

/-- A run of writes none of which fails. -/
theorem putAll_ok (bs : List Byte) : ∀ {s : State}, passes bs.length s.sinkFail →
    putAll bs s = .ok () { s with sinkFail := s.sinkFail.drop bs.length, sink := s.sink ++ bs } := by
  induction bs with
  | nil => intro s _; simp [putAll]
  | cons b bs ih =>
    intro s h
    rw [putAll, put_ok (passes_mono h (by simp)), bind_ok,
      ih (s := { s with sinkFail := s.sinkFail.drop 1, sink := s.sink ++ [b] }) (draw_of_passes h).2]
    simp [Nat.add_comm]

/-- A run of writes whose `k`-th is the first to fail: the bytes before it stay (45_encoder.md R211). -/
theorem putAll_fails (bs : List Byte) : ∀ {s : State} {k : Nat} {rest : List Bool}, k < bs.length →
    s.sinkFail = List.replicate k false ++ true :: rest →
    putAll bs s = .raised .sinkWrite { s with sinkFail := rest, sink := s.sink ++ bs.take k } := by
  induction bs with
  | nil => intro s k rest h; simp at h
  | cons b bs ih =>
    intro s k rest hk hf
    cases k with
    | zero =>
      have hd : draw s.sinkFail = (true, rest) := by simp [hf, draw]
      rcases put_cases b s with ⟨h, _⟩ | ⟨_, h⟩
      · rw [putAll, h]; simp [hd]
      · simp [hd] at h
    | succ k =>
      have hd : draw s.sinkFail = (false, List.replicate k false ++ true :: rest) := by
        simp [hf, draw, List.replicate_succ]
      rcases put_cases b s with ⟨_, h⟩ | ⟨h, _⟩
      · simp [hd] at h
      · rw [putAll, h, bind_ok, ih (k := k) (rest := rest) (by simpa using hk) (by simp [hd])]
        simp

/-- Whatever `putAll` does, it changes the sink's bytes, by appending some of `bs`, and its draws, and nothing else. -/
theorem putAll_frame (bs : List Byte) : ∀ (s : State),
    (∃ l, putAll bs s = .ok () { s with sinkFail := l, sink := s.sink ++ bs }) ∨
    (∃ l k, k < bs.length ∧ putAll bs s = .raised .sinkWrite { s with sinkFail := l, sink := s.sink ++ bs.take k }) := by
  induction bs with
  | nil => intro s; exact .inl ⟨s.sinkFail, by simp [putAll]⟩
  | cons b bs ih =>
    intro s
    rcases put_cases b s with ⟨h, _⟩ | ⟨h, _⟩
    · exact .inr ⟨(draw s.sinkFail).2, 0, by simp, by simp [putAll, h]⟩
    · rcases ih { s with sinkFail := (draw s.sinkFail).2, sink := s.sink ++ [b] } with ⟨l, e⟩ | ⟨l, k, hk, e⟩
      · exact .inl ⟨l, by simp [putAll, h, e]⟩
      · exact .inr ⟨l, k + 1, by simpa using hk, by simp [putAll, h, e]⟩

/-- The three outcomes of `get()` (46_decoder.md R230, R233). -/
theorem getByte_cases (s : State) :
    (getByte s = .raised .srcRead { s with srcFail := (draw s.srcFail).2 } ∧ (draw s.srcFail).1 = true) ∨
    (getByte s = .raised .hdrEos { s with srcFail := (draw s.srcFail).2 } ∧ (draw s.srcFail).1 = false ∧
      s.src.length ≤ s.spos) ∨
    (∃ h : s.spos < s.src.length, (draw s.srcFail).1 = false ∧
      getByte s = .ok s.src[s.spos] { s with srcFail := (draw s.srcFail).2, spos := s.spos + 1 }) := by
  rcases srcRead_cases s with ⟨h, hd⟩ | ⟨h, hd, hl⟩ | ⟨hl, hd, h⟩
  · exact .inl ⟨by simp [getByte, h], hd⟩
  · exact .inr (.inl ⟨by simp [getByte, h], hd, hl⟩)
  · exact .inr (.inr ⟨hl, hd, by simp [getByte, h]⟩)

theorem getByte_ok {s : State} {b : Byte} {rest : List Byte} (h : passes 1 s.srcFail)
    (hs : s.src.drop s.spos = b :: rest) :
    getByte s = .ok b { s with srcFail := s.srcFail.drop 1, spos := s.spos + 1 } := by
  have hd := (draw_of_passes h).1
  have hl : s.spos < s.src.length := by
    by_contra hn
    simp [List.drop_eq_nil_of_le (Nat.le_of_not_lt hn)] at hs
  have hb : s.src[s.spos] = b := by
    have := List.drop_eq_getElem_cons hl
    rw [hs] at this
    simpa using (List.cons.inj this).1.symm
  rcases getByte_cases s with ⟨_, h1⟩ | ⟨_, _, h1⟩ | ⟨_, _, h1⟩
  · simp [hd] at h1
  · omega
  · rw [h1, hb, hd]

theorem getByte_eos {s : State} (h : passes 1 s.srcFail) (hs : s.src.length ≤ s.spos) :
    getByte s = .raised .hdrEos { s with srcFail := s.srcFail.drop 1 } := by
  have hd := (draw_of_passes h).1
  rcases getByte_cases s with ⟨_, h1⟩ | ⟨h1, _, _⟩ | ⟨h1, _, _⟩
  · simp [hd] at h1
  · rw [h1, hd]
  · omega

/-- A run of reads none of which fails, over bytes that are there. -/
theorem getBytes_ok (bs : List Byte) : ∀ {s : State} {rest : List Byte}, passes bs.length s.srcFail →
    s.src.drop s.spos = bs ++ rest →
    getBytes bs.length s = .ok bs { s with srcFail := s.srcFail.drop bs.length, spos := s.spos + bs.length } := by
  induction bs with
  | nil => intro s _ _ _; simp [getBytes]
  | cons b bs ih =>
    intro s rest h hs
    have hs' : s.src.drop (s.spos + 1) = bs ++ rest := by
      rw [← List.drop_drop, hs]; simp
    rw [List.length_cons, getBytes, getByte_ok (passes_mono h (by simp)) (by simpa using hs), bind_ok,
      ih (s := { s with srcFail := s.srcFail.drop 1, spos := s.spos + 1 }) (rest := rest) (draw_of_passes h).2
        (by simpa using hs')]
    simp only [bind_ok, Res.ok.injEq, true_and]
    simp [Nat.add_assoc, Nat.add_comm]

/-- A run of reads over fewer bytes than it wants: it takes them all and ends at the end of the source. -/
theorem getBytes_eos (n : Nat) : ∀ {s : State}, passes (s.src.length - s.spos + 1) s.srcFail → s.spos ≤ s.src.length → s.src.length - s.spos < n →
    ∃ l, getBytes n s = .raised .hdrEos { s with srcFail := l, spos := s.src.length } := by
  induction n with
  | zero => intro s _ _ h; omega
  | succ n ih =>
    intro s h hp hn
    by_cases hl : s.spos < s.src.length
    · have hs := List.drop_eq_getElem_cons hl
      rw [getBytes, getByte_ok (passes_mono h (by omega)) hs, bind_ok]
      obtain ⟨l, e⟩ := ih (s := { s with srcFail := s.srcFail.drop 1, spos := s.spos + 1 })
        (draw_of_passes (passes_mono h (by simp only; omega))).2 (by simpa using hl) (by simp; omega)
      exact ⟨l, by rw [e, bind_raised]⟩
    · have : s.spos = s.src.length := by omega
      refine ⟨s.srcFail.drop 1, ?_⟩
      rw [getBytes, getByte_eos (passes_mono h (by omega)) (by omega), bind_raised, ← this]

/-- Whatever `getBytes` does, it moves the position forward, to at most the end, uses draws, and changes nothing else. -/
theorem getBytes_frame (n : Nat) : ∀ (s : State),
    (∃ bs l, bs.length = n ∧ s.src.drop s.spos = bs ++ s.src.drop (s.spos + n) ∧
      getBytes n s = .ok bs { s with srcFail := l, spos := s.spos + n }) ∨
    (∃ c l k, k < n ∧ (c = .srcRead ∨ c = .hdrEos) ∧ (s.spos ≤ s.src.length → s.spos + k ≤ s.src.length) ∧
      getBytes n s = .raised c { s with srcFail := l, spos := s.spos + k }) := by
  induction n with
  | zero => intro s; exact .inl ⟨[], s.srcFail, rfl, by simp, by simp [getBytes]⟩
  | succ n ih =>
    intro s
    rcases getByte_cases s with ⟨h, _⟩ | ⟨h, _, _⟩ | ⟨hl, _, h⟩
    · exact .inr ⟨.srcRead, (draw s.srcFail).2, 0, by omega, .inl rfl, by simp, by simp only [getBytes, h, bind_raised, Nat.add_zero]⟩
    · exact .inr ⟨.hdrEos, (draw s.srcFail).2, 0, by omega, .inr rfl, by simp, by simp only [getBytes, h, bind_raised, Nat.add_zero]⟩
    · rcases ih { s with srcFail := (draw s.srcFail).2, spos := s.spos + 1 } with
        ⟨bs, l, hbs, hd, e⟩ | ⟨c, l, k, hk, hc, hle, e⟩
      · refine .inl ⟨s.src[s.spos] :: bs, l, by simp [hbs], ?_, ?_⟩
        · rw [List.drop_eq_getElem_cons hl]
          simp only [List.cons_append, List.cons.injEq, true_and]
          rw [show s.spos + (n + 1) = s.spos + 1 + n by omega]
          exact hd
        · rw [getBytes, h, bind_ok, e, bind_ok]
          simp only [Res.ok.injEq, true_and]
          rw [show s.spos + (n + 1) = s.spos + 1 + n by omega]
      · refine .inr ⟨c, l, k + 1, by omega, hc, fun _ => ?_, ?_⟩
        · have := hle (by simpa using hl)
          simp at this
          omega
        · rw [getBytes, h, bind_ok, e, bind_raised]
          simp only [Res.raised.injEq, true_and]
          rw [show s.spos + (k + 1) = s.spos + 1 + k by omega]

end Sys2Proof.Machine
end

