-- ==== Sys2Proof/Laws/Tables.lean ====
section
/-! SUPPORT. The symbol-indexed tables, the node memory and the list of all symbols: read after write, and what the lists
of present and of coded symbols hold (10_state.md R23, R26, R29). -/

namespace Sys2Proof.Machine

/-! ### Read after write -/

@[simp] theorem lookup_update_self {α : Type} (t : Vector α 256) (y : Sym) (v : α) : lookup (update t y v) y = v := by
  simp [lookup, update]

theorem lookup_update_ne {α : Type} (t : Vector α 256) {y z : Sym} (h : z ≠ y) (v : α) :
    lookup (update t y v) z = lookup t z := by
  have : y.toNat ≠ z.toNat := fun e => h (BitVec.eq_of_toNat_eq e.symm)
  simp [lookup, update, Vector.getElem_set_ne, this]

@[simp] theorem lookup_replicate {α : Type} (v : α) (y : Sym) : lookup (Vector.replicate 256 v) y = v := by
  simp [lookup]

/-- Two tables with equal entries are equal. -/
theorem table_ext {α : Type} {t u : Vector α 256} (h : ∀ y, lookup t y = lookup u y) : t = u := by
  apply Vector.ext
  intro i hi
  have := h (BitVec.ofNat 8 i)
  simpa [lookup, BitVec.toNat_ofNat, Nat.mod_eq_of_lt hi] using this

@[simp] theorem freqOf_setFreq_self (y : Sym) (v : Word) (s : State) : freqOf (setFreq y v s) y = v :=
  lookup_update_self ..

theorem freqOf_setFreq_ne {y z : Sym} (h : z ≠ y) (v : Word) (s : State) : freqOf (setFreq y v s) z = freqOf s z :=
  lookup_update_ne _ h _

@[simp] theorem clenOf_setCode_self (y : Sym) (len : Nat) (w : CodeBits) (s : State) :
    clenOf (setCode y len w s) y = BitVec.ofNat 8 len := lookup_update_self ..

theorem clenOf_setCode_ne {y z : Sym} (h : z ≠ y) (len : Nat) (w : CodeBits) (s : State) :
    clenOf (setCode y len w s) z = clenOf s z := lookup_update_ne _ h _

@[simp] theorem cbitsOf_setCode_self (y : Sym) (len : Nat) (w : CodeBits) (s : State) :
    cbitsOf (setCode y len w s) y = w := lookup_update_self ..

theorem cbitsOf_setCode_ne {y z : Sym} (h : z ≠ y) (len : Nat) (w : CodeBits) (s : State) :
    cbitsOf (setCode y len w s) z = cbitsOf s z := lookup_update_ne _ h _

@[simp] theorem nodeAt_setNode_self (i : NodeIdx) (nd : Node) (s : State) : nodeAt (setNode i nd s) i = nd := by
  simp [nodeAt]

theorem nodeAt_setNode_ne {i j : NodeIdx} (h : j ≠ i) (nd : Node) (s : State) : nodeAt (setNode i nd s) j = nodeAt s j := by
  have : i.val ≠ j.val := fun e => h (Fin.ext e.symm)
  simp [nodeAt, Vector.getElem_set_ne, this]

/-- What `child(i, b) <- p` does to node `i`: the selected field only (46_decoder.md R235). -/
theorem nodeAt_setChild_self (i : NodeIdx) (b : Bool) (p : Ptr) (s : State) :
    nodeAt (setChild i b p s) i = if b then { nodeAt s i with right := p } else { nodeAt s i with left := p } :=
  nodeAt_setNode_self ..

theorem nodeAt_setChild_ne {i j : NodeIdx} (h : j ≠ i) (b : Bool) (p : Ptr) (s : State) :
    nodeAt (setChild i b p s) j = nodeAt s j := nodeAt_setNode_ne h _ _

/-- Two node memories with equal entries are equal. -/
theorem nodes_ext {s t : State} (h : ∀ i, nodeAt s i = nodeAt t i) : s.node = t.node := by
  apply Vector.ext
  intro i hi
  exact h ⟨i, hi⟩

/-! ### All symbols, in ascending order -/

theorem mem_allSyms (y : Sym) : y ∈ allSyms := by
  simp only [allSyms, List.mem_map, List.mem_range]
  exact ⟨y.toNat, y.isLt, by simp⟩

theorem allSyms_sorted : allSyms.Pairwise (fun y z => y.toNat < z.toNat) := by
  unfold allSyms
  rw [List.pairwise_map]
  refine List.Pairwise.imp_of_mem ?_ (List.pairwise_lt_range)
  intro a b ha hb h
  simp only [List.mem_range] at ha hb
  rwa [BitVec.toNat_ofNat, BitVec.toNat_ofNat, Nat.mod_eq_of_lt ha, Nat.mod_eq_of_lt hb]

theorem allSyms_nodup : allSyms.Nodup :=
  allSyms_sorted.imp fun h e => by simp [e] at h

@[simp] theorem length_allSyms : allSyms.length = 256 := by simp [allSyms]

theorem mem_presentSyms (s : State) (y : Sym) : y ∈ presentSyms s ↔ freqOf s y ≠ 0#64 := by
  simp [presentSyms, mem_allSyms]

theorem presentSyms_sorted (s : State) : (presentSyms s).Pairwise (fun y z => y.toNat < z.toNat) :=
  allSyms_sorted.filter _

theorem length_presentSyms_le (s : State) : (presentSyms s).length ≤ 256 :=
  (List.length_filter_le ..).trans_eq length_allSyms

theorem mem_codedSyms (s : State) (y : Sym) : y ∈ codedSyms s ↔ clenOf s y ≠ 0#8 := by
  simp [codedSyms, mem_allSyms]

theorem codedSyms_sorted (s : State) : (codedSyms s).Pairwise (fun y z => y.toNat < z.toNat) :=
  allSyms_sorted.filter _

theorem length_codedSyms_le (s : State) : (codedSyms s).length ≤ 256 :=
  (List.length_filter_le ..).trans_eq length_allSyms

/-- A sum over the list of all symbols is the sum over the 256 symbols. -/
theorem sum_allSyms (f : Sym → Nat) : (allSyms.map f).sum = ∑ y : Fin 256, f (BitVec.ofFin y) := by
  have h : allSyms = (List.finRange 256).map fun y => (BitVec.ofFin y : Sym) := by decide +kernel
  rw [h, List.map_map, ← Fin.sum_univ_def]
  rfl

theorem freqSum_eq_sum (s : State) : freqSum s = ∑ y : Fin 256, (freqOf s (BitVec.ofFin y)).toNat :=
  sum_allSyms _

end Sys2Proof.Machine
end

