-- ==== Sys2Proof/Laws/BitIO.lean ====
section
/-! SUPPORT. The BitWriter and the BitReader: everything each bit operation can do, what it leaves alone, and the bits it
moves (41_bit_io.md R151 to R155). -/

namespace Sys2Proof.Machine

/-! ### Bits of a word -/

theorem getLsbD_one_shiftLeft {n : Nat} (i j : Nat) (hi : i < n) : (1#n <<< i).getLsbD j = decide (j = i) := by
  rw [BitVec.getLsbD_shiftLeft, BitVec.getLsbD_one]
  by_cases h : j = i
  · subst h; simp [hi]; omega
  · simp [h]; omega

/-- `setBit` writes the bit it names and keeps the others. -/
theorem getLsbD_setBit {n : Nat} (w : BitVec n) (i : Nat) (b : Bool) (j : Nat) (hi : i < n) :
    (setBit w i b).getLsbD j = if j = i then b else w.getLsbD j := by
  have h1 := getLsbD_one_shiftLeft i j hi
  have h2 : (~~~(1#n <<< i)).getLsbD j = (decide (j < n) && !decide (j = i)) := by rw [BitVec.getLsbD_not, h1]
  unfold setBit
  cases b
  · simp only [Bool.false_eq_true, if_false, BitVec.getLsbD_and, h2]
    by_cases hj : j = i
    · simp [hj]
    · by_cases hn : j < n
      · simp [hj, hn]
      · simp [hj, hn, BitVec.getLsbD_of_ge w j (by omega)]
  · simp only [if_true, BitVec.getLsbD_or, h1]
    by_cases hj : j = i <;> simp [hj]

@[simp] theorem length_bitsOfByte (b : Byte) : (bitsOfByte b).length = 8 := by simp [bitsOfByte]

@[simp] theorem bitsOfBytes_nil : bitsOfBytes [] = [] := rfl

@[simp] theorem bitsOfBytes_cons (b : Byte) (bs : List Byte) :
    bitsOfBytes (b :: bs) = bitsOfByte b ++ bitsOfBytes bs := by simp [bitsOfBytes]

@[simp] theorem bitsOfBytes_append (bs cs : List Byte) :
    bitsOfBytes (bs ++ cs) = bitsOfBytes bs ++ bitsOfBytes cs := by simp [bitsOfBytes]

@[simp] theorem length_bitsOfBytes (bs : List Byte) : (bitsOfBytes bs).length = 8 * bs.length := by
  induction bs with
  | nil => rfl
  | cons b bs ih => simp [ih]; omega

/-! ### The BitWriter -/

/-- The bit goes into the accumulator while it has room. -/
theorem writeBit_hold {s : State} (h : s.wcnt ≠ 7#3) (b : Bool) :
    writeBit b s = .ok () { s with wacc := setBit s.wacc (7 - s.wcnt.toNat) b, wcnt := s.wcnt + 1#3 } := by
  simp [writeBit, h]

/-- The eighth bit writes the byte, or the write fails with the byte complete in `WACC` (R151). -/
theorem writeBit_full {s : State} (h : s.wcnt = 7#3) (b : Bool) :
    (writeBit b s = .raised .sinkWrite { s with wacc := setBit s.wacc 0 b, sinkFail := (draw s.sinkFail).2 } ∧
      (draw s.sinkFail).1 = true) ∨
    (writeBit b s = .ok () { s with wacc := 0#8, wcnt := 0#3, sinkFail := (draw s.sinkFail).2,
                                    sink := s.sink ++ [setBit s.wacc 0 b] } ∧
      (draw s.sinkFail).1 = false) := by
  have e : 7 - s.wcnt.toNat = 0 := by simp [h]
  unfold writeBit
  simp only [e]
  rw [if_pos h]
  rcases put_cases (setBit s.wacc 0 b) { s with wacc := setBit s.wacc 0 b } with ⟨hp, hd⟩ | ⟨hp, hd⟩
  · exact .inl ⟨by rw [hp, bind_raised], hd⟩
  · exact .inr ⟨by rw [hp, bind_ok], hd⟩

theorem writeBit_full_ok {s : State} (h : s.wcnt = 7#3) {l : List Bool} (hd : draw s.sinkFail = (false, l)) (b : Bool) :
    writeBit b s = .ok () { s with wacc := 0#8, wcnt := 0#3, sinkFail := l, sink := s.sink ++ [setBit s.wacc 0 b] } := by
  rcases writeBit_full h b with ⟨_, h1⟩ | ⟨h1, _⟩
  · simp [hd] at h1
  · rw [h1, hd]

/-- Whatever `write_bit` does: it touches the BitWriter and the sink's stream, and its only fault is `SINK_WRITE`. -/
theorem writeBit_frame (b : Bool) (s : State) :
    ∃ a n l ys, ys.length ≤ 1 ∧
      (writeBit b s = .ok () { s with wacc := a, wcnt := n, sinkFail := l, sink := s.sink ++ ys } ∨
       writeBit b s = .raised .sinkWrite { s with wacc := a, wcnt := n, sinkFail := l, sink := s.sink ++ ys }) := by
  by_cases h : s.wcnt = 7#3
  · rcases writeBit_full h b with ⟨e, _⟩ | ⟨e, _⟩
    · exact ⟨setBit s.wacc 0 b, s.wcnt, (draw s.sinkFail).2, [], by simp, .inr (by simp [e])⟩
    · exact ⟨0#8, 0#3, (draw s.sinkFail).2, [setBit s.wacc 0 b], by simp, .inl e⟩
  · exact ⟨setBit s.wacc (7 - s.wcnt.toNat) b, s.wcnt + 1#3, s.sinkFail, [], by simp,
      .inl (by simp [writeBit_hold h])⟩

/-- Whatever `write_bits` does. -/
theorem writeBits_frame (c : List Bool) : ∀ s : State,
    ∃ a n l ys,
      writeBits c s = .ok () { s with wacc := a, wcnt := n, sinkFail := l, sink := s.sink ++ ys } ∨
      writeBits c s = .raised .sinkWrite { s with wacc := a, wcnt := n, sinkFail := l, sink := s.sink ++ ys } := by
  induction c with
  | nil => intro s; exact ⟨s.wacc, s.wcnt, s.sinkFail, [], .inl (by simp [writeBits])⟩
  | cons b c ih =>
    intro s
    obtain ⟨a, n, l, ys, -, e | e⟩ := writeBit_frame b s
    · obtain ⟨a', n', l', zs, e'⟩ := ih { s with wacc := a, wcnt := n, sinkFail := l, sink := s.sink ++ ys }
      exact ⟨a', n', l', ys ++ zs, by simpa [writeBits, e] using e'⟩
    · exact ⟨a, n, l, ys, .inr (by simp [writeBits, e])⟩

theorem writeBits_append (c d : List Bool) : ∀ s : State,
    writeBits (c ++ d) s = (writeBits c s).bind fun _ s1 => writeBits d s1 := by
  induction c with
  | nil => intro s; rfl
  | cons b c ih => intro s; simp [writeBits, bind_assoc, ih]

/-- What the flush of `close()` can do (R153). -/
theorem flushPartial_cases (s : State) :
    (s.wcnt = 0#3 ∧ flushPartial s = .ok () s) ∨
    (s.wcnt ≠ 0#3 ∧ (draw s.sinkFail).1 = true ∧
      flushPartial s = .raised .sinkWrite { s with sinkFail := (draw s.sinkFail).2 }) ∨
    (s.wcnt ≠ 0#3 ∧ (draw s.sinkFail).1 = false ∧
      flushPartial s = .ok () { s with wacc := 0#8, wcnt := 0#3, sinkFail := (draw s.sinkFail).2,
                                       sink := s.sink ++ [s.wacc] }) := by
  by_cases h : s.wcnt = 0#3
  · exact .inl ⟨h, by simp [flushPartial, h]⟩
  · rcases put_cases s.wacc s with ⟨e, hd⟩ | ⟨e, hd⟩
    · exact .inr (.inl ⟨h, hd, by simp [flushPartial, h, e]⟩)
    · exact .inr (.inr ⟨h, hd, by simp [flushPartial, h, e]⟩)

/-- What `close()` can do (R153): on a failed flush neither the sink nor `SINK_OPEN` is touched. -/
theorem closeBody_cases (s : State) :
    (s.wcnt = 0#3 ∧ closeBody s = .ok () { s with sinkClosed := true, sinkOpen := false }) ∨
    (s.wcnt ≠ 0#3 ∧ (draw s.sinkFail).1 = true ∧
      closeBody s = .raised .sinkWrite { s with sinkFail := (draw s.sinkFail).2 }) ∨
    (s.wcnt ≠ 0#3 ∧ (draw s.sinkFail).1 = false ∧
      closeBody s = .ok () { s with wacc := 0#8, wcnt := 0#3, sinkFail := (draw s.sinkFail).2,
                                    sink := s.sink ++ [s.wacc], sinkClosed := true, sinkOpen := false }) := by
  rcases flushPartial_cases s with ⟨h, e⟩ | ⟨h, hd, e⟩ | ⟨h, hd, e⟩
  · exact .inl ⟨h, by simp [closeBody, e, sinkClose]⟩
  · exact .inr (.inl ⟨h, hd, by simp [closeBody, e]⟩)
  · exact .inr (.inr ⟨h, hd, by simp [closeBody, e, sinkClose]⟩)

/-! ### The BitReader -/

/-- A buffered bit is delivered without an access (R154). -/
theorem readBit_buffered {s : State} {n : Nat} (h : n < 8) (hr : s.rcnt.val = n + 1) :
    readBit s = .ok (some (s.rbuf.getLsbD n)) { s with rcnt := ⟨n, Nat.lt_succ_of_lt h⟩ } := by
  have : s.rcnt = ⟨n + 1, by omega⟩ := Fin.ext hr
  simp [readBit, this, takeBit]

/-- With an empty buffer the next byte is fetched, its most significant bit first (R154, 20_memory.md R66). -/
theorem readBit_empty {s : State} (hr : s.rcnt = 0) :
    (readBit s = .raised .srcRead { s with srcFail := (draw s.srcFail).2 } ∧ (draw s.srcFail).1 = true) ∨
    (readBit s = .ok none { s with srcFail := (draw s.srcFail).2 } ∧ (draw s.srcFail).1 = false ∧
      s.src.length ≤ s.spos) ∨
    (∃ h : s.spos < s.src.length, (draw s.srcFail).1 = false ∧
      readBit s = .ok (some (s.src[s.spos].getLsbD 7))
        { s with srcFail := (draw s.srcFail).2, spos := s.spos + 1, rbuf := s.src[s.spos], rcnt := 7 }) := by
  have h0 : s.rcnt = ⟨0, by decide⟩ := hr
  rcases srcRead_cases s with ⟨e, hd⟩ | ⟨e, hd, hl⟩ | ⟨hl, hd, e⟩
  · exact .inl ⟨by simp [readBit, h0, e], hd⟩
  · exact .inr (.inl ⟨by simp [readBit, h0, e], hd, hl⟩)
  · exact .inr (.inr ⟨hl, hd, by simp [readBit, h0, e, takeBit]⟩)

/-- Whatever `read_bit` does: it touches the BitReader, the position and the draws; a delivered bit uses up one of the
`RCNT + 8 * (len(SRC) - SPOS)` bits that R244 counts. -/
theorem readBit_frame (s : State) :
    (∃ l, readBit s = .raised .srcRead { s with srcFail := l }) ∨
    (∃ l, readBit s = .ok none { s with srcFail := l } ∧ s.rcnt = 0 ∧ s.src.length ≤ s.spos) ∨
    (∃ b y n p l, readBit s = .ok (some b) { s with rbuf := y, rcnt := n, spos := p, srcFail := l } ∧
      s.spos ≤ p ∧ (s.spos ≤ s.src.length → p ≤ s.src.length) ∧
      n.val + 8 * (s.src.length - p) + 1 = s.rcnt.val + 8 * (s.src.length - s.spos)) := by
  by_cases hr : s.rcnt = 0
  · rcases readBit_empty hr with ⟨e, _⟩ | ⟨e, _, hl⟩ | ⟨hl, _, e⟩
    · exact .inl ⟨_, e⟩
    · exact .inr (.inl ⟨_, e, hr, hl⟩)
    · refine .inr (.inr ⟨_, _, _, _, _, e, by omega, by omega, ?_⟩)
      have : s.rcnt.val = 0 := by simp [hr]
      have h7 : ((7 : Fin 9).val) = 7 := rfl
      omega
  · have hpos : s.rcnt.val ≠ 0 := fun h => hr (Fin.ext h)
    have hlt := s.rcnt.isLt
    refine .inr (.inr ⟨_, s.rbuf, ⟨s.rcnt.val - 1, by omega⟩, s.spos, s.srcFail,
      readBit_buffered (n := s.rcnt.val - 1) (by omega) (by omega), Nat.le_refl _, id, ?_⟩)
    show s.rcnt.val - 1 + 8 * (s.src.length - s.spos) + 1 = _
    omega

end Sys2Proof.Machine
end

