-- ==== Sys2Proof/Laws/Bits.lean ====
section
/-! SUPPORT. What the BitWriter and the BitReader do to bit sequences, and where a failed access leaves them (41_bit_io.md
R151 to R155). -/

namespace Sys2Proof.Machine

/-! ### Bytes of bit sequences -/

theorem bitsOfByte_eq (b : Byte) : bitsOfByte b =
    [b.getLsbD 7, b.getLsbD 6, b.getLsbD 5, b.getLsbD 4, b.getLsbD 3, b.getLsbD 2, b.getLsbD 1, b.getLsbD 0] := rfl

theorem byte_of_bits : ∀ b : Byte,
    BitVec.ofNat 8 ((bitsOfByte b).foldl (fun n x => 2 * n + x.toNat) 0) = b := by decide +kernel

/-- The bits of a byte make that byte again. -/
theorem wholeBytes_bitsOfByte (b : Byte) (rest : List Bool) :
    wholeBytes (bitsOfByte b ++ rest) = b :: wholeBytes rest := by
  have h := byte_of_bits b
  rw [bitsOfByte_eq] at h ⊢
  simp only [List.cons_append, List.nil_append, wholeBytes]
  rw [h]

theorem wholeBytes_bitsOfBytes (bs : List Byte) (rest : List Bool) :
    wholeBytes (bitsOfBytes bs ++ rest) = bs ++ wholeBytes rest := by
  induction bs with
  | nil => rfl
  | cons b bs ih => rw [bitsOfBytes_cons, List.append_assoc, wholeBytes_bitsOfByte, ih, List.cons_append]

theorem wholeBytes_short {l : List Bool} (h : l.length < 8) : wholeBytes l = [] := by
  unfold wholeBytes
  split
  · simp at h; omega
  · rfl

/-- A bit sequence is the bits of its whole bytes and what is left over. -/
theorem bitsOfBytes_wholeBytes (l : List Bool) :
    bitsOfBytes (wholeBytes l) = l.take (8 * (l.length / 8)) := by
  induction hn : l.length using Nat.strong_induction_on generalizing l with
  | _ n ih =>
    by_cases hs : l.length < 8
    · have : n / 8 = 0 := by omega
      simp [wholeBytes_short hs, this]
    · obtain ⟨b0, b1, b2, b3, b4, b5, b6, b7, rest, rfl⟩ :
          ∃ b0 b1 b2 b3 b4 b5 b6 b7 rest, l = b0 :: b1 :: b2 :: b3 :: b4 :: b5 :: b6 :: b7 :: rest := by
        rcases l with _ | ⟨b0, _ | ⟨b1, _ | ⟨b2, _ | ⟨b3, _ | ⟨b4, _ | ⟨b5, _ | ⟨b6, _ | ⟨b7, rest⟩⟩⟩⟩⟩⟩⟩⟩
        all_goals first | exact ⟨_, _, _, _, _, _, _, _, _, rfl⟩ | (simp at hs)
      · have hl : rest.length + 8 = n := by simpa using hn
        have hb : ∀ b0 b1 b2 b3 b4 b5 b6 b7 : Bool, bitsOfByte (BitVec.ofNat 8
            ([b0, b1, b2, b3, b4, b5, b6, b7].foldl (fun n x => 2 * n + x.toNat) 0)) =
            [b0, b1, b2, b3, b4, b5, b6, b7] := by decide +kernel
        have hd : 8 * (n / 8) = 8 * (rest.length / 8) + 8 := by omega
        rw [wholeBytes, bitsOfBytes_cons, hb, ih rest.length (by omega) rest rfl, hd]
        simp

theorem length_wholeBytes (l : List Bool) : (wholeBytes l).length = l.length / 8 := by
  have h := congrArg List.length (bitsOfBytes_wholeBytes l)
  simp only [length_bitsOfBytes, List.length_take] at h
  omega

/-! ### The BitWriter -/

theorem length_pendingBits (s : State) : (pendingBits s).length = s.wcnt.toNat := by simp [pendingBits]

theorem pendingBits_empty {s : State} (h : s.wcnt = 0#3) : pendingBits s = [] := by simp [pendingBits, h]

/-- One more bit pending. -/
theorem pendingBits_hold {s t : State} (b : Bool) (h : s.wcnt ≠ 7#3)
    (ha : t.wacc = setBit s.wacc (7 - s.wcnt.toNat) b) (hn : t.wcnt = s.wcnt + 1#3) :
    pendingBits t = pendingBits s ++ [b] ∧ t.wcnt.toNat = s.wcnt.toNat + 1 := by
  have hlt : s.wcnt.toNat < 7 := by
    have := s.wcnt.isLt
    have : s.wcnt.toNat ≠ 7 := fun e => h (BitVec.eq_of_toNat_eq e)
    omega
  have hc : t.wcnt.toNat = s.wcnt.toNat + 1 := by
    rw [hn, BitVec.toNat_add]
    simp
    omega
  refine ⟨?_, hc⟩
  unfold pendingBits
  rw [hc, ha, List.range_succ, List.map_append]
  congr 1
  · apply List.map_congr_left
    intro i hi
    have hi := List.mem_range.mp hi
    rw [getLsbD_setBit _ _ _ _ (by omega), if_neg (by omega)]
  · simp only [List.map_cons, List.map_nil]
    rw [getLsbD_setBit _ _ _ _ (by omega), if_pos rfl]

/-- The byte that the eighth bit completes. -/
theorem bitsOfByte_full {s : State} (b : Bool) (h : s.wcnt = 7#3) :
    bitsOfByte (setBit s.wacc 0 b) = pendingBits s ++ [b] := by
  have hg : ∀ i, i ≠ 0 → (setBit s.wacc 0 b).getLsbD i = s.wacc.getLsbD i := fun i hi => by
    rw [getLsbD_setBit _ _ _ _ (by decide), if_neg hi]
  have h0 : (setBit s.wacc 0 b).getLsbD 0 = b := by rw [getLsbD_setBit _ _ _ _ (by decide), if_pos rfl]
  rw [bitsOfByte_eq]
  simp only [pendingBits, h, h0, hg _ (by decide : (7 : Nat) ≠ 0), hg _ (by decide : (6 : Nat) ≠ 0),
    hg _ (by decide : (5 : Nat) ≠ 0), hg _ (by decide : (4 : Nat) ≠ 0), hg _ (by decide : (3 : Nat) ≠ 0),
    hg _ (by decide : (2 : Nat) ≠ 0), hg _ (by decide : (1 : Nat) ≠ 0)]
  rfl

theorem lowBitsZero_hold {s t : State} (b : Bool) (hz : lowBitsZero s)
    (ha : t.wacc = setBit s.wacc (7 - s.wcnt.toNat) b) (hn : t.wcnt.toNat = s.wcnt.toNat + 1) : lowBitsZero t := by
  intro i hi
  have := s.wcnt.isLt
  rw [ha, getLsbD_setBit _ _ _ _ (by omega), if_neg (by omega)]
  exact hz i (by omega)

theorem lowBitsZero_empty {s : State} (ha : s.wacc = 0#8) : lowBitsZero s := fun i _ => by simp [ha]

/-- Writing bits, none of the writes they complete failing: every eight make a byte of the sink, the rest stay pending (R151, R152). -/
theorem writeBits_ok (c : List Bool) : ∀ s : State, passes ((s.wcnt.toNat + c.length) / 8) s.sinkFail → lowBitsZero s →
    ∃ a n t, t = { s with wacc := a, wcnt := n, sinkFail := s.sinkFail.drop ((s.wcnt.toNat + c.length) / 8),
                          sink := s.sink ++ wholeBytes (pendingBits s ++ c) } ∧
      writeBits c s = .ok () t ∧ n.toNat = (s.wcnt.toNat + c.length) % 8 ∧
      pendingBits t = (pendingBits s ++ c).drop (8 * ((s.wcnt.toNat + c.length) / 8)) ∧ lowBitsZero t := by
  induction c with
  | nil =>
    intro s _ hz
    have hlt := s.wcnt.isLt
    have h0 : s.wcnt.toNat / 8 = 0 := by omega
    refine ⟨s.wacc, s.wcnt, s, ?_, rfl, ?_, ?_, hz⟩
    · simp [wholeBytes_short, length_pendingBits, h0, hlt]
    · simp only [List.length_nil, Nat.add_zero]; omega
    · simp [h0]
  | cons b c ih =>
    intro s hf hz
    have hlt := s.wcnt.isLt
    by_cases h7 : s.wcnt = 7#3
    · have h7n : s.wcnt.toNat = 7 := by simp [h7]
      have hwc : (0#3 : BitVec 3).toNat = 0 := rfl
      have hd : (s.wcnt.toNat + (b :: c).length) / 8 = c.length / 8 + 1 := by
        rw [h7n, List.length_cons]; omega
      obtain ⟨hd1, hf1⟩ := draw_of_passes (hd ▸ hf)
      obtain ⟨a, n, t, ht, hw, hn, hp, hl⟩ := ih { s with wacc := 0#8, wcnt := 0#3, sinkFail := s.sinkFail.drop 1,
                                                          sink := s.sink ++ [setBit s.wacc 0 b] }
        (by simpa [hwc] using hf1) (lowBitsZero_empty rfl)
      have hpe : pendingBits ({ s with wacc := 0#8, wcnt := 0#3, sinkFail := s.sinkFail.drop 1,
                                       sink := s.sink ++ [setBit s.wacc 0 b] } : State) = [] := pendingBits_empty rfl
      rw [hpe] at ht hp
      simp only [hwc, Nat.zero_add, List.nil_append] at ht hn hp
      have happ : pendingBits s ++ b :: c = bitsOfByte (setBit s.wacc 0 b) ++ c := by
        rw [bitsOfByte_full b h7]; simp
      refine ⟨a, n, t, ?_, ?_, ?_, ?_, hl⟩
      · rw [ht, hd, happ, wholeBytes_bitsOfByte]
        simp [Nat.add_comm]
      · rw [writeBits, writeBit_full_ok h7 hd1, bind_ok, hw]
      · rw [hn, h7n, List.length_cons]; omega
      · rw [hp, hd, happ, show 8 * (c.length / 8 + 1) = 8 + 8 * (c.length / 8) by ring, ← List.drop_drop,
          show (bitsOfByte (setBit s.wacc 0 b) ++ c).drop 8 = c from List.drop_left' (length_bitsOfByte _)]
    · have hold := writeBit_hold h7 b
      generalize hs1 : ({ s with wacc := setBit s.wacc (7 - s.wcnt.toNat) b, wcnt := s.wcnt + 1#3 } : State) = s1 at hold
      obtain ⟨hp1, hc1⟩ := pendingBits_hold (t := s1) b h7 (by rw [← hs1]) (by rw [← hs1])
      have hd : s.wcnt.toNat + (b :: c).length = s1.wcnt.toNat + c.length := by
        rw [hc1, List.length_cons]; omega
      obtain ⟨a, n, t, ht, hw, hn, hp, hl⟩ := ih s1 (by rw [← hd, ← hs1]; exact hf)
        (lowBitsZero_hold b hz (by rw [← hs1]) hc1)
      have happ : pendingBits s ++ b :: c = pendingBits s1 ++ c := by rw [hp1]; simp
      refine ⟨a, n, t, ?_, ?_, ?_, ?_, hl⟩
      · rw [ht, hd, happ, ← hs1]
      · rw [writeBits, hold, bind_ok, hw]
      · rw [hn, hd]
      · rw [hp, hd, happ]

/-- Writing bits when the write of byte `k` is the first to fail: the bytes before it stay in the sink, that byte in `WACC`
(R151, R152). -/
theorem writeBits_fails (c : List Bool) : ∀ (s : State) (k : Nat) (rest : List Bool),
    k < (s.wcnt.toNat + c.length) / 8 → s.sinkFail = List.replicate k false ++ true :: rest →
    ∃ b, (wholeBytes (pendingBits s ++ c))[k]? = some b ∧
      writeBits c s = .raised .sinkWrite { s with wacc := b, wcnt := 7#3, sinkFail := rest,
                                                  sink := s.sink ++ (wholeBytes (pendingBits s ++ c)).take k } := by
  induction c with
  | nil => intro s k rest hk; have := s.wcnt.isLt; simp only [List.length_nil] at hk; omega
  | cons b c ih =>
    intro s k rest hk hf
    by_cases h7 : s.wcnt = 7#3
    · have happ : pendingBits s ++ b :: c = bitsOfByte (setBit s.wacc 0 b) ++ c := by
        rw [bitsOfByte_full b h7]; simp
      rw [happ, wholeBytes_bitsOfByte, writeBits]
      rcases k with _ | k
      · have hd : draw s.sinkFail = (true, rest) := by simp [hf, draw]
        rcases writeBit_full h7 b with ⟨e, _⟩ | ⟨_, h1⟩
        · exact ⟨_, rfl, by rw [e, bind_raised, hd]; simp [← h7]⟩
        · simp [hd] at h1
      · have hd := (congrArg draw hf).trans (draw_replicate k rest)
        have hwc : (0#3 : BitVec 3).toNat = 0 := rfl
        have h7n : s.wcnt.toNat = 7 := by simp [h7]
        obtain ⟨w, hw, e⟩ := ih { s with wacc := 0#8, wcnt := 0#3, sinkFail := List.replicate k false ++ true :: rest,
                                         sink := s.sink ++ [setBit s.wacc 0 b] } k rest
          (by rw [h7n, List.length_cons] at hk; simp only [hwc]; omega) rfl
        have hpe : pendingBits ({ s with wacc := 0#8, wcnt := 0#3, sinkFail := List.replicate k false ++ true :: rest,
                                         sink := s.sink ++ [setBit s.wacc 0 b] } : State) = [] := pendingBits_empty rfl
        rw [hpe, List.nil_append] at hw e
        exact ⟨w, by simpa using hw, by rw [writeBit_full_ok h7 hd, bind_ok, e]; simp⟩
    · have hold := writeBit_hold h7 b
      generalize hs1 : ({ s with wacc := setBit s.wacc (7 - s.wcnt.toNat) b, wcnt := s.wcnt + 1#3 } : State) = s1 at hold
      obtain ⟨hp1, hc1⟩ := pendingBits_hold (t := s1) b h7 (by rw [← hs1]) (by rw [← hs1])
      obtain ⟨w, hw, e⟩ := ih s1 k rest (by rw [List.length_cons] at hk; rw [hc1]; omega) (by rw [← hs1]; exact hf)
      have happ : pendingBits s ++ b :: c = pendingBits s1 ++ c := by rw [hp1]; simp
      exact ⟨w, by rw [happ, hw], by rw [writeBits, hold, bind_ok, e, happ, ← hs1]⟩

/-- The last byte is the pending bits and zeros below them (R153). -/
theorem bitsOfByte_pending {s : State} (hz : lowBitsZero s) :
    bitsOfByte s.wacc = pendingBits s ++ List.replicate (8 - s.wcnt.toNat) false := by
  have hlt := s.wcnt.isLt
  apply List.ext_getElem
  · simp [length_pendingBits]; omega
  · intro i h1 h2
    have hi : i < 8 := by simpa using h1
    by_cases h : i < s.wcnt.toNat
    · simp [bitsOfByte, pendingBits, h]
    · rw [List.getElem_append_right (by rw [length_pendingBits]; omega)]
      simpa [bitsOfByte] using hz (7 - i) (by omega)

/-! ### The BitReader -/

theorem unreadBits_buffered {s : State} {n : Nat} (hr : s.rcnt.val = n + 1) (h : n < 8) :
    unreadBits s = s.rbuf.getLsbD n :: unreadBits { s with rcnt := ⟨n, Nat.lt_succ_of_lt h⟩ } := by
  unfold unreadBits
  rw [hr, List.range_succ_eq_map]
  simp only [List.map_cons, List.map_map, List.cons_append, Nat.add_sub_cancel, Nat.sub_zero, List.cons.injEq, true_and]
  congr 1
  apply List.map_congr_left
  intro i hi
  have := List.mem_range.mp hi
  show s.rbuf.getLsbD (n - (i + 1)) = s.rbuf.getLsbD (n - 1 - i)
  congr 1; omega

theorem unreadBits_fetch {s : State} (hr : s.rcnt = 0) (hl : s.spos < s.src.length) :
    unreadBits s = s.src[s.spos].getLsbD 7 ::
      unreadBits { s with spos := s.spos + 1, rbuf := s.src[s.spos], rcnt := 7 } := by
  have h0 : s.rcnt.val = 0 := by simp [hr]
  have h7 : (7 : Fin 9).val = 7 := rfl
  unfold unreadBits
  rw [h0, List.drop_eq_getElem_cons hl, bitsOfBytes_cons, bitsOfByte_eq]
  rfl

theorem unreadBits_eos {s : State} (h : unreadBits s = []) : s.rcnt = 0 ∧ s.src.length ≤ s.spos := by
  have hl := congrArg List.length h
  simp only [unreadBits, List.length_append, List.length_map, List.length_range, length_bitsOfBytes, List.length_drop,
    List.length_nil] at hl
  exact ⟨Fin.ext (by show s.rcnt.val = 0; omega), by omega⟩

/-- The bytes a bit needs, and the bits after it. -/
theorem bytesNeeded_one (s : State) : bytesNeeded s 1 = if s.rcnt = 0 then 1 else 0 := by
  have h : s.rcnt = 0 ↔ s.rcnt.val = 0 := ⟨fun h => by rw [h]; rfl, fun h => Fin.ext h⟩
  unfold bytesNeeded
  split <;> omega

/-- Reading in two parts takes the same bytes. -/
theorem bytesNeeded_add {s t : State} {m : Nat} (h : t.rcnt.val + m = s.rcnt.val + 8 * bytesNeeded s m) (n : Nat) :
    bytesNeeded s (m + n) = bytesNeeded s m + bytesNeeded t n := by
  have := t.rcnt.isLt
  unfold bytesNeeded at *
  omega

/-- `read_bit`, its read not failing if it needs one, gives the next unread bit (R154). -/
theorem readBit_ok {s : State} (hf : s.rcnt = 0 → passes 1 s.srcFail) {b : Bool} {rest : List Bool}
    (h : unreadBits s = b :: rest) :
    ∃ y n t, readBit s = .ok (some b) t ∧ unreadBits t = rest ∧
      t = { s with rbuf := y, rcnt := n, spos := if s.rcnt = 0 then s.spos + 1 else s.spos,
                   srcFail := if s.rcnt = 0 then s.srcFail.drop 1 else s.srcFail } ∧
      n.val + 1 = s.rcnt.val + 8 * bytesNeeded s 1 := by
  rw [bytesNeeded_one]
  by_cases hr : s.rcnt = 0
  · have hdr := (draw_of_passes (hf hr)).1
    simp only [if_pos hr]
    rcases readBit_empty hr with ⟨_, hd⟩ | ⟨_, _, hl⟩ | ⟨hl, hd, e⟩
    · simp [hdr] at hd
    · have h0 : s.rcnt.val = 0 := by simp [hr]
      simp [unreadBits, h0, List.drop_eq_nil_of_le hl] at h
    · rw [unreadBits_fetch hr hl] at h
      obtain ⟨rfl, hrest⟩ := List.cons.inj h
      rw [hdr] at e
      exact ⟨_, _, _, e, hrest, rfl, by rw [hr]; rfl⟩
  · simp only [if_neg hr]
    have hpos : s.rcnt.val ≠ 0 := fun h => hr (Fin.ext h)
    have hlt := s.rcnt.isLt
    have hn : s.rcnt.val = (s.rcnt.val - 1) + 1 := by omega
    rw [unreadBits_buffered hn (by omega)] at h
    obtain ⟨rfl, hrest⟩ := List.cons.inj h
    exact ⟨s.rbuf, _, _, readBit_buffered (by omega) hn, hrest, rfl, by simpa using hn.symm⟩

/-- A read that fails leaves the BitReader as it was (R154). -/
theorem readBit_fails {s : State} {rest : List Bool} (hr : s.rcnt = 0) (hf : s.srcFail = true :: rest) :
    readBit s = .raised .srcRead { s with srcFail := rest } := by
  have hd : draw s.srcFail = (true, rest) := by simp [hf, draw]
  rcases readBit_empty hr with ⟨e, _⟩ | ⟨_, h, _⟩ | ⟨_, h, _⟩
  · rw [e, hd]
  · simp [hd] at h
  · simp [hd] at h

/-- No unread bit is left: `EOS` (R154). -/
theorem readBit_eos {s : State} (hf : passes 1 s.srcFail) (h : unreadBits s = []) :
    readBit s = .ok none { s with srcFail := s.srcFail.drop 1 } := by
  obtain ⟨hr, hl⟩ := unreadBits_eos h
  rcases readBit_empty hr with ⟨_, hd⟩ | ⟨e, _, _⟩ | ⟨hl', _, _⟩
  · rw [(draw_of_passes hf).1] at hd; simp at hd
  · rw [e, (draw_of_passes hf).1]
  · omega

end Sys2Proof.Machine
end

