-- ==== Sys2Proof/Laws/Optimal.lean ====
section
/-! SUPPORT. Why merging the two lightest is optimal (43_tree_builder.md R189): the Kraft sum of a prefix code, and one merge. -/

namespace Sys2Proof.Machine

/-! ### The Kraft sum of a prefix code -/

/-- The lengths of the words of a prefix code have a Kraft sum of at most 1. -/
theorem kraft_of_prefixFree {α : Type} [DecidableEq α] (L : Nat) : ∀ (S : Finset α) (c : α → List Bool),
    (∀ x ∈ S, (c x).length ≤ L) → (∀ x ∈ S, ∀ y ∈ S, x ≠ y → ¬ (c x <+: c y)) →
    ∑ x ∈ S, 2 ^ (L - (c x).length) ≤ 2 ^ L := by
  induction L with
  | zero =>
    intro S c hl hp
    have h1 : S.card ≤ 1 := by
      rw [Finset.card_le_one]
      intro x hx y hy
      by_contra hne
      have := hl x hx
      exact hp x hx y hy hne (by rw [List.length_eq_zero_iff.mp (by omega : (c x).length = 0)]; exact List.nil_prefix)
    simpa using h1
  | succ L ih =>
    intro S c hl hp
    by_cases h0 : ∃ x ∈ S, c x = []
    · obtain ⟨x, hx, hc⟩ := h0
      have : S = {x} := by
        refine Finset.eq_singleton_iff_unique_mem.mpr ⟨hx, fun y hy => ?_⟩
        by_contra hne
        exact hp x hx y hy (Ne.symm hne) (by rw [hc]; exact List.nil_prefix)
      rw [this]; simp [hc]
    · have hne : ∀ x ∈ S, c x ≠ [] := fun x hx h => h0 ⟨x, hx, h⟩
      have side : ∀ b : Bool, ∑ x ∈ S.filter (fun x => (c x).head? = some b), 2 ^ (L + 1 - (c x).length) ≤ 2 ^ L := by
        intro b
        have hcons : ∀ x ∈ S.filter (fun x => (c x).head? = some b), c x = b :: (c x).tail := by
          intro x hx
          obtain ⟨hx, hh⟩ := Finset.mem_filter.mp hx
          cases hcx : c x with
          | nil => exact absurd hcx (hne x hx)
          | cons d l => rw [hcx] at hh; simpa using hh
        have hlen : ∀ x ∈ S.filter (fun x => (c x).head? = some b), (c x).length = (c x).tail.length + 1 := by
          intro x hx
          conv => lhs; rw [hcons x hx]
          simp
        calc _ = ∑ x ∈ S.filter (fun x => (c x).head? = some b), 2 ^ (L - ((c x).tail).length) := by
              refine Finset.sum_congr rfl fun x hx => ?_
              rw [hlen x hx, Nat.add_sub_add_right]
          _ ≤ _ := by
              refine ih _ (fun x => (c x).tail) (fun x hx => ?_) fun x hx y hy hxy h => ?_
              · have := hl x (Finset.mem_filter.mp hx).1
                have := hlen x hx
                omega
              · refine hp x (Finset.mem_filter.mp hx).1 y (Finset.mem_filter.mp hy).1 hxy ?_
                rw [hcons x hx, hcons y hy]
                exact List.cons_prefix_cons.mpr ⟨rfl, h⟩
      have hsplit : S = S.filter (fun x => (c x).head? = some false) ∪ S.filter (fun x => (c x).head? = some true) := by
        ext x
        simp only [Finset.mem_union, Finset.mem_filter]
        constructor
        · intro hx
          cases hcx : c x with
          | nil => exact absurd hcx (hne x hx)
          | cons d l => cases d <;> simp [hx]
        · rintro (⟨h, _⟩ | ⟨h, _⟩) <;> exact h
      have hdisj : Disjoint (S.filter fun x => (c x).head? = some false) (S.filter fun x => (c x).head? = some true) := by
        rw [Finset.disjoint_filter]
        intro x _ h1 h2
        rw [h1] at h2; simp at h2
      rw [hsplit, Finset.sum_union hdisj]
      have := side false
      have := side true
      rw [pow_succ]; omega

/-! ### Length assignments -/

/-- The lengths `l` of the members of `S` satisfy Kraft's inequality. -/
def kraftOk {α : Type} (S : Finset α) (l : α → Nat) : Prop := ∑ x ∈ S, (1 / 2 : ℚ) ^ l x ≤ 1

/-- The cost of the lengths `l`. -/
def codeCost {α : Type} (S : Finset α) (f l : α → Nat) : Nat := ∑ x ∈ S, f x * l x

theorem kraftOk_of_prefixFree {α : Type} [DecidableEq α] (S : Finset α) (c : α → List Bool)
    (hp : ∀ x ∈ S, ∀ y ∈ S, x ≠ y → ¬ (c x <+: c y)) : kraftOk S fun x => (c x).length := by
  obtain ⟨L, hL⟩ : ∃ L, ∀ x ∈ S, (c x).length ≤ L :=
    ⟨S.sup fun x => (c x).length, fun x hx => Finset.le_sup (f := fun x => (c x).length) hx⟩
  have h := kraft_of_prefixFree L S c hL hp
  have h2 : (0 : ℚ) < 2 ^ L := by positivity
  unfold kraftOk
  rw [← mul_le_mul_iff_left₀ h2, Finset.sum_mul, one_mul]
  calc _ = ∑ x ∈ S, (2 : ℚ) ^ (L - (c x).length) := by
        refine Finset.sum_congr rfl fun x hx => ?_
        rw [one_div, inv_pow, pow_sub₀ _ two_ne_zero (hL x hx), mul_comm]
    _ ≤ _ := by exact_mod_cast h

/-- Exchanging the lengths of `a` and `x`, `x` the longer and no lighter, keeps Kraft's sum and does not raise the cost. -/
theorem swap_lengths {α : Type} [DecidableEq α] {S : Finset α} {f l : α → Nat} {a x : α} (ha : a ∈ S) (hx : x ∈ S)
    (hf : f a ≤ f x) (hl : l a ≤ l x) (hk : kraftOk S l) :
    kraftOk S (l ∘ Equiv.swap a x) ∧ codeCost S f (l ∘ Equiv.swap a x) ≤ codeCost S f l := by
  by_cases hax : a = x
  · subst hax; simpa using hk
  have himg : ∀ y, y ∈ S ↔ Equiv.swap a x y ∈ S := by
    intro y
    by_cases h1 : y = a
    · subst h1; simp [ha, hx]
    · by_cases h2 : y = x
      · subst h2; simp [ha, hx]
      · rw [Equiv.swap_apply_of_ne_of_ne h1 h2]
  constructor
  · unfold kraftOk at *
    exact le_of_eq_of_le (Finset.sum_equiv (Equiv.swap a x) (t := S) (g := fun y => (1 / 2 : ℚ) ^ l y) himg fun y _ => rfl) hk
  · have hxm : x ∈ S.erase a := Finset.mem_erase.mpr ⟨Ne.symm hax, hx⟩
    unfold codeCost
    rw [← Finset.add_sum_erase S _ ha, ← Finset.add_sum_erase _ _ hxm, ← Finset.add_sum_erase S (fun y => f y * l y) ha,
      ← Finset.add_sum_erase _ (fun y => f y * l y) hxm]
    have hrest : ∑ y ∈ (S.erase a).erase x, f y * (l ∘ Equiv.swap a x) y = ∑ y ∈ (S.erase a).erase x, f y * l y := by
      refine Finset.sum_congr rfl fun y hy => ?_
      obtain ⟨h1, h2⟩ := Finset.mem_erase.mp hy
      rw [Function.comp, Equiv.swap_apply_of_ne_of_ne (Finset.mem_erase.mp h2).1 h1]
    rw [hrest]
    simp only [Function.comp, Equiv.swap_apply_left, Equiv.swap_apply_right]
    obtain ⟨d, hd⟩ := Nat.exists_eq_add_of_le hl
    have : f a * d ≤ f x * d := Nat.mul_le_mul_right d hf
    rw [hd]
    nlinarith

/-- The step of Huffman's argument: with `a` and `b` the lightest two, some lengths of the merged set cost less by at least
the merged weight. -/
theorem merge_lengths {α : Type} [DecidableEq α] {S : Finset α} {f l : α → Nat} {a b m : α} (ha : a ∈ S) (hb : b ∈ S)
    (hab : a ≠ b) (hfab : f a ≤ f b) (hmin : ∀ x ∈ S, x ≠ a → x ≠ b → f b ≤ f x) (hm : m ∉ S) (hfm : f m = f a + f b)
    (hk : kraftOk S l) :
    ∃ l', kraftOk (insert m ((S.erase a).erase b)) l' ∧
      codeCost (insert m ((S.erase a).erase b)) f l' + f m ≤ codeCost S f l := by
  -- the longest length goes to `a`
  obtain ⟨x, hx, hxmax⟩ := Finset.exists_max_image S l ⟨a, ha⟩
  have hfx : f a ≤ f x := by
    by_cases h1 : x = a
    · rw [h1]
    · by_cases h2 : x = b
      · rw [h2]; exact hfab
      · exact hfab.trans (hmin x hx h1 h2)
  obtain ⟨hk1, hc1⟩ := swap_lengths ha hx hfx (hxmax a ha) hk
  have hmax1 : ∀ y ∈ S, (l ∘ Equiv.swap a x) y ≤ (l ∘ Equiv.swap a x) a := by
    intro y hy
    simp only [Function.comp, Equiv.swap_apply_left]
    by_cases h1 : y = a
    · subst h1; simp
    · by_cases h2 : y = x
      · subst h2; simpa using hxmax a ha
      · rw [Equiv.swap_apply_of_ne_of_ne h1 h2]; exact hxmax y hy
  generalize l ∘ Equiv.swap a x = l1 at hk1 hc1 hmax1
  -- the longest of the rest goes to `b`
  have hbS : b ∈ S.erase a := Finset.mem_erase.mpr ⟨Ne.symm hab, hb⟩
  obtain ⟨z, hz, hzmax⟩ := Finset.exists_max_image (S.erase a) l1 ⟨b, hbS⟩
  obtain ⟨hza, hzS⟩ := Finset.mem_erase.mp hz
  have hfz : f b ≤ f z := by
    by_cases h2 : z = b
    · rw [h2]
    · exact hmin z hzS hza h2
  obtain ⟨hk2, hc2⟩ := swap_lengths hb hzS hfz (hzmax b hbS) hk1
  have hmax2 : ∀ y ∈ S.erase a, (l1 ∘ Equiv.swap b z) y ≤ (l1 ∘ Equiv.swap b z) b := by
    intro y hy
    simp only [Function.comp, Equiv.swap_apply_left]
    by_cases h1 : y = b
    · subst h1; simp
    · by_cases h2 : y = z
      · subst h2; simpa using hzmax b hbS
      · rw [Equiv.swap_apply_of_ne_of_ne h1 h2]; exact hzmax y hy
  have hab2 : (l1 ∘ Equiv.swap b z) b ≤ (l1 ∘ Equiv.swap b z) a := by
    simp only [Function.comp, Equiv.swap_apply_left]
    rw [Equiv.swap_apply_of_ne_of_ne hab (Ne.symm hza)]
    exact hmax1 z hzS
  generalize l1 ∘ Equiv.swap b z = l2 at hk2 hc2 hmax2 hab2
  -- the two longest can be made equal
  have hsum : ∑ y ∈ S.erase a, (1 / 2 : ℚ) ^ l2 y + (1 / 2 : ℚ) ^ l2 b ≤ 1 := by
    have h2 : (0 : ℚ) < 2 ^ l2 b := by positivity
    have hlt : ∑ y ∈ S.erase a, (1 / 2 : ℚ) ^ l2 y < 1 := by
      have := hk2
      unfold kraftOk at this
      rw [← Finset.add_sum_erase S _ ha] at this
      have : (0 : ℚ) < (1 / 2) ^ l2 a := by positivity
      linarith
    have hnat : ∑ y ∈ S.erase a, (1 / 2 : ℚ) ^ l2 y = (∑ y ∈ S.erase a, 2 ^ (l2 b - l2 y) : Nat) / 2 ^ l2 b := by
      rw [eq_div_iff h2.ne', Finset.sum_mul, Nat.cast_sum]
      refine Finset.sum_congr rfl fun y hy => ?_
      rw [Nat.cast_pow, Nat.cast_ofNat, one_div, inv_pow, pow_sub₀ _ two_ne_zero (hmax2 y hy), mul_comm]
    rw [hnat, div_lt_one h2] at hlt
    have hlt' : (∑ y ∈ S.erase a, 2 ^ (l2 b - l2 y)) + 1 ≤ 2 ^ l2 b := by exact_mod_cast hlt
    have hlt2 : ((∑ y ∈ S.erase a, 2 ^ (l2 b - l2 y) : Nat) : ℚ) + 1 ≤ 2 ^ l2 b := by exact_mod_cast hlt'
    rw [hnat, one_div, inv_pow, inv_eq_one_div, ← add_div, div_le_one h2]
    exact hlt2
  -- and merged
  have hbb : ∑ y ∈ (S.erase a).erase b, (1 / 2 : ℚ) ^ l2 y + 2 * (1 / 2 : ℚ) ^ l2 b ≤ 1 := by
    rw [← Finset.add_sum_erase _ _ hbS] at hsum
    linarith
  have hpos : l2 b ≠ 0 := by
    intro h0
    have : 0 ≤ ∑ y ∈ (S.erase a).erase b, (1 / 2 : ℚ) ^ l2 y := Finset.sum_nonneg fun y _ => by positivity
    rw [h0] at hbb
    norm_num at hbb
    linarith
  obtain ⟨k, hk'⟩ := Nat.exists_eq_succ_of_ne_zero hpos
  have hmem : m ∉ (S.erase a).erase b := fun h => hm (Finset.mem_of_mem_erase (Finset.mem_of_mem_erase h))
  have hupd : ∀ y ∈ (S.erase a).erase b, Function.update l2 m k y = l2 y := fun y hy =>
    Function.update_of_ne (fun h => hmem (by rw [← h]; exact hy)) _ _
  refine ⟨Function.update l2 m k, ?_, ?_⟩
  · unfold kraftOk
    rw [Finset.sum_insert hmem, Function.update_self, Finset.sum_congr rfl fun y hy => by rw [hupd y hy]]
    rw [hk', pow_succ] at hbb
    linarith
  · unfold codeCost at *
    rw [Finset.sum_insert hmem, Function.update_self, Finset.sum_congr rfl fun y hy => by rw [hupd y hy]]
    rw [← Finset.add_sum_erase S (fun y => f y * l2 y) ha, ← Finset.add_sum_erase _ (fun y => f y * l2 y) hbS] at hc2
    have : f a * l2 b ≤ f a * l2 a := Nat.mul_le_mul_left _ hab2
    rw [hfm]
    rw [hk'] at hc2 this
    simp only [Nat.succ_eq_add_one] at *
    nlinarith

end Sys2Proof.Machine
end

