-- ==== Sys2Proof/Laws/Tree.lean ====
section
/-! SUPPORT. The tree operations: everything node allocation, the priority queue, `BUILD`, `GEN` and `RECON` can do, and
what they leave alone (43_tree_builder.md, 44_code_table.md, 46_decoder.md R235 to R239). -/

namespace Sys2Proof.Machine

/-! ### Node allocation (10_state.md R30) -/

/-- A new node takes index `NCNT` and `NCNT` grows by one, or all 511 entries are used. -/
theorem allocNode_cases (nd : Node) (s : State) :
    (∃ h : s.ncnt.toNat < 511, allocNode nd s =
        some (⟨s.ncnt.toNat, h⟩, { setNode ⟨s.ncnt.toNat, h⟩ nd s with ncnt := s.ncnt + 1#9 }) ∧
      (s.ncnt + 1#9).toNat = s.ncnt.toNat + 1) ∨
    (511 ≤ s.ncnt.toNat ∧ allocNode nd s = none) := by
  by_cases h : s.ncnt.toNat < 511
  · refine .inl ⟨h, by simp [allocNode, h], ?_⟩
    rw [BitVec.toNat_add]
    simp
    omega
  · exact .inr ⟨by omega, by simp [allocNode, h]⟩

/-- The node made, and all others as before. -/
theorem nodeAt_allocNode {nd : Node} {s t : State} {i : NodeIdx} (h : allocNode nd s = some (i, t)) :
    nodeAt t i = nd ∧ (∀ j, j ≠ i → nodeAt t j = nodeAt s j) ∧ i.val = s.ncnt.toNat ∧
      t.ncnt.toNat = s.ncnt.toNat + 1 := by
  rcases allocNode_cases nd s with ⟨hn, e, hc⟩ | ⟨_, e⟩
  · rw [e] at h
    obtain ⟨rfl, rfl⟩ : _ = i ∧ _ = t := by simpa using h
    exact ⟨nodeAt_setNode_self ⟨s.ncnt.toNat, hn⟩ nd s, fun j hj => nodeAt_setNode_ne hj nd s, rfl, hc⟩
  · rw [e] at h; simp at h

/-- `allocNode` changes the node memory and its count, nothing else. -/
theorem allocNode_frame {nd : Node} {s t : State} {i : NodeIdx} (h : allocNode nd s = some (i, t)) :
    ∃ m n, t = { s with node := m, ncnt := n } := by
  rcases allocNode_cases nd s with ⟨hn, e, _⟩ | ⟨_, e⟩
  · rw [e] at h
    obtain ⟨rfl, rfl⟩ : _ = i ∧ _ = t := by simpa using h
    exact ⟨_, _, rfl⟩
  · rw [e] at h; simp at h

/-- Allocation inside `BUILD`: below 511 nodes it answers. -/
theorem buildNode_cases (nd : Node) (s : State) :
    (∃ h : s.ncnt.toNat < 511, buildNode nd s =
        .ok ⟨s.ncnt.toNat, h⟩ { setNode ⟨s.ncnt.toNat, h⟩ nd s with ncnt := s.ncnt + 1#9 } ∧
      (s.ncnt + 1#9).toNat = s.ncnt.toNat + 1) ∨
    (511 ≤ s.ncnt.toNat ∧ buildNode nd s = .stuck .buildOverrun) := by
  rcases allocNode_cases nd s with ⟨h, e, hc⟩ | ⟨h, e⟩
  · exact .inl ⟨h, by simp [buildNode, e], hc⟩
  · exact .inr ⟨h, by simp [buildNode, e]⟩

theorem buildNode_frame {nd : Node} {s t : State} {i : NodeIdx} (h : buildNode nd s = .ok i t) :
    ∃ m n, t = { s with node := m, ncnt := n } := by
  rcases buildNode_cases nd s with ⟨hn, e, _⟩ | ⟨_, e⟩ <;> rw [e] at h
  · obtain ⟨rfl, rfl⟩ : _ = i ∧ _ = t := by simpa using h
    exact ⟨_, _, rfl⟩
  · simp at h

theorem buildNode_never_raises (nd : Node) (s : State) (c : SubCode) (t : State) : buildNode nd s ≠ .raised c t := by
  rcases buildNode_cases nd s with ⟨_, e, _⟩ | ⟨_, e⟩ <;> simp [e]

/-! ### The priority queue (43_tree_builder.md R183) -/

/-- The queue's order as the rule says it: by frequency, ties by index. -/
theorem queueBefore_iff (s : State) (i j : NodeIdx) :
    queueBefore s i j = true ↔ (nodeAt s i).freq.toNat < (nodeAt s j).freq.toNat ∨
      ((nodeAt s i).freq.toNat = (nodeAt s j).freq.toNat ∧ i.val < j.val) := by simp [queueBefore]

/-- `queueMin` is one of the members. -/
theorem queueMin_mem (s : State) (q : List NodeIdx) : ∀ i, queueMin s i q ∈ i :: q := by
  induction q with
  | nil => intro i; simp [queueMin]
  | cons j q ih =>
    intro i
    have hc : (if queueBefore s j i then j else i) ∈ [i, j] := by split <;> simp
    have := ih (if queueBefore s j i then j else i)
    simp only [queueMin]
    generalize (if queueBefore s j i then j else i) = k at this hc
    simp only [List.mem_cons, List.not_mem_nil, or_false] at this hc ⊢
    rcases this with h | h
    · rcases hc with hc | hc
      · exact .inl (h.trans hc)
      · exact .inr (.inl (h.trans hc))
    · exact .inr (.inr h)

theorem removeMin_nil (s : State) : removeMin s [] = none := rfl

theorem removeMin_cons (s : State) (i : NodeIdx) (q : List NodeIdx) :
    removeMin s (i :: q) = some (queueMin s i q, (i :: q).erase (queueMin s i q)) := rfl

/-- `remove_min` takes one member out. -/
theorem removeMin_length {s : State} {q q' : List NodeIdx} {a : NodeIdx} (h : removeMin s q = some (a, q')) :
    a ∈ q ∧ q.length = q'.length + 1 := by
  cases q with
  | nil => simp [removeMin] at h
  | cons i q =>
    rw [removeMin_cons] at h
    obtain ⟨rfl, rfl⟩ : _ = a ∧ _ = q' := by simpa using h
    have hm := queueMin_mem s q i
    refine ⟨hm, ?_⟩
    rw [List.length_erase_of_mem hm]
    simp

/-- `remove_min` depends on the node memory only. -/
theorem removeMin_congr {s t : State} (h : s.node = t.node) (q : List NodeIdx) : removeMin s q = removeMin t q := by
  have hn : ∀ i, nodeAt s i = nodeAt t i := fun i => by simp [nodeAt, h]
  have hb : ∀ i j, queueBefore s i j = queueBefore t i j := fun i j => by simp [queueBefore, hn]
  have hq : ∀ (q : List NodeIdx) i, queueMin s i q = queueMin t i q := by
    intro q
    induction q with
    | nil => intro i; rfl
    | cons j q ih => intro i; simp [queueMin, hb, ih]
  cases q with
  | nil => rfl
  | cons i q => simp [removeMin, hq]

/-! ### `BUILD` -/

/-- Seeding and merging write the node memory and its count, nothing else, and raise nothing. -/
theorem seedLeaves_frame (ys : List Sym) : ∀ s : State,
    (∃ q m n, seedLeaves ys s = .ok q { s with node := m, ncnt := n }) ∨ seedLeaves ys s = .stuck .buildOverrun := by
  induction ys with
  | nil => intro s; exact .inl ⟨[], s.node, s.ncnt, rfl⟩
  | cons y ys ih =>
    intro s
    rcases buildNode_cases { tag := .leaf, sym := y, freq := freqOf s y, left := none, right := none } s with
      ⟨h, e, _⟩ | ⟨_, e⟩
    · rcases ih { setNode ⟨s.ncnt.toNat, h⟩ { tag := .leaf, sym := y, freq := freqOf s y, left := none, right := none } s
          with ncnt := s.ncnt + 1#9 } with ⟨q, m, n, e'⟩ | e'
      · exact .inl ⟨⟨s.ncnt.toNat, h⟩ :: q, m, n, by rw [seedLeaves, e, bind_ok, e', bind_ok]; rfl⟩
      · exact .inr (by rw [seedLeaves, e, bind_ok, e', bind_stuck])
    · exact .inr (by rw [seedLeaves, e, bind_stuck])

/-- The merge loop on an empty queue, on a queue of one, out of merges, and one merge on (R184). -/
theorem mergeLoop_empty (k : Nat) {q : List NodeIdx} {s : State} (h : removeMin s q = none) :
    mergeLoop k q s = .stuck .buildOverrun := by
  unfold mergeLoop; simp only [h]

theorem mergeLoop_last (k : Nat) {q q1 : List NodeIdx} {s : State} {a : NodeIdx} (h : removeMin s q = some (a, q1))
    (h1 : removeMin s q1 = none) : mergeLoop k q s = .ok a s := by
  unfold mergeLoop; simp only [h, h1]

theorem mergeLoop_zero {q q1 : List NodeIdx} {s : State} {a : NodeIdx} {p : NodeIdx × List NodeIdx}
    (h : removeMin s q = some (a, q1)) (h1 : removeMin s q1 = some p) : mergeLoop 0 q s = .stuck .buildOverrun := by
  unfold mergeLoop; simp only [h, h1]

theorem mergeLoop_step (k : Nat) {q q1 q2 : List NodeIdx} {s : State} {a b : NodeIdx} (h : removeMin s q = some (a, q1))
    (h1 : removeMin s q1 = some (b, q2)) :
    mergeLoop (k + 1) q s = (buildNode (mergedNode s a b) s).bind fun i s1 => mergeLoop k (q2 ++ [i]) s1 := by
  conv => lhs; unfold mergeLoop
  simp only [h, h1]

theorem mergeLoop_frame (k : Nat) : ∀ (q : List NodeIdx) (s : State),
    (∃ r m n, mergeLoop k q s = .ok r { s with node := m, ncnt := n }) ∨ mergeLoop k q s = .stuck .buildOverrun := by
  induction k with
  | zero =>
    intro q s
    cases h1 : removeMin s q with
    | none => exact .inr (mergeLoop_empty 0 h1)
    | some p =>
      cases h2 : removeMin s p.2 with
      | none => exact .inl ⟨p.1, s.node, s.ncnt, mergeLoop_last 0 h1 h2⟩
      | some p2 => exact .inr (mergeLoop_zero h1 h2)
  | succ k ih =>
    intro q s
    cases h1 : removeMin s q with
    | none => exact .inr (mergeLoop_empty _ h1)
    | some p =>
      cases h2 : removeMin s p.2 with
      | none => exact .inl ⟨p.1, s.node, s.ncnt, mergeLoop_last _ h1 h2⟩
      | some p2 =>
        rw [mergeLoop_step k h1 h2]
        rcases buildNode_cases (mergedNode s p.1 p2.1) s with ⟨h, e, _⟩ | ⟨_, e⟩
        · rw [e, bind_ok]
          exact ih (p2.2 ++ [⟨s.ncnt.toNat, h⟩])
            { setNode ⟨s.ncnt.toNat, h⟩ (mergedNode s p.1 p2.1) s with ncnt := s.ncnt + 1#9 }
        · exact .inr (by rw [e, bind_stuck])

theorem growTree_frame (q : List NodeIdx) (s : State) :
    (∃ r m n, growTree q s = .ok r { s with node := m, ncnt := n }) ∨ growTree q s = .stuck .buildOverrun := by
  by_cases h : ∃ i, q = [i]
  · obtain ⟨i, rfl⟩ := h
    rcases buildNode_cases { tag := .int, sym := 0#8, freq := (nodeAt s i).freq, left := some i, right := none } s with
      ⟨h, e, _⟩ | ⟨_, e⟩
    · exact .inl ⟨_, _, _, e⟩
    · exact .inr e
  · have : growTree q s = mergeLoop q.length q s := by
      unfold growTree
      split
      · exact absurd ⟨_, rfl⟩ h
      · rfl
    rw [this]
    exact mergeLoop_frame _ q s

/-- Everything `BUILD` past the common checks can do. -/
theorem buildBody_cases (s : State) :
    (presentSyms s = [] ∧ buildBody s = .raised .empty s) ∨
    (presentSyms s ≠ [] ∧ 2 ^ 64 ≤ freqSum s ∧ buildBody s = .raised .freqOvf s) ∨
    (presentSyms s ≠ [] ∧ freqSum s < 2 ^ 64 ∧
      ((∃ r m n, buildBody s = .ok 0#64
          { s with node := m, ncnt := n, root := some r, total := m[r.val].freq, phase := .tree }) ∨
        buildBody s = .stuck .buildOverrun)) := by
  by_cases h1 : presentSyms s = []
  · exact .inl ⟨h1, by simp [buildBody, h1]⟩
  · by_cases h2 : 2 ^ 64 ≤ freqSum s
    · exact .inr (.inl ⟨h1, h2, by rw [buildBody, if_neg h1, if_pos h2]⟩)
    · refine .inr (.inr ⟨h1, by omega, ?_⟩)
      rw [buildBody, if_neg h1, if_neg h2]
      rcases seedLeaves_frame (presentSyms s) { s with ncnt := 0#9 } with ⟨q, m, n, e⟩ | e
      · rw [e, bind_ok]
        rcases growTree_frame q { s with node := m, ncnt := n } with ⟨r, m', n', e'⟩ | e'
        · exact .inl ⟨r, m', n', by rw [e', bind_ok]; rfl⟩
        · exact .inr (by rw [e', bind_stuck])
      · exact .inr (by rw [e, bind_stuck])

/-! ### `GEN` (44_code_table.md) -/

/-- At a leaf the walk stores the path. -/
theorem genWalk_leaf (d : Nat) {i : NodeIdx} (p : List Bool) {s : State} (h : (nodeAt s i).tag = .leaf) :
    genWalk (d + 1) i p s = .ok () (setCode (nodeAt s i).sym p.length (packCode p) s) := by
  rw [genWalk, if_pos h]

/-- The walk below one child: nothing where there is none (R205). -/
def genSide (d : Nat) (c : Ptr) (p : List Bool) (s : State) : Res Unit :=
  match c with
  | none => .ok () s
  | some j => genWalk d j p s

/-- At an internal node the walk goes left with 0, then right with 1 (R200). -/
theorem genWalk_int (d : Nat) {i : NodeIdx} (p : List Bool) {s : State} (h : (nodeAt s i).tag ≠ .leaf) :
    genWalk (d + 1) i p s = (genSide d (nodeAt s i).left (p ++ [false]) s).bind fun _ s1 =>
      genSide d (nodeAt s i).right (p ++ [true]) s1 := by
  rw [genWalk, if_neg h]
  rfl

/-- The walk writes the CodeTable, nothing else, and raises nothing. -/
theorem genWalk_frame (d : Nat) : ∀ (i : NodeIdx) (p : List Bool) (s : State),
    (∃ a b, genWalk d i p s = .ok () { s with clen := a, cbits := b }) ∨ genWalk d i p s = .stuck .walkTooDeep := by
  induction d with
  | zero => intro i p s; exact .inr rfl
  | succ d ih =>
    intro i p s
    by_cases hl : (nodeAt s i).tag = .leaf
    · exact .inl ⟨_, _, genWalk_leaf d p hl⟩
    · rw [genWalk_int d p hl]
      have side : ∀ (c : Ptr) (q : List Bool) (u : State),
          (∃ x y, genSide d c q u = .ok () { u with clen := x, cbits := y }) ∨
            genSide d c q u = .stuck .walkTooDeep := by
        intro c q u
        cases c with
        | none => exact .inl ⟨u.clen, u.cbits, rfl⟩
        | some j => exact ih j q u
      rcases side (nodeAt s i).left (p ++ [false]) s with ⟨x, y, e⟩ | e
      · rw [e, bind_ok]
        exact side (nodeAt s i).right (p ++ [true]) { s with clen := x, cbits := y }
      · exact .inr (by rw [e, bind_stuck])

/-- Everything `GEN` past the common checks can do. -/
theorem genBody_cases (s : State) :
    (s.root = none ∧ genBody s = .stuck .nilPointer) ∨
    (∃ r, s.root = some r ∧
      ((∃ a b, genWalk (Config.codeMax + 1) r [] s = .ok () { s with clen := a, cbits := b } ∧
          genBody s = .ok 0#64 { s with clen := a, cbits := b, phase := .codes }) ∨
        genBody s = .stuck .walkTooDeep)) := by
  rcases hr : s.root with _ | r
  · exact .inl ⟨rfl, by simp [genBody, hr]⟩
  · refine .inr ⟨r, rfl, ?_⟩
    rcases genWalk_frame (Config.codeMax + 1) r [] s with ⟨a, b, e⟩ | e
    · exact .inl ⟨a, b, hr ▸ e, by simp only [genBody, hr, e, bind_ok]⟩
    · exact .inr (by simp only [genBody, hr, e, bind_stuck])

/-! ### `RECON` (46_decoder.md) -/

/-- The prefixes of the codes, as the rule says them (R237). -/
theorem mem_codePrefixes (s : State) (p : List Bool) :
    p ∈ codePrefixes s ↔ ∃ (y : Sym), clenOf s y ≠ 0#8 ∧ p <+: codeOf s y := by
  simp [codePrefixes, mem_codedSyms]

/-- The four ways one bit of a code is inserted (R235): onto a leaf, into an existing child, into a new node, or with the
node memory full. -/
theorem insertPath_leaf (b : Bool) (c : List Bool) {i : NodeIdx} {s : State} (h : (nodeAt s i).tag = .leaf) :
    insertPath i (b :: c) s = .raised .hdrPrefix s := by rw [insertPath, if_pos h]

theorem insertPath_down {b : Bool} (c : List Bool) {i j : NodeIdx} {s : State} (h : (nodeAt s i).tag ≠ .leaf)
    (hc : child (nodeAt s i) b = some j) : insertPath i (b :: c) s = insertPath j c s := by
  rw [insertPath, if_neg h]; simp only [hc]

theorem insertPath_new {b : Bool} (c : List Bool) {i j : NodeIdx} {s u : State} (h : (nodeAt s i).tag ≠ .leaf)
    (hc : child (nodeAt s i) b = none) (ha : allocNode Node.free s = some (j, u)) :
    insertPath i (b :: c) s = insertPath j c (setChild i b (some j) u) := by
  rw [insertPath, if_neg h]; simp only [hc, ha]

theorem insertPath_full {b : Bool} (c : List Bool) {i : NodeIdx} {s : State} (h : (nodeAt s i).tag ≠ .leaf)
    (hc : child (nodeAt s i) b = none) (ha : allocNode Node.free s = none) :
    insertPath i (b :: c) s = .raised .hdrNodes s := by
  rw [insertPath, if_neg h]; simp only [hc, ha]

/-- Walking or creating the nodes of a code writes the node memory and its count; its faults are the two of R236, R237. -/
theorem insertPath_frame (c : List Bool) : ∀ (i : NodeIdx) (s : State),
    ∃ m n, (∃ j, insertPath i c s = .ok j { s with node := m, ncnt := n }) ∨
      insertPath i c s = .raised .hdrPrefix { s with node := m, ncnt := n } ∨
      insertPath i c s = .raised .hdrNodes { s with node := m, ncnt := n } := by
  induction c with
  | nil => intro i s; exact ⟨s.node, s.ncnt, .inl ⟨i, rfl⟩⟩
  | cons b c ih =>
    intro i s
    by_cases hl : (nodeAt s i).tag = .leaf
    · exact ⟨s.node, s.ncnt, .inr (.inl (insertPath_leaf b c hl))⟩
    · cases hc : child (nodeAt s i) b with
      | some j => rw [insertPath_down c hl hc]; exact ih j s
      | none =>
        cases ha : allocNode Node.free s with
        | none => exact ⟨s.node, s.ncnt, .inr (.inr (insertPath_full c hl hc ha))⟩
        | some p =>
          obtain ⟨m, n, hp⟩ := allocNode_frame (i := p.1) (t := p.2) ha
          rw [insertPath_new c hl hc ha, hp]
          exact ih p.1 (setChild i b (some p.1) { s with node := m, ncnt := n })

theorem insertCode_frame (y : Sym) (s : State) :
    ∃ m n, insertCode y s = .ok () { s with node := m, ncnt := n } ∨
      insertCode y s = .raised .hdrPrefix { s with node := m, ncnt := n } ∨
      insertCode y s = .raised .hdrNodes { s with node := m, ncnt := n } := by
  obtain ⟨m, n, ⟨j, e⟩ | e | e⟩ := insertPath_frame (codeOf s y) 0 s
  · by_cases hb : isBare (nodeAt { s with node := m, ncnt := n } j)
    · exact ⟨_, n, .inl (by rw [insertCode, e, bind_ok, if_pos hb]; rfl)⟩
    · exact ⟨m, n, .inr (.inl (by rw [insertCode, e, bind_ok, if_neg hb]))⟩
  · exact ⟨m, n, .inr (.inl (by rw [insertCode, e, bind_raised]))⟩
  · exact ⟨m, n, .inr (.inr (by rw [insertCode, e, bind_raised]))⟩

theorem insertCodes_frame (ys : List Sym) : ∀ s : State,
    ∃ m n, insertCodes ys s = .ok () { s with node := m, ncnt := n } ∨
      insertCodes ys s = .raised .hdrPrefix { s with node := m, ncnt := n } ∨
      insertCodes ys s = .raised .hdrNodes { s with node := m, ncnt := n } := by
  induction ys with
  | nil => intro s; exact ⟨s.node, s.ncnt, .inl rfl⟩
  | cons y ys ih =>
    intro s
    obtain ⟨m, n, e | e | e⟩ := insertCode_frame y s
    · obtain ⟨m', n', h⟩ := ih { s with node := m, ncnt := n }
      exact ⟨m', n', by simpa only [insertCodes, e, bind_ok] using h⟩
    · exact ⟨m, n, .inr (.inl (by rw [insertCodes, e, bind_raised]))⟩
    · exact ⟨m, n, .inr (.inr (by rw [insertCodes, e, bind_raised]))⟩

/-- Everything `RECON` past the common checks can do: it never stops, and its faults are the two of R236, R237. -/
theorem reconBody_cases (s : State) :
    ∃ m n, reconBody s = .ok 0#64 { s with node := m, ncnt := n, root := some 0, cur := some 0, scnt := 0#64,
                                           rbuf := 0#8, rcnt := 0, sinkOpen := true, phase := .dec } ∨
      reconBody s = .raised .hdrPrefix { s with node := m, ncnt := n, root := some 0 } ∨
      reconBody s = .raised .hdrNodes { s with node := m, ncnt := n, root := some 0 } := by
  obtain ⟨m, n, e | e | e⟩ := insertCodes_frame (codedSyms s) (emptyRoot s)
  · exact ⟨m, n, .inl (by rw [reconBody, e, bind_ok]; rfl)⟩
  · exact ⟨m, n, .inr (.inl (by rw [reconBody, e, bind_raised]; rfl))⟩
  · exact ⟨m, n, .inr (.inr (by rw [reconBody, e, bind_raised]; rfl))⟩

end Sys2Proof.Machine
end

