-- ==== Sys2Proof/Laws/Builder.lean ====
section
/-! SUPPORT. What `BUILD` makes: the forest of its merge loop, one lemma that says everything a merge and a run of merges does,
the paths of the tree, and its cost (43_tree_builder.md R182 to R189). -/

namespace Sys2Proof.Machine

/-! ### The queue's order (R183) -/

theorem lowerPair_trans {s : State} {a b c : NodeIdx} (h : lowerPair s a b) (h' : lowerPair s b c) : lowerPair s a c := by
  unfold lowerPair at *; omega

theorem lowerPair_total (s : State) {a b : NodeIdx} (h : a ≠ b) : lowerPair s a b ∨ lowerPair s b a := by
  have : a.val ≠ b.val := fun e => h (Fin.ext e)
  unfold lowerPair; omega

theorem lowerPair_le {s : State} {a b : NodeIdx} (h : lowerPair s a b) :
    (nodeAt s a).freq.toNat ≤ (nodeAt s b).freq.toNat := by unfold lowerPair at h; omega

theorem queueBefore_lowerPair (s : State) (a b : NodeIdx) : queueBefore s a b = true ↔ lowerPair s a b :=
  queueBefore_iff s a b

theorem queueMin_least (s : State) (q : List NodeIdx) : ∀ i, ∀ j ∈ i :: q, queueMin s i q = j ∨ lowerPair s (queueMin s i q) j := by
  induction q with
  | nil => intro i j hj; simp only [List.mem_singleton] at hj; exact .inl hj.symm
  | cons k q ih =>
    intro i j hj
    rw [queueMin]
    have hstep : ∀ x, x = i ∨ x = k → (if queueBefore s k i then k else i) = x ∨ lowerPair s (if queueBefore s k i then k else i) x := by
      intro x hx
      by_cases hb : queueBefore s k i = true
      · rw [if_pos hb]
        rcases hx with rfl | rfl
        · exact .inr ((queueBefore_lowerPair s _ _).mp hb)
        · exact .inl rfl
      · rw [if_neg hb]
        rcases hx with rfl | rfl
        · exact .inl rfl
        · by_cases hne : i = x
          · exact .inl hne
          · rcases lowerPair_total s hne with h | h
            · exact .inr h
            · exact absurd ((queueBefore_lowerPair s _ _).mpr h) hb
    have hmin := ih (if queueBefore s k i then k else i)
    generalize (if queueBefore s k i then k else i) = c at hstep hmin
    simp only [List.mem_cons] at hj hmin
    rcases hj with rfl | rfl | hj
    · rcases hstep j (.inl rfl) with rfl | h1
      · exact hmin c (.inl rfl)
      · rcases hmin c (.inl rfl) with h2 | h2
        · rw [h2]; exact .inr h1
        · exact .inr (lowerPair_trans h2 h1)
    · rcases hstep j (.inr rfl) with rfl | h1
      · exact hmin c (.inl rfl)
      · rcases hmin c (.inl rfl) with h2 | h2
        · rw [h2]; exact .inr h1
        · exact .inr (lowerPair_trans h2 h1)
    · exact hmin j (.inr hj)

/-- `remove_min` on a queue without repetitions: the member taken is below all that stay. -/
theorem removeMin_lower {s : State} {q : List NodeIdx} (hq : q ≠ []) (hn : q.Nodup) :
    ∃ a q', removeMin s q = some (a, q') ∧ q.Perm (a :: q') ∧ ∀ j ∈ q', lowerPair s a j := by
  cases q with
  | nil => exact absurd rfl hq
  | cons i q =>
    have hp := List.perm_cons_erase (queueMin_mem s q i)
    refine ⟨_, _, removeMin_cons s i q, hp, fun j hj => ?_⟩
    rcases queueMin_least s q i j (List.mem_of_mem_erase hj) with h | h
    · exact absurd (h ▸ hj) (by rw [hn.mem_erase_iff]; simp)
    · exact h

/-! ### The forest -/

/-- The nodes made so far, over `n` leaves, with the queue `q` of those that are no one's child. -/
structure Forest (n : Nat) (q : List NodeIdx) (s : State) : Prop where
  count : s.ncnt.toNat + q.length = 2 * n
  bound : n ≤ 256
  enough : n ≤ s.ncnt.toNat
  nodup : q.Nodup
  members : ∀ j, j ∈ q ↔ j.val < s.ncnt.toNat ∧
    ∀ k : NodeIdx, k.val < s.ncnt.toNat → (nodeAt s k).left ≠ some j ∧ (nodeAt s k).right ≠ some j
  leaf : ∀ k : NodeIdx, k.val < n → (nodeAt s k).tag = .leaf ∧ (nodeAt s k).left = none ∧ (nodeAt s k).right = none
  inner : ∀ i : NodeIdx, n ≤ i.val → i.val < s.ncnt.toNat → ∃ a b : NodeIdx, nodeAt s i = mergedNode s a b ∧
    (nodeAt s i).freq.toNat = (nodeAt s a).freq.toNat + (nodeAt s b).freq.toNat ∧
    isRootBelow s i a ∧ isRootBelow s i b ∧ lowerPair s a b ∧ ∀ j, isRootBelow s i j → j ≠ a → j ≠ b → lowerPair s b j
  sum : (q.map fun i => (nodeAt s i).freq.toNat).sum < 2 ^ 64

theorem isRootBelow_congr {s t : State} {i : NodeIdx} (h : ∀ k : NodeIdx, k.val < i.val → nodeAt t k = nodeAt s k) (j : NodeIdx) :
    isRootBelow t i j ↔ isRootBelow s i j := by
  unfold isRootBelow
  refine and_congr_right fun _ => forall_congr' fun k => ?_
  by_cases hk : k.val < i.val
  · rw [h k hk]
  · exact ⟨fun _ h => absurd h hk, fun _ h => absurd h hk⟩

theorem lowerPair_congr {s t : State} {a b : NodeIdx} (ha : nodeAt t a = nodeAt s a) (hb : nodeAt t b = nodeAt s b) :
    lowerPair t a b ↔ lowerPair s a b := by
  unfold lowerPair; rw [ha, hb]

theorem mergedNode_congr {s t : State} {a b : NodeIdx} (ha : nodeAt t a = nodeAt s a) (hb : nodeAt t b = nodeAt s b) :
    mergedNode t a b = mergedNode s a b := by
  unfold mergedNode; rw [ha, hb]

/-- The forest depends on the node memory and its count only. -/
theorem Forest.congr {n : Nat} {q : List NodeIdx} {s t : State} (h : Forest n q s) (hn : t.node = s.node) (hc : t.ncnt = s.ncnt) :
    Forest n q t := by
  have hnode : ∀ i, nodeAt t i = nodeAt s i := fun i => by simp [nodeAt, hn]
  refine ⟨by rw [hc]; exact h.count, h.bound, by rw [hc]; exact h.enough, h.nodup, ?_, ?_, ?_, ?_⟩
  · intro j; rw [h.members, hc]; simp only [hnode]
  · intro k hk; rw [hnode]; exact h.leaf k hk
  · intro i h1 h2
    rw [hc] at h2
    obtain ⟨a, b, e, hf, ha, hb, hl, hm⟩ := h.inner i h1 h2
    have hr := fun j => isRootBelow_congr (s := s) (t := t) (i := i) (fun k _ => hnode k) j
    exact ⟨a, b, by rw [hnode, e, mergedNode_congr (hnode a) (hnode b)], by simp only [hnode]; exact hf, (hr a).mpr ha, (hr b).mpr hb,
      (lowerPair_congr (hnode a) (hnode b)).mpr hl,
      fun j hj h1 h2 => (lowerPair_congr (hnode b) (hnode j)).mpr (hm j ((hr j).mp hj) h1 h2)⟩
  · simp only [hnode]; exact h.sum

/-- One merge (R184): everything it does to the forest. -/
theorem forest_merge {n : Nat} {q : List NodeIdx} {s : State} (h : Forest n q s) (h2 : 2 ≤ q.length) :
    ∃ a b q1 q2 i s1, removeMin s q = some (a, q1) ∧ removeMin s q1 = some (b, q2) ∧
      buildNode (mergedNode s a b) s = .ok i s1 ∧ q.Perm (a :: b :: q2) ∧ i.val = s.ncnt.toNat ∧
      s1.ncnt.toNat = s.ncnt.toNat + 1 ∧ nodeAt s1 i = mergedNode s a b ∧ (∀ j, j ≠ i → nodeAt s1 j = nodeAt s j) ∧
      (nodeAt s1 i).freq.toNat = (nodeAt s a).freq.toNat + (nodeAt s b).freq.toNat ∧
      lowerPair s a b ∧ (∀ j ∈ q2, lowerPair s b j) ∧ Forest n (q2 ++ [i]) s1 := by
  obtain ⟨a, q1, e1, hp1, hl1⟩ := removeMin_lower (s := s) (by intro h0; simp [h0] at h2) h.nodup
  have hn1 := hp1.nodup h.nodup
  obtain ⟨ha1, hn1⟩ := List.nodup_cons.mp hn1
  have hlen1 := hp1.length_eq
  rw [List.length_cons] at hlen1
  obtain ⟨b, q2, e2, hp2, hl2⟩ := removeMin_lower (s := s) (q := q1) (by intro h0; simp [h0] at hlen1; omega) hn1
  obtain ⟨hb2, hn2⟩ := List.nodup_cons.mp (hp2.nodup hn1)
  have hlen2 := hp2.length_eq
  rw [List.length_cons] at hlen2
  have hp : q.Perm (a :: b :: q2) := hp1.trans (hp2.cons a)
  have hmem : ∀ j, j ∈ q ↔ j = a ∨ j = b ∨ j ∈ q2 := fun j => by rw [hp.mem_iff]; simp
  have haq : a ∈ q := (hmem a).mpr (.inl rfl)
  have hbq : b ∈ q := (hmem b).mpr (.inr (.inl rfl))
  have hab : a ≠ b := fun e => ha1 (by rw [e]; exact hp2.mem_iff.mpr (by simp))
  have ha2 : a ∉ q2 := fun hm => ha1 (hp2.mem_iff.mpr (by simp [hm]))
  have hlow : lowerPair s a b := hl1 b (hp2.mem_iff.mpr (by simp))
  have hcount := h.count
  have hbound := h.bound
  rcases buildNode_cases (mergedNode s a b) s with ⟨hlt, e3, hc⟩ | ⟨hge, _⟩
  · set i : NodeIdx := ⟨s.ncnt.toNat, hlt⟩ with hi
    set s1 : State := { setNode i (mergedNode s a b) s with ncnt := s.ncnt + 1#9 } with hs1
    have hnew : nodeAt s1 i = mergedNode s a b := nodeAt_setNode_self i _ s
    have hold : ∀ j, j ≠ i → nodeAt s1 j = nodeAt s j := fun j hj => nodeAt_setNode_ne hj _ s
    have hlti : ∀ j : NodeIdx, j.val < s.ncnt.toNat → j ≠ i := fun j hj e => by rw [e] at hj; exact Nat.lt_irrefl _ hj
    have hqlt : ∀ j ∈ q, j.val < s.ncnt.toNat := fun j hj => ((h.members j).mp hj).1
    have hsum := h.sum
    rw [(hp.map _).sum_eq] at hsum
    simp only [List.map_cons, List.sum_cons] at hsum
    have hfreq : (nodeAt s1 i).freq.toNat = (nodeAt s a).freq.toNat + (nodeAt s b).freq.toNat := by
      rw [hnew]
      show ((nodeAt s a).freq + (nodeAt s b).freq).toNat = _
      rw [BitVec.toNat_add, Nat.mod_eq_of_lt (by omega)]
    refine ⟨a, b, q1, q2, i, s1, e1, e2, e3, hp, rfl, hc, hnew, hold, hfreq, hlow, hl2, ?_⟩
    have hroot : ∀ j, isRootBelow s1 i j ↔ j ∈ q := by
      intro j
      rw [h.members]
      refine (isRootBelow_congr (s := s) (fun k hk => hold k (hlti k hk)) j).trans Iff.rfl
    refine ⟨?_, hbound, ?_, ?_, ?_, ?_, ?_, ?_⟩
    · rw [hc, List.length_append]; simp; omega
    · rw [hc]; have := h.enough; omega
    · refine List.nodup_append.mpr ⟨hn2, by simp, fun x hx y hy e => ?_⟩
      rw [List.mem_singleton] at hy
      exact hlti x (hqlt x ((hmem x).mpr (.inr (.inr hx)))) (e.trans hy)
    · intro j
      rw [hc, List.mem_append, List.mem_singleton]
      constructor
      · rintro (hj | rfl)
        · have hjq := (hmem j).mpr (.inr (.inr hj))
          obtain ⟨h1, h2⟩ := (h.members j).mp hjq
          refine ⟨by omega, fun k hk => ?_⟩
          by_cases hki : k = i
          · rw [hki, hnew]
            show some a ≠ some j ∧ some b ≠ some j
            exact ⟨fun e => ha2 (Option.some.inj e ▸ hj), fun e => hb2 (Option.some.inj e ▸ hj)⟩
          · rw [hold k hki]
            have : k.val ≠ i.val := fun e => hki (Fin.ext e)
            exact h2 k (by have : i.val = s.ncnt.toNat := rfl; omega)
        · refine ⟨by have : i.val = s.ncnt.toNat := rfl; omega, fun k hk => ?_⟩
          by_cases hki : k = i
          · rw [hki, hnew]
            show some a ≠ some i ∧ some b ≠ some i
            exact ⟨fun e => hlti a (hqlt a haq) (Option.some.inj e), fun e => hlti b (hqlt b hbq) (Option.some.inj e)⟩
          · rw [hold k hki]
            have hki' : k.val < s.ncnt.toNat := by
              have h1 : k.val ≠ i.val := fun e => hki (Fin.ext e)
              have h2 : i.val = s.ncnt.toNat := rfl
              omega
            by_cases hkn : k.val < n
            · obtain ⟨_, hl, hr⟩ := h.leaf k hkn
              rw [hl, hr]; simp
            · obtain ⟨c, d, e, _, hc1, hd1, _⟩ := h.inner k (by omega) hki'
              have h2 : i.val = s.ncnt.toNat := rfl
              rw [e]
              show some c ≠ some i ∧ some d ≠ some i
              exact ⟨fun e => by have := hc1.1; rw [Option.some.inj e] at this; omega,
                fun e => by have := hd1.1; rw [Option.some.inj e] at this; omega⟩
      · rintro ⟨h1, h2⟩
        by_cases hji : j = i
        · exact .inr hji
        · have hj' : j.val < s.ncnt.toNat := by
            have h1 : j.val ≠ i.val := fun e => hji (Fin.ext e)
            have h2 : i.val = s.ncnt.toNat := rfl
            omega
          have hjq : j ∈ q := by
            refine (h.members j).mpr ⟨hj', fun k hk => ?_⟩
            have := h2 k (by omega)
            rwa [hold k (hlti k hk)] at this
          have hni := h2 i (by have : i.val = s.ncnt.toNat := rfl; omega)
          rw [hnew] at hni
          have hni : some a ≠ some j ∧ some b ≠ some j := hni
          rcases (hmem j).mp hjq with rfl | rfl | hj2
          · exact absurd rfl hni.1
          · exact absurd rfl hni.2
          · exact .inl hj2
    · intro k hk
      rw [hold k (hlti k (by have := h.enough; omega))]
      exact h.leaf k hk
    · intro k h1 h2
      rw [hc] at h2
      by_cases hki : k = i
      · subst hki
        have na := hold a (hlti a (hqlt a haq))
        have nb := hold b (hlti b (hqlt b hbq))
        refine ⟨a, b, by rw [hnew, mergedNode_congr na nb], by rw [hfreq, na, nb], (hroot a).mpr haq, (hroot b).mpr hbq,
          (lowerPair_congr na nb).mpr hlow, fun j hj hja hjb => ?_⟩
        have hjq := (hroot j).mp hj
        refine (lowerPair_congr nb (hold j (hlti j (hqlt j hjq)))).mpr ?_
        rcases (hmem j).mp hjq with rfl | rfl | hj2
        · exact absurd rfl hja
        · exact absurd rfl hjb
        · exact hl2 j hj2
      · have hk' : k.val < s.ncnt.toNat := by
          have h3 : k.val ≠ i.val := fun e => hki (Fin.ext e)
          have h4 : i.val = s.ncnt.toNat := rfl
          omega
        obtain ⟨c, d, e, hf, hc1, hd1, hl, hm⟩ := h.inner k h1 hk'
        have hbelow : ∀ j : NodeIdx, j.val < k.val → nodeAt s1 j = nodeAt s j := fun j hj => hold j (hlti j (by omega))
        have nc := hbelow c hc1.1
        have nd := hbelow d hd1.1
        have hr := fun j => isRootBelow_congr (s := s) (t := s1) (i := k) hbelow j
        exact ⟨c, d, by rw [hold k hki, e, mergedNode_congr nc nd], by rw [hold k hki, hf, nc, nd], (hr c).mpr hc1, (hr d).mpr hd1,
          (lowerPair_congr nc nd).mpr hl, fun j hj hjc hjd =>
            (lowerPair_congr nd (hbelow j hj.1)).mpr (hm j ((hr j).mp hj) hjc hjd)⟩
    · rw [List.map_append, List.sum_append, List.map_singleton, List.sum_singleton, hfreq]
      have : (q2.map fun i => (nodeAt s1 i).freq.toNat) = q2.map fun i => (nodeAt s i).freq.toNat :=
        List.map_congr_left fun j hj => by rw [hold j (hlti j (hqlt j ((hmem j).mpr (.inr (.inr hj)))))]
      rw [this]
      linarith
  · exact absurd hge (by omega)


/-! ### Seeding (R182) -/

/-- Everything seeding does: one leaf per symbol, in order, from index `NCNT` on. -/
theorem seedLeaves_spec (ys : List Sym) : ∀ s : State, s.ncnt.toNat + ys.length ≤ 511 →
    ∃ q t, seedLeaves ys s = .ok q t ∧ t.ncnt.toNat = s.ncnt.toNat + ys.length ∧
      q.map Fin.val = List.range' s.ncnt.toNat ys.length ∧ t = { s with node := t.node, ncnt := t.ncnt } ∧
      (∀ (k : NodeIdx) (h : k.val - s.ncnt.toNat < ys.length), s.ncnt.toNat ≤ k.val → nodeAt t k =
        { tag := .leaf, sym := ys[k.val - s.ncnt.toNat], freq := freqOf s ys[k.val - s.ncnt.toNat], left := none,
          right := none }) ∧
      (∀ k : NodeIdx, k.val < s.ncnt.toNat ∨ s.ncnt.toNat + ys.length ≤ k.val → nodeAt t k = nodeAt s k) := by
  induction ys with
  | nil => exact fun s _ => ⟨[], s, rfl, rfl, rfl, rfl, fun k h => absurd h (Nat.not_lt_zero _), fun k _ => rfl⟩
  | cons y ys ih =>
    intro s hs
    rw [List.length_cons] at hs
    rcases buildNode_cases { tag := .leaf, sym := y, freq := freqOf s y, left := none, right := none } s with
      ⟨hlt, e, hc⟩ | ⟨hge, _⟩
    · set i : NodeIdx := ⟨s.ncnt.toNat, hlt⟩ with hi
      set s1 : State :=
        { setNode i { tag := .leaf, sym := y, freq := freqOf s y, left := none, right := none } s with
          ncnt := s.ncnt + 1#9 } with hs1
      have hc : s1.ncnt.toNat = s.ncnt.toNat + 1 := hc
      obtain ⟨q, t, e', hc', hq, ht, hl, ho⟩ := ih s1 (by omega)
      refine ⟨i :: q, t, by rw [seedLeaves, e, bind_ok, e', bind_ok], by rw [List.length_cons]; omega, ?_, by rw [ht]; rfl, ?_, ?_⟩
      · rw [List.map_cons, List.length_cons, List.range'_succ, hq, hc]
      · intro k h hk
        by_cases hki : k = i
        · subst hki
          rw [ho _ (.inl (by rw [hc]; exact Nat.lt_succ_self _))]
          have : nodeAt s1 i = { tag := .leaf, sym := y, freq := freqOf s y, left := none, right := none } :=
            nodeAt_setNode_self i _ s
          rw [this]
          simp only [hi, Nat.sub_self, List.getElem_cons_zero]
        · have hne : k.val ≠ s.ncnt.toNat := fun e => hki (Fin.ext e)
          rw [List.length_cons] at h
          rw [hl k (by omega) (by omega)]
          have h1 : k.val - s.ncnt.toNat = (k.val - s1.ncnt.toNat) + 1 := by omega
          simp only [h1, List.getElem_cons_succ]
          rfl
      · intro k hk
        rw [List.length_cons] at hk
        rw [ho k (by omega)]
        refine nodeAt_setNode_ne (fun e => ?_) _ s
        have : k.val = s.ncnt.toNat := by rw [e]
        omega
    · omega

/-- The queue after seeding: the forest of single leaves. -/
theorem seedLeaves_forest {ys : List Sym} {s : State} (hn : ys.length ≤ 256)
    (hsum : (ys.map fun y => (freqOf s y).toNat).sum < 2 ^ 64) :
    ∃ q t, seedLeaves ys { s with ncnt := 0#9 } = .ok q t ∧ Forest ys.length q t ∧ q.length = ys.length ∧
      t.ncnt.toNat = ys.length ∧ q.map Fin.val = List.range ys.length ∧ t = { s with node := t.node, ncnt := t.ncnt } ∧
      (∀ (k : NodeIdx) (h : k.val < ys.length), nodeAt t k =
        { tag := .leaf, sym := ys[k.val], freq := freqOf s ys[k.val], left := none, right := none }) ∧
      (∀ k : NodeIdx, ys.length ≤ k.val → nodeAt t k = nodeAt s k) := by
  obtain ⟨q, t, e, hc, hq, ht, hl, ho⟩ := seedLeaves_spec ys { s with ncnt := 0#9 } (by simp; omega)
  simp only [BitVec.toNat_ofNat, Nat.zero_mod, Nat.zero_add, Nat.sub_zero] at hc hq hl ho
  have hlen : q.length = ys.length := by rw [← List.length_map (f := Fin.val), hq, List.length_range']
  have hqr : q.map Fin.val = List.range ys.length := by rw [hq, List.range_eq_range']
  have hleaf : ∀ (k : NodeIdx) (h : k.val < ys.length), nodeAt t k =
      { tag := .leaf, sym := ys[k.val], freq := freqOf s ys[k.val], left := none, right := none } :=
    fun k h => hl k h (Nat.zero_le _)
  have hmem : ∀ j : NodeIdx, j ∈ q ↔ j.val < ys.length := by
    intro j
    rw [← List.mem_range, ← hqr, List.mem_map]
    exact ⟨fun h => ⟨j, h, rfl⟩, fun ⟨k, hk, e⟩ => Fin.ext e ▸ hk⟩
  refine ⟨q, t, e, ⟨by omega, hn, by omega, ?_, ?_, ?_, ?_, ?_⟩, hlen, hc, hqr, ht, hleaf, fun k hk => ho k (.inr hk)⟩
  · exact List.Nodup.of_map Fin.val (by rw [hqr]; exact List.nodup_range)
  · intro j
    rw [hmem, hc]
    exact ⟨fun h => ⟨h, fun k hk => by rw [hleaf k hk]; simp⟩, fun h => h.1⟩
  · intro k hk; rw [hleaf k hk]; exact ⟨rfl, rfl, rfl⟩
  · intro i h1 h2; omega
  · refine lt_of_eq_of_lt (congrArg List.sum (List.ext_getElem (by simp [hlen]) fun k h1 h2 => ?_)) hsum
    rw [List.length_map] at h1 h2
    have hk : (q[k]).val = k := by
      have := List.getElem_map (l := q) Fin.val (i := k) (h := by simpa using h1)
      rw [← this]; simp [hqr]
    rw [List.getElem_map, List.getElem_map, hleaf _ (by omega)]
    simp only [hk]

/-! ### A run of merges -/

theorem codeCost_congr {α : Type} {S : Finset α} {f g l m : α → Nat} (hf : ∀ x ∈ S, f x = g x) (hl : ∀ x ∈ S, l x = m x) :
    codeCost S f l = codeCost S g m :=
  Finset.sum_congr rfl fun x hx => by rw [hf x hx, hl x hx]

/-- The frequency of a node. -/
def freqAt (s : State) (i : NodeIdx) : Nat := (nodeAt s i).freq.toNat

/-- Everything a run of merges does (R184): it ends with one node, the last made, whose frequency is the queue's sum; the
nodes before and after are as they were; and it gives each node a depth, so that the members of the queue cost no more at
their depths than at any lengths Kraft's inequality admits (R189). -/
theorem mergeLoop_forest {n : Nat} (k : Nat) : ∀ {q : List NodeIdx} {s : State}, Forest n q s → q ≠ [] → q.length ≤ k + 1 →
    ∃ r t, ∃ depth : NodeIdx → Nat, mergeLoop k q s = .ok r t ∧ Forest n [r] t ∧ t = { s with node := t.node, ncnt := t.ncnt } ∧
      (∀ j : NodeIdx, j.val < s.ncnt.toNat ∨ t.ncnt.toNat ≤ j.val → nodeAt t j = nodeAt s j) ∧
      (2 ≤ q.length → r.val + 1 = t.ncnt.toNat) ∧ freqAt t r = (q.map (freqAt s)).sum ∧ depth r = 0 ∧
      (∀ i j : NodeIdx, s.ncnt.toNat ≤ i.val → i.val < t.ncnt.toNat →
        (nodeAt t i).left = some j ∨ (nodeAt t i).right = some j → depth j = depth i + 1) ∧
      ∀ l, kraftOk q.toFinset l → codeCost q.toFinset (freqAt s) depth ≤ codeCost q.toFinset (freqAt s) l := by
  induction k with
  | zero =>
    intro q s h hne hlen
    obtain ⟨r, rfl⟩ : ∃ r, q = [r] := List.length_eq_one_iff.mp (by have := List.length_pos_iff.mpr hne; omega)
    have e1 : removeMin s [r] = some (r, []) := by simp [removeMin_cons, queueMin]
    exact ⟨r, s, fun _ => 0, mergeLoop_last 0 e1 (removeMin_nil s), h, rfl, fun _ _ => rfl, fun h => by simp at h,
      by simp, rfl, fun i j h1 h2 => by omega, fun l _ => by simp [codeCost]⟩
  | succ k ih =>
    intro q s h hne hlen
    by_cases h2 : 2 ≤ q.length
    · obtain ⟨a, b, q1, q2, i, s1, e1, e2, e3, hp, hi, hc, hnew, hold, hfreq, hlow, hl2, hF⟩ := forest_merge h h2
      have hlen' := hp.length_eq
      simp only [List.length_cons] at hlen'
      obtain ⟨r, t, D, em, hFt, ht, hkeep, hlast, hsum, hD0, hDc, hopt⟩ := ih hF (by simp) (by simp; omega)
      have hs1 : s1 = { s with node := s1.node, ncnt := s1.ncnt } := by
        obtain ⟨m, c, rfl⟩ := buildNode_frame e3; rfl
      have hmem : ∀ j, j ∈ q ↔ j = a ∨ j = b ∨ j ∈ q2 := fun j => by rw [hp.mem_iff]; simp
      have hqlt : ∀ j ∈ q, j.val < s.ncnt.toNat := fun j hj => ((h.members j).mp hj).1
      have haq := (hmem a).mpr (.inl rfl)
      have hbq := (hmem b).mpr (.inr (.inl rfl))
      have hnd := hp.nodup h.nodup
      obtain ⟨hna, hnd2⟩ := List.nodup_cons.mp hnd
      obtain ⟨hnb, hnd2⟩ := List.nodup_cons.mp hnd2
      simp only [List.mem_cons, not_or] at hna
      have hiq : i ∉ q := fun hm => by have := hqlt i hm; omega
      have hti : nodeAt t i = mergedNode s a b := by rw [hkeep i (.inl (by omega)), hnew]
      have hct : s.ncnt.toNat + 1 ≤ t.ncnt.toNat := by
        have h1 := hFt.count; have h3 := hF.count
        simp at h1 h3; omega
      -- no later node is a parent of `a` or `b`, and none of `i`'s own depth is touched
      have hchild : ∀ m j : NodeIdx, s1.ncnt.toNat ≤ m.val → m.val < t.ncnt.toNat →
          (nodeAt t m).left = some j ∨ (nodeAt t m).right = some j → j ≠ a ∧ j ≠ b := by
        intro m j hm1 hm2 hj
        obtain ⟨c, d, e, _, hcr, hdr, _⟩ := hFt.inner m (by have := h.enough; omega) hm2
        have hroot : isRootBelow t m j := by
          rw [e] at hj
          have hj : some c = some j ∨ some d = some j := hj
          rcases hj with hj | hj
          · exact Option.some.inj hj ▸ hcr
          · exact Option.some.inj hj ▸ hdr
        have := hroot.2 i (by omega)
        rw [hti] at this
        have this : some a ≠ some j ∧ some b ≠ some j := this
        exact ⟨fun e => this.1 (by rw [e]), fun e => this.2 (by rw [e])⟩
      refine ⟨r, t, fun j => if j = a ∨ j = b then D i + 1 else D j, ?_, hFt, ?_, ?_, ?_, ?_, ?_, ?_, ?_⟩
      · rw [mergeLoop_step k e1 e2, e3, bind_ok, em]
      · rw [ht, hs1]
      · intro j hj
        rw [hkeep j (by omega), hold j]
        rintro rfl; omega
      · intro _
        by_cases hq2 : q2 = []
        · subst hq2
          have : t.ncnt.toNat = 2 * n - 1 := by have := hFt.count; simp at this; omega
          have : s1.ncnt.toNat = 2 * n - 1 := by have := hF.count; simp at this; omega
          have hr : r = i := by
            by_contra hne
            have hir := (hFt.members i).mpr ⟨by omega, fun m hm => ?_⟩
            · exact hne (List.mem_singleton.mp hir).symm
            · rw [hkeep m (.inl (by omega))]
              exact ((hF.members i).mp (by simp)).2 m (by omega)
          rw [hr, hi]; omega
        · exact hlast (by rw [List.length_append]; have := List.length_pos_iff.mpr hq2; simp; omega)
      · rw [hsum, (hp.map _).sum_eq, List.map_append, List.sum_append]
        have hr : q2.map (freqAt s1) = q2.map (freqAt s) := List.map_congr_left fun j hj => by
          unfold freqAt; rw [hold j]; rintro rfl; exact hiq ((hmem _).mpr (.inr (.inr hj)))
        have hf : freqAt s1 i = freqAt s a + freqAt s b := hfreq
        simp only [List.map_cons, List.map_nil, List.sum_cons, List.sum_nil, hr, hf]
        omega
      · have hrr : ¬ (r = a ∨ r = b) := by
          have := ((hFt.members r).mp (by simp)).2 i (by omega)
          rw [hti] at this
          have this : some a ≠ some r ∧ some b ≠ some r := this
          rintro (e | e)
          · exact this.1 (by rw [e])
          · exact this.2 (by rw [e])
        show (if r = a ∨ r = b then D i + 1 else D r) = 0
        rw [if_neg hrr, hD0]
      · intro m j hm1 hm2 hj
        have hmab : ¬ (m = a ∨ m = b) := by
          have := hqlt a haq; have := hqlt b hbq
          rintro (e | e) <;> (rw [e] at hm1; omega)
        show (if j = a ∨ j = b then D i + 1 else D j) = (if m = a ∨ m = b then D i + 1 else D m) + 1
        rw [if_neg hmab]
        by_cases hmi : m = i
        · subst hmi
          rw [hti] at hj
          have hj : some a = some j ∨ some b = some j := hj
          have : j = a ∨ j = b := hj.imp (fun e => (Option.some.inj e).symm) fun e => (Option.some.inj e).symm
          rw [if_pos this]
        · have hm3 : s1.ncnt.toNat ≤ m.val := by
            have : m.val ≠ i.val := fun e => hmi (Fin.ext e)
            omega
          obtain ⟨h1, h3⟩ := hchild m j hm3 hm2 hj
          rw [if_neg (by tauto)]
          exact hDc m j hm3 hm2 hj
      · intro l hk
        set S := q.toFinset with hS
        set D' : NodeIdx → Nat := fun j => if j = a ∨ j = b then D i + 1 else D j with hD'
        have hSm : ∀ j, j ∈ S ↔ j ∈ q := fun j => List.mem_toFinset
        -- the weights with the merged node's in place
        set f : NodeIdx → Nat := fun j => if j = i then freqAt s a + freqAt s b else freqAt s j with hf
        have hfq : ∀ j ∈ S, f j = freqAt s j := fun j hj => if_neg fun e : j = i => hiq (e ▸ (hSm j).mp hj)
        have hai : a ≠ i := fun e => hiq (e ▸ haq)
        have hbi : b ≠ i := fun e => hiq (e ▸ hbq)
        have hset : insert i ((S.erase a).erase b) = (q2 ++ [i]).toFinset := by
          ext j
          simp only [Finset.mem_insert, Finset.mem_erase, hSm, hmem, List.mem_toFinset, List.mem_append, List.mem_singleton]
          constructor
          · rintro (h | ⟨h1, h2, h3⟩)
            · exact .inr h
            · rcases h3 with h | h | h
              · exact absurd h h2
              · exact absurd h h1
              · exact .inl h
          · rintro (h | h)
            · exact .inr ⟨fun e => hnb (e ▸ h), fun e => hna.2 (e ▸ h), .inr (.inr h)⟩
            · exact .inl h
        obtain ⟨l', hk', hcost⟩ := merge_lengths (f := f) (m := i) ((hSm a).mpr haq) ((hSm b).mpr hbq) hna.1
          (by rw [hfq a ((hSm a).mpr haq), hfq b ((hSm b).mpr hbq)]; exact lowerPair_le hlow)
          (fun x hx h1 h2 => by
            rw [hfq b ((hSm b).mpr hbq), hfq x hx]
            exact lowerPair_le (hl2 x ((((hmem x).mp ((hSm x).mp hx)).resolve_left h1).resolve_left h2)))
          (fun hm => hiq ((hSm i).mp hm))
          (by rw [hfq a ((hSm a).mpr haq), hfq b ((hSm b).mpr hbq)]; exact if_pos rfl) hk
        rw [hset] at hk' hcost
        have hfs1 : ∀ x ∈ (q2 ++ [i]).toFinset, freqAt s1 x = f x := by
          intro x hx
          by_cases hxi : x = i
          · rw [hxi]; simp only [hf, if_true]; exact hfreq
          · simp only [hf, if_neg hxi]; unfold freqAt; rw [hold x hxi]
        have hmain := hopt l' hk'
        rw [codeCost_congr hfs1 fun _ _ => rfl, codeCost_congr hfs1 fun _ _ => rfl] at hmain
        have hDD : codeCost S f D' = codeCost (q2 ++ [i]).toFinset f D + f i := by
          rw [← hset]
          have haS := (hSm a).mpr haq
          have hbS : b ∈ S.erase a := Finset.mem_erase.mpr ⟨Ne.symm hna.1, (hSm b).mpr hbq⟩
          have hi' : i ∉ (S.erase a).erase b := fun hm =>
            hiq ((hSm i).mp (Finset.mem_of_mem_erase (Finset.mem_of_mem_erase hm)))
          unfold codeCost
          rw [Finset.sum_insert hi', ← Finset.add_sum_erase S _ haS, ← Finset.add_sum_erase _ _ hbS]
          have hrest : ∑ y ∈ (S.erase a).erase b, f y * D' y = ∑ y ∈ (S.erase a).erase b, f y * D y := by
            refine Finset.sum_congr rfl fun y hy => ?_
            obtain ⟨h1, h2⟩ := Finset.mem_erase.mp hy
            have h2 := (Finset.mem_erase.mp h2).1
            simp only [hD', if_neg (not_or.mpr ⟨h2, h1⟩)]
          have hfi : f i = f a + f b := by
            rw [hfq a haS, hfq b ((hSm b).mpr hbq)]; exact if_pos rfl
          rw [hrest, hfi]
          have h1 : D' a = D i + 1 := if_pos (.inl rfl)
          have h2 : D' b = D i + 1 := if_pos (.inr rfl)
          rw [h1, h2]
          ring
        calc codeCost S (freqAt s) D' = codeCost S f D' := codeCost_congr (fun x hx => (hfq x hx).symm) fun _ _ => rfl
          _ ≤ codeCost S f l := by omega
          _ = codeCost S (freqAt s) l := codeCost_congr hfq fun _ _ => rfl
    · obtain ⟨r, rfl⟩ : ∃ r, q = [r] := List.length_eq_one_iff.mp (by have := List.length_pos_iff.mpr hne; omega)
      have e1 : removeMin s [r] = some (r, []) := by simp [removeMin_cons, queueMin]
      exact ⟨r, s, fun _ => 0, mergeLoop_last _ e1 (removeMin_nil s), h, rfl, fun _ _ => rfl, fun h => by simp at h,
        by simp, rfl, fun i j h1 h2 => by omega, fun l _ => by simp [codeCost]⟩

/-! ### The whole of `BUILD` -/

/-- A sum over the present symbols is one over all symbols: the others have frequency 0. -/
theorem presentSum_eq (s : State) (w : Sym → Nat) :
    ((presentSyms s).map fun y => (freqOf s y).toNat * w y).sum = bodyBits s w := by
  unfold presentSyms bodyBits
  induction allSyms with
  | nil => rfl
  | cons y ys ih =>
    by_cases h : freqOf s y = 0#64
    · rw [List.filter_cons_of_neg (by simp [h]), List.map_cons, List.sum_cons, ih, h]; simp
    · rw [List.filter_cons_of_pos (by simp [h]), List.map_cons, List.map_cons, List.sum_cons, List.sum_cons, ih]

/-- Everything `BUILD` past the common checks does on a table of two or more symbols with a sum below `2^64`. -/
theorem buildBody_forest {s : State} (h2 : 2 ≤ (presentSyms s).length) (hsum : freqSum s < 2 ^ 64) :
    ∃ r t, ∃ depth : NodeIdx → Nat, buildBody s = .ok 0#64 t ∧ Forest (presentSyms s).length [r] t ∧
      t = { s with node := t.node, ncnt := t.ncnt, root := some r, total := (nodeAt t r).freq, phase := .tree } ∧
      (∀ j : NodeIdx, t.ncnt.toNat ≤ j.val → nodeAt t j = nodeAt s j) ∧
      (∀ (k : NodeIdx) (h : k.val < (presentSyms s).length), nodeAt t k =
        { tag := .leaf, sym := (presentSyms s)[k.val], freq := freqOf s (presentSyms s)[k.val], left := none,
          right := none }) ∧
      r.val + 1 = t.ncnt.toNat ∧ depth r = 0 ∧
      (∀ i j : NodeIdx, (presentSyms s).length ≤ i.val → i.val < t.ncnt.toNat →
        (nodeAt t i).left = some j ∨ (nodeAt t i).right = some j → depth j = depth i + 1) ∧
      ∃ leaves : List NodeIdx, leaves.map Fin.val = List.range (presentSyms s).length ∧
        freqAt t r = (leaves.map (freqAt t)).sum ∧
        ∀ l, kraftOk leaves.toFinset l → codeCost leaves.toFinset (freqAt t) depth ≤ codeCost leaves.toFinset (freqAt t) l := by
  set n := (presentSyms s).length with hn
  have hsum' : ((presentSyms s).map fun y => (freqOf s y).toNat).sum < 2 ^ 64 := by
    have := presentSum_eq s fun _ => 1
    simp only [bodyBits, mul_one] at this
    rw [this]; exact hsum
  obtain ⟨q, s1, e1, hF, hql, hc1, hqr, hs1, hleaf, hrest⟩ := seedLeaves_forest (length_presentSyms_le s) hsum'
  obtain ⟨r, t, D, e2, hFt, ht, hkeep, hlast, hfs, hD0, hDc, hopt⟩ :=
    mergeLoop_forest q.length hF (by intro h; rw [h] at hql; simp at hql; omega) (by omega)
  have hct : n ≤ t.ncnt.toNat := hFt.enough
  have hqlt : ∀ x ∈ q, x.val < n := fun x hx => by
    rw [← List.mem_range, ← hqr]; exact List.mem_map.mpr ⟨x, hx, rfl⟩
  have hfq : ∀ x ∈ q, freqAt t x = freqAt s1 x := fun x hx => by
    unfold freqAt; rw [hkeep x (.inl (by have := hqlt x hx; omega))]
  have hgrow : growTree q s1 = mergeLoop q.length q s1 := by
    unfold growTree
    split
    · rw [List.length_singleton] at hql; omega
    · rfl
  refine ⟨r, { t with root := some r, total := (nodeAt t r).freq, phase := .tree }, D, ?_, hFt.congr rfl rfl, ?_, ?_, ?_,
    hlast (by omega), hD0, fun i j hi => hDc i j (by omega), q, hqr, ?_, fun l hk => ?_⟩
  · rw [buildBody, if_neg (by intro h; rw [hn, h] at h2; simp at h2), if_neg (by omega), e1, bind_ok, hgrow, e2, bind_ok]
  · rw [ht, hs1]; rfl
  · intro j hj
    exact (hkeep j (.inr hj)).trans (hrest j (hct.trans hj))
  · intro k hk
    exact (hkeep k (.inl (by omega))).trans (hleaf k hk)
  · exact hfs.trans (congrArg List.sum (List.map_congr_left fun x hx => (hfq x hx).symm))
  · have hf : ∀ x ∈ q.toFinset, freqAt t x = freqAt s1 x := fun x hx => hfq x (List.mem_toFinset.mp hx)
    have := hopt l hk
    rwa [← codeCost_congr hf fun _ _ => rfl, ← codeCost_congr hf fun _ _ => rfl] at this

/-- A path from a node that has a depth adds its length to it. -/
theorem follow_depth {n : Nat} {t : State} {depth : NodeIdx → Nat}
    (hleaf : ∀ k : NodeIdx, k.val < n → (nodeAt t k).tag = .leaf)
    (hlt : ∀ i j : NodeIdx, n ≤ i.val → i.val < t.ncnt.toNat → (nodeAt t i).left = some j ∨ (nodeAt t i).right = some j →
      j.val < i.val)
    (hd : ∀ i j : NodeIdx, n ≤ i.val → i.val < t.ncnt.toNat → (nodeAt t i).left = some j ∨ (nodeAt t i).right = some j →
      depth j = depth i + 1) (p : List Bool) :
    ∀ {i j : NodeIdx}, i.val < t.ncnt.toNat → follow t i p = some j → depth j = depth i + p.length := by
  induction p with
  | nil => intro i j _ h; rw [follow, Option.some.injEq] at h; rw [h]; rfl
  | cons b p ih =>
    intro i j hi h
    rw [follow] at h
    split at h
    · exact absurd h (by simp)
    · next hl =>
      have hn : n ≤ i.val := by
        by_contra hn
        exact hl (hleaf i (by omega))
      cases hc : child (nodeAt t i) b with
      | none => rw [hc] at h; simp at h
      | some m =>
        rw [hc] at h
        have hm : (nodeAt t i).left = some m ∨ (nodeAt t i).right = some m := by
          cases b
          · exact .inl hc
          · exact .inr hc
        rw [ih (by have := hlt i m hn hi hm; omega) h, hd i m hn hi hm, List.length_cons]
        omega

end Sys2Proof.Machine
end

