-- ==== Sys2Proof/Laws/Codec.lean ====
section
/-! SUPPORT. The encoder and the decoder: everything `HDRW`, `ENC`, `CLOSE`, `HDRR`, `DSTEP` and `DRUN` past the common
checks can do, and what they leave alone (45_encoder.md, 46_decoder.md). -/

namespace Sys2Proof.Machine

/-! ### `HDRW`, `ENC`, `CLOSE` -/

/-- `HDRW` appends the header and opens the sink, or stops at the first failed write with the sink open (R210, R211). -/
theorem hdrwBody_cases (s : State) :
    (∃ l, hdrwBody s = .ok 0#64 { s with sinkOpen := true, sinkFail := l, sink := s.sink ++ headerBytes s, wacc := 0#8,
                                         wcnt := 0#3, scnt := 0#64, phase := .enc }) ∨
    (∃ l k, k < (headerBytes s).length ∧
      hdrwBody s = .raised .sinkWrite { s with sinkOpen := true, sinkFail := l,
                                               sink := s.sink ++ (headerBytes s).take k }) := by
  rcases putAll_frame (headerBytes s) { s with sinkOpen := true } with ⟨l, e⟩ | ⟨l, k, hk, e⟩
  · exact .inl ⟨l, by rw [hdrwBody, e, bind_ok]⟩
  · exact .inr ⟨l, k, hk, by rw [hdrwBody, e, bind_raised]⟩

/-- `ENC`: its two checks, then the bits of the code (R213, R214). -/
theorem encBody_cases (y : Sym) (s : State) :
    (clenOf s y = 0#8 ∧ encBody y s = .raised .noCode s) ∨
    (clenOf s y ≠ 0#8 ∧ s.scnt = s.total ∧ encBody y s = .raised .count s) ∨
    (clenOf s y ≠ 0#8 ∧ s.scnt ≠ s.total ∧ ∃ a n l ys,
      encBody y s = .ok 0#64 { s with wacc := a, wcnt := n, sinkFail := l, sink := s.sink ++ ys,
                                      scnt := s.scnt + 1#64 } ∨
      encBody y s = .raised .sinkWrite { s with wacc := a, wcnt := n, sinkFail := l, sink := s.sink ++ ys }) := by
  by_cases h1 : clenOf s y = 0#8
  · exact .inl ⟨h1, by rw [encBody, if_pos h1]⟩
  · by_cases h2 : s.scnt = s.total
    · exact .inr (.inl ⟨h1, h2, by rw [encBody, if_neg h1, if_pos h2]⟩)
    · obtain ⟨a, n, l, ys, e | e⟩ := writeBits_frame (codeOf s y) s
      · exact .inr (.inr ⟨h1, h2, a, n, l, ys, .inl (by rw [encBody, if_neg h1, if_neg h2, e, bind_ok])⟩)
      · exact .inr (.inr ⟨h1, h2, a, n, l, ys, .inr (by rw [encBody, if_neg h1, if_neg h2, e, bind_raised])⟩)

/-- `CLOSE`: its check, then the flush (R215, R216). -/
theorem closeCmdBody_cases (s : State) :
    (s.scnt ≠ s.total ∧ closeCmdBody s = .raised .count s) ∨
    (s.scnt = s.total ∧ ∃ a n l ys,
      closeCmdBody s = .ok 0#64 { s with wacc := a, wcnt := n, sinkFail := l, sink := s.sink ++ ys, sinkClosed := true,
                                         sinkOpen := false, phase := .done } ∧ n = 0#3 ∧ (s.wcnt = 0#3 → a = s.wacc) ∧
        (s.wcnt ≠ 0#3 → a = 0#8)) ∨
    (s.scnt = s.total ∧ ∃ l, closeCmdBody s = .raised .sinkWrite { s with sinkFail := l }) := by
  by_cases h : s.scnt = s.total
  · rcases closeBody_cases s with ⟨hw, e⟩ | ⟨hw, _, e⟩ | ⟨hw, _, e⟩
    · exact .inr (.inl ⟨h, s.wacc, s.wcnt, s.sinkFail, [], by simp [closeCmdBody, h, e], hw, fun _ => rfl, by simp [hw]⟩)
    · exact .inr (.inr ⟨h, _, by rw [closeCmdBody, if_neg (by simp [h]), e, bind_raised]⟩)
    · exact .inr (.inl ⟨h, 0#8, 0#3, _, [s.wacc], by rw [closeCmdBody, if_neg (by simp [h]), e, bind_ok], rfl,
        by simp [hw], fun _ => rfl⟩)
  · exact .inl ⟨h, by rw [closeCmdBody, if_pos h]⟩

/-! ### `HDRR` -/

/-- One record, whatever happens: it writes the CodeTable and moves the source forward, nothing else. -/
theorem readRecord_frame (prev : Int) (s : State) :
    ∃ a b p l, s.spos ≤ p ∧ (s.spos ≤ s.src.length → p ≤ s.src.length) ∧
      ((∃ v, readRecord prev s = .ok v { s with clen := a, cbits := b, spos := p, srcFail := l }) ∨
       (∃ c, readRecord prev s = .raised c { s with clen := a, cbits := b, spos := p, srcFail := l })) := by
  rcases getByte_cases s with ⟨e, _⟩ | ⟨e, _, _⟩ | ⟨hl, _, e⟩
  · exact ⟨s.clen, s.cbits, s.spos, _, Nat.le_refl _, id, .inr ⟨.srcRead, by rw [readRecord, e, bind_raised]⟩⟩
  · exact ⟨s.clen, s.cbits, s.spos, _, Nat.le_refl _, id, .inr ⟨.hdrEos, by rw [readRecord, e, bind_raised]⟩⟩
  · generalize hl1 : (draw s.srcFail).2 = l1 at e
    rw [readRecord, e, bind_ok]
    by_cases ho : (s.src[s.spos].toNat : Int) ≤ prev
    · exact ⟨s.clen, s.cbits, s.spos + 1, l1, by omega, by omega, .inr ⟨.hdrOrder, by rw [if_pos ho]⟩⟩
    · rw [if_neg ho]
      rcases getBytes_frame Config.hdrShortBytes { s with srcFail := l1, spos := s.spos + 1 } with
        ⟨lb, l2, hlen, hdrop, e2⟩ | ⟨c, l2, k, hk, _, hle, e2⟩
      · have hp2 : s.spos + 1 + Config.hdrShortBytes ≤ s.src.length ∨ s.src.length < s.spos + 1 + Config.hdrShortBytes := by
          omega
        have hb : s.spos + 1 + Config.hdrShortBytes ≤ s.src.length := by
          have := congrArg List.length hdrop
          simp only [List.length_drop, List.length_append, hlen] at this
          have h2 : Config.hdrShortBytes = 2 := rfl
          omega
        rw [e2, bind_ok]
        by_cases hn : beNat lb = 0 ∨ beNat lb > Config.codeMax
        · exact ⟨s.clen, s.cbits, s.spos + 1 + Config.hdrShortBytes, l2, by omega, fun _ => hb,
            .inr ⟨.hdrLen, by rw [if_pos hn]⟩⟩
        · rw [if_neg hn]
          rcases getBytes_frame (codeBytes (beNat lb)) { s with srcFail := l2, spos := s.spos + 1 + Config.hdrShortBytes }
            with ⟨cb, l3, hlen3, hdrop3, e3⟩ | ⟨c, l3, k, hk, _, hle, e3⟩
          · have hb3 : s.spos + 1 + Config.hdrShortBytes + codeBytes (beNat lb) ≤ s.src.length := by
              have := congrArg List.length hdrop3
              simp only [List.length_drop, List.length_append, hlen3] at this
              omega
            rw [e3, bind_ok]
            by_cases hpad : packBytes cb <<< beNat lb ≠ 0#256
            · exact ⟨s.clen, s.cbits, _, l3, by omega, fun _ => hb3, .inr ⟨.hdrPad, by rw [if_pos hpad]⟩⟩
            · exact ⟨_, _, _, l3, by omega, fun _ => hb3, .inl ⟨_, by rw [if_neg hpad]; rfl⟩⟩
          · have := hle hb
            exact ⟨s.clen, s.cbits, s.spos + 1 + Config.hdrShortBytes + k, l3, by omega, fun _ => this,
              .inr ⟨c, by rw [e3, bind_raised]⟩⟩
      · have := hle (by simpa using hl)
        exact ⟨s.clen, s.cbits, s.spos + 1 + k, l2, by omega, fun _ => this, .inr ⟨c, by rw [e2, bind_raised]⟩⟩

theorem readRecords_frame (n : Nat) : ∀ (prev : Int) (s : State),
    ∃ a b p l, s.spos ≤ p ∧ (s.spos ≤ s.src.length → p ≤ s.src.length) ∧
      (readRecords n prev s = .ok () { s with clen := a, cbits := b, spos := p, srcFail := l } ∨
       (∃ c, readRecords n prev s = .raised c { s with clen := a, cbits := b, spos := p, srcFail := l })) := by
  induction n with
  | zero => intro prev s; exact ⟨s.clen, s.cbits, s.spos, s.srcFail, Nat.le_refl _, id, .inl rfl⟩
  | succ n ih =>
    intro prev s
    obtain ⟨a, b, p, l, hp, hle, ⟨v, e⟩ | ⟨c, e⟩⟩ := readRecord_frame prev s
    · obtain ⟨a', b', p', l', hp', hle', h⟩ := ih v { s with clen := a, cbits := b, spos := p, srcFail := l }
      refine ⟨a', b', p', l', Nat.le_trans hp hp', fun h0 => hle' (hle h0), ?_⟩
      rw [readRecords, e, bind_ok]
      exact h
    · exact ⟨a, b, p, l, hp, hle, .inr ⟨c, by rw [readRecords, e, bind_raised]⟩⟩

/-- Everything `HDRR` past the common checks can do: `TOTAL`, the CodeTable and the source's position and draws change, and
`PHASE` on success, nothing else. -/
theorem hdrrBody_frame (s : State) :
    ∃ v a b p l, s.spos ≤ p ∧ (s.spos ≤ s.src.length → p ≤ s.src.length) ∧
      (hdrrBody s = .ok 0#64 { s with total := v, clen := a, cbits := b, spos := p, srcFail := l, phase := .hdr } ∧
          v ≠ 0#64 ∨
       (∃ c, hdrrBody s = .raised c { s with total := v, clen := a, cbits := b, spos := p, srcFail := l })) := by
  rcases getBytes_frame Config.hdrTotalBytes s with ⟨tb, l1, hlen, hdrop, e⟩ | ⟨c, l1, k, hk, _, hle, e⟩
  · have hb : s.spos + Config.hdrTotalBytes ≤ s.src.length := by
      have := congrArg List.length hdrop
      simp only [List.length_drop, List.length_append, hlen] at this
      have h8 : Config.hdrTotalBytes = 8 := rfl
      omega
    rw [hdrrBody, e, bind_ok]
    by_cases h0 : beNat tb = 0
    · exact ⟨s.total, s.clen, s.cbits, _, l1, by omega, fun _ => hb, .inr ⟨.hdrTotal0, by rw [if_pos h0]⟩⟩
    · rw [if_neg h0]
      have hv : beNat tb < 2 ^ 64 := by
        have bound : ∀ (bs : List Byte) (acc : Nat), bs.foldl (fun t b => t * 256 + b.toNat) acc <
            (acc + 1) * 256 ^ bs.length := by
          intro bs
          induction bs with
          | nil => intro acc; simp
          | cons x xs ih =>
            intro acc
            have := ih (acc * 256 + x.toNat)
            have hx := x.isLt
            simp only [List.foldl_cons, List.length_cons, pow_succ]
            calc _ < (acc * 256 + x.toNat + 1) * 256 ^ xs.length := this
              _ ≤ ((acc + 1) * 256) * 256 ^ xs.length := Nat.mul_le_mul_right _ (by omega)
              _ = _ := by ring
        have := bound tb 0
        rw [hlen] at this
        simpa [Config.hdrTotalBytes, beNat] using this
      have hne : BitVec.ofNat 64 (beNat tb) ≠ 0#64 := by
        intro h
        have := congrArg BitVec.toNat h
        rw [BitVec.toNat_ofNat, Nat.mod_eq_of_lt hv] at this
        exact h0 this
      generalize BitVec.ofNat 64 (beNat tb) = v at hne
      rcases getBytes_frame Config.hdrShortBytes
          { s with srcFail := l1, spos := s.spos + Config.hdrTotalBytes, total := v } with
        ⟨nb, l2, hlen2, hdrop2, e2⟩ | ⟨c, l2, k, hk, _, hle, e2⟩
      · have hb2 : s.spos + Config.hdrTotalBytes + Config.hdrShortBytes ≤ s.src.length := by
          have := congrArg List.length hdrop2
          simp only [List.length_drop, List.length_append, hlen2] at this
          have h2 : Config.hdrShortBytes = 2 := rfl
          omega
        rw [e2, bind_ok]
        by_cases hn : beNat nb = 0 ∨ beNat nb > Config.nsym
        · exact ⟨v, s.clen, s.cbits, _, l2, by omega, fun _ => hb2, .inr ⟨.hdrNrec, by rw [if_pos hn]⟩⟩
        · rw [if_neg hn]
          obtain ⟨a, b, p, l, hp, hle, e3 | ⟨c, e3⟩⟩ := readRecords_frame (beNat nb) (-1)
            { s with srcFail := l2, spos := s.spos + Config.hdrTotalBytes + Config.hdrShortBytes, total := v }
          · exact ⟨v, a, b, p, l, by simp only at hp; omega, fun _ => hle hb2, .inl ⟨by rw [e3, bind_ok], hne⟩⟩
          · exact ⟨v, a, b, p, l, by simp only at hp; omega, fun _ => hle hb2, .inr ⟨c, by rw [e3, bind_raised]⟩⟩
      · have := hle hb
        exact ⟨v, s.clen, s.cbits, s.spos + Config.hdrTotalBytes + k, l2, by omega, fun _ => this,
          .inr ⟨c, by rw [e2, bind_raised]⟩⟩
  · exact ⟨s.total, s.clen, s.cbits, s.spos + k, l1, by omega, fun h => hle h, .inr ⟨c, by
      rw [hdrrBody, e, bind_raised]⟩⟩

/-! ### `DSTEP` and `DRUN` -/

/-- What a walk step may change: the cursor, the BitReader, the source's position and draws, the sink's stream, the symbol
count, and at the end of the run the sink and the phase. -/
def Walked (s t : State) : Prop :=
  ∃ c y n p l m ys k o d q, s.spos ≤ p ∧ (s.spos ≤ s.src.length → p ≤ s.src.length) ∧
    (s.sinkClosed = true → d = true) ∧
    t = { s with cur := c, rbuf := y, rcnt := n, spos := p, srcFail := l, sinkFail := m, sink := s.sink ++ ys, scnt := k,
                 sinkOpen := o, sinkClosed := d, phase := q }

theorem Walked.refl (s : State) : Walked s s :=
  ⟨s.cur, s.rbuf, s.rcnt, s.spos, s.srcFail, s.sinkFail, [], s.scnt, s.sinkOpen, s.sinkClosed, s.phase, Nat.le_refl _,
    id, id, by simp⟩

theorem Walked.trans {s t u : State} (h : Walked s t) (h' : Walked t u) : Walked s u := by
  obtain ⟨c, y, n, p, l, m, ys, k, o, d, q, hp, hle, hd, rfl⟩ := h
  obtain ⟨c', y', n', p', l', m', ys', k', o', d', q', hp', hle', hd', rfl⟩ := h'
  exact ⟨c', y', n', p', l', m', ys ++ ys', k', o', d', q', Nat.le_trans hp hp', fun h0 => hle' (hle h0),
    fun h0 => hd' (hd h0), by simp⟩

/-- At a leaf: the symbol is emitted and counted, and the run ends with its last symbol; or the write fails with the cursor
on the leaf (R240). -/
theorem emitLeaf_cases (y : Sym) (s : State) :
    (emitLeaf y s = .raised .sinkWrite { s with sinkFail := (draw s.sinkFail).2 } ∧ (draw s.sinkFail).1 = true) ∨
    ((draw s.sinkFail).1 = false ∧ s.scnt + 1#64 ≠ s.total ∧
      emitLeaf y s = .ok 0#64 { s with sinkFail := (draw s.sinkFail).2, sink := s.sink ++ [y], scnt := s.scnt + 1#64,
                                       cur := s.root }) ∨
    ((draw s.sinkFail).1 = false ∧ s.scnt + 1#64 = s.total ∧
      emitLeaf y s = .ok 0#64 { s with sinkFail := (draw s.sinkFail).2, sink := s.sink ++ [y], scnt := s.scnt + 1#64,
                                       cur := s.root, sinkClosed := true, sinkOpen := false, phase := .done }) := by
  rcases put_cases y s with ⟨e, hd⟩ | ⟨e, hd⟩
  · exact .inl ⟨by rw [emitLeaf, e, bind_raised], hd⟩
  · by_cases h : s.scnt + 1#64 = s.total
    · exact .inr (.inr ⟨hd, h, by rw [emitLeaf, e, bind_ok]; simp [h, endRun, sinkClose]⟩)
    · exact .inr (.inl ⟨hd, h, by rw [emitLeaf, e, bind_ok]; simp [h]⟩)

/-- Descending from node `i` by bit `b`: the absent child, an internal node, a leaf (R240, R242). -/
theorem descend_cases (i : NodeIdx) (b : Bool) (s : State) :
    (child (nodeAt s i) b = none ∧ descend i b s = .raised .walkNil s) ∨
    (∃ j, child (nodeAt s i) b = some j ∧
      (((nodeAt s j).tag = .int ∧ descend i b s = .ok 0#64 { s with cur := some j }) ∨
       ((nodeAt s j).tag = .leaf ∧ descend i b s = emitLeaf (nodeAt s j).sym { s with cur := some j }))) := by
  rcases hc : child (nodeAt s i) b with _ | j
  · exact .inl ⟨rfl, by simp only [descend, hc]⟩
  · refine .inr ⟨j, rfl, ?_⟩
    cases ht : (nodeAt s j).tag with
    | int => exact .inl ⟨rfl, by simp [descend, hc, ht]⟩
    | leaf => exact .inr ⟨rfl, by simp [descend, hc, ht]⟩

/-- A walk step by what `read_bit` gave. -/
theorem dstepBody_raised {s t : State} {c : SubCode} (h : readBit s = .raised c t) : dstepBody s = .raised c t := by
  rw [dstepBody, h, bind_raised]

theorem dstepBody_eos {s t : State} (h : readBit s = .ok none t) : dstepBody s = .raised .bodyEos t := by
  rw [dstepBody, h]; rfl

theorem dstepBody_bit {s t : State} {b : Bool} {i : NodeIdx} (h : readBit s = .ok (some b) t) (hc : t.cur = some i) :
    dstepBody s = descend i b t := by
  rw [dstepBody, h, bind_ok]; simp only [hc]

theorem dstepBody_nil {s t : State} {b : Bool} (h : readBit s = .ok (some b) t) (hc : t.cur = none) :
    dstepBody s = .stuck .nilPointer := by
  rw [dstepBody, h, bind_ok]; simp only [hc]

/-- A walk step changes what `Walked` lists; it stops only with the cursor at `NIL`. -/
theorem dstepBody_frame (s : State) :
    (∃ t, Walked s t ∧ dstepBody s = .ok 0#64 t ∧ (t.phase = s.phase ∨ t.phase = .done) ∧
      t.rcnt.val + 8 * (t.src.length - t.spos) + 1 = s.rcnt.val + 8 * (s.src.length - s.spos)) ∨
    (∃ c t, Walked s t ∧ dstepBody s = .raised c t ∧ t.phase = s.phase) ∨
    (s.cur = none ∧ dstepBody s = .stuck .nilPointer) := by
  rcases readBit_frame s with ⟨l, e⟩ | ⟨l, e, -, -⟩ | ⟨b, y, n, p, l, e, hp, hle, hm⟩
  · refine .inr (.inl ⟨.srcRead, { s with srcFail := l }, ?_, dstepBody_raised e, rfl⟩)
    exact ⟨s.cur, s.rbuf, s.rcnt, s.spos, l, s.sinkFail, [], s.scnt, s.sinkOpen, s.sinkClosed, s.phase, Nat.le_refl _,
      id, id, by simp⟩
  · refine .inr (.inl ⟨.bodyEos, { s with srcFail := l }, ?_, dstepBody_eos e, rfl⟩)
    exact ⟨s.cur, s.rbuf, s.rcnt, s.spos, l, s.sinkFail, [], s.scnt, s.sinkOpen, s.sinkClosed, s.phase, Nat.le_refl _,
      id, id, by simp⟩
  · rcases hc : s.cur with _ | i
    · exact .inr (.inr ⟨rfl, dstepBody_nil e hc⟩)
    · have he : dstepBody s = descend i b { s with rbuf := y, rcnt := n, spos := p, srcFail := l } :=
        dstepBody_bit e hc
      have hw : ∀ (c : Ptr) (f : List Bool) (ys : List Byte) (k : Word) (o d : Bool) (q : Phase),
          (s.sinkClosed = true → d = true) →
          Walked s { s with rbuf := y, rcnt := n, spos := p, srcFail := l, cur := c, sinkFail := f, sink := s.sink ++ ys,
                            scnt := k, sinkOpen := o, sinkClosed := d, phase := q } :=
        fun c f ys k o d q hd => ⟨c, y, n, p, l, f, ys, k, o, d, q, hp, hle, hd, rfl⟩
      rcases descend_cases i b { s with rbuf := y, rcnt := n, spos := p, srcFail := l } with
        ⟨_, e'⟩ | ⟨j, _, ⟨_, e'⟩ | ⟨_, e'⟩⟩
      · refine .inr (.inl ⟨.walkNil, _, ?_, he.trans e', rfl⟩)
        simpa using hw s.cur s.sinkFail [] s.scnt s.sinkOpen s.sinkClosed s.phase id
      · refine .inl ⟨_, ?_, he.trans e', .inl rfl, hm⟩
        simpa using hw (some j) s.sinkFail [] s.scnt s.sinkOpen s.sinkClosed s.phase id
      · rcases emitLeaf_cases (nodeAt { s with rbuf := y, rcnt := n, spos := p, srcFail := l } j).sym
            { s with rbuf := y, rcnt := n, spos := p, srcFail := l, cur := some j } with
          ⟨e2, _⟩ | ⟨_, _, e2⟩ | ⟨_, _, e2⟩
        · refine .inr (.inl ⟨.sinkWrite, _, ?_, he.trans (e'.trans e2), rfl⟩)
          simpa using hw (some j) (draw s.sinkFail).2 [] s.scnt s.sinkOpen s.sinkClosed s.phase id
        · exact .inl ⟨_, hw _ _ _ _ _ _ _ id, he.trans (e'.trans e2), .inl rfl, hm⟩
        · exact .inl ⟨_, hw _ _ _ _ _ _ _ fun _ => rfl, he.trans (e'.trans e2), .inr rfl, hm⟩

/-- A walk step that raises ends the run (R243). -/
theorem runLoop_raised {n : Nat} {s t : State} {c : SubCode} (h : s.phase = .dec) (e : dstepBody s = .raised c t) :
    runLoop (n + 1) s = .raised c t := by rw [runLoop, if_pos h, e, bind_raised]

/-- A run of walk steps changes what `Walked` lists; with `RCNT + 8 * (len(SRC) - SPOS) + 1` iterations it comes to an
end, unless the cursor meets `NIL` (R244). -/
theorem runLoop_frame (n : Nat) : ∀ s : State, s.rcnt.val + 8 * (s.src.length - s.spos) < n →
    (s.phase = .dec ∨ s.phase = .done) →
    (∃ t, Walked s t ∧ runLoop n s = .ok 0#64 t ∧ t.phase = .done) ∨
    (∃ c t, Walked s t ∧ runLoop n s = .raised c t ∧ t.phase = .dec) ∨ runLoop n s = .stuck .nilPointer := by
  induction n with
  | zero => intro s h; omega
  | succ n ih =>
    intro s h hph
    by_cases hs : s.phase = .dec
    · rw [runLoop, if_pos hs]
      rcases dstepBody_frame s with ⟨t, hw, e, hp, hm⟩ | ⟨c, t, hw, e, hp⟩ | ⟨_, e⟩
      · rw [e, bind_ok]
        rcases ih t (by omega) (by rcases hp with hp | hp <;> simp [hp, hs]) with
          ⟨u, hu, e', hq⟩ | ⟨c, u, hu, e', hq⟩ | e'
        · exact .inl ⟨u, hw.trans hu, e', hq⟩
        · exact .inr (.inl ⟨c, u, hw.trans hu, e', hq⟩)
        · exact .inr (.inr e')
      · exact .inr (.inl ⟨c, t, hw, by rw [e, bind_raised], hp.trans hs⟩)
      · exact .inr (.inr (by rw [e, bind_stuck]))
    · refine .inl ⟨s, Walked.refl s, by rw [runLoop, if_neg hs], ?_⟩
      rcases hph with h1 | h1
      · exact absurd h1 hs
      · exact h1

end Sys2Proof.Machine
end

