-- ==== Sys2Proof/Laws/Header.lean ====
section
/-! SUPPORT. The header: its integers and packed codes written and read back, and records read (30_encoding.md R111 to
R115, 46_decoder.md R230). -/

namespace Sys2Proof.Machine

/-! ### Integers -/

theorem beNat_lt (bs : List Byte) : beNat bs < 256 ^ bs.length := by
  have bound : ∀ (bs : List Byte) (acc : Nat), bs.foldl (fun t b => t * 256 + b.toNat) acc < (acc + 1) * 256 ^ bs.length := by
    intro bs
    induction bs with
    | nil => intro acc; simp
    | cons x xs ih =>
      intro acc
      have hx := x.isLt
      simp only [List.foldl_cons, List.length_cons, pow_succ]
      calc _ < (acc * 256 + x.toNat + 1) * 256 ^ xs.length := ih _
        _ ≤ ((acc + 1) * 256) * 256 ^ xs.length := Nat.mul_le_mul_right _ (by omega)
        _ = _ := by ring
  simpa [beNat] using bound bs 0

theorem beNat_short (a b : Byte) : beNat [a, b] = a.toNat * 256 + b.toNat := by simp [beNat]

theorem beNat_shortBytes {n : Nat} (h : n < 2 ^ 16) : beNat (shortBytes n) = n := by
  simp only [shortBytes, beNat_short, BitVec.extractLsb'_toNat, BitVec.toNat_ofNat, Nat.mod_eq_of_lt h, Nat.shiftRight_eq_div_pow]
  omega

theorem beNat_totalBytes (t : Word) : beNat (totalBytes t) = t.toNat := by
  have h := t.isLt
  have e : totalBytes t = [t.extractLsb' 56 8, t.extractLsb' 48 8, t.extractLsb' 40 8, t.extractLsb' 32 8,
      t.extractLsb' 24 8, t.extractLsb' 16 8, t.extractLsb' 8 8, t.extractLsb' 0 8] := rfl
  simp only [e, beNat, List.foldl_cons, List.foldl_nil, BitVec.extractLsb'_toNat, Nat.shiftRight_eq_div_pow]
  omega

@[simp] theorem length_totalBytes (t : Word) : (totalBytes t).length = 8 := by simp [totalBytes]

@[simp] theorem length_shortBytes (n : Nat) : (shortBytes n).length = 2 := rfl

/-! ### Packed codes -/

/-- Bit `i` of the packed bytes, the first bit at the top, is bit `i` of the byte sequence. -/
theorem getLsbD_packBytesFrom (bs : List Byte) : ∀ (j i : Nat), j + bs.length ≤ 32 → i < 256 →
    (packBytesFrom j bs).getLsbD (255 - i) = if 8 * j ≤ i then (bitsOfBytes bs)[i - 8 * j]?.getD false else false := by
  induction bs with
  | nil => intro j i _ _; simp [packBytesFrom]
  | cons b bs ih =>
    intro j i hj hi
    simp only [List.length_cons] at hj
    have hb : (b.setWidth 256 <<< (248 - 8 * j)).getLsbD (255 - i) =
        if 8 * j ≤ i ∧ i < 8 * j + 8 then b.getLsbD (7 - (i - 8 * j)) else false := by
      rw [BitVec.getLsbD_shiftLeft, BitVec.getLsbD_setWidth]
      by_cases h : 8 * j ≤ i ∧ i < 8 * j + 8
      · have h1 : ¬ 255 - i < 248 - 8 * j := by omega
        have h2 : 255 - i - (248 - 8 * j) = 7 - (i - 8 * j) := by omega
        have h3 : 7 - (i - 8 * j) < 256 := by omega
        have h4 : 255 - i < 256 := by omega
        simp [h, h1, h2, h3, h4]
      · rw [if_neg h]
        by_cases h1 : 255 - i < 248 - 8 * j
        · simp [h1]
        · have h2 : 8 ≤ 255 - i - (248 - 8 * j) := by omega
          simp [BitVec.getLsbD_of_ge b _ h2]
    rw [packBytesFrom, BitVec.getLsbD_or, hb, ih (j + 1) i (by omega) hi]
    by_cases h1 : 8 * j ≤ i
    · by_cases h2 : i < 8 * j + 8
      · have h3 : ¬ 8 * (j + 1) ≤ i := by omega
        rw [if_neg h3, if_pos ⟨h1, h2⟩, if_pos h1, bitsOfBytes_cons,
          List.getElem?_append_left (by rw [length_bitsOfByte]; omega)]
        have : i - 8 * j < 8 := by omega
        simp [bitsOfByte, this]
      · have h3 : 8 * (j + 1) ≤ i := by omega
        have h4 : ¬ (8 * j ≤ i ∧ i < 8 * j + 8) := by omega
        rw [if_pos h3, if_neg h4, if_pos h1, bitsOfBytes_cons,
          List.getElem?_append_right (by rw [length_bitsOfByte]; omega), length_bitsOfByte,
          show i - 8 * j - 8 = i - 8 * (j + 1) by omega, Bool.or_false]
    · have h3 : ¬ 8 * (j + 1) ≤ i := by omega
      have h4 : ¬ (8 * j ≤ i ∧ i < 8 * j + 8) := by omega
      rw [if_neg h3, if_neg h4, if_neg h1, Bool.or_false]

theorem getLsbD_packBytes {bs : List Byte} {i : Nat} (h : bs.length ≤ 32) (hi : i < 256) :
    (packBytes bs).getLsbD (255 - i) = (bitsOfBytes bs)[i]?.getD false := by
  rw [packBytes, getLsbD_packBytesFrom bs 0 i (by omega) hi]
  simp

/-- The test on the pad bits (R230): the bits after the code are all 0. -/
theorem packBytes_padded {bs : List Byte} {len : Nat} (h : bs.length ≤ 32) :
    packBytes bs <<< len = 0#256 ↔ ∀ b ∈ (bitsOfBytes bs).drop len, b = false := by
  constructor
  · intro h0 b hb
    obtain ⟨k, hk, rfl⟩ := List.mem_iff_getElem.mp hb
    have hk' : len + k < (bitsOfBytes bs).length := by simp at hk ⊢; omega
    have hlen : (bitsOfBytes bs).length ≤ 256 := by simp; omega
    have hg := getLsbD_packBytes (i := len + k) h (by omega)
    have hz := congrArg (fun w => BitVec.getLsbD w (255 - k)) h0
    simp only [BitVec.getLsbD_shiftLeft, BitVec.getLsbD_zero] at hz
    have h1 : 255 - k < 256 := by omega
    have h2 : ¬ 255 - k < len := by omega
    have h3 : 255 - k - len = 255 - (len + k) := by omega
    rw [h3, hg, List.getElem?_eq_getElem hk'] at hz
    simp only [h1, h2, decide_true, decide_false, Bool.not_false, Bool.true_and, Option.getD_some] at hz
    rw [List.getElem_drop]
    exact hz
  · intro hb
    apply BitVec.eq_of_getLsbD_eq
    intro i hi
    rw [BitVec.getLsbD_shiftLeft, BitVec.getLsbD_zero]
    by_cases h1 : i < len
    · simp [h1]
    · have hg := getLsbD_packBytes (i := 255 - (i - len)) h (by omega)
      rw [show 255 - (255 - (i - len)) = i - len by omega] at hg
      rw [hg]
      rcases hq : (bitsOfBytes bs)[255 - (i - len)]? with _ | b
      · simp
      · have hm : b ∈ (bitsOfBytes bs).drop len := by
          obtain ⟨hlt, hbq⟩ := List.getElem?_eq_some_iff.mp hq
          have : 255 - (i - len) = len + (255 - i) := by omega
          rw [List.mem_iff_getElem?]
          exact ⟨255 - i, by rw [List.getElem?_drop, ← this]; exact hq⟩
        simp [hb b hm]

theorem codeView_getElem? (w : CodeBits) (len i : Nat) :
    (codeView w len)[i]? = if i < len then some (w.getLsbD (255 - i)) else none := by
  unfold codeView
  by_cases h : i < len <;> simp [h]

/-- The code that a record's bytes hold. -/
theorem codeView_packBytes {bs : List Byte} {len : Nat} (h : bs.length ≤ 32) (hl : len ≤ 8 * bs.length) :
    codeView (packBytes bs) len = (bitsOfBytes bs).take len := by
  apply List.ext_getElem?
  intro i
  rw [codeView_getElem?, List.getElem?_take]
  by_cases hi : i < len
  · have hlt : i < (bitsOfBytes bs).length := by simp; omega
    rw [if_pos hi, if_pos hi, getLsbD_packBytes h (by omega), List.getElem?_eq_getElem hlt]
    rfl
  · rw [if_neg hi, if_neg hi]

theorem bitsOfBytes_getElem? (n : Nat) (f : Nat → Byte) : ∀ i, i < 8 * n →
    (bitsOfBytes ((List.range n).map f))[i]? = some ((f (i / 8)).getLsbD (7 - i % 8)) := by
  induction n with
  | zero => intro i hi; omega
  | succ n ih =>
    intro i hi
    rw [List.range_succ, List.map_append, bitsOfBytes_append]
    by_cases h : i < 8 * n
    · rw [List.getElem?_append_left (by simp; omega), ih i h]
    · rw [List.getElem?_append_right (by simp; omega)]
      have hd : i / 8 = n := by omega
      have hm : i % 8 = i - 8 * n := by omega
      have h8 : i - 8 * n < 8 := by omega
      simp [bitsOfByte, h8, hd, hm]

/-- The bytes of a record hold the code's word again, when its bits past the code are 0. -/
theorem packBytes_codeBytes {w : CodeBits} {len : Nat} (hl : len ≤ 255)
    (hz : ∀ i, i < 256 - len → w.getLsbD i = false) :
    packBytes ((List.range (codeBytes len)).map (codeByte w)) = w := by
  have hn : codeBytes len ≤ 32 := by unfold codeBytes; omega
  apply BitVec.eq_of_getLsbD_eq
  intro k hk
  have hg := getLsbD_packBytes (bs := (List.range (codeBytes len)).map (codeByte w)) (i := 255 - k)
    (by simpa using hn) (by omega)
  rw [show 255 - (255 - k) = k by omega] at hg
  rw [hg]
  by_cases hi : 255 - k < 8 * codeBytes len
  · rw [bitsOfBytes_getElem? _ _ _ hi]
    simp only [codeByte, Option.getD_some, BitVec.getLsbD_extractLsb']
    have h1 : 7 - (255 - k) % 8 < 8 := by omega
    have h2 : 248 - 8 * ((255 - k) / 8) + (7 - (255 - k) % 8) = k := by
      have : (255 - k) / 8 ≤ 31 := by omega
      omega
    simp [h1, h2]
  · have hnone : (bitsOfBytes ((List.range (codeBytes len)).map (codeByte w)))[255 - k]? = none := by
      rw [List.getElem?_eq_none_iff]; simp; omega
    rw [hnone, hz k (by unfold codeBytes at hi; omega)]
    rfl

/-! ### One record -/

/-- Reading one byte, then more, none failing. -/
theorem getBytes_take {n : Nat} {s : State} {bs rest : List Byte} (hf : passes n s.srcFail) (hn : bs.length = n)
    (hs : s.src.drop s.spos = bs ++ rest) :
    getBytes n s = .ok bs { s with srcFail := s.srcFail.drop n, spos := s.spos + n } ∧
      s.src.drop (s.spos + n) = rest := by
  subst hn
  exact ⟨getBytes_ok bs hf hs, by rw [← List.drop_drop, hs, List.drop_left]⟩

/-- A record whose symbol does not exceed the last one (R232). -/
theorem readRecord_order {prev : Int} {s : State} {y : Byte} {rest : List Byte} (hf : passes 1 s.srcFail)
    (hs : s.src.drop s.spos = y :: rest) (h : (y.toNat : Int) ≤ prev) :
    readRecord prev s = .raised .hdrOrder { s with srcFail := s.srcFail.drop 1, spos := s.spos + 1 } := by
  rw [readRecord, getByte_ok hf hs, bind_ok, if_pos h]

/-- A record with a good symbol and a bad length (R232). -/
theorem readRecord_len {prev : Int} {s : State} {y l1 l2 : Byte} {rest : List Byte} (hf : passes 3 s.srcFail)
    (hs : s.src.drop s.spos = y :: l1 :: l2 :: rest) (hy : prev < (y.toNat : Int))
    (hl : beNat [l1, l2] = 0 ∨ 255 < beNat [l1, l2]) :
    readRecord prev s = .raised .hdrLen { s with srcFail := s.srcFail.drop 3, spos := s.spos + 3 } := by
  have h1 : s.src.drop (s.spos + 1) = [l1, l2] ++ rest := by rw [← List.drop_drop, hs]; rfl
  have h2 := (getBytes_take (n := Config.hdrShortBytes) (s := { s with srcFail := s.srcFail.drop 1, spos := s.spos + 1 })
    (passes_drop (m := 1) hf) rfl h1).1
  rw [readRecord, getByte_ok (passes_mono hf (by omega)) hs, bind_ok, if_neg (by omega), h2, bind_ok, if_pos hl]
  have e1 : s.spos + 1 + Config.hdrShortBytes = s.spos + 3 := rfl
  have e2 : (s.srcFail.drop 1).drop Config.hdrShortBytes = s.srcFail.drop 3 := by
    rw [List.drop_drop]; rfl
  rw [e1, e2]

/-- A record with a good symbol and length: its pad bits decide (R230, R232). -/
theorem readRecord_bits {prev : Int} {s : State} {y l1 l2 : Byte} {bs rest : List Byte}
    (hf : passes (3 + bs.length) s.srcFail)
    (hs : s.src.drop s.spos = y :: l1 :: l2 :: (bs ++ rest)) (hy : prev < (y.toNat : Int))
    (h0 : 1 ≤ beNat [l1, l2]) (h255 : beNat [l1, l2] ≤ 255) (hn : bs.length = codeBytes (beNat [l1, l2])) :
    readRecord prev s =
      (if packBytes bs <<< beNat [l1, l2] ≠ 0#256 then
        .raised .hdrPad { s with srcFail := s.srcFail.drop (3 + bs.length), spos := s.spos + 3 + bs.length }
      else
        .ok (y.toNat : Int) (setCode y (beNat [l1, l2]) (packBytes bs)
          { s with srcFail := s.srcFail.drop (3 + bs.length), spos := s.spos + 3 + bs.length })) := by
  have h1 : s.src.drop (s.spos + 1) = [l1, l2] ++ (bs ++ rest) := by rw [← List.drop_drop, hs]; rfl
  obtain ⟨h2, h3⟩ := getBytes_take (n := Config.hdrShortBytes)
    (s := { s with srcFail := s.srcFail.drop 1, spos := s.spos + 1 }) (passes_drop (m := 1) (passes_mono hf (Nat.le_add_right 3 _))) rfl h1
  obtain ⟨h4, -⟩ := getBytes_take (n := codeBytes (beNat [l1, l2]))
    (s := { s with srcFail := (s.srcFail.drop 1).drop Config.hdrShortBytes, spos := s.spos + 1 + Config.hdrShortBytes })
    (by rw [List.drop_drop, ← hn]; exact passes_drop (m := 1 + Config.hdrShortBytes) hf) hn h3
  have hlen : ¬ (beNat [l1, l2] = 0 ∨ beNat [l1, l2] > Config.codeMax) := by
    have : Config.codeMax = 255 := rfl
    omega
  rw [readRecord, getByte_ok (passes_mono hf (by omega)) hs, bind_ok, if_neg (by omega), h2, bind_ok, if_neg hlen, h4, bind_ok, ← hn]
  have e1 : s.spos + 1 + Config.hdrShortBytes + bs.length = s.spos + 3 + bs.length := rfl
  have e2 : ((s.srcFail.drop 1).drop Config.hdrShortBytes).drop bs.length = s.srcFail.drop (3 + bs.length) := by
    rw [List.drop_drop, List.drop_drop]
    congr 1
    have : Config.hdrShortBytes = 2 := rfl
    omega
  rw [e1, e2]

/-! ### Many records, and the header's fields -/

@[simp] theorem length_hdrRecord_bytes (r : HdrRecord) : r.bytes.length = 3 + r.code.length := by
  simp [HdrRecord.bytes]; omega

/-- One good record is stored, and nothing else (R230). -/
theorem readRecord_good {prev : Int} {s : State} {r : HdrRecord} {rest : List Byte} (hf : passes r.bytes.length s.srcFail)
    (hs : s.src.drop s.spos = r.bytes ++ rest) (hp : prev < (r.sym.toNat : Int)) (hg : r.good) :
    ∃ u, readRecord prev s = .ok (r.sym.toNat : Int) u ∧
      u = { s with clen := u.clen, cbits := u.cbits, spos := s.spos + r.bytes.length,
                   srcFail := s.srcFail.drop r.bytes.length } ∧ holdsRecords [r] s u := by
  obtain ⟨h1, h255, hc, hz⟩ := hg
  rw [length_hdrRecord_bytes] at hf ⊢
  have h32 : r.code.length ≤ 32 := by omega
  have hpad := (packBytes_padded (len := r.len) h32).mpr hz
  have e := readRecord_bits (l1 := r.lenHigh) (l2 := r.lenLow) hf hs hp h1 h255 hc
  rw [if_neg (by simpa [HdrRecord.len] using hpad)] at e
  refine ⟨_, e, by simp [setCode, Nat.add_assoc], fun r' hr => ?_, fun y hy => ?_⟩
  · obtain rfl := List.mem_singleton.mp hr
    have hcl : (BitVec.ofNat 8 (beNat [r'.lenHigh, r'.lenLow])).toNat = r'.len := by
      rw [BitVec.toNat_ofNat]; unfold HdrRecord.len at *; omega
    rw [clenOf_setCode_self, hcl]
    refine ⟨rfl, ?_, fun i hi => ?_⟩
    · rw [codeOf, clenOf_setCode_self, cbitsOf_setCode_self, hcl]
      exact codeView_packBytes h32 (by omega)
    · rw [cbitsOf_setCode_self]
      have := congrArg (fun w => BitVec.getLsbD w (i + r'.len)) hpad
      simp only [BitVec.getLsbD_shiftLeft, BitVec.getLsbD_zero] at this
      have h1 : i + r'.len < 256 := by omega
      simpa [h1] using this
  · have hne : y ≠ r.sym := fun h => hy r (by simp) h.symm
    exact ⟨clenOf_setCode_ne hne _ _ _, cbitsOf_setCode_ne hne _ _ _⟩

theorem holdsRecords_nil (s u : State) (hc : u.clen = s.clen) (hb : u.cbits = s.cbits) : holdsRecords [] s u :=
  ⟨fun r hr => absurd hr List.not_mem_nil, fun y _ => ⟨by simp [clenOf, hc], by simp [cbitsOf, hb]⟩⟩

/-- What a record stores stays when the records after it have other symbols. -/
theorem holdsRecords_cons {r : HdrRecord} {rs : List HdrRecord} {s u v : State} (h1 : holdsRecords [r] s u)
    (h2 : holdsRecords rs u v) (hne : ∀ r' ∈ rs, r'.sym ≠ r.sym) : holdsRecords (r :: rs) s v := by
  refine ⟨fun r' hr => ?_, fun y hy => ?_⟩
  · rcases List.mem_cons.mp hr with rfl | hr
    · obtain ⟨a, b, c⟩ := h1.1 r' (by simp)
      obtain ⟨hl, hc⟩ := h2.2 r'.sym hne
      exact ⟨by rw [hl, a], by rw [codeOf, hl, hc]; exact b, fun i hi => by rw [hc]; exact c i hi⟩
    · exact h2.1 r' hr
  · obtain ⟨a, b⟩ := h2.2 y fun r' hr => hy r' (by simp [hr])
    obtain ⟨c, d⟩ := h1.2 y fun r' hr => hy r' (by simp [List.mem_singleton.mp hr])
    exact ⟨a.trans c, b.trans d⟩

/-- A run of good records is read and stored, and the parser goes on with the last symbol read (R230). -/
theorem readRecords_good (n : Nat) (rs : List HdrRecord) : ∀ (prev : Int) (s : State) (tail : List Byte), goodRecords rs →
    (∀ r ∈ rs, prev < (r.sym.toNat : Int)) → s.src.drop s.spos = rs.flatMap HdrRecord.bytes ++ tail →
    passes (rs.flatMap HdrRecord.bytes).length s.srcFail →
    ∃ last u, readRecords (rs.length + n) prev s = readRecords n last u ∧
      u = { s with clen := u.clen, cbits := u.cbits, spos := s.spos + (rs.flatMap HdrRecord.bytes).length,
                   srcFail := s.srcFail.drop (rs.flatMap HdrRecord.bytes).length } ∧ holdsRecords rs s u ∧
      (∀ r ∈ rs, (r.sym.toNat : Int) ≤ last) ∧ ((rs = [] ∧ last = prev) ∨ ∃ r ∈ rs, last = (r.sym.toNat : Int)) := by
  induction rs with
  | nil =>
    intro prev s tail _ _ _ _
    exact ⟨prev, s, by simp, by simp, holdsRecords_nil s s rfl rfl, fun r hr => absurd hr List.not_mem_nil, .inl ⟨rfl, rfl⟩⟩
  | cons r rs ih =>
    intro prev s tail hg hp hs hf
    obtain ⟨hgood, hasc⟩ := hg
    obtain ⟨hlt, hasc⟩ := List.pairwise_cons.mp hasc
    rw [List.flatMap_cons, List.length_append] at hf
    rw [List.flatMap_cons, List.append_assoc] at hs
    obtain ⟨u, e, hu, hh⟩ := readRecord_good (passes_mono hf (Nat.le_add_right _ _)) hs (hp r (by simp)) (hgood r (by simp))
    have hsu : u.src.drop u.spos = rs.flatMap HdrRecord.bytes ++ tail := by
      rw [hu]; simp only; rw [← List.drop_drop, hs, List.drop_left]
    obtain ⟨last, v, e', hv, hh', hle, hlast⟩ := ih (r.sym.toNat : Int) u tail
      ⟨fun r' hr => hgood r' (by simp [hr]), hasc⟩ (fun r' hr => by exact_mod_cast hlt r' hr) hsu
      (by rw [hu]; exact passes_drop hf)
    refine ⟨last, v, ?_, ?_, ?_, ?_, .inr ?_⟩
    · rw [List.length_cons, show rs.length + 1 + n = (rs.length + n) + 1 by omega, readRecords, e, bind_ok, e']
    · rw [hv, hu]; simp [Nat.add_assoc, List.drop_drop, List.flatMap_cons]
    · exact holdsRecords_cons hh hh' fun r' hr h => by have := hlt r' hr; rw [h] at this; omega
    · intro r' hr
      rcases List.mem_cons.mp hr with rfl | hr
      · rcases hlast with ⟨_, h⟩ | ⟨r2, hr2, h⟩
        · omega
        · have := hlt r2 hr2; omega
      · exact hle r' hr
    · rcases hlast with ⟨_, h⟩ | ⟨r2, hr2, h⟩
      · exact ⟨r, by simp, h⟩
      · exact ⟨r2, by simp [hr2], h⟩

/-- `HDRR` past its two fields: with legal ones it goes on to the records, `TOTAL` written (R230). -/
theorem hdrrBody_fields {s : State} {tb nb rest : List Byte} (hf : passes 10 s.srcFail) (ht : tb.length = 8)
    (hn : nb.length = 2) (hs : s.src.drop s.spos = tb ++ nb ++ rest) (h0 : beNat tb ≠ 0) :
    hdrrBody s =
      (if beNat nb = 0 ∨ beNat nb > Config.nsym then
        .raised .hdrNrec { s with total := BitVec.ofNat 64 (beNat tb), spos := s.spos + 10, srcFail := s.srcFail.drop 10 }
      else (readRecords (beNat nb) (-1)
        { s with total := BitVec.ofNat 64 (beNat tb), spos := s.spos + 10, srcFail := s.srcFail.drop 10 }).bind
          fun _ s3 => .ok 0#64 { s3 with phase := .hdr }) := by
  rw [List.append_assoc] at hs
  obtain ⟨h1, h2⟩ := getBytes_take (n := Config.hdrTotalBytes) (passes_mono hf (by decide)) ht hs
  obtain ⟨h3, -⟩ := getBytes_take (n := Config.hdrShortBytes)
    (s := { s with total := BitVec.ofNat 64 (beNat tb), spos := s.spos + Config.hdrTotalBytes,
                   srcFail := s.srcFail.drop Config.hdrTotalBytes }) (passes_drop (m := 8) hf) hn h2
  rw [hdrrBody, h1, bind_ok, if_neg h0, h3, bind_ok]
  have e1 : s.spos + Config.hdrTotalBytes + Config.hdrShortBytes = s.spos + 10 := rfl
  have e2 : (s.srcFail.drop Config.hdrTotalBytes).drop Config.hdrShortBytes = s.srcFail.drop 10 := by
    rw [List.drop_drop]; rfl
  rw [e1, e2]

end Sys2Proof.Machine
end

