-- ==== Sys2Proof/Laws/PerInstr.lean ====
section
/-! SUPPORT. A statement for every instruction as syntax: the word that stands for it is a word of its own row of
spec/opcode_table.json, at every operand (30_encoding.md R93 to R97). -/

namespace Sys2Proof.Laws.EncodedRow

open Sys2Proof

/-- A row of the opcode table: a word `w` belongs to it when `w AND mask = pattern`. -/
structure Row where
  pattern : CmdWord
  mask : CmdWord
  deriving DecidableEq, Repr

/-- The row of each instruction, as the opcode table gives it. -/
def row : Instr → Row
  | .nop => ⟨0x0000#16, 0xFFFF#16⟩
  | .rst => ⟨0x1000#16, 0xFFFF#16⟩
  | .finc _ => ⟨0x2000#16, 0xFF00#16⟩
  | .fset _ _ => ⟨0x3000#16, 0xFF00#16⟩
  | .build => ⟨0x4000#16, 0xFFFF#16⟩
  | .gen => ⟨0x5000#16, 0xFFFF#16⟩
  | .hdrw => ⟨0x6000#16, 0xFFFF#16⟩
  | .enc _ => ⟨0x7000#16, 0xFF00#16⟩
  | .close => ⟨0x8000#16, 0xFFFF#16⟩
  | .hdrr => ⟨0x9000#16, 0xFFFF#16⟩
  | .recon => ⟨0xA000#16, 0xFFFF#16⟩
  | .dstep => ⟨0xB000#16, 0xFFFF#16⟩
  | .drun => ⟨0xC000#16, 0xFFFF#16⟩
  | .rdreg _ => ⟨0xD000#16, 0xFE00#16⟩
  | .rdtabF _ => ⟨0xE000#16, 0xFF00#16⟩
  | .rdtabL _ => ⟨0xE200#16, 0xFF00#16⟩
  | .rdtabB0 _ => ⟨0xE400#16, 0xFF00#16⟩
  | .rdtabB1 _ => ⟨0xE600#16, 0xFF00#16⟩
  | .rdtabB2 _ => ⟨0xE800#16, 0xFF00#16⟩
  | .rdtabB3 _ => ⟨0xEA00#16, 0xFF00#16⟩
  | .rdnodeL _ => ⟨0xF000#16, 0xFE00#16⟩
  | .rdnodeF _ => ⟨0xF200#16, 0xFE00#16⟩

/-- The encoded word belongs to the instruction's row, and outside its operand the word is the row's pattern. -/
def Statement (i : Instr) : Prop := (encode i).cmd &&& (row i).mask = (row i).pattern

/-- Words built from the same fields: the operand never reaches the bits a mask keeps. -/
theorem word_of_row (op : BitVec 4) (f : BitVec 3) (a : BitVec 9) :
    wordR op f a &&& 0xFE00#16 = wordR op f 0#9 := by
  unfold wordR
  ext i hi
  rw [BitVec.getElem_and, BitVec.getElem_append, BitVec.getElem_append]
  interval_cases i <;> simp

theorem word_of_symbol_row (op : BitVec 4) (f : BitVec 3) (y : Sym) :
    wordS op f y &&& 0xFF00#16 = wordR op f 0#9 := by
  have h8 : (0#1 ++ y)[8] = false := by
    rw [← BitVec.getLsbD_eq_getElem, BitVec.getLsbD_append]; simp
  unfold wordS wordR
  ext i hi
  rw [BitVec.getElem_and, BitVec.getElem_append, BitVec.getElem_append]
  interval_cases i <;> simp [h8]

theorem nop : Statement .nop := rfl
theorem rst : Statement .rst := rfl
theorem finc (y : Sym) : Statement (.finc y) := word_of_symbol_row _ _ y
theorem fset (y : Sym) (n : Word) : Statement (.fset y n) := word_of_symbol_row _ _ y
theorem build : Statement .build := rfl
theorem gen : Statement .gen := rfl
theorem hdrw : Statement .hdrw := rfl
theorem enc (y : Sym) : Statement (.enc y) := word_of_symbol_row _ _ y
theorem close : Statement .close := rfl
theorem hdrr : Statement .hdrr := rfl
theorem recon : Statement .recon := rfl
theorem dstep : Statement .dstep := rfl
theorem drun : Statement .drun := rfl
theorem rdreg (r : BitVec 9) : Statement (.rdreg r) := word_of_row _ _ r
theorem rdtabF (y : Sym) : Statement (.rdtabF y) := word_of_symbol_row _ _ y
theorem rdtabL (y : Sym) : Statement (.rdtabL y) := word_of_symbol_row _ _ y
theorem rdtabB0 (y : Sym) : Statement (.rdtabB0 y) := word_of_symbol_row _ _ y
theorem rdtabB1 (y : Sym) : Statement (.rdtabB1 y) := word_of_symbol_row _ _ y
theorem rdtabB2 (y : Sym) : Statement (.rdtabB2 y) := word_of_symbol_row _ _ y
theorem rdtabB3 (y : Sym) : Statement (.rdtabB3 y) := word_of_symbol_row _ _ y
theorem rdnodeL (a : BitVec 9) : Statement (.rdnodeL a) := word_of_row _ _ a
theorem rdnodeF (a : BitVec 9) : Statement (.rdnodeF a) := word_of_row _ _ a

end Sys2Proof.Laws.EncodedRow
end

