-- ==== Sys2Proof/Laws/Walk.lean ====
section
/-! SUPPORT. Paths in the node memory, and the decoder's walk along one (46_decoder.md R240 to R243). -/

namespace Sys2Proof.Machine

/-! ### Paths -/

theorem nodeAt_congr {s t : State} (h : t.node = s.node) (i : NodeIdx) : nodeAt t i = nodeAt s i := by simp [nodeAt, h]

/-- Paths depend on the node memory only. -/
theorem follow_congr {s t : State} (h : t.node = s.node) (p : List Bool) : ∀ i, follow t i p = follow s i p := by
  induction p with
  | nil => intro i; rfl
  | cons b p ih =>
    intro i
    simp only [follow, nodeAt_congr h]
    split
    · rfl
    · split
      · rfl
      · exact ih _

theorem leafPath_congr {s t : State} (h : t.node = s.node) (r : NodeIdx) (p : List Bool) (y : Sym) :
    leafPath t r p y ↔ leafPath s r p y := by simp [leafPath, follow_congr h, nodeAt_congr h]

/-- A path with a first choice: the node is internal and has the child chosen. -/
theorem follow_cons {s : State} {i j : NodeIdx} {b : Bool} {p : List Bool} :
    follow s i (b :: p) = some j ↔
      (nodeAt s i).tag = .int ∧ ∃ k, child (nodeAt s i) b = some k ∧ follow s k p = some j := by
  cases ht : (nodeAt s i).tag
  · rcases hc : child (nodeAt s i) b with _ | k <;> simp [follow, ht, hc]
  · simp [follow, ht]

theorem follow_append {s : State} (p q : List Bool) : ∀ {i j : NodeIdx},
    follow s i (p ++ q) = some j ↔ ∃ k, follow s i p = some k ∧ follow s k q = some j := by
  induction p with
  | nil => intro i j; simp [follow]
  | cons b p ih =>
    intro i j
    rw [List.cons_append, follow_cons]
    constructor
    · rintro ⟨ht, k, hk, h⟩
      obtain ⟨m, hm, hj⟩ := ih.mp h
      exact ⟨m, follow_cons.mpr ⟨ht, k, hk, hm⟩, hj⟩
    · rintro ⟨m, hm, hj⟩
      obtain ⟨ht, k, hk, h⟩ := follow_cons.mp hm
      exact ⟨ht, k, hk, ih.mpr ⟨m, h, hj⟩⟩

/-- From a leaf only the empty path leads on. -/
theorem follow_leaf {s : State} {i j : NodeIdx} {p : List Bool} (ht : (nodeAt s i).tag = .leaf)
    (h : follow s i p = some j) : p = [] ∧ j = i := by
  cases p with
  | nil => simpa [follow, eq_comm] using h
  | cons b p =>
    have := (follow_cons.mp h).1
    rw [ht] at this
    cases this

/-- Of two paths to leaves from one node none is a proper beginning of the other (10_state.md R28). -/
theorem leafPaths_prefix {s : State} {r : NodeIdx} {p q : List Bool} {y z : Sym} (hp : leafPath s r p y)
    (hq : leafPath s r q z) (h : p <+: q) : p = q ∧ y = z := by
  obtain ⟨t, rfl⟩ := h
  obtain ⟨i, hi, hti, rfl⟩ := hp
  obtain ⟨j, hj, htj, rfl⟩ := hq
  obtain ⟨k, hk, hkj⟩ := (follow_append p t).mp hj
  rw [hi] at hk
  obtain rfl := Option.some.inj hk
  obtain ⟨rfl, rfl⟩ := follow_leaf hti hkj
  simp

/-! ### The walk -/

/-- Along a path from the cursor to a leaf the walk uses the path's bits, writes the leaf's symbol and counts it, and is
back at the root; with the last symbol the run ends. The loop has used one iteration a bit. -/
theorem runLoop_path (n : Nat) (x : Sym) (p rest : List Bool) : ∀ (s : State) (i : NodeIdx),
    s.phase = .dec → s.cur = some i → p ≠ [] → leafPath s i p x → unreadBits s = p ++ rest →
    passes (bytesNeeded s p.length) s.srcFail → passes 1 s.sinkFail →
    ∃ y m t, t = { s with cur := s.root, rbuf := y, rcnt := m, spos := s.spos + bytesNeeded s p.length,
                          srcFail := s.srcFail.drop (bytesNeeded s p.length),
                          sink := s.sink ++ [x], sinkFail := s.sinkFail.drop 1, scnt := s.scnt + 1#64,
                          sinkClosed := if s.scnt + 1#64 = s.total then true else s.sinkClosed,
                          sinkOpen := if s.scnt + 1#64 = s.total then false else s.sinkOpen,
                          phase := if s.scnt + 1#64 = s.total then .done else .dec } ∧
      unreadBits t = rest ∧ m.val + p.length = s.rcnt.val + 8 * bytesNeeded s p.length ∧
      runLoop (n + p.length) s = runLoop n t := by
  induction p with
  | nil => intro s i _ _ h; exact absurd rfl h
  | cons b p ih =>
    intro s i hph hcur _ hleaf hbits hr hw
    obtain ⟨j, hj, htj, rfl⟩ := hleaf
    obtain ⟨hti, k, hk, hkj⟩ := follow_cons.mp hj
    have hlen : (b :: p).length = 1 + p.length := by rw [List.length_cons]; omega
    rw [hlen] at hr ⊢
    have hr1 : passes (bytesNeeded s 1) s.srcFail := passes_mono hr (by unfold bytesNeeded; omega)
    obtain ⟨y, m, u, hrd, hrest, hu, hm⟩ := readBit_ok (fun h => by rwa [bytesNeeded_one, if_pos h] at hr1)
      (by simpa using hbits)
    have hu' : u = { s with rbuf := y, rcnt := m, spos := s.spos + bytesNeeded s 1,
                            srcFail := s.srcFail.drop (bytesNeeded s 1) } := by
      rw [hu, bytesNeeded_one]; split <;> simp
    subst hu'
    have hstep := dstepBody_bit hrd hcur
    have hfuel : n + (1 + p.length) = (n + p.length) + 1 := by omega
    have hadd := bytesNeeded_add (t := { s with rbuf := y, rcnt := m, spos := s.spos + bytesNeeded s 1,
                                                srcFail := s.srcFail.drop (bytesNeeded s 1), cur := some k }) hm p.length
    rw [hadd] at hr ⊢
    rcases descend_cases i b { s with rbuf := y, rcnt := m, spos := s.spos + bytesNeeded s 1,
                                      srcFail := s.srcFail.drop (bytesNeeded s 1) } with ⟨hc, _⟩ | ⟨k', hc, h⟩
    · exact absurd (hc.symm.trans hk) (by simp)
    · obtain rfl : k' = k := Option.some.inj (hc.symm.trans hk)
      by_cases hp : p = []
      · subst hp
        obtain rfl : k' = j := by simpa [follow] using hkj
        have hz : bytesNeeded { s with rbuf := y, rcnt := m, spos := s.spos + bytesNeeded s 1,
                                       srcFail := s.srcFail.drop (bytesNeeded s 1), cur := some k' } ([] : List Bool).length = 0 := by
          simp [bytesNeeded]
        rw [hz, Nat.add_zero]
        rcases h with ⟨ht, _⟩ | ⟨_, hd⟩
        · exact absurd (ht.symm.trans htj) (by decide)
        · have hd1 := (draw_of_passes hw).1
          rcases emitLeaf_cases (nodeAt s k').sym
              { s with rbuf := y, rcnt := m, spos := s.spos + bytesNeeded s 1, srcFail := s.srcFail.drop (bytesNeeded s 1),
                       cur := some k' } with
            ⟨_, hf⟩ | ⟨_, hne, he⟩ | ⟨_, heq, he⟩
          · rw [hd1] at hf; simp at hf
          · have hne' : s.scnt + 1#64 ≠ s.total := hne
            refine ⟨y, m, _, rfl, hrest, by simpa using hm, ?_⟩
            rw [hfuel, runLoop, if_pos hph, hstep, hd]
            refine (congrArg (Res.bind · fun _ s1 => runLoop (n + [].length) s1) he).trans ?_
            rw [bind_ok]
            simp [hd1, hne', hph]
          · have heq' : s.scnt + 1#64 = s.total := heq
            refine ⟨y, m, _, rfl, hrest, by simpa using hm, ?_⟩
            rw [hfuel, runLoop, if_pos hph, hstep, hd]
            refine (congrArg (Res.bind · fun _ s1 => runLoop (n + [].length) s1) he).trans ?_
            rw [bind_ok]
            simp [hd1, heq']
      · have htk : (nodeAt s k').tag = .int := by
          cases p with
          | nil => exact absurd rfl hp
          | cons c p => exact (follow_cons.mp hkj).1
        rcases h with ⟨_, hd⟩ | ⟨ht, _⟩
        · have hlp := (leafPath_congr (s := s)
            (t := { s with rbuf := y, rcnt := m, spos := s.spos + bytesNeeded s 1,
                           srcFail := s.srcFail.drop (bytesNeeded s 1), cur := some k' }) rfl k' p
            (nodeAt s j).sym).mpr ⟨j, hkj, htj, rfl⟩
          obtain ⟨y', m', t, ht, hu, hm', hl⟩ := ih
            { s with rbuf := y, rcnt := m, spos := s.spos + bytesNeeded s 1, srcFail := s.srcFail.drop (bytesNeeded s 1),
                     cur := some k' } k' hph rfl hp hlp hrest (passes_drop hr) hw
          refine ⟨y', m', t, ?_, hu, ?_, ?_⟩
          · rw [ht]; simp [Nat.add_assoc, List.drop_drop]
          · simp only at hm'; omega
          · rw [hfuel, runLoop, if_pos hph, hstep, hd, bind_ok, hl]
        · exact absurd (ht.symm.trans htk) (by decide)

end Sys2Proof.Machine
end

