-- ==== Sys2Proof/Tests/Slice0.lean ====
section
/-! SUPPORT. Tests: ill-formed terms, words written out from the spec's encodings, one-step checks whose expected values
are the vectors of 95_test_vectors.md (V<n>), and for each statement with hypotheses a concrete state that meets them. -/

namespace Sys2Proof.Tests

set_option Elab.async false

open Sys2Proof Sys2Proof.Machine

/-! ### Helpers -/

/-- The machine answers, with a state that meets `P`. -/
def answers (o : Out) (P : State → Bool) : Bool :=
  match o with
  | .next t => P t
  | .fault _ => false
  | .refused _ => false

theorem answers_next {o : Out} {P : State → Bool} (h : answers o P = true) : ∃ t, o = .next t ∧ P t = true := by
  cases o with
  | next t => exact ⟨t, rfl, h⟩
  | fault r => simp [answers] at h
  | refused r => simp [answers] at h

/-- The last response is `(ok, v)`. -/
def said (ok : Bool) (v : Word) (t : State) : Bool := t.responses.getLast? == some ⟨ok, v⟩

/-- The bytes of a list of numbers. -/
def bytes (l : List Nat) : List Byte := l.map (BitVec.ofNat 8)

/-- Phase `IDLE` with counts `A` 2, `B` 1 (V17). -/
def idleAB : State := setFreq 0x41#8 2#64 (setFreq 0x42#8 1#64 State.reset)

/-- Phase `IDLE` with counts `a` 1, `b` 1, `c` 2, `d` 2 (V6). -/
def idleABCD : State :=
  setFreq 0x61#8 1#64 (setFreq 0x62#8 1#64 (setFreq 0x63#8 2#64 (setFreq 0x64#8 2#64 State.reset)))

/-- The leaf of a symbol, and an internal node. -/
def leafOf (y : Sym) (f : Word) : Node := { tag := .leaf, sym := y, freq := f, left := none, right := none }
def intOf (f : Word) (l r : Ptr) : Node := { tag := .int, sym := 0#8, freq := f, left := l, right := r }

/-- Phase `TREE`, the tree of V17. -/
def treeAB : State :=
  { setNode 0 (leafOf 0x41#8 2#64) (setNode 1 (leafOf 0x42#8 1#64) (setNode 2 (intOf 3#64 (some 1) (some 0)) idleAB)) with
    ncnt := 3#9, root := some 2, total := 3#64, phase := .tree }

/-- Reset with the codes of V17: `A` "1", `B` "0". -/
def codedAB : State := setCode 0x41#8 1 (1#256 <<< 255) (setCode 0x42#8 1 0#256 State.reset)

/-- Phase `CODES`, with those codes and `TOTAL` 3. -/
def codesAB : State := { codedAB with phase := .codes, total := 3#64 }

/-- The header of V17, 18 bytes. -/
def headerAB : List Byte := bytes [0, 0, 0, 0, 0, 0, 0, 3, 0, 2, 0x41, 0, 1, 0x80, 0x42, 0, 1, 0]

/-- Phase `ENC`, with those codes, after `n` symbols, the accumulator as given. -/
def encAB (n : Nat) (a : Byte) (k : BitVec 3) : State :=
  { codesAB with phase := .enc, sinkOpen := true, scnt := BitVec.ofNat 64 n, wacc := a, wcnt := k }

/-- Phase `HDR` with codes `A` "00", `B` "1" and `TOTAL` 2 (V22, fourth row). -/
def hdrState : State :=
  { setCode 0x41#8 2 0#256 (setCode 0x42#8 1 (1#256 <<< 255) State.reset) with phase := .hdr, total := 2#64 }

/-- Phase `DEC`, the tree `RECON` makes of them: node 0 to 1 and 3, node 1 to 2; leaves 2 and 3. -/
def decState : State :=
  { setNode 0 (intOf 0#64 (some 1) (some 3)) (setNode 1 (intOf 0#64 (some 2) none)
      (setNode 2 (leafOf 0x41#8 0#64) (setNode 3 (leafOf 0x42#8 0#64) hdrState))) with
    ncnt := 4#9, root := some 0, cur := some 0, phase := .dec, sinkOpen := true }

/-- Phase `ERR` after `BUILD` on an empty table (V10). -/
def errState : State := { State.reset with phase := .err, err := .emptyInput, errInfo := 0x20#8 }

/-! ### Ill-formed terms are refused (30_encoding.md R98, I4 and I8) -/

theorem test_wf_rdreg_5_refused : (Instr.rdreg 5#9).wellFormed = false := by decide
theorem test_wf_rdreg_4_accepted : (Instr.rdreg 4#9).wellFormed = true := by decide
theorem test_wf_rdnodeL_511_refused : (Instr.rdnodeL 511#9).wellFormed = false := by decide
theorem test_wf_rdnodeF_511_refused : (Instr.rdnodeF 511#9).wellFormed = false := by decide
theorem test_wf_rdnodeL_510_accepted : (Instr.rdnodeL 510#9).wellFormed = true := by decide

/-! ### Words written out from R90 to R97: `op`, then `f`, then `a`, bit by bit -/

theorem test_word_nop : decodeTableWord 16 0b0000_000_000000000 = some .nop := by decide
theorem test_word_rst : decodeTableWord 16 0b0001_000_000000000 = some .rst := by decide
theorem test_word_finc : decodeTableWord 16 0b0010_000_0_01000001 = some (.finc 0x41#8) := by decide
/-- `WDATA` = 5 above the command word. -/
theorem test_word_fset : decodeTableWord 80 (5 * 2 ^ 16 + 0b0011_000_0_01000001) = some (.fset 0x41#8 5#64) := by decide
theorem test_word_build : decodeTableWord 16 0b0100_000_000000000 = some .build := by decide
theorem test_word_gen : decodeTableWord 16 0b0101_000_000000000 = some .gen := by decide
theorem test_word_hdrw : decodeTableWord 16 0b0110_000_000000000 = some .hdrw := by decide
theorem test_word_enc : decodeTableWord 16 0b0111_000_0_01000010 = some (.enc 0x42#8) := by decide
theorem test_word_close : decodeTableWord 16 0b1000_000_000000000 = some .close := by decide
theorem test_word_hdrr : decodeTableWord 16 0b1001_000_000000000 = some .hdrr := by decide
theorem test_word_recon : decodeTableWord 16 0b1010_000_000000000 = some .recon := by decide
theorem test_word_dstep : decodeTableWord 16 0b1011_000_000000000 = some .dstep := by decide
theorem test_word_drun : decodeTableWord 16 0b1100_000_000000000 = some .drun := by decide
theorem test_word_rdreg : decodeTableWord 16 0b1101_000_000000100 = some (.rdreg 4#9) := by decide
theorem test_word_rdtabF : decodeTableWord 16 0b1110_000_0_11111111 = some (.rdtabF 0xFF#8) := by decide
theorem test_word_rdtabL : decodeTableWord 16 0b1110_001_0_01000011 = some (.rdtabL 0x43#8) := by decide
theorem test_word_rdtabB0 : decodeTableWord 16 0b1110_010_0_01000011 = some (.rdtabB0 0x43#8) := by decide
theorem test_word_rdtabB1 : decodeTableWord 16 0b1110_011_0_01000011 = some (.rdtabB1 0x43#8) := by decide
theorem test_word_rdtabB2 : decodeTableWord 16 0b1110_100_0_01000011 = some (.rdtabB2 0x43#8) := by decide
theorem test_word_rdtabB3 : decodeTableWord 16 0b1110_101_0_01000011 = some (.rdtabB3 0x43#8) := by decide
theorem test_word_rdnodeL : decodeTableWord 16 0b1111_000_111111110 = some (.rdnodeL 510#9) := by decide
theorem test_word_rdnodeF : decodeTableWord 16 0b1111_001_000000110 = some (.rdnodeF 6#9) := by decide

/-- The illegal words of V12, V15 and V16, one for each of I1 to I8, and the case each is rejected under (R98). -/
theorem test_illegal_words :
    [0x0001, 0x2141, 0xD200, 0xD005, 0xEC41, 0xE141, 0xF400, 0xF1FF].map
      (fun w => match decode (commandOfBits 16 w) with | .ok _ => none | .error k => some k) =
      [some .i1, some .i2, some .i3, some .i4, some .i5, some .i6, some .i7, some .i8] := by decide

/-- No word belongs to two rows of the opcode table (V30). -/
theorem test_rows_disjoint :
    ([Instr.nop, .rst, .finc 0, .fset 0 0, .build, .gen, .hdrw, .enc 0, .close, .hdrr, .recon, .dstep, .drun, .rdreg 0,
      .rdtabF 0, .rdtabL 0, .rdtabB0 0, .rdtabB1 0, .rdtabB2 0, .rdtabB3 0, .rdnodeL 0, .rdnodeF 0].map
        Laws.EncodedRow.row).Pairwise
      (fun p q => p.pattern &&& (p.mask &&& q.mask) ≠ q.pattern &&& (p.mask &&& q.mask)) := by decide

/-! ### One step each, expected values from 95_test_vectors.md -/

/-- V26: `NOP` in phase `ERR` answers `ok` and leaves `STATUS`. -/
theorem test_nop_in_err :
    answers (exec .nop errState) (fun t => said true 0 t && statusReg t == 0x02037#64) = true := by decide +kernel

/-- V16: `RST` in the middle of an encode closes the sink and drops the 7 pending bits. -/
theorem test_rst_in_enc :
    answers (exec .rst { encAB 2 0x04#8 7#3 with sink := bytes [1, 2] })
      (fun t => said true 0 t && t.sink == bytes [1, 2] && t.sinkClosed && statusReg t == 0#64 && bitioReg t == 0#64 &&
        clenOf t 0x41#8 == 0#8 && treeReg t == 0x000001FF000001FF#64) = true := by decide +kernel

/-- V16: `RST` in phase `DONE` does not close the sink again. -/
theorem test_rst_in_done :
    answers (exec .rst { State.reset with phase := .done }) (fun t => !t.sinkClosed && statusReg t == 0#64) = true := by
  decide +kernel

/-- V12. -/
theorem test_finc_counts :
    answers (exec (.finc 0x41#8) (setFreq 0x41#8 1#64 State.reset)) (fun t => said true 0 t && freqOf t 0x41#8 == 2#64) =
      true := by decide +kernel

/-- V12: the full counter. -/
theorem test_finc_full :
    answers (exec (.finc 0x41#8) (setFreq 0x41#8 (BitVec.allOnes 64) State.reset))
      (fun t => said false 0 t && freqOf t 0x41#8 == BitVec.allOnes 64 && statusReg t == 0x03247#64) = true := by
  decide +kernel

/-- V12: `FSET 'D', 0` removes the entry. -/
theorem test_fset_zero :
    answers (exec (.fset 0x44#8 0#64) (setFreq 0x44#8 1#64 State.reset))
      (fun t => said true 0 t && freqOf t 0x44#8 == 0#64 && presentSyms t == []) = true := by decide +kernel

/-- V12: out of phase. -/
theorem test_fset_in_tree :
    answers (exec (.fset 0x41#8 9#64) treeAB)
      (fun t => said false 0 t && freqOf t 0x41#8 == 2#64 && statusReg t == 0x13147#64) = true := by decide +kernel

/-- V17: `B`, the rarer, is removed first and becomes the left child. V6: among three nodes of frequency 2 the leaves are
removed before the node of the first merge; the codes `GEN` takes from that tree cost 12 bits, as V6 says. -/
theorem test_build_merges :
    answers (exec .build idleAB)
      (fun t => said true 0 t && nodeAt t 0 == leafOf 0x41#8 2#64 && nodeAt t 1 == leafOf 0x42#8 1#64 &&
        nodeAt t 2 == intOf 3#64 (some 1) (some 0) && treeReg t == 0x000001FF00030002#64 && t.total == 3#64 &&
        t.phase == .tree) = true ∧
    answers (exec .build idleABCD)
      (fun t => nodeAt t 4 == intOf 2#64 (some 0) (some 1) && nodeAt t 5 == intOf 4#64 (some 2) (some 3) &&
        nodeAt t 6 == intOf 6#64 (some 4) (some 5) && treeReg t == 0x000001FF00070006#64 &&
        answers (exec .gen t) fun u => bodyBits idleABCD (fun y => (clenOf u y).toNat) == 12) = true := by decide +kernel

/-- V5: the one-symbol alphabet. -/
theorem test_build_one :
    answers (exec .build (setFreq 0x41#8 4#64 State.reset))
      (fun t => linkWord (nodeAt t 0) == 0x07FFFE83#64 && linkWord (nodeAt t 1) == 0x07FC0000#64 &&
        treeReg t == 0x000001FF00020001#64 && t.total == 4#64) = true := by decide +kernel

/-- V17: `B` "0", `A` "1". -/
theorem test_gen_two :
    answers (exec .gen treeAB)
      (fun t => said true 0 t && codeOf t 0x41#8 == [true] && codeOf t 0x42#8 == [false] && clenOf t 0x43#8 == 0#8 &&
        t.phase == .codes) = true := by decide +kernel

/-- A tree that is one leaf, which no `BUILD` makes: the walk stores the empty path (R200, R205). -/
theorem test_gen_lone_leaf :
    answers (exec .gen { treeAB with root := some 0 }) (fun t => clenOf t 0x41#8 == 0#8 && t.phase == .codes) = true := by
  decide +kernel

/-- V17: the header. -/
theorem test_hdrw_header :
    answers (exec .hdrw codesAB) (fun t => said true 0 t && t.sink == headerAB && statusReg t == 0xB#64) = true := by
  decide +kernel

/-- V23, `k` = 9. -/
theorem test_hdrw_write_fails :
    answers (exec .hdrw { codesAB with sinkFail := List.replicate 9 false ++ [true] })
      (fun t => said false 0 t && t.sink == bytes [0, 0, 0, 0, 0, 0, 0, 3, 0] && t.sinkClosed &&
        statusReg t == 0x20117#64) = true := by decide +kernel

/-- V13: from `0xFE`, 7 a 0 bit writes `FE`. -/
theorem test_enc_flushes_a_byte :
    answers (exec (.enc 0x42#8) (encAB 1 0xFE#8 7#3))
      (fun t => said true 0 t && t.sink == bytes [0xFE] && bitioReg t == 0#64 && t.scnt == 2#64) = true := by decide +kernel

/-- V13, last row: the byte stays in `WACC` when the write fails; V23, `k` = 26. -/
theorem test_enc_write_fails :
    answers (exec (.enc 0x41#8) { encAB 1 0x04#8 7#3 with sinkFail := [true] })
      (fun t => said false 0 t && t.sink == [] && t.sinkClosed && t.wacc == 0x05#8 && t.wcnt == 7#3 && t.scnt == 1#64 &&
        statusReg t == 0x30117#64) = true := by decide +kernel

/-- V13: three 0 bits pending make the byte `00`. -/
theorem test_close_pads :
    answers (exec .close (encAB 3 0x00#8 3#3))
      (fun t => said true 0 t && t.sink == bytes [0x00] && t.sinkClosed && statusReg t == 0x6#64 && bitioReg t == 0#64) =
      true := by decide +kernel

/-- V25: one symbol short; the pending bits stay. -/
theorem test_close_short :
    answers (exec .close (encAB 2 0x80#8 1#3))
      (fun t => said false 0 t && t.sink == [] && t.sinkClosed && t.wacc == 0x80#8 && t.wcnt == 1#3 &&
        statusReg t == 0x33447#64) = true := by decide +kernel

/-- V17: the header read back. -/
theorem test_hdrr_reads :
    answers (exec .hdrr { State.reset with src := headerAB ++ bytes [0xC0] })
      (fun t => said true 0 t && t.total == 3#64 && codeOf t 0x41#8 == [true] && codeOf t 0x42#8 == [false] &&
        t.spos == 18 && statusReg t == 0x4#64) = true := by decide +kernel

/-- V20: the bit after the 1-bit code is 1. -/
theorem test_hdrr_pad :
    answers (exec .hdrr { State.reset with src := bytes [0, 0, 0, 0, 0, 0, 0, 11, 0, 1, 0x41, 0, 1, 0x40, 0] })
      (fun t => said false 0 t && t.spos == 14 && t.total == 11#64 && clenOf t 0x41#8 == 0#8 &&
        statusReg t == 0x01527#64) = true := by decide +kernel

/-- V22, fourth row: `A` "00", `B` "1". -/
theorem test_recon_tree :
    answers (exec .recon hdrState)
      (fun t => said true 0 t && (List.range 4).map (fun i => (nodeOperand t (BitVec.ofNat 9 i)).map linkWord) ==
          (List.range 4).map (fun i => (nodeOperand decState (BitVec.ofNat 9 i)).map linkWord) &&
        treeReg t == 0x0000000000040000#64 && statusReg t == 0xD#64) = true := by decide +kernel

/-- V21 (a): `A` "0", `B` "01". -/
theorem test_recon_prefix :
    answers (exec .recon (setCode 0x41#8 1 0#256 (setCode 0x42#8 2 (1#256 <<< 254) hdrState)))
      (fun t => said false 0 t && statusReg t == 0x41627#64 && t.ncnt == 2#9 && !t.sinkClosed) = true := by decide +kernel

/-- V22, fifth row: the absent right child of node 1. -/
theorem test_dstep_walk_nil :
    answers (exec .dstep { decState with cur := some 1, rbuf := 0x40#8, rcnt := 7 })
      (fun t => said false 0 t && t.cur == some 1 && t.rcnt == 6 && t.sinkClosed && statusReg t == 0x53647#64) = true := by
  decide +kernel

/-- V24: the first sink write fails; the cursor stays on the leaf. -/
theorem test_dstep_write_fails :
    answers (exec .dstep { decState with src := bytes [0x80], sinkFail := [true] })
      (fun t => said false 0 t && t.cur == some 3 && t.rcnt == 7 && t.spos == 1 && t.scnt == 0#64 && t.sink == [] &&
        statusReg t == 0x50117#64) = true := by decide +kernel

/-- V22, fourth row: body `20` decodes to `A`, `B`. -/
theorem test_drun_decodes :
    answers (exec .drun { decState with src := bytes [0x20] })
      (fun t => said true 0 t && t.sink == bytes [0x41, 0x42] && t.sinkClosed && t.rcnt == 5 && t.scnt == 2#64 &&
        t.cur == some 0 && statusReg t == 0x6#64) = true := by decide +kernel

/-- V22, second row: the body is missing. -/
theorem test_drun_eos :
    answers (exec .drun decState)
      (fun t => said false 0 t && t.sink == [] && t.sinkClosed && statusReg t == 0x53547#64) = true := by decide +kernel

/-- V10, P4: `STATUS` read in phase `ERR`. -/
theorem test_rdreg_status_in_err :
    answers (exec (.rdreg 0#9) errState) (fun t => said true 0x2037#64 t && t.phase == .err) = true := by decide +kernel

/-- V3: `BITIO` before `CLOSE`. -/
theorem test_rdreg_bitio :
    answers (exec (.rdreg 4#9) (encAB 2 0xE0#8 4#3)) (said true 0x4E0#64) = true := by decide +kernel

theorem test_rdtabF : answers (exec (.rdtabF 0x41#8) treeAB) (said true 2#64) = true := by decide +kernel

theorem test_rdtabL : answers (exec (.rdtabL 0x41#8) codesAB) (said true 1#64) = true := by decide +kernel

/-- The first code bit is bit 63 of word 0 (R134). -/
theorem test_rdtabB0 : answers (exec (.rdtabB0 0x41#8) codesAB) (said true 0x8000000000000000#64) = true := by decide +kernel

/-- Code bits 64, 128 and 192 are the top bits of words 1, 2 and 3 (R134). -/
theorem test_rdtabB1 :
    answers (exec (.rdtabB1 0x41#8) (setCode 0x41#8 255 (packCode (List.replicate 64 false ++ [true])) codesAB))
      (said true 0x8000000000000000#64) = true := by decide +kernel
theorem test_rdtabB2 :
    answers (exec (.rdtabB2 0x41#8) (setCode 0x41#8 255 (packCode (List.replicate 128 false ++ [true])) codesAB))
      (said true 0x8000000000000000#64) = true := by decide +kernel
theorem test_rdtabB3 :
    answers (exec (.rdtabB3 0x41#8) (setCode 0x41#8 255 (packCode (List.replicate 254 false ++ [true])) codesAB))
      (said true 2#64) = true := by decide +kernel

/-- V15: the free pattern at the last index. -/
theorem test_rdnodeL_free : answers (exec (.rdnodeL 510#9) State.reset) (said true 0x07FFFE00#64) = true := by decide +kernel

/-- V2: a leaf's link word. -/
theorem test_rdnodeL_leaf : answers (exec (.rdnodeL 0#9) treeAB) (said true 0x07FFFE83#64) = true := by decide +kernel

theorem test_rdnodeF : answers (exec (.rdnodeF 2#9) treeAB) (said true 3#64) = true := by decide +kernel

/-- V12: an illegal word on the command port. -/
theorem test_step_illegal :
    answers (step (State.withFetchWord State.reset 16 0x2141)) (fun t => said false 0 t && statusReg t == 0x03047#64) =
      true := by decide +kernel

/-- V26: an illegal word in phase `ERR` is ignored. -/
theorem test_step_illegal_in_err :
    answers (step (State.withFetchWord errState 16 0x7141)) (fun t => said false 0 t && statusReg t == 0x02037#64) =
      true := by decide +kernel

/-- V13 and V14 on the bit operations themselves. -/
theorem test_writeBits :
    (match writeBits [true, false] (encAB 0 0x04#8 7#3) with
      | .ok _ t => t.sink == bytes [0x05] && t.wacc == 0x00#8 && t.wcnt == 1#3
      | .raised _ _ => false
      | .stuck _ => false) = true := by decide +kernel

theorem test_readBit :
    (match readBit { decState with src := bytes [0x5F] } with
      | .ok b t => b == some false && t.rbuf == 0x5F#8 && t.rcnt == 7 && t.spos == 1
      | .raised _ _ => false
      | .stuck _ => false) = true := by decide +kernel

/-! ### A state that meets the hypotheses of each statement

Each theorem names the statement it serves; a statement of several clauses has a witness for each, at a boundary value
where the clause has a range. -/

/-- Facts about the small states that several witnesses share. -/
theorem idleAB_builds :
    ∃ t u, exec .build idleAB = .next t ∧ t.phase = .tree ∧ exec .gen t = .next u := by
  obtain ⟨t, h, hp⟩ := answers_next (o := exec .build idleAB)
    (P := fun t => t.phase == .tree && answers (exec .gen t) fun _ => true) (by decide +kernel)
  simp only [Bool.and_eq_true, beq_iff_eq] at hp
  obtain ⟨u, hu, _⟩ := answers_next hp.2
  exact ⟨t, u, h, hp.1, hu⟩

theorem idleAB_present : 2 ≤ (presentSyms idleAB).length := by decide +kernel

theorem codesAB_header : (headerBytes codesAB).length = 18 := by decide +kernel

theorem codesAB_coded : codedSyms codesAB ≠ [] := by decide +kernel

theorem treeAB_gens : ∃ t, exec .gen treeAB = .next t ∧ t.phase = .codes ∧ answeredOk treeAB t 0#64 ∧
    clenOf t 0x41#8 = 1#8 := by
  obtain ⟨t, h, hp⟩ := answers_next (o := exec .gen treeAB)
    (P := fun t => t.phase == .codes && t.responses == [⟨true, 0#64⟩] && clenOf t 0x41#8 == 1#8) (by decide +kernel)
  simp only [Bool.and_eq_true, beq_iff_eq] at hp
  exact ⟨t, h, hp.1.1, by simpa [answeredOk, treeAB, idleAB, State.reset] using hp.1.2, hp.2⟩

theorem witness_DecodeOfEncode :
    (Instr.rdnodeF 510#9).wellFormed = true ∧ (Instr.fset 0xFF#8 (BitVec.allOnes 64)).wellFormed = true := by decide

theorem witness_EncodeOfDecode :
    ∃ (c : Command) (i : Instr), decode c = .ok i ∧ ∃ (y : Sym) (n : Word), i = .fset y n :=
        ⟨⟨0x30FF#16, 7#64⟩, .fset 0xFF#8 7#64, by decide, _, _, rfl⟩

/-- Each of the two sides of every case is met: an illegal word of I4 and a legal neighbour. -/
theorem witness_IllegalWords :
    decode ⟨0xD005#16, 0#64⟩ = .error .i4 ∧ illegalCase .i4 0xD005#16 ∧ ¬ illegalCase .i4 0xD004#16 := by
  refine ⟨by decide, by unfold illegalCase; decide, by unfold illegalCase; decide⟩

theorem witness_StepRuns :
    ∃ (s : State) (c : Command) (i : Instr) (rest : List HostAct), s.host = .command c :: rest ∧ decode c = .ok i :=
  ⟨State.withFetchWord State.reset 16 0x2041, _, .finc 0x41#8, [], rfl, by decide⟩

theorem witness_IllegalWordRaises :
    (∃ (s : State) (c : Command) (k : Illegal) (rest : List HostAct), s.host = .command c :: rest ∧
        decode c = .error k ∧ s.phase ≠ .err) ∧
    (∃ (s : State) (c : Command) (k : Illegal) (rest : List HostAct), s.host = .command c :: rest ∧
        decode c = .error k ∧ s.phase = .err) :=
  ⟨⟨State.withFetchWord State.reset 16 0x2141, _, .i2, [], rfl, by decide, by decide⟩,
    ⟨State.withFetchWord errState 16 0x2141, _, .i2, [], rfl, by decide, rfl⟩⟩

theorem witness_PhaseTable :
    phaseCell .gen State.reset.phase = .blank ∧ phaseCell .gen errState.phase = .ignored ∧
    (∃ (t : State), exec .gen treeAB = .next t ∧ phaseCell .gen treeAB.phase = .to [.codes] ∧
        answeredOk treeAB t 0#64) ∧
    (∃ (t : State), exec .gen State.reset = .next t ∧ answeredFail State.reset t) ∧
    phaseCell (.rdreg 4#9) errState.phase = .to [.err] ∧ (Instr.rdreg 4#9).wellFormed = true ∧
    phaseCell (.rdreg 5#9) State.reset.phase = .to [.idle] ∧ State.reset.phase ≠ .err := by
  refine ⟨rfl, rfl, ?_, ?_, rfl, by decide, rfl, by decide⟩
  · obtain ⟨t, h, -, hr, -⟩ := treeAB_gens
    exact ⟨t, h, rfl, hr⟩
  · obtain ⟨t, h, hp⟩ := answers_next (o := exec .gen State.reset) (P := fun t => t.responses == [⟨false, 0#64⟩])
      (by decide +kernel)
    exact ⟨t, h, by simpa [answeredFail, State.reset] using hp⟩

theorem witness_ErrPhase :
    (∃ (s : State) (c : Command) (rest : List HostAct), s.phase = .err ∧ s.host = HostAct.command c :: rest ∧
        decode c = .ok .rst) ∧
    (∃ (s : State) (c : Command) (rest : List HostAct) (i : Instr), s.phase = .err ∧
        s.host = HostAct.command c :: rest ∧ decode c = .ok i ∧ isRead i = true) ∧
    (∃ (s : State) (c : Command) (rest : List HostAct), s.phase = .err ∧ s.host = HostAct.command c :: rest ∧
      ∀ i, decode c = .ok i → i ≠ .rst ∧ i ≠ .nop ∧ isRead i = false) := by
  refine ⟨⟨State.withFetchWord errState 16 0x1000, _, [], rfl, rfl, by decide⟩,
    ⟨State.withFetchWord errState 16 0xD000, _, [], .rdreg 0#9, rfl, rfl, by decide, rfl⟩,
    ⟨State.withFetchWord errState 16 0x4000, ⟨0x4000#16, 0#64⟩, [], rfl, rfl, ?_⟩⟩
  intro i h
  have : decode ⟨0x4000#16, 0#64⟩ = .ok .build := by decide
  rw [this] at h
  cases h
  decide

theorem witness_OnlyResetLeavesErr :
    ∃ (s : State) (t : State) (a : HostAct) (rest : List HostAct), s.phase = .err ∧ s.host = a :: rest ∧
        step s = .next t ∧ t.phase ≠ .err := by
  obtain ⟨t, h, hp⟩ := answers_next (o := step { errState with host := [.hardReset] }) (P := fun t => t.phase == .idle)
    (by decide +kernel)
  exact ⟨_, t, .hardReset, [], rfl, rfl, h, by simp only [beq_iff_eq] at hp; simp [hp]⟩

theorem witness_AccessMatrix :
    ∃ (t : State) (v : Word), exec .gen treeAB = .next t ∧ Item.sinkOpen ∉ writes .gen ∧ Item.sinkOpen ∈ faultWrites ∧
      answeredOk treeAB t v := by
  obtain ⟨t, h, -, hr, -⟩ := treeAB_gens
  exact ⟨t, 0#64, h, by decide, by decide, hr⟩

theorem witness_ResetsAndIdle :
    (∃ (s : State) (rest : List HostAct), s.host = HostAct.hardReset :: rest) ∧ (∃ s : State, s.host = []) :=
  ⟨⟨{ errState with host := [.hardReset] }, [], rfl⟩, ⟨errState, rfl⟩⟩

theorem witness_StreamsAreBound :
    (∃ (s : State) (b : List Byte) (f : List Bool) (rest : List HostAct), s.host = HostAct.bindSource b f :: rest ∧
        s.phase ≠ .hdr ∧ s.phase ≠ .dec) ∧
    (∃ (s : State) (b : List Byte) (f : List Bool) (rest : List HostAct), s.host = HostAct.bindSource b f :: rest ∧
        (s.phase = .hdr ∨ s.phase = .dec)) ∧
    (∃ (s : State) (f : List Bool) (rest : List HostAct), s.host = HostAct.bindSink f :: rest ∧ s.phase ≠ .enc ∧
        s.phase ≠ .dec) ∧
    (∃ (s : State) (f : List Bool) (rest : List HostAct), s.host = HostAct.bindSink f :: rest ∧
        (s.phase = .enc ∨ s.phase = .dec)) :=
  ⟨⟨{ State.reset with host := [.bindSource [] []] }, [], [], [], rfl, by decide, by decide⟩,
    ⟨{ hdrState with host := [.bindSource [] []] }, [], [], [], rfl, .inl rfl⟩,
    ⟨{ State.reset with host := [.bindSink []] }, [], [], rfl, by decide, by decide⟩,
    ⟨{ decState with host := [.bindSink []] }, [], [], rfl, .inr rfl⟩⟩

/-- Register numbers 5 and 511, at both ends of the range, in a phase other than `ERR` and in `ERR`. -/
theorem witness_NopAndCounterRegisters :
    4 < (5#9).toNat ∧ 4 < (511#9).toNat ∧ State.reset.phase ≠ .err ∧ errState.phase = .err := by decide

/-- In a padded table, a bit past a code: position 1 of the 1-bit code of `A`, and the last position, 255. -/
theorem codedAB_codes (y : Sym) :
    (y = 0x41#8 ∧ clenOf codedAB y = 1#8 ∧ cbitsOf codedAB y = 1#256 <<< 255) ∨
    (y = 0x42#8 ∧ clenOf codedAB y = 1#8 ∧ cbitsOf codedAB y = 0#256) ∨
    (y ≠ 0x41#8 ∧ y ≠ 0x42#8 ∧ clenOf codedAB y = 0#8 ∧ cbitsOf codedAB y = 0#256) := by
  by_cases ha : y = 0x41#8
  · subst ha; exact .inl ⟨rfl, clenOf_setCode_self .., cbitsOf_setCode_self ..⟩
  · by_cases hb : y = 0x42#8
    · subst hb
      exact .inr (.inl ⟨rfl, by rw [codedAB, clenOf_setCode_ne ha, clenOf_setCode_self],
        by rw [codedAB, cbitsOf_setCode_ne ha, cbitsOf_setCode_self]⟩)
    · refine .inr (.inr ⟨ha, hb, ?_, ?_⟩)
      · rw [codedAB, clenOf_setCode_ne ha, clenOf_setCode_ne hb]; exact lookup_replicate ..
      · rw [codedAB, cbitsOf_setCode_ne ha, cbitsOf_setCode_ne hb]; exact lookup_replicate ..

theorem codedAB_padded : codesPadded codedAB := by
  intro y i hi
  rcases codedAB_codes y with ⟨_, hl, hc⟩ | ⟨_, _, hc⟩ | ⟨_, _, _, hc⟩
  · have h1 : (1#8 : BitVec 8).toNat = 1 := rfl
    rw [hl, h1] at hi
    rw [hc, getLsbD_one_shiftLeft 255 i (by decide)]
    simp; omega
  · simp [hc]
  · simp [hc]

theorem codedAB_prefixFree : prefixFree codedAB := by
  intro y z hne hy hz
  rcases codedAB_codes y with ⟨ey, hly, hcy⟩ | ⟨ey, hly, hcy⟩ | ⟨_, _, hl, _⟩
  · rcases codedAB_codes z with ⟨ez, _, _⟩ | ⟨_, hlz, hcz⟩ | ⟨_, _, hl, _⟩
    · exact absurd (ey.trans ez.symm) hne
    · simp only [codeOf, hly, hlz, hcy, hcz]; decide
    · exact absurd hl hz
  · rcases codedAB_codes z with ⟨_, hlz, hcz⟩ | ⟨ez, _, _⟩ | ⟨_, _, hl, _⟩
    · simp only [codeOf, hly, hlz, hcy, hcz]; decide
    · exact absurd (ey.trans ez.symm) hne
    · exact absurd hl hz
  · exact absurd hl hy

theorem witness_TableReads :
    codesPadded codedAB ∧ (clenOf codedAB 0x41#8).toNat ≤ 64 * 0 + 1 ∧ (clenOf codedAB 0x41#8).toNat ≤ 64 * 3 + 63 := by
  refine ⟨codedAB_padded, ?_, ?_⟩ <;> rw [codedAB, clenOf_setCode_self] <;> decide

theorem reset_freeAbove : freeAbove State.reset := by
  intro i _
  simp [nodeAt, State.reset]

theorem witness_NodeReads :
    (510#9).toNat < 511 ∧ freeAbove State.reset ∧ State.reset.ncnt.toNat ≤ (510#9).toNat ∧
      State.reset.ncnt.toNat ≤ (0#9).toNat := ⟨by decide, reset_freeAbove, by decide, by decide⟩

/-- The count one below the largest, and the largest. -/
theorem witness_Finc :
    (∃ (s : State) (y : Sym), s.phase = .idle ∧ (freqOf s y).toNat < 2 ^ 64 - 1 ∧ (freqOf s y).toNat + 1 = 2 ^ 64 - 1) ∧
    (∃ (s : State) (y : Sym), s.phase = .idle ∧ (freqOf s y).toNat = 2 ^ 64 - 1) := by
  refine ⟨⟨setFreq 0x41#8 0xFFFFFFFFFFFFFFFE#64 State.reset, 0x41#8, rfl, ?_, ?_⟩,
    ⟨setFreq 0x41#8 (BitVec.allOnes 64) State.reset, 0x41#8, rfl, ?_⟩⟩ <;> rw [freqOf_setFreq_self] <;> decide

theorem witness_Fset : State.reset.phase = .idle := rfl

theorem witness_TablesAreReadOnly :
    (∃ (s : State) (t : State), exec .gen s = .next t ∧ s.phase ≠ .idle ∧ t.clen ≠ s.clen) ∧
    (∃ (s : State) (t : State), exec .hdrr s = .next t ∧ s.phase = .idle ∧ t.clen ≠ s.clen) := by
  constructor
  · obtain ⟨t, h, -, -, hc⟩ := treeAB_gens
    refine ⟨treeAB, t, h, by decide, fun e => ?_⟩
    have : clenOf t 0x41#8 = clenOf treeAB 0x41#8 := by rw [clenOf, e]; rfl
    rw [hc] at this
    exact absurd this (by decide +kernel)
  · obtain ⟨t, h, hp⟩ := answers_next (o := exec .hdrr { State.reset with src := headerAB })
      (P := fun t => clenOf t 0x41#8 == 1#8) (by decide +kernel)
    refine ⟨_, t, h, rfl, fun e => ?_⟩
    have : clenOf t 0x41#8 = clenOf { State.reset with src := headerAB } 0x41#8 := by rw [clenOf, e]; rfl
    rw [beq_iff_eq.mp hp] at this
    exact absurd this (by decide +kernel)

/-- An empty table; a table whose sum is 2^64, the least that is refused (V11 (a)). -/
theorem witness_BuildRejects :
    (State.reset.phase = .idle ∧ ∀ y, freqOf State.reset y = 0#64) ∧
    (∃ (t : State), exec .build idleAB = .next t ∧ t.phase = .tree) ∧
    (∃ (s : State), s.phase = .idle ∧ 2 ^ 64 = ∑ y : Fin 256, (freqOf s (BitVec.ofFin y)).toNat) := by
  refine ⟨⟨rfl, fun y => lookup_replicate ..⟩, ?_, ?_⟩
  · obtain ⟨t, -, h, hp, -⟩ := idleAB_builds
    exact ⟨t, h, hp⟩
  · refine ⟨setFreq 0x61#8 0x8000000000000000#64 (setFreq 0x62#8 0x8000000000000000#64 State.reset), rfl, ?_⟩
    rw [← freqSum_eq_sum]; decide +kernel

/-- One symbol, and two symbols of sum `2^64 - 1`, the greatest that is accepted (V11 (b)). -/
theorem witness_BuildCompletes :
    (∃ (s : State), s.phase = .idle ∧ (∃ (y : Sym), freqOf s y ≠ 0#64) ∧
        ∑ y : Fin 256, (freqOf s (BitVec.ofFin y)).toNat < 2 ^ 64 ∧
      (presentSyms s).length = 1) ∧
    (∃ (s : State), s.phase = .idle ∧ (∃ (y : Sym), freqOf s y ≠ 0#64) ∧
        ∑ y : Fin 256, (freqOf s (BitVec.ofFin y)).toNat = 2 ^ 64 - 1 ∧
      2 ≤ (presentSyms s).length) := by
  refine ⟨⟨setFreq 0x41#8 4#64 State.reset, rfl, ⟨0x41#8, by rw [freqOf_setFreq_self]; decide⟩, ?_, by decide +kernel⟩,
    ⟨setFreq 0x61#8 0x8000000000000000#64 (setFreq 0x62#8 0x7FFFFFFFFFFFFFFF#64 State.reset), rfl,
      ⟨0x61#8, by rw [freqOf_setFreq_self]; decide⟩, ?_, by decide +kernel⟩⟩ <;>
    rw [← freqSum_eq_sum] <;> decide +kernel

/-- A one-symbol alphabet and a two-symbol one: for the three statements on what `BUILD` makes. -/
theorem witness_BuildTree :
    (∃ (s : State) (t : State), s.phase = .idle ∧ exec .build s = .next t ∧ t.phase = .tree ∧
        (presentSyms s).length = 1) ∧
    (∃ (s : State) (t : State), s.phase = .idle ∧ exec .build s = .next t ∧ t.phase = .tree ∧
        2 ≤ (presentSyms s).length) := by
  constructor
  · obtain ⟨t, h, hp⟩ := answers_next (o := exec .build (setFreq 0x41#8 4#64 State.reset)) (P :=
      fun t => t.phase == .tree)
      (by decide +kernel)
    exact ⟨_, t, rfl, h, by simpa using hp, by decide +kernel⟩
  · obtain ⟨t, -, h, hp, -⟩ := idleAB_builds
    exact ⟨_, t, rfl, h, hp, idleAB_present⟩

/-- A node that is no one's child when the third is made: the merge of V17 takes nodes 1 and 0. -/
theorem witness_BuildMerges : isRootBelow treeAB 2 1 ∧ isRootBelow treeAB 2 0 ∧ lowerPair treeAB 1 0 := by
  unfold isRootBelow lowerPair
  decide +kernel

/-- Two present symbols with a prefix code of their own, and one with a word. -/
theorem witness_BuildIsOptimal :
    (∃ (s t u : State) (r : NodeIdx) (c : Sym → List Bool), s.phase = .idle ∧ exec .build s = .next t ∧ t.phase = .tree ∧
      t.root = some r ∧ IsPrefixCode s c ∧ 2 ≤ (presentSyms s).length ∧ (∀ y, clenOf s y = 0#8) ∧ exec .gen t = .next u) ∧
    (∃ (s t : State) (r : NodeIdx) (c : Sym → List Bool), s.phase = .idle ∧ exec .build s = .next t ∧ t.phase = .tree ∧
      t.root = some r ∧ (presentSyms s).length = 1 ∧ IsPrefixCode s c) := by
  constructor
  · obtain ⟨t, h, hp⟩ := answers_next (o := exec .build idleAB)
      (P := fun t => t.phase == .tree && t.root == some 2 && answers (exec .gen t) fun _ => true) (by decide +kernel)
    simp only [Bool.and_eq_true, beq_iff_eq] at hp
    obtain ⟨u, hu, _⟩ := answers_next hp.2
    have hf : ∀ y : Sym, freqOf idleAB y ≠ 0#64 → y = 0x41#8 ∨ y = 0x42#8 := by decide +kernel
    refine ⟨idleAB, t, u, 2, fun y => [y == 0x41#8], rfl, h, hp.1.1, hp.1.2, ⟨?_, fun _ _ _ => by simp⟩, idleAB_present,
      fun y => lookup_replicate .., hu⟩
    intro y z hne hy hz
    rcases hf y hy with rfl | rfl <;> rcases hf z hz with rfl | rfl <;> first | exact absurd rfl hne | decide
  · have hf : ∀ y : Sym, freqOf (setFreq 0x41#8 4#64 State.reset) y ≠ 0#64 → y = 0x41#8 := by decide +kernel
    obtain ⟨t, h, hp⟩ := answers_next (o := exec .build (setFreq 0x41#8 4#64 State.reset))
      (P := fun t => t.phase == .tree && t.root == some 1) (by decide +kernel)
    simp only [Bool.and_eq_true, beq_iff_eq] at hp
    refine ⟨setFreq 0x41#8 4#64 State.reset, t, 1, fun _ => [true], rfl, h, hp.1, hp.2, by decide +kernel,
      ⟨fun y z hne hy hz => ?_, fun _ _ _ => by simp⟩⟩
    exact absurd ((hf y hy).trans (hf z hz).symm) hne

/-- Two members of equal frequency: the tie (V9). -/
theorem witness_RemoveMin :
    ∃ (s : State) (q : List NodeIdx) (a : NodeIdx) (q' : List NodeIdx), removeMin s q = some (a, q') ∧ q' ≠ [] ∧
        ∀ j ∈ q', (nodeAt s j).freq = (nodeAt s a).freq :=
  ⟨State.reset, [1, 0], 0, [1], by decide +kernel, by decide, by decide +kernel⟩

theorem treeAB_follow (p : List Bool) (j : NodeIdx) (h : follow treeAB 2 p = some j) :
    (p = [] ∧ j = 2) ∨ (p = [false] ∧ j = 1) ∨ (p = [true] ∧ j = 0) := by
  have h2 : nodeAt treeAB 2 = intOf 3#64 (some 1) (some 0) := by decide +kernel
  have h1 : (nodeAt treeAB 1).tag = .leaf := by decide +kernel
  have h0 : (nodeAt treeAB 0).tag = .leaf := by decide +kernel
  rcases p with _ | ⟨b, _ | ⟨c, p⟩⟩
  · simpa [follow, eq_comm] using h
  · cases b <;> simpa [follow, h2, intOf, child, eq_comm] using h
  · cases b <;> simp [follow, h2, intOf, child, h1, h0] at h

theorem witness_GenWritesThePaths :
    treeAB.phase = .tree ∧ treeAB.root = some 2 ∧ (∀ p j, follow treeAB 2 p = some j → p.length ≤ 255) ∧
    (∀ p q y, leafPath treeAB 2 p y → leafPath treeAB 2 q y → p = q) ∧ leafPath treeAB 2 [true] 0x41#8 := by
  have hs : (nodeAt treeAB 0).sym = 0x41#8 := by decide +kernel
  have hs1 : (nodeAt treeAB 1).sym = 0x42#8 := by decide +kernel
  have ht : (nodeAt treeAB 2).tag = .int := by decide +kernel
  refine ⟨rfl, rfl, ?_, ?_, ⟨0, by decide +kernel, by decide +kernel, hs⟩⟩
  · intro p j h
    rcases treeAB_follow p j h with ⟨rfl, _⟩ | ⟨rfl, _⟩ | ⟨rfl, _⟩ <;> simp
  · rintro p q y ⟨i, hi, hti, hyi⟩ ⟨j, hj, htj, hyj⟩
    rcases treeAB_follow p i hi with ⟨_, rfl⟩ | ⟨rfl, rfl⟩ | ⟨rfl, rfl⟩ <;>
      rcases treeAB_follow q j hj with ⟨_, rfl⟩ | ⟨rfl, rfl⟩ | ⟨rfl, rfl⟩ <;> simp_all

theorem treeAB_noCodes (y : Sym) : clenOf treeAB y = 0#8 := lookup_replicate ..

theorem witness_GenMakesAPrefixCode :
    ∃ (s : State) (t : State), s.phase = .tree ∧ (∀ y, clenOf s y = 0#8) ∧ exec .gen s = .next t ∧
        t.phase = .codes := by
  obtain ⟨t, h, hp, -⟩ := treeAB_gens
  exact ⟨treeAB, t, rfl, treeAB_noCodes, h, hp⟩

theorem witness_BuildAndGen :
    ∃ (s : State) (t : State) (u : State), s.phase = .idle ∧ (∀ y, clenOf s y = 0#8) ∧ exec .build s = .next t ∧
        t.phase = .tree ∧
      exec .gen t = .next u ∧ 2 ≤ (presentSyms s).length := by
  obtain ⟨t, u, h, hp, hu⟩ := idleAB_builds
  exact ⟨idleAB, t, u, rfl, fun y => lookup_replicate .., h, hp, hu, idleAB_present⟩

/-- A draw that fails, but only after the accesses a command makes. -/
theorem passes_replicate (n : Nat) (l : List Bool) : passes n (List.replicate n false ++ l) := by
  intro b hb
  rw [List.take_left' List.length_replicate] at hb
  exact List.eq_of_mem_replicate hb

theorem witness_HdrwWrites : ∃ s : State, s.phase = .codes ∧ passes (headerBytes s).length s.sinkFail ∧ true ∈ s.sinkFail := by
  refine ⟨{ codesAB with sinkFail := List.replicate 18 false ++ [true] }, rfl, ?_, by simp⟩
  have h : (headerBytes { codesAB with sinkFail := List.replicate 18 false ++ [true] }).length = 18 := codesAB_header
  rw [h]
  exact passes_replicate 18 _

/-- The first write fails, and the last. -/
theorem witness_HdrwKeeps :
    0 < (headerBytes codesAB).length ∧ 17 < (headerBytes codesAB).length ∧
    (∃ (s : State) (rest : List Bool), s.phase = .codes ∧ s.sinkFail = List.replicate 0 false ++ true :: rest) ∧
    (∃ (s : State) (rest : List Bool), s.phase = .codes ∧ s.sinkFail = List.replicate 17 false ++ true :: rest) := by
  have h := codesAB_header
  exact ⟨by omega, by omega, ⟨{ codesAB with sinkFail := [true] }, [], rfl, rfl⟩,
    ⟨{ codesAB with sinkFail := List.replicate 17 false ++ [true] }, [], rfl, rfl⟩⟩

theorem lowBitsZero_of (s : State) (h : ∀ i : Fin 8, i.val < 8 - s.wcnt.toNat → s.wacc.getLsbD i.val = false) :
    lowBitsZero s := fun i hi => h ⟨i, by omega⟩ hi

/-- Seven bits pending, and none; a later write failing. -/
theorem witness_EncAppends :
    (∃ (s : State) (y : Sym), s.phase = .enc ∧ clenOf s y ≠ 0#8 ∧ s.scnt ≠ s.total ∧ lowBitsZero s ∧
        passes ((s.wcnt.toNat + (clenOf s y).toNat) / 8) s.sinkFail ∧ s.wcnt = 7#3) ∧
    (∃ (s : State) (y : Sym), s.phase = .enc ∧ clenOf s y ≠ 0#8 ∧ s.scnt ≠ s.total ∧ lowBitsZero s ∧
        passes ((s.wcnt.toNat + (clenOf s y).toNat) / 8) s.sinkFail ∧ s.wcnt = 0#3) :=
  ⟨⟨{ encAB 1 0xFE#8 7#3 with sinkFail := [false, true] }, 0x41#8, rfl, by decide +kernel, by decide +kernel,
      lowBitsZero_of _ (by decide +kernel), by unfold passes; decide +kernel, rfl⟩,
    ⟨encAB 0 0x00#8 0#3, 0x41#8, rfl, by decide +kernel, by decide +kernel, lowBitsZero_of _ (by decide +kernel),
      by unfold passes; decide +kernel, rfl⟩⟩

/-- Seven bits pending and a code of 255. -/
def encLong : State := setCode 0x41#8 255 0#256 (encAB 1 0#8 7#3)

/-- The first of the 32 flushes fails, and the last. -/
theorem witness_EncFails :
    ∀ k, k = 0 ∨ k = 31 → ∃ (s : State) (y : Sym) (rest : List Bool), s.phase = .enc ∧ clenOf s y ≠ 0#8 ∧
      s.scnt ≠ s.total ∧ lowBitsZero s ∧ k < (s.wcnt.toNat + (clenOf s y).toNat) / 8 ∧
      s.sinkFail = List.replicate k false ++ true :: rest := by
  intro k hk
  have hn : (encLong.wcnt.toNat + (clenOf encLong 0x41#8).toNat) / 8 = 32 := by decide +kernel
  exact ⟨{ encLong with sinkFail := List.replicate k false ++ [true] }, 0x41#8, [], rfl,
    (by decide +kernel : clenOf encLong 0x41#8 ≠ 0#8), (by decide +kernel : encLong.scnt ≠ encLong.total),
    (lowBitsZero_of encLong (by decide +kernel) : lowBitsZero encLong), lt_of_lt_of_eq (by omega) hn.symm, rfl⟩

theorem witness_EncChecks :
    (∃ (s : State) (y : Sym), s.phase = .enc ∧ clenOf s y = 0#8) ∧ (∃ (s : State) (y : Sym), s.phase = .enc ∧
        clenOf s y ≠ 0#8 ∧ s.scnt = s.total) :=
  ⟨⟨encAB 3 0#8 0#3, 0x43#8, rfl, by decide +kernel⟩, ⟨encAB 3 0#8 0#3, 0x41#8, rfl, by decide +kernel, rfl⟩⟩

/-- No bit pending, the next draw failing, and seven; the pad of one bit and of seven; the flush failing. -/
theorem witness_CloseFlushes :
    (∃ (s : State), s.phase = .enc ∧ s.scnt = s.total ∧ (s.wcnt ≠ 0#3 → passes 1 s.sinkFail) ∧ s.sinkFail = [true]) ∧
    (∃ (s : State), s.phase = .enc ∧ s.scnt = s.total ∧ (s.wcnt ≠ 0#3 → passes 1 s.sinkFail) ∧ s.wcnt = 7#3) ∧
    (∃ (s : State), s.phase = .enc ∧ s.scnt = s.total ∧ lowBitsZero s ∧ s.wcnt = 7#3) ∧
    (∃ (s : State), s.phase = .enc ∧ s.scnt = s.total ∧ lowBitsZero s ∧ s.wcnt = 1#3) ∧
    (∃ (s : State) (rest : List Bool), s.phase = .enc ∧ s.scnt = s.total ∧ s.wcnt ≠ 0#3 ∧ s.sinkFail = true :: rest) :=
  ⟨⟨{ encAB 3 0#8 0#3 with sinkFail := [true] }, rfl, rfl, fun h => absurd rfl h, rfl⟩,
    ⟨encAB 3 0#8 7#3, rfl, rfl, fun _ => passes_nil 1, rfl⟩,
    ⟨encAB 3 0xFE#8 7#3, rfl, rfl, lowBitsZero_of _ (by decide +kernel), rfl⟩,
    ⟨encAB 3 0x80#8 1#3, rfl, rfl, lowBitsZero_of _ (by decide +kernel), rfl⟩,
    ⟨{ encAB 3 0xE0#8 4#3 with sinkFail := [true] }, [], rfl, rfl, by decide, rfl⟩⟩

theorem witness_CloseShort :
    (∃ (s : State), s.phase = .enc ∧ s.scnt.toNat + 1 = s.total.toNat) ∧
    (∃ (s : State) (t : State), s.total ≠ 0#64 ∧ exec .hdrw s = .next t ∧ t.phase = .enc) := by
  refine ⟨⟨encAB 2 0#8 0#3, rfl, rfl⟩, ?_⟩
  obtain ⟨t, h, hp⟩ := answers_next (o := exec .hdrw codesAB) (P := fun t => t.phase == .enc) (by decide +kernel)
  exact ⟨codesAB, t, by decide +kernel, h, by simpa using hp⟩

/-- The writer at its start; the reader with a buffered bit, with an empty buffer, and at the end. -/
theorem witness_Bits :
    (∃ (s : State) (c : List Bool), s.wcnt = 0#3 ∧ s.wacc = 0#8 ∧ passes ((c.length + 7) / 8) s.sinkFail ∧
      c.length = 9 ∧ true ∈ s.sinkFail) ∧
    (∃ (s : State) (b : Bool) (rest : List Bool), (s.rcnt = 0 → passes 1 s.srcFail) ∧ unreadBits s = b :: rest ∧
      s.srcFail = [true]) ∧
    (∃ (s : State) (b : Bool) (rest : List Bool), (s.rcnt = 0 → passes 1 s.srcFail) ∧ unreadBits s = b :: rest ∧
      s.rcnt = 0) ∧
    (∃ (s : State), passes 1 s.srcFail ∧ unreadBits s = []) :=
  ⟨⟨{ State.reset with sinkFail := List.replicate 2 false ++ [true] }, List.replicate 9 true, rfl, rfl,
      passes_replicate 2 _, rfl, by decide⟩,
    ⟨{ State.reset with rbuf := 0x80#8, rcnt := 1, srcFail := [true] }, false, [], fun h => absurd h (by decide),
      by decide +kernel, rfl⟩,
    ⟨{ State.reset with src := bytes [0x5F] }, false, [true, false, true, true, true, true, true], fun _ => passes_nil 1,
      by decide +kernel, rfl⟩,
    ⟨State.reset, passes_nil 1, by decide +kernel⟩⟩

theorem codesAB_padded : codesPadded codesAB := codedAB_padded

theorem witness_HeaderRead :
    ∃ (w : State) (s : State) (rest : List Byte), w.total ≠ 0#64 ∧ codesPadded w ∧ codedSyms w ≠ [] ∧
        s.phase = .idle ∧ passes (headerBytes w).length s.srcFail ∧
      (∀ y, clenOf s y = 0#8 ∧ cbitsOf s y = 0#256) ∧ s.src.drop s.spos = headerBytes w ++ rest :=
  ⟨codesAB, { State.reset with src := headerBytes codesAB ++ bytes [0xC0] }, bytes [0xC0], by decide +kernel, codesAB_padded,
    codesAB_coded, rfl, passes_nil _, fun y => ⟨lookup_replicate .., lookup_replicate ..⟩, rfl⟩

theorem witness_HeaderEnd :
    (∃ (s : State), (srcRead s).1 = .eos) ∧ (∃ (s : State), (srcRead s).1 = .fail) ∧
    (∃ s : State, s.phase = .idle ∧ s.src = [] ∧ passes 1 s.srcFail) :=
  ⟨⟨State.reset, by decide +kernel⟩, ⟨{ State.reset with srcFail := [true] }, by decide +kernel⟩,
    ⟨State.reset, rfl, rfl, passes_nil 1⟩⟩

/-- The read of the first byte of the header fails, and of the last, the source ending there. -/
theorem witness_HeaderReadFails :
    (∃ (s : State) (rest : List Bool), s.phase = .idle ∧ s.srcFail = true :: rest) ∧
    ∀ k, k = 0 ∨ k = 17 → ∃ (w : State) (s : State) (rest : List Bool), w.total ≠ 0#64 ∧ codesPadded w ∧
      codedSyms w ≠ [] ∧ k < (headerBytes w).length ∧ s.phase = .idle ∧
      s.srcFail = List.replicate k false ++ true :: rest ∧ (headerBytes w).take k <+: s.src.drop s.spos := by
  refine ⟨⟨{ State.reset with srcFail := [true] }, [], rfl, rfl⟩, fun k hk => ?_⟩
  have h := codesAB_header
  exact ⟨codesAB, { State.reset with src := (headerBytes codesAB).take k, srcFail := List.replicate k false ++ [true] }, [],
    by decide +kernel, codesAB_padded, codesAB_coded, by omega, rfl, rfl, List.prefix_refl _⟩

/-- Cut before the first byte, and before the last. -/
theorem witness_TruncatedHeader :
    ∀ k, k = 0 ∨ k = 17 → ∃ (w : State) (s : State), w.total ≠ 0#64 ∧ codesPadded w ∧ codedSyms w ≠ [] ∧
        k < (headerBytes w).length ∧
      s.phase = .idle ∧ passes (k + 1) s.srcFail ∧ s.spos ≤ s.src.length ∧ s.src.drop s.spos = (headerBytes w).take k := by
  intro k hk
  have h := codesAB_header
  exact ⟨codesAB, { State.reset with src := (headerBytes codesAB).take k }, by decide +kernel, codesAB_padded,
    codesAB_coded, by omega, rfl, passes_nil _, Nat.zero_le _, rfl⟩

/-- `H_TOTAL` 0; `H_N` 0 and 257. -/
theorem witness_HeaderChecks_fields :
    (∃ (s : State) (tb rest : List Byte), s.phase = .idle ∧ passes 8 s.srcFail ∧ tb.length = 8 ∧
      s.src.drop s.spos = tb ++ rest ∧ beNat tb = 0) ∧
    (∀ n, n = 0 ∨ n = 257 → ∃ (s : State) (tb nb rest : List Byte), s.phase = .idle ∧ passes 10 s.srcFail ∧
      tb.length = 8 ∧ nb.length = 2 ∧ s.src.drop s.spos = tb ++ nb ++ rest ∧ beNat tb ≠ 0 ∧ beNat nb = n) := by
  refine ⟨⟨{ State.reset with src := bytes [0, 0, 0, 0, 0, 0, 0, 0] }, bytes [0, 0, 0, 0, 0, 0, 0, 0], [], rfl,
    passes_nil _, rfl, rfl, by decide⟩, ?_⟩
  rintro n (rfl | rfl)
  · exact ⟨{ State.reset with src := bytes [0, 0, 0, 0, 0, 0, 0, 11] ++ bytes [0, 0] }, bytes [0, 0, 0, 0, 0, 0, 0, 11],
      bytes [0, 0], [], rfl, passes_nil _, rfl, rfl, rfl, by decide, by decide⟩
  · exact ⟨{ State.reset with src := bytes [0, 0, 0, 0, 0, 0, 0, 11] ++ bytes [1, 1] }, bytes [0, 0, 0, 0, 0, 0, 0, 11],
      bytes [1, 1], [], rfl, passes_nil _, rfl, rfl, rfl, by decide, by decide⟩

/-- The record of `A` "1" (V17). -/
def recordA : HdrRecord := { sym := 0x41#8, lenHigh := 0#8, lenLow := 1#8, code := bytes [0x80] }

/-- A header of `n` records that begins with that one, and what follows it. -/
def headerFrom (n : Nat) (tail : List Byte) : State :=
  { State.reset with src := bytes [0, 0, 0, 0, 0, 0, 0, 3] ++ bytes [0, n] ++ recordA.bytes ++ tail }

/-- The record is good, no record is too, and the header's fields are legal, for one record and for two. -/
theorem witness_HeaderRecords :
    (goodRecords [recordA] ∧ goodRecords []) ∧
    (∀ n tail, n = 1 ∨ n = 2 → ∃ tb nb : List Byte, (headerFrom n tail).phase = .idle ∧ tb.length = 8 ∧ nb.length = 2 ∧
      beNat tb ≠ 0 ∧ beNat nb = n ∧ (headerFrom n tail).src.drop (headerFrom n tail).spos =
        tb ++ nb ++ [recordA].flatMap HdrRecord.bytes ++ tail ∧ ∀ k, passes k (headerFrom n tail).srcFail) := by
  refine ⟨⟨⟨fun r hr => ?_, List.pairwise_singleton _ _⟩, ⟨fun r hr => absurd hr List.not_mem_nil, List.Pairwise.nil⟩⟩, ?_⟩
  · obtain rfl := List.mem_singleton.mp hr
    unfold HdrRecord.good
    decide
  · intro n tail h
    refine ⟨bytes [0, 0, 0, 0, 0, 0, 0, 3], bytes [0, n], rfl, rfl, rfl, by decide, ?_, by simp [headerFrom, State.reset], fun k =>
      passes_nil k⟩
    rcases h with rfl | rfl <;> decide

/-- After it: the same symbol, and a lower one; the next one with length 0, with 256, and with a bit set after its code. -/
theorem witness_HeaderRecords_next :
    (∀ y : Byte, y = 0x41#8 ∨ y = 0x40#8 → ∃ r ∈ [recordA], y.toNat ≤ r.sym.toNat) ∧
    (∀ r ∈ [recordA], r.sym.toNat < (0x42#8 : Byte).toNat) ∧ beNat [0#8, 0#8] = 0 ∧ 255 < beNat [1#8, 0#8] ∧
    (∃ r : HdrRecord, r.sym = 0x42#8 ∧ 1 ≤ r.len ∧ r.len ≤ 255 ∧ r.code.length = (r.len + 7) / 8 ∧
      ∃ b ∈ (bitsOfBytes r.code).drop r.len, b = true) := by
  refine ⟨?_, by decide, by decide, by decide,
    ⟨{ sym := 0x42#8, lenHigh := 0#8, lenLow := 1#8, code := bytes [0x40] }, rfl, by decide⟩⟩
  rintro y (rfl | rfl) <;> decide

/-- Symbol 0 after the start (`prev` = -1), its own repetition, lengths 0, 1, 255 and 256, a pad bit set and clear. -/
theorem witness_HeaderChecks_record :
    ((0x41#8 : Byte).toNat : Int) ≤ 0x41 ∧ (-1 : Int) < ((0#8 : Byte).toNat : Int) ∧
    beNat (bytes [0, 0]) = 0 ∧ beNat (bytes [1, 0]) = 256 ∧ beNat (bytes [0, 1]) = 1 ∧ beNat (bytes [0, 255]) = 255 ∧
    (bytes [0x80]).length = (1 + 7) / 8 ∧ (List.replicate 32 (0#8 : Byte)).length = (255 + 7) / 8 ∧
    (∃ b ∈ (bitsOfBytes (bytes [0x40])).drop 1, b = true) ∧ (∀ b ∈ (bitsOfBytes (bytes [0x80])).drop 1, b = false) ∧
    (∃ s : State, passes 4 s.srcFail ∧ s.src.drop s.spos = 0x41#8 :: 0#8 :: 1#8 :: (bytes [0x80] ++ [])) :=
  ⟨by decide, by decide, by decide, by decide, by decide, by decide, by decide, by decide, by decide, by decide,
    ⟨{ State.reset with src := bytes [0x41, 0, 1, 0x80] }, passes_nil _, by decide⟩⟩

theorem witness_ReconBuilds :
    ∃ (s : State), s.phase = .hdr ∧ prefixFree s ∧ (codePrefixes s).length ≤ 511 :=
  ⟨{ codedAB with phase := .hdr }, rfl, codedAB_prefixFree, by decide +kernel⟩

/-- Three codes of 255 bits that need 512 nodes (V21, last row); with the first of them a second time. -/
def threeLong : State :=
  setCode 0#8 255 0#256 (setCode 1#8 255 (1#256 <<< 255) (setCode 2#8 255 (1#256 <<< 254)
    { State.reset with phase := .hdr }))
def threeLongTwice : State := setCode 3#8 255 0#256 threeLong

/-- 512 different prefixes: of all zeros, of a one and zeros, and "01". -/
def manyPrefixes : List (List Bool) :=
  (List.range 256).map (List.replicate · false) ++ (List.range 255).map (true :: List.replicate · false) ++ [[false, true]]

theorem manyPrefixes_nodup : manyPrefixes.Nodup := by
  have inj : Function.Injective fun n : Nat => List.replicate n false := fun a b h => by
    simpa using congrArg List.length h
  have inj1 : Function.Injective fun n : Nat => true :: List.replicate n false := fun a b h => by
    simpa using congrArg List.length h
  unfold manyPrefixes
  refine List.nodup_append.mpr ⟨List.nodup_append.mpr ⟨List.nodup_range.map inj, List.nodup_range.map inj1, ?_⟩,
    by simp, ?_⟩
  · intro a ha b hb e
    obtain ⟨n, -, rfl⟩ := List.mem_map.mp ha
    obtain ⟨m, -, rfl⟩ := List.mem_map.mp hb
    have : true ∈ List.replicate n false := by rw [e]; simp
    simpa using List.eq_of_mem_replicate this
  · intro a ha b hb e
    simp only [List.mem_singleton] at hb
    subst hb
    rcases List.mem_append.mp ha with h | h
    · obtain ⟨n, -, rfl⟩ := List.mem_map.mp h
      have : true ∈ List.replicate n false := by rw [e]; simp
      simpa using List.eq_of_mem_replicate this
    · obtain ⟨n, -, rfl⟩ := List.mem_map.mp h
      simp at e

theorem many_le (s : State) (h0 : codeOf s 0#8 = List.replicate 255 false)
    (h1 : codeOf s 1#8 = true :: List.replicate 254 false) (h2 : [false, true] <+: codeOf s 2#8)
    (hc : ∀ y ∈ [0#8, 1#8, 2#8], clenOf s y ≠ 0#8) : 511 < (codePrefixes s).length := by
  have hsub : manyPrefixes ⊆ codePrefixes s := by
    intro p hp
    rw [mem_codePrefixes]
    simp only [manyPrefixes, List.mem_append, List.mem_map, List.mem_range, List.mem_singleton] at hp
    rcases hp with (⟨n, hn, rfl⟩ | ⟨n, hn, rfl⟩) | rfl
    · exact ⟨0#8, hc _ (by simp), by rw [h0]; exact ⟨List.replicate (255 - n) false, by
        rw [← List.replicate_add]; congr 1; omega⟩⟩
    · exact ⟨1#8, hc _ (by simp), by rw [h1]; exact ⟨List.replicate (254 - n) false, by
        rw [List.cons_append, ← List.replicate_add]; congr 2; omega⟩⟩
    · exact ⟨2#8, hc _ (by simp), h2⟩
  have := (manyPrefixes_nodup.subperm hsub).length_le
  have hl : manyPrefixes.length = 512 := by simp [manyPrefixes]
  omega

theorem threeLong_codes :
    codeOf threeLong 0#8 = List.replicate 255 false ∧ codeOf threeLong 1#8 = true :: List.replicate 254 false ∧
    codeOf threeLong 2#8 = false :: true :: List.replicate 253 false ∧
    (∀ y ∈ [0#8, 1#8, 2#8], clenOf threeLong y ≠ 0#8) := by decide +kernel

theorem threeLongTwice_codes :
    codeOf threeLongTwice 0#8 = List.replicate 255 false ∧ codeOf threeLongTwice 1#8 = true :: List.replicate 254 false ∧
    codeOf threeLongTwice 2#8 = false :: true :: List.replicate 253 false ∧
    codeOf threeLongTwice 3#8 = List.replicate 255 false ∧
    (∀ y ∈ [0#8, 1#8, 2#8, 3#8], clenOf threeLongTwice y ≠ 0#8) := by decide +kernel

theorem threeLong_coded : ∀ y : Sym, clenOf threeLong y ≠ 0#8 → y = 0#8 ∨ y = 1#8 ∨ y = 2#8 := by decide +kernel

theorem threeLong_prefixFree : prefixFree threeLong := by
  have h0 : (codeOf threeLong 0#8).take 2 = [false, false] := by decide +kernel
  have h1 : (codeOf threeLong 1#8).take 2 = [true, false] := by decide +kernel
  have h2 : (codeOf threeLong 2#8).take 2 = [false, true] := by decide +kernel
  intro y z hne hy hz hp
  have h := hp.take 2
  rcases threeLong_coded y hy with rfl | rfl | rfl <;> rcases threeLong_coded z hz with rfl | rfl | rfl <;>
    first | exact absurd rfl hne | (simp only [h0, h1, h2] at h; revert h; decide)

/-- Two equal codes; a prefix-free table of 512 nodes; a table of 512 nodes with two equal codes. -/
theorem witness_ReconRejects :
    (∃ s : State, s.phase = .hdr ∧ ¬ prefixFree s ∧ (codePrefixes s).length ≤ 511) ∧
    (∃ s : State, s.phase = .hdr ∧ prefixFree s ∧ 511 < (codePrefixes s).length) ∧
    (∃ s : State, s.phase = .hdr ∧ ¬ prefixFree s ∧ 511 < (codePrefixes s).length) := by
  refine ⟨⟨setCode 0x42#8 1 (1#256 <<< 255) { codedAB with phase := .hdr }, rfl, fun h => ?_, by decide +kernel⟩,
    ⟨threeLong, rfl, threeLong_prefixFree, ?_⟩, ⟨threeLongTwice, rfl, fun h => ?_, ?_⟩⟩
  · exact h 0x41#8 0x42#8 (by decide) (by decide +kernel) (by decide +kernel) (by decide +kernel)
  · obtain ⟨h0, h1, h2, hc⟩ := threeLong_codes
    exact many_le _ h0 h1 (by rw [h2]; exact ⟨_, rfl⟩) hc
  · obtain ⟨h0, -, -, h3, hc⟩ := threeLongTwice_codes
    exact h 0#8 3#8 (by decide) (hc _ (by simp)) (hc _ (by simp)) (by rw [h0, h3])
  · obtain ⟨h0, h1, h2, -, hc⟩ := threeLongTwice_codes
    exact many_le _ h0 h1 (by rw [h2]; exact ⟨_, rfl⟩) fun y hy => hc y (List.mem_append_left [3#8] hy)

/-- Bit 0 at the root of `decState` leads to an internal node; the byte's read failing. -/
theorem witness_DstepDescends :
    (∃ (s : State) (b : Bool) (rest : List Bool) (i j : NodeIdx), s.phase = .dec ∧ (s.rcnt = 0 → passes 1 s.srcFail) ∧
      unreadBits s = b :: rest ∧ s.cur = some i ∧ child (nodeAt s i) b = some j ∧ (nodeAt s j).tag = .int) ∧
    (∃ (s : State) (rest : List Bool), s.phase = .dec ∧ s.rcnt = 0 ∧ s.srcFail = true :: rest) :=
  ⟨⟨{ decState with src := bytes [0x20], srcFail := [false, true] }, false, [false, true, false, false, false, false, false],
      0, 1, rfl, fun _ => by simp [passes], by decide +kernel, rfl, by decide +kernel, by decide +kernel⟩,
    ⟨{ decState with srcFail := [true] }, [], rfl, rfl, rfl⟩⟩

/-- Bit 1 at the root of `decState` leads to a leaf, before the last symbol and at it; with a write that passes or fails. -/
theorem witness_DstepEmits :
    ∀ (n : Word) (f : Bool), n = 0#64 ∨ n = 1#64 → ∃ (s : State) (b : Bool) (rest : List Bool) (i j : NodeIdx)
      (fails : List Bool), s.phase = .dec ∧ (s.rcnt = 0 → passes 1 s.srcFail) ∧ unreadBits s = b :: rest ∧ s.cur = some i ∧
      child (nodeAt s i) b = some j ∧ (nodeAt s j).tag = .leaf ∧ s.scnt = n ∧ s.total = 2#64 ∧ s.sinkFail = f :: fails :=
  fun n f _ => ⟨{ decState with rbuf := 1#8, rcnt := 1, scnt := n, sinkFail := [f] }, true, [], 0, 3, [], rfl,
    fun h => absurd h (by decide : (1 : Fin 9) ≠ 0), (by decide +kernel : unreadBits { decState with rbuf := 1#8, rcnt := 1 } = _), rfl,
    (by decide +kernel : child (nodeAt decState 0) true = _), (by decide +kernel : (nodeAt decState 3).tag = _), rfl, rfl,
    rfl⟩

theorem witness_BodyEnding : decState.phase = .dec ∧ passes 1 decState.srcFail ∧ unreadBits decState = [] :=
  ⟨rfl, passes_nil 1, by decide +kernel⟩

/-- Node 1 of `decState` has no right child. -/
theorem witness_AbsentChild :
    ∃ (s : State) (b : Bool) (rest : List Bool) (i : NodeIdx), s.phase = .dec ∧ (s.rcnt = 0 → passes 1 s.srcFail) ∧
      unreadBits s = b :: rest ∧ s.cur = some i ∧ child (nodeAt s i) b = none :=
  ⟨{ decState with cur := some 1, rbuf := 1#8, rcnt := 1 }, true, [], 1, rfl, fun _ => passes_nil 1, by decide +kernel, rfl,
    by decide +kernel⟩

/-- A step that stays in `DEC`, and one that leaves it. -/
theorem witness_DrunIsDsteps :
    (∃ s u : State, s.phase = .dec ∧ exec .dstep s = .next u ∧ u.phase = .dec ∧ ∃ t, exec .drun s = .next t) ∧
    (∃ s u : State, s.phase = .dec ∧ exec .dstep s = .next u ∧ u.phase ≠ .dec) := by
  constructor
  · obtain ⟨u, h, hp⟩ := answers_next (o := exec .dstep { decState with src := bytes [0x20] }) (P :=
      fun t => t.phase == .dec)
      (by decide +kernel)
    obtain ⟨t, ht, _⟩ := answers_next (o := exec .drun { decState with src := bytes [0x20] }) (P := fun _ => true)
      (by decide +kernel)
    exact ⟨_, u, rfl, h, by simpa using hp, t, ht⟩
  · obtain ⟨u, h, hp⟩ := answers_next (o := exec .dstep decState) (P := fun t => t.phase == .err) (by decide +kernel)
    exact ⟨_, u, rfl, h, by simp only [beq_iff_eq] at hp; simp [hp]⟩

theorem witness_DrunTerminates : decState.phase = .dec ∧ decState.root ≠ none ∧ decState.cur ≠ none :=
  ⟨rfl, by decide, by decide⟩

/-- V22, fourth row: the body of `A`, `B`, and five pad bits. -/
theorem witness_DrunDecodes :
    ∃ (s : State) (r : NodeIdx) (path : Sym → List Bool) (xs : List Sym) (rest : List Bool),
      s.phase = .dec ∧ s.root = some r ∧ s.cur = some r ∧ (nodeAt s r).tag = .int ∧
      passes (bytesNeeded s (xs.flatMap path).length) s.srcFail ∧ passes xs.length s.sinkFail ∧ true ∈ s.srcFail ∧
      xs ≠ [] ∧ s.scnt.toNat + xs.length = s.total.toNat ∧ (∀ x ∈ xs, leafPath s r (path x) x) ∧
      unreadBits s = xs.flatMap path ++ rest := by
  refine ⟨{ decState with src := bytes [0x20], srcFail := [false, true] }, 0, fun y => if y = 0x41#8 then [false, false] else [true],
    [0x41#8, 0x42#8], List.replicate 5 false, rfl, rfl, rfl, by decide +kernel,
    passes_replicate 1 [true], passes_nil 2, by decide,
    by decide, by decide +kernel, ?_, by decide +kernel⟩
  intro x hx
  simp only [List.mem_cons, List.not_mem_nil, or_false] at hx
  rcases hx with rfl | rfl
  · exact ⟨2, by decide +kernel, by decide +kernel, by decide +kernel⟩
  · exact ⟨3, by decide +kernel, by decide +kernel, by decide +kernel⟩

theorem witness_PortPrimitives :
    (∃ (s : State) (rest : List Bool), s.srcFail = true :: rest) ∧
    (∃ s : State, passes 1 s.srcFail ∧ s.src.length = s.spos) ∧
    (∃ s : State, passes 1 s.srcFail ∧ s.spos + 1 = s.src.length) ∧
    (∃ (s : State) (rest : List Bool), s.sinkFail = true :: rest) ∧ (∃ s : State, passes 1 s.sinkFail) :=
  ⟨⟨{ State.reset with srcFail := [true] }, [], rfl⟩, ⟨State.reset, passes_nil 1, rfl⟩,
    ⟨{ State.reset with src := bytes [1] }, passes_nil 1, rfl⟩,
    ⟨{ State.reset with sinkFail := [true] }, [], rfl⟩, ⟨State.reset, passes_nil 1⟩⟩

/-- A command that writes to the sink of a state whose `SINK_OPEN` agrees with its phase. -/
theorem witness_Streams :
    ∃ (s t : State) (rest : List HostAct), sinkFlag s ∧ s.host = .command ⟨0x7041#16, 0#64⟩ :: rest ∧
      step s = .next t ∧ t.sink ≠ s.sink := by
  obtain ⟨t, h, hp⟩ := answers_next (o := step (State.withFetchWord (encAB 1 0xFE#8 7#3) 16 0x7041))
    (P := fun t => t.sink == bytes [0xFF]) (by decide +kernel)
  refine ⟨_, t, [], ?_, rfl, h, ?_⟩
  · simp [sinkFlag, State.withFetchWord, present, encAB]
  · rw [beq_iff_eq.mp hp]
    decide +kernel

theorem witness_SinkIsWritten :
    ∃ s t : State, sinkFlag s ∧ exec (.enc 0x41#8) s = .next t ∧ t.sink ≠ s.sink := by
  obtain ⟨t, h, hp⟩ := answers_next (o := exec (.enc 0x41#8) (encAB 1 0xFE#8 7#3)) (P :=
      fun t => t.sink == bytes [0xFF])
    (by decide +kernel)
  refine ⟨_, t, ?_, h, ?_⟩
  · simp [sinkFlag, encAB]
  · rw [beq_iff_eq.mp hp]
    decide +kernel

/-- A run in the middle of its body meets the invariant, and its next step answers. -/
theorem witness_Invariant :
    ∃ s t : State, Inv s ∧ s.phase = .enc ∧ ¬ rebinds s ∧ step s = .next t := by
  obtain ⟨t, h, -⟩ := answers_next (o := step (State.withFetchWord (encAB 1 0xFE#8 7#3) 16 0x7041)) (P := fun _ => true)
    (by decide +kernel)
  refine ⟨_, t, ?_, rfl, ?_, h⟩
  · have hp : (State.withFetchWord (encAB 1 0xFE#8 7#3) 16 0x7041).phase = .enc := rfl
    exact
      { errRecorded := ⟨fun _ => ⟨rfl, rfl, rfl⟩, fun h => absurd (hp.symm.trans h) (by decide)⟩
        sinkFlag := ⟨fun _ => .inl rfl, fun _ => rfl⟩
        countersOk := ⟨fun _ _ => by decide +kernel, fun _ => by decide +kernel, fun h => absurd (hp.symm.trans h) (by decide),
          fun h => absurd (hp.symm.trans h) (by decide)⟩
        writerOk := ⟨fun _ => lowBitsZero_of _ (by decide +kernel), fun h => absurd hp h⟩
        readerOk := fun _ _ _ => ⟨rfl, rfl⟩
        codesPadded := codedAB_padded
        freeAbove := fun i hi => reset_freeAbove i hi
        noTreeYet := fun h => by simp [hp] at h
        noCodesYet := fun h => by simp [hp] at h
        treeWalks := fun h => absurd (hp.symm.trans h) (by decide)
        prefixCode := fun _ => codedAB_prefixFree
        cursorOk := fun h => absurd (hp.symm.trans h) (by decide)
        position := Nat.le_refl _ }
  · rintro (⟨_, _, _, hh, -⟩ | ⟨_, _, hh, -⟩) <;> exact absurd hh (by simp [State.withFetchWord, present])

end Sys2Proof.Tests
end

/-! PROOFS. What both resets do to the core and to its environment, and the fields of the registers `RDREG` answers
(10_state.md R38 to R41, R46; 70_reset_and_hazards.md R320). -/

namespace Sys2Proof.Machine

/-! ### Reset (10_state.md R46) -/

/-- Re-initialising gives every item of the core its reset value, whatever the state was. -/
theorem coreIsReset_resetCore (s : State) : CoreIsReset (resetCore s) where
  phase := rfl
  err := rfl
  errInfo := rfl
  ePhase := rfl
  freq := lookup_replicate 0#64
  total := rfl
  scnt := rfl
  clen := lookup_replicate 0#8
  cbits := lookup_replicate 0#256
  node i := by simp [nodeAt, State.reset, Node.free]
  ncnt := rfl
  root := rfl
  cur := rfl
  wacc := rfl
  wcnt := rfl
  rbuf := rfl
  rcnt := rfl
  sinkOpen := rfl

/-- The state after reset is one the re-initialisation leaves as it is. -/
theorem coreIsReset_reset : CoreIsReset State.reset := coreIsReset_resetCore State.reset

/-- The response is no item of the core. -/
theorem coreIsReset_respond {s : State} (h : CoreIsReset s) (ok : Bool) (v : Word) :
    CoreIsReset (respond ok v s) := { h with }

/-- Hardware reset re-initialises the core and makes no port access (70_reset_and_hazards.md R320). -/
theorem step_hardReset {s : State} {rest : List HostAct} (h : s.host = .hardReset :: rest) :
    step s = .next (resetCore { s with host := rest }) := step_act h

/-- `RST` releases the sink, re-initialises the core and answers (40_system_and_read.md R131). -/
theorem exec_rst (s : State) : exec .rst s = .next (respond true 0#64 (resetCore (releaseSink s))) := rfl

/-- Settles O13: both resets end in `resetCore`, which sets the core and keeps the environment; `RST` releases the sink
before it. -/
theorem resetsGiveTheResetValues : Obligations.ResetsGiveTheResetValues := by
  unfold Obligations.ResetsGiveTheResetValues
  refine ⟨coreIsReset_reset, fun s rest h => ?hard, fun s => ?rst⟩
  case hard => exact ⟨_, step_hardReset h, coreIsReset_resetCore _, rfl, rfl, rfl, rfl, rfl, rfl, rfl, rfl⟩
  case rst => exact ⟨_, exec_rst s, coreIsReset_respond (coreIsReset_resetCore _) .., by simp [answeredOk]⟩

/-! ### The fields of the registers (10_state.md R39 to R41) -/

/-! The registers are concatenations typed as words of 64 bits. The library's lemmas on a slice of a concatenation are indexed
by the sum of the two widths, so `simp` does not find them at a word; here they are without that index. -/

/-- A slice above the lower part of a concatenation lies in the upper part. -/
theorem extractLsb'_append_high {v w start len : Nat} {hi : BitVec v} {lo : BitVec w} (h : w ≤ start) :
    (no_index (hi ++ lo)).extractLsb' start len = hi.extractLsb' (start - w) len :=
  BitVec.extractLsb'_append_eq_of_le h

/-- A slice that ends within the lower part of a concatenation is a slice of it. -/
theorem extractLsb'_append_low {v w start len : Nat} {hi : BitVec v} {lo : BitVec w} (h : start + len ≤ w) :
    (no_index (hi ++ lo)).extractLsb' start len = lo.extractLsb' start len :=
  BitVec.extractLsb'_append_eq_of_add_le h

/-- A bit stored as a word of width 1 reads back. -/
theorem bit_beq_one (b : Bool) : (bit b == 1#1) = b := by cases b <;> rfl

/-- The pointer bits of a node are its index (R29). -/
theorem ptrBits_some_toNat (i : NodeIdx) : (ptrBits (some i)).toNat = i.val :=
  (BitVec.toNat_ofNat ..).trans (Nat.mod_eq_of_lt (Nat.lt_trans i.isLt (by decide)))

/-- The fields of `STATUS` (R39). -/
theorem statusReg_fields (s : State) :
    (statusReg s).extractLsb' 0 3 = phaseBits s.phase ∧ (statusReg s).getLsbD 3 = s.sinkOpen ∧
    (statusReg s).extractLsb' 4 3 = errBits s.err ∧ (statusReg s).getLsbD 7 = false ∧
    (statusReg s).extractLsb' 8 8 = s.errInfo ∧ (statusReg s).extractLsb' 16 3 = phaseBits s.ePhase ∧
    (statusReg s).extractLsb' 19 45 = 0#45 := by
  rw [BitVec.getLsbD_eq_extractLsb', BitVec.getLsbD_eq_extractLsb']
  simp [statusReg, extractLsb'_append_high, extractLsb'_append_low, bit_beq_one]

/-- The fields of `TREE` (R40). -/
theorem treeReg_fields (s : State) :
    (treeReg s).extractLsb' 0 9 = ptrBits s.root ∧ (treeReg s).extractLsb' 9 7 = 0#7 ∧
    (treeReg s).extractLsb' 16 9 = s.ncnt ∧ (treeReg s).extractLsb' 25 7 = 0#7 ∧
    (treeReg s).extractLsb' 32 9 = ptrBits s.cur ∧ (treeReg s).extractLsb' 41 23 = 0#23 := by
  simp [treeReg, extractLsb'_append_high, extractLsb'_append_low]

/-- The fields of `BITIO` (R41); a count of 0 to 8 fits its four bits. -/
theorem bitioReg_fields (s : State) :
    (bitioReg s).extractLsb' 0 8 = s.wacc ∧ (bitioReg s).extractLsb' 8 3 = s.wcnt ∧
    (bitioReg s).extractLsb' 11 5 = 0#5 ∧ (bitioReg s).extractLsb' 16 8 = s.rbuf ∧
    ((bitioReg s).extractLsb' 24 4).toNat = s.rcnt.val ∧ (bitioReg s).extractLsb' 28 36 = 0#36 := by
  have hcount : s.rcnt.val < 16 := Nat.lt_trans s.rcnt.isLt (by decide)
  simp [bitioReg, extractLsb'_append_high, extractLsb'_append_low, -BitVec.extractLsb'_toNat, hcount]

/-- `RDREG` of a register that exists answers its value (40_system_and_read.md R132). -/
theorem exec_rdreg {s : State} {r : BitVec 9} {v : Word} (h : regValue s r = some v) :
    exec (.rdreg r) s = .next (respond true v s) := congrArg (readItem · s) h

/-- Settles O16: `RDREG` answers the three registers, whose fields are those of their layouts. -/
theorem registerLayouts : Obligations.RegisterLayouts := by
  unfold Obligations.RegisterLayouts
  exact ⟨rfl, rfl, ptrBits_some_toNat,
    fun s => ⟨statusReg s, exec_rdreg rfl, statusReg_fields s⟩,
    fun s => ⟨treeReg s, exec_rdreg rfl, treeReg_fields s⟩,
    fun s => ⟨bitioReg s, exec_rdreg rfl, bitioReg_fields s⟩,
    by decide, by decide, by decide⟩

end Sys2Proof.Machine

/-! PROOFS. The frequency table command `FINC` on a full count (42_frequency.md R171). -/

namespace Sys2Proof.Machine

/-- A word whose value is the greatest of 64 bits has every bit set. -/
theorem eq_allOnes_of_toNat_eq {w : Word} (h : w.toNat = 2 ^ 64 - 1) : w = BitVec.allOnes 64 :=
  BitVec.eq_of_toNat_eq (h.trans BitVec.toNat_allOnes.symm)

/-- On a full count `FINC` raises before it writes (42_frequency.md R171). -/
theorem fincBody_full {s : State} {y : Sym} (h : freqOf s y = BitVec.allOnes 64) :
    fincBody y s = .raised .freqOvf s := if_pos h

/-- In phase `IDLE` `FINC` answers as its body does (42_frequency.md R170). -/
theorem exec_finc_idle {s : State} (h : s.phase = .idle) (y : Sym) : exec (.finc y) s = finish (fincBody y s) :=
  inPhase_legal h (by decide)

/-- Settles O21: a count of that value is all ones, so the body raises on the state it was given, and the fault entry keeps
the table. -/
theorem fincOverflowFaults : Obligations.FincOverflowFaults := by
  unfold Obligations.FincOverflowFaults
  intro s y hidle hcount
  have hfull : freqOf s y = BitVec.allOnes 64 := eq_allOnes_of_toNat_eq hcount
  have hexec : exec (.finc y) s = .next (raiseFault .freqOvf s) := by
    rw [exec_finc_idle hidle, fincBody_full hfull, finish_raised]
  exact ⟨hexec, raiseFault_freq .freqOvf s, raiseFault_err .freqOvf s, raiseFault_errInfo .freqOvf s⟩

end Sys2Proof.Machine

/-! PROOFS. The priority queue's order, and which tables `BUILD` refuses (43_tree_builder.md R181, R183, R185, R187). -/

namespace Sys2Proof.Machine

/-! ### The priority queue (R183) -/

/-- `remove_min` gives nothing on the empty queue only. -/
theorem removeMin_eq_none {s : State} {q : List NodeIdx} : removeMin s q = none ↔ q = [] := by
  cases q with
  | nil => simp [removeMin_nil]
  | cons i q => simp [removeMin_cons]

/-- Settles O28: the member taken is the queue's minimum, the rest is kept; a member may stand in the queue twice, so one
that stays may be the one taken. -/
theorem removeMinTakesTheLeast : Obligations.RemoveMinTakesTheLeast := by
  unfold Obligations.RemoveMinTakesTheLeast
  refine fun s q => ⟨removeMin_eq_none, fun a q' h => ?_⟩
  cases q with
  | nil => simp [removeMin_nil] at h
  | cons i q =>
    obtain ⟨rfl, rfl⟩ : queueMin s i q = a ∧ (i :: q).erase (queueMin s i q) = q' := by
      simpa only [removeMin_cons, Option.some.injEq, Prod.mk.injEq] using h
    refine ⟨List.perm_cons_erase (queueMin_mem s q i), fun j hj => ?_⟩
    rcases queueMin_least s q i j (List.mem_of_mem_erase hj) with rfl | hlow
    · exact .inr ⟨rfl, le_rfl⟩
    · exact hlow.imp_right fun ⟨hf, hi⟩ => ⟨hf, hi.le⟩

/-! ### The total of a completed `BUILD` (R187) -/

/-- A sum below `2^64` over one present symbol: `BUILD` makes its leaf and the leaf's synthetic parent (R186). -/
theorem buildBody_single {s : State} {y : Sym} (h : presentSyms s = [y]) (hsum : freqSum s < 2 ^ 64) :
    buildBody s = .ok 0#64
      { setNode 1 { tag := .int, sym := 0#8, freq := freqOf s y, left := some 0, right := none }
          (setNode 0 { tag := .leaf, sym := y, freq := freqOf s y, left := none, right := none } s) with
        ncnt := 2#9, root := some 1, total := freqOf s y, phase := .tree } := by
  set leaf : Node := { tag := .leaf, sym := y, freq := freqOf s y, left := none, right := none }
  set parent : Node := { tag := .int, sym := 0#8, freq := freqOf s y, left := some 0, right := none }
  have hseed : seedLeaves [y] { s with ncnt := 0#9 } = .ok [0] { setNode 0 leaf s with ncnt := 1#9 } := rfl
  have hfreq : (nodeAt { setNode 0 leaf s with ncnt := 1#9 } 0).freq = freqOf s y :=
    congrArg Node.freq (nodeAt_setNode_self 0 leaf s)
  have hgrow : growTree [0] { setNode 0 leaf s with ncnt := 1#9 } = .ok 1 { setNode 1 parent (setNode 0 leaf s) with
      ncnt := 2#9 } := by rw [growTree, hfreq]; rfl
  rw [buildBody, if_neg (by simp [h]), if_neg hsum.not_ge, h, hseed, bind_ok, hgrow, bind_ok]
  simp [nodeAt, parent]

/-- The sum of the table is the sum over the present symbols (R181). -/
theorem sum_freqOf_presentSyms (s : State) : ((presentSyms s).map fun y => (freqOf s y).toNat).sum = freqSum s := by
  simpa [bodyBits, freqSum] using presentSum_eq s fun _ => 1

/-- The leaves seeded for the symbols `ys`, taken in order, carry the counts of `ys`. -/
theorem map_freqAt_leaves {s t : State} {leaves : List NodeIdx} {ys : List Sym}
    (hidx : leaves.map Fin.val = List.range ys.length)
    (hfreq : ∀ (k : NodeIdx) (h : k.val < ys.length), (nodeAt t k).freq = freqOf s ys[k.val]) :
    leaves.map (freqAt t) = ys.map fun y => (freqOf s y).toNat := by
  have hlen : leaves.length = ys.length := by simpa using congrArg List.length hidx
  refine List.ext_getElem (by simp [hlen]) fun k h1 h2 => ?_
  rw [List.length_map] at h1 h2
  have hk : (leaves[k]).val = k := by
    rw [← List.getElem_map Fin.val (h := by simpa using h1)]
    simp [hidx]
  simp only [List.getElem_map, freqAt, hfreq leaves[k] (hk.trans_lt h2), hk]

/-- A `BUILD` that completes leaves `TOTAL` at the exact sum of the table (R187). -/
theorem buildBody_total {s t : State} {v : Word} (h : buildBody s = .ok v t) : t.total.toNat = freqSum s := by
  rcases buildBody_cases s with ⟨_, e⟩ | ⟨_, _, e⟩ | ⟨hne, hsum, _⟩
  · simp [e] at h
  · simp [e] at h
  · rcases Nat.lt_or_ge (presentSyms s).length 2 with h1 | h2
    · obtain ⟨y, hy⟩ : ∃ y, presentSyms s = [y] :=
        List.length_eq_one_iff.mp (by have := List.length_pos_iff.mpr hne; omega)
      rw [buildBody_single hy hsum, Res.ok.injEq] at h
      rw [← h.2, ← sum_freqOf_presentSyms, hy]
      simp
    · obtain ⟨r, u, _, e, _, hu, _, hleaf, _, _, _, leaves, hidx, hfreq, _⟩ := buildBody_forest h2 hsum
      obtain ⟨_, rfl⟩ : _ ∧ u = t := by simpa [e] using h
      calc u.total.toNat = freqAt u r := by rw [hu]; rfl
        _ = (leaves.map (freqAt u)).sum := hfreq
        _ = freqSum s := by
          rw [map_freqAt_leaves hidx fun k hk => by rw [hleaf k hk], sum_freqOf_presentSyms]

/-- The table sums to 0 only where no symbol is present. -/
theorem freqSum_eq_zero_iff (s : State) : freqSum s = 0 ↔ presentSyms s = [] := by
  simp [freqSum, List.sum_eq_zero_iff, List.eq_nil_iff_forall_not_mem, mem_presentSyms, mem_allSyms, ← BitVec.toNat_inj]

/-! ### The refusals of `BUILD` (R181, R185) -/

/-- In phase `IDLE` `BUILD` answers as its body does (43_tree_builder.md R180). -/
theorem exec_build_idle {s : State} (h : s.phase = .idle) : exec .build s = finish (buildBody s) :=
  inPhase_legal h (by decide)

/-- A table with no entry is refused before any write (R181). -/
theorem buildBody_empty {s : State} (h : presentSyms s = []) : buildBody s = .raised .empty s := if_pos h

/-- A sum of `2^64` or more is refused before any write (R185). -/
theorem buildBody_oversize {s : State} (h : 2 ^ 64 ≤ freqSum s) : buildBody s = .raised .freqOvf s := by
  have hne : presentSyms s ≠ [] := fun h0 => by
    rw [(freqSum_eq_zero_iff s).mpr h0] at h
    exact absurd h (by decide)
  rw [buildBody, if_neg hne, if_pos h]

/-- Settles O24: the two refusals come before any write, and a `BUILD` that completes leaves the sum of a table that is not
empty. -/
theorem buildRejectsEmptyAndOversizeTables : Obligations.BuildRejectsEmptyAndOversizeTables := by
  unfold Obligations.BuildRejectsEmptyAndOversizeTables
  intro s hidle
  rw [exec_build_idle hidle]
  refine ⟨fun hempty => ?_, fun t ht htree => ?_, fun hsum => ?_⟩
  · have hnil : presentSyms s = [] := by
      simp [List.eq_nil_iff_forall_not_mem, mem_presentSyms, hempty]
    exact ⟨by rw [buildBody_empty hnil, finish_raised], raiseFault_err .empty s, raiseFault_errInfo .empty s,
      raiseFault_sink .empty s, fun hclosed => by simp [hclosed]⟩
  · rcases finish_eq_next.mp ht with ⟨v, u, hu, rfl⟩ | ⟨c, u, _, rfl⟩
    · intro hzero
      have htotal : u.total.toNat = 0 := congrArg BitVec.toNat hzero
      have hnil := (freqSum_eq_zero_iff s).mp ((buildBody_total hu).symm.trans htotal)
      simp [buildBody_empty hnil] at hu
    · simp at htree
  · rw [buildBody_oversize ((freqSum_eq_sum s).symm ▸ hsum), finish_raised]

end Sys2Proof.Machine

/-! PROOFS. The faults of the encoder: a header write that fails, the checks of `ENC` before it writes, and `CLOSE` short of
`TOTAL` (45_encoder.md R211, R214, R216). -/

namespace Sys2Proof.Machine

/-! ### The commands in their legal phase -/

/-- In phase `CODES` `HDRW` answers as its body does (45_encoder.md R210). -/
theorem exec_hdrw_codes {s : State} (h : s.phase = .codes) : exec .hdrw s = finish (hdrwBody s) :=
  inPhase_legal h (by decide)

/-- In phase `ENC` the command `ENC` answers as its body does (45_encoder.md R213). -/
theorem exec_enc_enc {s : State} (h : s.phase = .enc) (y : Sym) : exec (.enc y) s = finish (encBody y s) :=
  inPhase_legal h (by decide)

/-- In phase `ENC` `CLOSE` answers as its body does (45_encoder.md R215). -/
theorem exec_close_enc {s : State} (h : s.phase = .enc) : exec .close s = finish (closeCmdBody s) :=
  inPhase_legal h (by decide)

/-! ### `HDRW` whose sink fails (R211) -/

/-- The write of header byte `k` fails: the bytes before it stay, and `HDRW` stops with the sink open. -/
theorem hdrwBody_fails {s : State} {k : Nat} {rest : List Bool} (hk : k < (headerBytes s).length)
    (hfail : s.sinkFail = List.replicate k false ++ true :: rest) :
    hdrwBody s = .raised .sinkWrite
      { s with sinkOpen := true, sinkFail := rest, sink := s.sink ++ (headerBytes s).take k } := by
  rw [hdrwBody, putAll_fails (headerBytes s) (s := { s with sinkOpen := true }) hk hfail, bind_raised]

/-- Settles O35: the body raises with the sink open and the accepted bytes in it, so the fault entry, written out, closes the
sink in phase `CODES`. -/
theorem hdrwKeepsWhatTheSinkAccepted : Obligations.HdrwKeepsWhatTheSinkAccepted := by
  unfold Obligations.HdrwKeepsWhatTheSinkAccepted
  intro s k rest hcodes hk hfail
  rw [exec_hdrw_codes hcodes, hdrwBody_fails hk hfail, finish_raised, raiseFault_eq]
  simp [faulted, hcodes, subCodeKind, subCodeBits]

/-! ### The checks of `ENC` (R214) -/

/-- A symbol with no code is refused before the count is looked at. -/
theorem encBody_noCode {s : State} {y : Sym} (h : clenOf s y = 0#8) : encBody y s = .raised .noCode s := if_pos h

/-- A symbol past `TOTAL` is refused before any bit is written. -/
theorem encBody_count {s : State} {y : Sym} (hcode : clenOf s y ≠ 0#8) (hfull : s.scnt = s.total) :
    encBody y s = .raised .count s := by
  rw [encBody, if_neg hcode, if_pos hfull]

/-- Settles O37: both checks raise on the state the command was given. -/
theorem encChecksBeforeItWrites : Obligations.EncChecksBeforeItWrites := by
  unfold Obligations.EncChecksBeforeItWrites
  intro s y henc
  rw [exec_enc_enc henc]
  exact ⟨fun hnone => by rw [encBody_noCode hnone, finish_raised],
    fun hcode hfull => by rw [encBody_count hcode hfull, finish_raised]⟩

/-! ### `CLOSE` short of `TOTAL` (R216) -/

/-- A count other than `TOTAL` is refused before the partial byte is flushed. -/
theorem closeCmdBody_count {s : State} (h : s.scnt ≠ s.total) : closeCmdBody s = .raised .count s := if_pos h

/-- In phase `ENC`, `CLOSE` at any count but `TOTAL` raises `COUNT` on the state it was given. -/
theorem exec_close_count {s : State} (henc : s.phase = .enc) (hne : s.scnt ≠ s.total) :
    exec .close s = .next (raiseFault .count s) := by
  rw [exec_close_enc henc, closeCmdBody_count hne, finish_raised]

/-- A `HDRW` that ends in phase `ENC` leaves `SCNT` at 0 and `TOTAL` as it was: no answer but success leaves that phase. -/
theorem exec_hdrw_counters {s t : State} (h : exec .hdrw s = .next t) (henc : t.phase = .enc) :
    t.scnt = 0#64 ∧ t.total = s.total := by
  rcases inPhase_eq_next (by decide) h with ⟨herr, rfl⟩ | ⟨_, _, rfl⟩ | ⟨_, v, u, hbody, rfl⟩ | ⟨_, c, u, _, rfl⟩
  · simp [herr] at henc
  · simp at henc
  · rcases hdrwBody_cases s with ⟨l, e⟩ | ⟨l, k, _, e⟩ <;> rw [e] at hbody
    · obtain ⟨_, rfl⟩ := Res.ok.inj hbody
      exact ⟨rfl, rfl⟩
    · cases hbody
  · simp at henc

/-- Settles O39: straight after `HDRW` the count is 0, so a `TOTAL` that is not 0 is not reached. -/
theorem closeShortOfTotalFaults : Obligations.CloseShortOfTotalFaults := by
  unfold Obligations.CloseShortOfTotalFaults
  refine ⟨fun s henc hlt => ?short, fun s t htotal h henc => ?afterHdrw⟩
  case short => exact exec_close_count henc fun heq => hlt.ne (congrArg BitVec.toNat heq)
  case afterHdrw =>
    obtain ⟨hscnt, hkept⟩ := exec_hdrw_counters h henc
    exact exec_close_count henc fun heq => htotal (by rw [← hkept, ← heq, hscnt])

end Sys2Proof.Machine

/-! PROOFS. The header read back: `HDRR` over what `HDRW` writes, and the ends of the source inside a header (46_decoder.md
R230, R231, R233). -/

namespace Sys2Proof.Machine

/-! ### The header `HDRW` writes as records (30_encoding.md R114) -/

/-- The record of symbol `y` in the header of the CodeTable of `w`. -/
def headerRecord (w : State) (y : Sym) : HdrRecord :=
  { sym := y
    lenHigh := (BitVec.ofNat 16 (clenOf w y).toNat).extractLsb' 8 8
    lenLow := (BitVec.ofNat 16 (clenOf w y).toNat).extractLsb' 0 8
    code := (List.range (codeBytes (clenOf w y).toNat)).map (codeByte (cbitsOf w y)) }

/-- The records of the header of the CodeTable of `w`, in its order (R115). -/
def headerRecords (w : State) : List HdrRecord := (codedSyms w).map (headerRecord w)

theorem headerRecord_bytes (w : State) (y : Sym) :
    (headerRecord w y).bytes = recordBytes y (clenOf w y).toNat (cbitsOf w y) := rfl

theorem headerBytes_eq (w : State) :
    headerBytes w = totalBytes w.total ++ shortBytes (codedSyms w).length ++ (headerRecords w).flatMap HdrRecord.bytes := by
  simp [headerBytes, headerRecords, headerRecord_bytes, List.flatMap_map]

@[simp] theorem headerRecord_len (w : State) (y : Sym) : (headerRecord w y).len = (clenOf w y).toNat :=
  beNat_shortBytes (Nat.lt_trans (clenOf w y).isLt (by decide))

theorem length_headerRecord_code_le (w : State) (y : Sym) : (headerRecord w y).code.length ≤ 32 := by
  have := (clenOf w y).isLt
  simp [headerRecord, codeBytes]
  omega

@[simp] theorem length_headerRecords (w : State) : (headerRecords w).length = (codedSyms w).length := List.length_map ..

/-- The code bytes of a record hold the code's word, where its pad is 0. -/
theorem packBytes_headerRecord {w : State} (hpad : codesPadded w) (y : Sym) :
    packBytes (headerRecord w y).code = cbitsOf w y :=
  packBytes_codeBytes (Nat.le_of_lt_succ (clenOf w y).isLt) (hpad y)

/-- Shifting a padded code out of its word leaves nothing. -/
theorem cbitsOf_shiftLeft_clenOf {w : State} (hpad : codesPadded w) (y : Sym) :
    cbitsOf w y <<< (clenOf w y).toNat = 0#256 := by
  apply BitVec.eq_of_getLsbD_eq
  intro i hi
  rw [BitVec.getLsbD_shiftLeft, BitVec.getLsbD_zero]
  by_cases h : i < (clenOf w y).toNat
  · simp [h]
  · simp [hpad y (i - (clenOf w y).toNat) (by omega)]

/-- The record of a symbol with a padded code passes the checks of R230. -/
theorem headerRecord_good {w : State} (hpad : codesPadded w) {y : Sym} (hy : clenOf w y ≠ 0#8) :
    (headerRecord w y).good := by
  have hlt := (clenOf w y).isLt
  have hpos : (clenOf w y).toNat ≠ 0 := fun h => hy (BitVec.eq_of_toNat_eq h)
  refine ⟨?_, ?_, ?_, (packBytes_padded (length_headerRecord_code_le w y)).mp ?_⟩
  · rw [headerRecord_len]; omega
  · rw [headerRecord_len]; omega
  · rw [headerRecord_len]; simp [headerRecord, codeBytes]
  · rw [packBytes_headerRecord hpad, headerRecord_len, cbitsOf_shiftLeft_clenOf hpad]

theorem headerRecords_good {w : State} (hpad : codesPadded w) : goodRecords (headerRecords w) := by
  refine ⟨fun r hr => ?_, List.pairwise_map.mpr (codedSyms_sorted w)⟩
  obtain ⟨y, hy, rfl⟩ := List.mem_map.mp hr
  exact headerRecord_good hpad ((mem_codedSyms w y).mp hy)

/-! ### `HDRR` of a whole header (R231) -/

/-- In phase `IDLE` `HDRR` answers as its body does (46_decoder.md R230). -/
theorem exec_hdrr_idle {s : State} (h : s.phase = .idle) : exec .hdrr s = finish (hdrrBody s) :=
  inPhase_legal h (by decide)

/-- Two padded words that hold the same code are equal. -/
theorem cbits_ext {v w : CodeBits} {len : Nat} (hlen : len ≤ 256) (hcode : codeView v len = codeView w len)
    (hv : ∀ i, i < 256 - len → v.getLsbD i = false) (hw : ∀ i, i < 256 - len → w.getLsbD i = false) : v = w := by
  apply BitVec.eq_of_getLsbD_eq
  intro i hi
  by_cases h : i < 256 - len
  · rw [hv i h, hw i h]
  · have hbit := congrArg (·[255 - i]?) hcode
    simp only [codeView_getElem?, if_pos (show 255 - i < len by omega), Option.some.injEq] at hbit
    rwa [show 255 - (255 - i) = i by omega] at hbit

/-- Where the table holds the records of `w`, the entry of a symbol with a code is that of `w`. -/
theorem codeEntry_of_mem {w s u : State} (hpad : codesPadded w) (h : holdsRecords (headerRecords w) s u) {y : Sym}
    (hy : clenOf w y ≠ 0#8) : clenOf u y = clenOf w y ∧ cbitsOf u y = cbitsOf w y := by
  obtain ⟨hl, hc, hz⟩ := h.1 (headerRecord w y) (List.mem_map_of_mem ((mem_codedSyms w y).mpr hy))
  rw [headerRecord_len] at hl hc hz
  have hlen : clenOf u y = clenOf w y := BitVec.eq_of_toNat_eq hl
  have hbound : (clenOf w y).toNat ≤ 8 * (headerRecord w y).code.length := by
    simp [headerRecord, codeBytes]
    omega
  have hcode : codeView (cbitsOf u y) (clenOf w y).toNat = codeView (cbitsOf w y) (clenOf w y).toNat := calc
    _ = codeOf u y := by rw [codeOf, hlen]
    _ = (bitsOfBytes (headerRecord w y).code).take (clenOf w y).toNat := hc
    _ = codeView (packBytes (headerRecord w y).code) (clenOf w y).toNat :=
      (codeView_packBytes (length_headerRecord_code_le w y) hbound).symm
    _ = _ := by rw [packBytes_headerRecord hpad]
  exact ⟨hlen, cbits_ext (Nat.le_of_lt (clenOf w y).isLt) hcode hz (hpad y)⟩

/-- The entry of a symbol without a code is not written: an empty one stays, and a padded table has an empty one there. -/
theorem codeEntry_of_not_mem {w s u : State} (hpad : codesPadded w) (h : holdsRecords (headerRecords w) s u) {y : Sym}
    (hempty : clenOf s y = 0#8 ∧ cbitsOf s y = 0#256) (hy : clenOf w y = 0#8) :
    clenOf u y = clenOf w y ∧ cbitsOf u y = cbitsOf w y := by
  have hnot : ∀ r ∈ headerRecords w, r.sym ≠ y := by
    intro r hr hry
    obtain ⟨z, hz, rfl⟩ := List.mem_map.mp hr
    obtain rfl : z = y := hry
    exact (mem_codedSyms w z).mp hz hy
  have hzero : cbitsOf w y = 0#256 :=
    BitVec.eq_of_getLsbD_eq fun i hi => by rw [hpad y i (by simpa [hy] using hi), BitVec.getLsbD_zero]
  obtain ⟨hl, hb⟩ := h.2 y hnot
  exact ⟨hl.trans (hempty.1.trans hy.symm), hb.trans (hempty.2.trans hzero.symm)⟩

/-- A CodeTable that holds the records of `w`, and nothing where `w` has no code, is the CodeTable of `w`. -/
theorem codeTable_of_holdsRecords {w s u : State} (hpad : codesPadded w)
    (hempty : ∀ y, clenOf s y = 0#8 ∧ cbitsOf s y = 0#256) (h : holdsRecords (headerRecords w) s u) :
    u.clen = w.clen ∧ u.cbits = w.cbits := by
  have hentry (y : Sym) : clenOf u y = clenOf w y ∧ cbitsOf u y = cbitsOf w y := by
    by_cases hy : clenOf w y = 0#8
    · exact codeEntry_of_not_mem hpad h (hempty y) hy
    · exact codeEntry_of_mem hpad h hy
  exact ⟨table_ext fun y => (hentry y).1, table_ext fun y => (hentry y).2⟩

/-- `H_TOTAL` reads back as the writer's `TOTAL` (R231). -/
theorem ofNat_beNat_totalBytes (t : Word) : BitVec.ofNat 64 (beNat (totalBytes t)) = t := by
  rw [beNat_totalBytes, BitVec.ofNat_toNat, BitVec.setWidth_eq]

theorem beNat_totalBytes_ne_zero {t : Word} (h : t ≠ 0#64) : beNat (totalBytes t) ≠ 0 := by
  rw [beNat_totalBytes]
  exact fun h0 => h (BitVec.eq_of_toNat_eq h0)

/-- Past the two fields of a header `HDRR` reads its records, `TOTAL` written. -/
theorem hdrrBody_headerFields {w s : State} {rest : List Byte} (htotal : w.total ≠ 0#64) (hcoded : codedSyms w ≠ [])
    (hf : passes 10 s.srcFail)
    (hs : s.src.drop s.spos = totalBytes w.total ++ shortBytes (codedSyms w).length ++ rest) :
    hdrrBody s = (readRecords (headerRecords w).length (-1)
      { s with total := w.total, spos := s.spos + 10, srcFail := s.srcFail.drop 10 }).bind
        fun _ s3 => .ok 0#64 { s3 with phase := .hdr } := by
  have hle := length_codedSyms_le w
  have hpos := List.length_pos_iff.mpr hcoded
  have hnb : beNat (shortBytes (codedSyms w).length) = (codedSyms w).length := beNat_shortBytes (by omega)
  have hcount : ¬ ((codedSyms w).length = 0 ∨ (codedSyms w).length > Config.nsym) := by
    have : Config.nsym = 256 := rfl
    omega
  rw [hdrrBody_fields hf (length_totalBytes _) (length_shortBytes _) hs (beNat_totalBytes_ne_zero htotal), hnb,
    if_neg hcount, ofNat_beNat_totalBytes, length_headerRecords]

/-- Settles O41: the header is a run of good records under its two fields, and what the records store in an empty
CodeTable is the writer's. -/
theorem headerReadGivesWhatWasWritten : Obligations.HeaderReadGivesWhatWasWritten := by
  unfold Obligations.HeaderReadGivesWhatWasWritten
  intro w s rest htotal hpad hcoded hidle hpass hempty hs
  have hlen : (headerBytes w).length = 10 + ((headerRecords w).flatMap HdrRecord.bytes).length := by
    rw [headerBytes_eq, List.length_append, List.length_append, length_totalBytes, length_shortBytes]
  rw [headerBytes_eq, List.append_assoc] at hs
  rw [hlen] at hpass ⊢
  have hrecs : s.src.drop (s.spos + 10) = (headerRecords w).flatMap HdrRecord.bytes ++ rest := by
    rw [← List.drop_drop, hs, List.drop_left' (by simp)]
  obtain ⟨last, u, e, hu, hholds, -⟩ := readRecords_good 0 (headerRecords w) (-1)
    { s with total := w.total, spos := s.spos + 10, srcFail := s.srcFail.drop 10 } rest (headerRecords_good hpad)
    (fun r _ => by omega) hrecs (passes_drop hpass)
  have hread : readRecords (headerRecords w).length (-1)
      { s with total := w.total, spos := s.spos + 10, srcFail := s.srcFail.drop 10 } = .ok () u := e
  obtain ⟨hclen, hcbits⟩ := codeTable_of_holdsRecords hpad hempty hholds
  rw [hclen, hcbits] at hu
  rw [exec_hdrr_idle hidle, hdrrBody_headerFields htotal hcoded (passes_mono hpass (by omega)) hs, hread, bind_ok,
    finish_ok, hu]
  simp [respond, Nat.add_assoc]

/-! ### A read that fails (R233) -/

/-- What begins two pieces put together ends inside the first piece or goes on into the second. -/
theorem prefix_append_cases {bs as cs : List Byte} (h : bs <+: as ++ cs) :
    (bs <+: as ∧ bs.length < as.length) ∨ ∃ ds, bs = as ++ ds ∧ ds <+: cs := by
  by_cases hlt : bs.length < as.length
  · exact .inl ⟨List.prefix_of_prefix_length_le h (List.prefix_append as cs) (Nat.le_of_lt hlt), hlt⟩
  · obtain ⟨ds, rfl⟩ := List.prefix_of_prefix_length_le (List.prefix_append as cs) h (Nat.le_of_not_lt hlt)
    exact .inr ⟨ds, rfl, (List.prefix_append_right_inj as).mp h⟩

/-- The next accesses to the source deliver the bytes `bs` and the one after them fails; `rest` are the draws left. -/
def failsAfter (bs : List Byte) (rest : List Bool) (s : State) : Prop :=
  s.srcFail = List.replicate bs.length false ++ true :: rest ∧ bs <+: s.src.drop s.spos

section
variable {bs cs : List Byte} {rest : List Bool} {s t : State}

/-- The accesses before the failure pass. -/
theorem failsAfter.passes (h : failsAfter (bs ++ cs) rest s) : passes bs.length s.srcFail := by
  intro b hb
  rw [h.1, List.length_append, List.replicate_add, List.append_assoc, List.take_left' (by simp)] at hb
  exact List.eq_of_mem_replicate hb

/-- The bytes before the failure are there. -/
theorem failsAfter.bytes (h : failsAfter (bs ++ cs) rest s) : ∃ tail, s.src.drop s.spos = bs ++ tail := by
  obtain ⟨tail, htail⟩ := h.2
  exact ⟨cs ++ tail, by rw [← htail, List.append_assoc]⟩

/-- Once the bytes `bs` are read, the failure is as much nearer. -/
theorem failsAfter.advance (h : failsAfter (bs ++ cs) rest s) (hsrc : t.src = s.src)
    (hspos : t.spos = s.spos + bs.length) (hfail : t.srcFail = s.srcFail.drop bs.length) : failsAfter cs rest t := by
  obtain ⟨hdraws, tail, htail⟩ := h
  refine ⟨?_, tail, ?_⟩
  · rw [hfail, hdraws, List.length_append, List.replicate_add, List.append_assoc, List.drop_left' (by simp)]
  · rw [hsrc, hspos, ← List.drop_drop, ← htail, List.append_assoc, List.drop_left]

/-- A `get()` at the failure. -/
theorem getByte_fails (h : failsAfter [] rest s) : getByte s = .raised .srcRead { s with srcFail := rest } := by
  have hd : draw s.srcFail = (true, rest) := by rw [h.1]; rfl
  rcases getByte_cases s with ⟨e, _⟩ | ⟨_, hd', _⟩ | ⟨_, hd', _⟩
  · rw [e, hd]
  · simp [hd] at hd'
  · simp [hd] at hd'

/-- A `get()` before the failure. -/
theorem getByte_beforeFail {b : Byte} (h : failsAfter (b :: bs) rest s) :
    getByte s = .ok b { s with spos := s.spos + 1, srcFail := s.srcFail.drop 1 } ∧
      failsAfter bs rest { s with spos := s.spos + 1, srcFail := s.srcFail.drop 1 } := by
  have h' : failsAfter ([b] ++ bs) rest s := h
  obtain ⟨_, htail⟩ := h'.bytes
  exact ⟨getByte_ok h'.passes htail, h'.advance rfl rfl rfl⟩

/-- A run of reads before the failure. -/
theorem getBytes_beforeFail {n : Nat} (h : failsAfter (bs ++ cs) rest s) (hn : bs.length = n) :
    getBytes n s = .ok bs { s with spos := s.spos + n, srcFail := s.srcFail.drop n } ∧
      failsAfter cs rest { s with spos := s.spos + n, srcFail := s.srcFail.drop n } := by
  subst hn
  obtain ⟨_, htail⟩ := h.bytes
  exact ⟨getBytes_ok bs h.passes htail, h.advance rfl rfl rfl⟩

/-- A run of reads that the failure is in. -/
theorem getBytes_fails (n : Nat) : ∀ {s : State} {bs : List Byte}, failsAfter bs rest s → bs.length < n →
    getBytes n s = .raised .srcRead { s with spos := s.spos + bs.length, srcFail := rest } := by
  induction n with
  | zero => intro s bs _ hn; omega
  | succ n ih =>
    intro s bs h hn
    cases bs with
    | nil => rw [getBytes, getByte_fails h, bind_raised]; rfl
    | cons b bs =>
      obtain ⟨e, hnext⟩ := getByte_beforeFail h
      rw [getBytes, e, bind_ok, ih hnext (Nat.lt_of_succ_lt_succ hn), bind_raised]
      simp [Nat.add_assoc, Nat.add_comm]

/-- Inside a good record a read fails: nothing of the record is stored. The failure is at the symbol, in the length or in
the code's bytes. -/
theorem readRecord_fails {prev : Int} {r : HdrRecord} (h : failsAfter bs rest s) (hbs : bs <+: r.bytes)
    (hlt : bs.length < r.bytes.length) (hp : prev < (r.sym.toNat : Int)) (hg : r.good) :
    readRecord prev s = .raised .srcRead { s with spos := s.spos + bs.length, srcFail := rest } := by
  obtain ⟨h1, h255, hcode, _⟩ := hg
  cases bs with
  | nil => rw [readRecord, getByte_fails h, bind_raised]; rfl
  | cons y bs =>
    obtain ⟨rfl, hafter⟩ : y = r.sym ∧ bs <+: [r.lenHigh, r.lenLow] ++ r.code := List.cons_prefix_cons.mp hbs
    obtain ⟨esym, hlen⟩ := getByte_beforeFail h
    rw [readRecord, esym, bind_ok, if_neg (not_le.mpr hp)]
    rcases prefix_append_cases hafter with ⟨_, hin⟩ | ⟨cs, rfl, _⟩
    · rw [getBytes_fails Config.hdrShortBytes hlen hin, bind_raised]
      simp [Nat.add_assoc, Nat.add_comm]
    · obtain ⟨elen, hcs⟩ := getBytes_beforeFail (n := Config.hdrShortBytes) hlen rfl
      have hgood : ¬ (r.len = 0 ∨ r.len > Config.codeMax) := by
        have : Config.codeMax = 255 := rfl
        omega
      have hin : cs.length < codeBytes r.len := by
        simp at hlt
        unfold codeBytes
        omega
      rw [elen, bind_ok, show beNat [r.lenHigh, r.lenLow] = r.len from rfl, if_neg hgood, getBytes_fails _ hcs hin,
        bind_raised]
      simp [Config.hdrShortBytes, Nat.add_assoc]
      omega

/-- Inside a run of good records a read fails: the records before it are stored. -/
theorem readRecords_fails (rs : List HdrRecord) : ∀ {prev : Int} {s : State} {bs : List Byte}, failsAfter bs rest s →
    bs <+: rs.flatMap HdrRecord.bytes → bs.length < (rs.flatMap HdrRecord.bytes).length →
    (∀ r ∈ rs, prev < (r.sym.toNat : Int)) → goodRecords rs →
    ∃ u, readRecords rs.length prev s = .raised .srcRead u ∧
      u = { s with clen := u.clen, cbits := u.cbits, spos := s.spos + bs.length, srcFail := rest } := by
  induction rs with
  | nil => intro prev s bs _ _ hlt; simp at hlt
  | cons r rs ih =>
    intro prev s bs h hbs hlt hp ⟨hgood, hasc⟩
    obtain ⟨hnext, hasc⟩ := List.pairwise_cons.mp hasc
    have hpr : prev < (r.sym.toNat : Int) := hp r List.mem_cons_self
    have hgr : r.good := hgood r List.mem_cons_self
    rw [List.length_cons, readRecords]
    rw [List.flatMap_cons] at hbs hlt
    rcases prefix_append_cases hbs with ⟨hpre, hin⟩ | ⟨cs, rfl, hcs⟩
    · exact ⟨_, by rw [readRecord_fails h hpre hin hpr hgr, bind_raised], rfl⟩
    · obtain ⟨_, htail⟩ := h.bytes
      obtain ⟨u, e, hu, -⟩ := readRecord_good h.passes htail hpr hgr
      have hfail : failsAfter cs rest u := h.advance (by rw [hu]) (by rw [hu]) (by rw [hu])
      obtain ⟨v, e', hv⟩ := ih (prev := (r.sym.toNat : Int)) hfail hcs (by simpa using hlt)
        (fun r' hr => Int.ofNat_lt.mpr (hnext r' hr)) ⟨fun r' hr => hgood r' (List.mem_cons_of_mem r hr), hasc⟩
      refine ⟨v, by rw [e, bind_ok, e'], ?_⟩
      rw [hv, hu]
      simp [Nat.add_assoc]

/-- Inside a header that `HDRW` writes a read fails: in `H_TOTAL`, in `H_N` or in the records (R233). -/
theorem hdrrBody_fails {w : State} (htotal : w.total ≠ 0#64) (hpad : codesPadded w) (hcoded : codedSyms w ≠ [])
    (h : failsAfter bs rest s) (hbs : bs <+: headerBytes w) (hlt : bs.length < (headerBytes w).length) :
    ∃ u, hdrrBody s = .raised .srcRead u ∧
      u = { s with total := u.total, clen := u.clen, cbits := u.cbits, spos := s.spos + bs.length, srcFail := rest } := by
  rw [headerBytes_eq] at hbs hlt
  rcases prefix_append_cases hbs with ⟨hfields, hcountIn⟩ | ⟨cs, rfl, hcs⟩
  · rcases prefix_append_cases hfields with ⟨_, htotalIn⟩ | ⟨ds, rfl, _⟩
    · exact ⟨{ s with spos := s.spos + bs.length, srcFail := rest },
        by rw [hdrrBody, getBytes_fails Config.hdrTotalBytes h htotalIn, bind_raised], rfl⟩
    · obtain ⟨etotal, hds⟩ := getBytes_beforeFail (n := Config.hdrTotalBytes) h (length_totalBytes _)
      have hcount : failsAfter ds rest
          { s with total := w.total, spos := s.spos + Config.hdrTotalBytes,
                   srcFail := s.srcFail.drop Config.hdrTotalBytes } := hds
      have hin : ds.length < Config.hdrShortBytes := by
        rw [List.length_append, List.length_append, length_totalBytes, length_shortBytes] at hcountIn
        exact Nat.lt_of_add_lt_add_left hcountIn
      refine ⟨_, by rw [hdrrBody, etotal, bind_ok, if_neg (beNat_totalBytes_ne_zero htotal), ofNat_beNat_totalBytes,
        getBytes_fails _ hcount hin, bind_raised], ?_⟩
      simp [Config.hdrTotalBytes, Nat.add_assoc]
  · have hten : (totalBytes w.total ++ shortBytes (codedSyms w).length).length = 10 := by simp
    obtain ⟨_, htail⟩ := h.bytes
    obtain ⟨v, e, hv⟩ := readRecords_fails (rest := rest) (headerRecords w) (prev := -1)
      (s := { s with total := w.total, spos := s.spos + 10, srcFail := s.srcFail.drop 10 })
      (h.advance rfl (by rw [hten]) (by rw [hten])) hcs (by simpa using hlt) (fun r _ => by omega) (headerRecords_good hpad)
    refine ⟨v, by rw [hdrrBody_headerFields htotal hcoded (hten ▸ h.passes) htail, e, bind_raised], ?_⟩
    rw [hv, List.length_append, hten]
    simp [Nat.add_assoc]

end

/-! ### The end of the source inside a header (R233) -/

/-- `get()` at the end of the source. -/
theorem getByte_of_eos {s : State} (h : (srcRead s).1 = .eos) : getByte s = .raised .hdrEos (srcRead s).2 := by
  rw [getByte, show srcRead s = (.eos, (srcRead s).2) from Prod.ext h rfl]

/-- `get()` at a failed access. -/
theorem getByte_of_fail {s : State} (h : (srcRead s).1 = .fail) : getByte s = .raised .srcRead (srcRead s).2 := by
  rw [getByte, show srcRead s = (.fail, (srcRead s).2) from Prod.ext h rfl]

/-- A failed first read is the answer of `HDRR`. -/
theorem hdrrBody_raised {s t : State} {c : SubCode} (h : getByte s = .raised c t) : hdrrBody s = .raised c t := by
  have hfirst : getBytes Config.hdrTotalBytes s = .raised c t := by rw [Config.hdrTotalBytes, getBytes, h, bind_raised]
  rw [hdrrBody, hfirst, bind_raised]

/-- Settles O42: `get()` raises a different sub-code at each of the two ends, and `HDRR` answers with it at its first read
and, for a failed read, at every later read of a header. -/
theorem headerEndIsNotReadFailure : Obligations.HeaderEndIsNotReadFailure := by
  unfold Obligations.HeaderEndIsNotReadFailure
  refine ⟨fun s => ⟨?eos, ?fail⟩, rfl, rfl, ?empty, ?first, ?inside⟩
  case eos => exact getByte_of_eos
  case fail => exact getByte_of_fail
  case empty =>
    intro s hidle hsrc hpass
    rw [exec_hdrr_idle hidle, hdrrBody_raised (getByte_eos hpass (by simp [hsrc])), finish_raised]
  case first =>
    intro s rest hidle hfail
    rw [exec_hdrr_idle hidle, hdrrBody_raised (getByte_fails ⟨hfail, List.nil_prefix⟩), finish_raised, raiseFault_eq]
    rfl
  case inside =>
    intro w s k rest htotal hpad hcoded hk hidle hfail hsrc
    have hlen : ((headerBytes w).take k).length = k := List.length_take_of_le (Nat.le_of_lt hk)
    obtain ⟨u, e, hu⟩ := hdrrBody_fails htotal hpad hcoded (bs := (headerBytes w).take k) (rest := rest) (s := s)
      ⟨by rw [hlen]; exact hfail, hsrc⟩ (List.take_prefix k _) (by rwa [hlen])
    refine ⟨u, ?_, by rwa [hlen] at hu⟩
    rw [exec_hdrr_idle hidle, e, finish_raised, raiseFault_eq]
    rfl

end Sys2Proof.Machine

/-! PROOFS. The decoder's walk: `DRUN` as repeated `DSTEP`, and a body that ends early (46_decoder.md R241, R243). -/

namespace Sys2Proof.Machine

/-! ### The commands in their legal phase -/

/-- In phase `DEC` `DSTEP` answers as its body does (46_decoder.md R240). -/
theorem exec_dstep_dec {s : State} (h : s.phase = .dec) : exec .dstep s = finish (dstepBody s) :=
  inPhase_legal h (by decide)

/-- In phase `DEC` `DRUN` answers as its loop does (46_decoder.md R243). -/
theorem exec_drun_dec {s : State} (h : s.phase = .dec) : exec .drun s = finish (runLoop (runBound s) s) :=
  inPhase_legal h (by decide)

/-! ### `DRUN` by its first walk step (R243) -/

/-- The loop stops where the phase is no longer `DEC`. -/
theorem runLoop_left {s : State} (h : s.phase ≠ .dec) (n : Nat) : runLoop n s = .ok 0#64 s := by
  cases n <;> simp [runLoop, h]

/-- A walk step that raises is the answer of `DRUN`. -/
theorem exec_drun_raised {s t : State} {c : SubCode} (hdec : s.phase = .dec) (h : dstepBody s = .raised c t) :
    exec .drun s = .next (raiseFault c t) := by
  rw [exec_drun_dec hdec, runBound, runLoop_raised hdec h, finish_raised]

/-- The responses are no part of the walk. -/
theorem Walked.responses_eq {s t : State} (h : Walked s t) : t.responses = s.responses := by
  obtain ⟨_, _, _, _, _, _, _, _, _, _, _, _, _, _, rfl⟩ := h
  rfl

/-- A walk step that succeeds answers 0, keeps the responses and uses up one of the iterations that R244 counts. -/
theorem dstepBody_ok {s t : State} {v : Word} (h : dstepBody s = .ok v t) :
    v = 0#64 ∧ t.responses = s.responses ∧ runBound s = runBound t + 1 := by
  rcases dstepBody_frame s with ⟨t', hw, e, _, hbits⟩ | ⟨_, _, _, e, _⟩ | ⟨_, e⟩
  · obtain ⟨rfl, rfl⟩ : 0#64 = v ∧ t' = t := by simpa [e] using h
    exact ⟨rfl, hw.responses_eq, by unfold runBound; omega⟩
  · simp [e] at h
  · simp [e] at h

/-- After a walk step that succeeds `DRUN` goes on from where the step left the machine. -/
theorem exec_drun_ok {s t : State} {v : Word} (hdec : s.phase = .dec) (h : dstepBody s = .ok v t) :
    exec .drun s = finish (runLoop (runBound t) t) := by
  obtain ⟨_, _, hbound⟩ := dstepBody_ok h
  rw [exec_drun_dec hdec, hbound, runLoop, if_pos hdec, h, bind_ok]

/-- Without its own response, the state a command answers in is the one its body ended in. -/
theorem respond_restore (ok : Bool) (v : Word) (s : State) : { respond ok v s with responses := s.responses } = s := rfl

/-- `DRUN` that answers ends in `DONE` with `ok = 1` or in `ERR` with `ok = 0` (R243). -/
theorem exec_drun_ends {s t : State} (hdec : s.phase = .dec) (h : exec .drun s = .next t) :
    (t.phase = .done ∧ answeredOk s t 0#64) ∨ (t.phase = .err ∧ answeredFail s t) := by
  rw [exec_drun_dec hdec] at h
  rcases runLoop_frame (runBound s) s (Nat.lt_succ_self _) (.inl hdec) with
    ⟨u, hw, e, hdone⟩ | ⟨c, u, hw, e, _⟩ | e
  · obtain rfl : respond true 0#64 u = t := by simpa [e] using h
    exact .inl ⟨hdone, by simp [answeredOk, hw.responses_eq]⟩
  · obtain rfl : raiseFault c u = t := by simpa [e] using h
    exact .inr ⟨raiseFault_phase c u, by simp [answeredFail, hw.responses_eq]⟩
  · simp [e] at h

/-- Settles O51, by what the first walk step gave: it succeeded and `DRUN` goes on from its state, or it raised. -/
theorem drunIsDstepsUntilTheEnd : Obligations.DrunIsDstepsUntilTheEnd := by
  unfold Obligations.DrunIsDstepsUntilTheEnd
  intro s u hdec hstep
  rw [exec_dstep_dec hdec] at hstep
  rcases finish_eq_next.mp hstep with ⟨v, t, e, rfl⟩ | ⟨c, t, e, rfl⟩
  · obtain ⟨rfl, hresp, _⟩ := dstepBody_ok e
    refine ⟨fun hin => ?_, fun hout => ?_, fun t => exec_drun_ends hdec⟩
    · have hin' : t.phase = .dec := hin
      rw [← hresp, respond_restore, exec_drun_ok hdec e, exec_drun_dec hin']
    · have hout' : t.phase ≠ .dec := hout
      rw [exec_drun_ok hdec e, runLoop_left hout', finish_ok]
  · exact ⟨fun hin => by simp at hin, fun _ => exec_drun_raised hdec e, fun t => exec_drun_ends hdec⟩

/-! ### A body that ends early (R241) -/

/-- Settles O49: with no bit left the bit reader meets the end of the source, so the walk step raises, alone and as the
first step of `DRUN`. -/
theorem bodyEndingEarlyFaults : Obligations.BodyEndingEarlyFaults := by
  unfold Obligations.BodyEndingEarlyFaults
  intro s hdec hpass hnone
  have hraise : dstepBody s = .raised .bodyEos { s with srcFail := s.srcFail.drop 1 } :=
    dstepBody_eos (readBit_eos hpass hnone)
  exact ⟨by rw [exec_dstep_dec hdec, hraise, finish_raised], exec_drun_raised hdec hraise, rfl⟩

end Sys2Proof.Machine

/-! PROOFS. The phase table: what a command's body may raise and which phases it may end in, and every command's answer by its
cell (47_flows.md R260, 60_exceptions.md R293). -/

namespace Sys2Proof.Machine

/-! ### Bodies: where they end, and that only the check order raises `BAD_PHASE` -/

/-- A piece of pseudocode that returns in a state with `P`, and whose raise, if it ends at one, is not `BAD_PHASE`. -/
def Res.endsIn {α : Type} (P : State → Prop) : Res α → Prop
  | .ok _ t => P t
  | .raised c _ => c ≠ .badPhase
  | .stuck _ => True

section
variable {α β : Type} {P Q : State → Prop}

@[simp] theorem endsIn_ok (v : α) (t : State) : (Res.ok v t).endsIn P ↔ P t := Iff.rfl

@[simp] theorem endsIn_raised (c : SubCode) (t : State) : (Res.raised c t : Res α).endsIn P ↔ c ≠ .badPhase := Iff.rfl

@[simp] theorem endsIn_stuck (r : Fault) : (Res.stuck r : Res α).endsIn P := trivial

theorem endsIn_bind {x : Res α} {f : α → State → Res β} (hx : x.endsIn P) (hf : ∀ v t, P t → (f v t).endsIn Q) :
    (x.bind f).endsIn Q := by
  cases x with
  | ok v t => exact hf v t hx
  | raised c t => exact hx
  | stuck r => trivial

end

/-! #### `FINC`, `BUILD`, `GEN`, `HDRW`, `ENC`, `CLOSE` -/

theorem fincBody_endsIn (y : Sym) (s : State) : (fincBody y s).endsIn (·.phase = s.phase) := by
  by_cases h : freqOf s y = BitVec.allOnes 64
  · rw [fincBody_full h, endsIn_raised]
    decide
  · rw [fincBody, if_neg h]
    rfl

theorem buildBody_endsIn (s : State) : (buildBody s).endsIn (·.phase = .tree) := by
  rcases buildBody_cases s with ⟨_, e⟩ | ⟨_, _, e⟩ | ⟨_, _, ⟨_, _, _, e⟩ | e⟩ <;> simp [e]

theorem genBody_endsIn (s : State) : (genBody s).endsIn (·.phase = .codes) := by
  rcases genBody_cases s with ⟨_, e⟩ | ⟨_, _, ⟨_, _, _, e⟩ | e⟩ <;> simp [e]

theorem hdrwBody_endsIn (s : State) : (hdrwBody s).endsIn (·.phase = .enc) := by
  rcases hdrwBody_cases s with ⟨_, e⟩ | ⟨_, _, _, e⟩ <;> simp [e]

theorem encBody_endsIn (y : Sym) (s : State) : (encBody y s).endsIn (·.phase = s.phase) := by
  rcases encBody_cases y s with ⟨_, e⟩ | ⟨_, _, e⟩ | ⟨_, _, _, _, _, _, e | e⟩ <;> simp [e]

theorem closeCmdBody_endsIn (s : State) : (closeCmdBody s).endsIn (·.phase = .done) := by
  rcases closeCmdBody_cases s with ⟨_, e⟩ | ⟨_, _, _, _, _, e, _⟩ | ⟨_, _, e⟩ <;> simp [e]

/-! #### `HDRR`, whose phase is set by its last assignment whatever the header's reads did -/

theorem getByte_endsIn (s : State) : (getByte s).endsIn fun _ => True := by
  rcases getByte_cases s with ⟨e, _⟩ | ⟨e, _, _⟩ | ⟨_, _, e⟩ <;> simp [e]

theorem getBytes_endsIn (n : Nat) (s : State) : (getBytes n s).endsIn fun _ => True := by
  rcases getBytes_frame n s with ⟨_, _, _, _, e⟩ | ⟨_, _, _, _, rfl | rfl, _, e⟩ <;> simp [e]

theorem readRecord_endsIn (prev : Int) (s : State) : (readRecord prev s).endsIn fun _ => True := by
  refine endsIn_bind (getByte_endsIn s) fun y s1 _ => ?_
  split
  · simp
  refine endsIn_bind (getBytes_endsIn _ s1) fun lb s2 _ => ?_
  split
  · simp
  refine endsIn_bind (getBytes_endsIn _ s2) fun cb s3 _ => ?_
  split <;> simp

theorem readRecords_endsIn (n : Nat) : ∀ (prev : Int) (s : State), (readRecords n prev s).endsIn fun _ => True := by
  induction n with
  | zero => exact fun _ _ => trivial
  | succ n ih => exact fun prev s => endsIn_bind (readRecord_endsIn prev s) fun p s1 _ => ih p s1

theorem hdrrBody_endsIn (s : State) : (hdrrBody s).endsIn (·.phase = .hdr) := by
  refine endsIn_bind (getBytes_endsIn _ s) fun tb s1 _ => ?_
  split
  · simp
  refine endsIn_bind (getBytes_endsIn _ _) fun nb s2 _ => ?_
  split
  · simp
  exact endsIn_bind (readRecords_endsIn _ _ s2) fun _ _ _ => rfl

/-! #### `RECON`, `DSTEP`, `DRUN` -/

theorem reconBody_endsIn (s : State) : (reconBody s).endsIn (·.phase = .dec) := by
  obtain ⟨_, _, e | e | e⟩ := reconBody_cases s <;> simp [e]

/-- The phases of a decoding run from `RECON` on. -/
def decOrDone (s : State) : Prop := s.phase ∈ [Phase.dec, .done]

theorem emitLeaf_endsIn (y : Sym) {s : State} (h : decOrDone s) : (emitLeaf y s).endsIn decOrDone := by
  rcases emitLeaf_cases y s with ⟨e, _⟩ | ⟨_, _, e⟩ | ⟨_, _, e⟩ <;> rw [e]
  · simp
  · exact h
  · simp [decOrDone]

theorem descend_endsIn (i : NodeIdx) (b : Bool) {s : State} (h : decOrDone s) : (descend i b s).endsIn decOrDone := by
  rcases descend_cases i b s with ⟨_, e⟩ | ⟨j, _, ⟨_, e⟩ | ⟨_, e⟩⟩ <;> rw [e]
  · simp
  · exact h
  · exact emitLeaf_endsIn _ (s := { s with cur := some j }) h

theorem readBit_endsIn {s : State} (h : decOrDone s) : (readBit s).endsIn decOrDone := by
  rcases readBit_frame s with ⟨_, e⟩ | ⟨_, e, _⟩ | ⟨_, _, _, _, _, e, _⟩ <;> rw [e]
  · simp
  · exact h
  · exact h

theorem dstepBody_endsIn {s : State} (h : decOrDone s) : (dstepBody s).endsIn decOrDone := by
  refine endsIn_bind (readBit_endsIn h) fun r s1 h1 => ?_
  cases r with
  | none => simp
  | some b =>
    cases hc : s1.cur with
    | none => simp
    | some i => exact descend_endsIn i b h1

theorem runLoop_endsIn (n : Nat) : ∀ {s : State}, decOrDone s → (runLoop n s).endsIn decOrDone := by
  induction n with
  | zero => intro s h; rw [runLoop]; split <;> simp [h]
  | succ n ih =>
    intro s h
    rw [runLoop]
    split
    · exact endsIn_bind (dstepBody_endsIn h) fun _ _ h1 => ih h1
    · exact h

/-! ### Every command's answer, by its cell -/

/-- The answers R260 allows to command `i` in state `s`, by the cell of the phase table. The last is the ill-formed term of
log 10, which no command word stands for. -/
inductive CellAnswer (i : Instr) (s : State) : Cell → Out → Prop
  | ignored (he : s.phase = .err) : CellAnswer i s .ignored (.next (ignore s))
  | blank : CellAnswer i s .blank (.next (raiseFault .badPhase s))
  | succeeds {ps : List Phase} (v : Word) {u : State} (h : u.phase ∈ ps) :
      CellAnswer i s (.to ps) (.next (respond true v u))
  | raises {ps : List Phase} {c : SubCode} (u : State) (h : c ≠ .badPhase) :
      CellAnswer i s (.to ps) (.next (raiseFault c u))
  | stops {ps : List Phase} (r : Fault) : CellAnswer i s (.to ps) (.fault r)
  | illFormed {ps : List Phase} (hi : i.wellFormed = false) (he : s.phase = .err) :
      CellAnswer i s (.to ps) (.next (ignore s))

section
variable {i : Instr} {s : State} {cell : Cell} {ps : List Phase}

/-- A command with one legal phase, by what its body does there. -/
theorem inPhase_cellAnswer {p : Phase} {body : State → Res Word} (hp : p ≠ .err)
    (hbody : s.phase = p → (body s).endsIn (·.phase ∈ ps)) :
    CellAnswer i s (cellOnly p ps s.phase) (inPhase p body s) := by
  rcases inPhase_cases hp body s with ⟨he, e⟩ | ⟨hs, e⟩ | ⟨he, hs, e⟩ <;> rw [e]
  · simpa [cellOnly, he] using .ignored he
  · have hcell : cellOnly p ps s.phase = .to ps := by simp [cellOnly, hs, hp]
    rw [hcell]
    have hends := hbody hs
    cases hr : body s with
    | ok v u => exact .succeeds v (by simpa [hr] using hends)
    | raised c u => exact .raises u (by simpa [hr] using hends)
    | stuck r => exact .stops r
  · simpa [cellOnly, he, hs] using .blank

/-- A read of an item that exists answers in the phase it came in. -/
theorem readSome_cellAnswer (w : Word) : CellAnswer i s (.to [s.phase]) (readItem (some w) s) :=
  .succeeds w (List.mem_singleton_self s.phase)

/-- A read whose item can be missing only for an ill-formed term, which acts as an illegal word (log 10). -/
theorem readItem_cellAnswer {v : Option Word} (hv : v = none → i.wellFormed = false) :
    CellAnswer i s (.to [s.phase]) (readItem v s) := by
  cases v with
  | some w => exact readSome_cellAnswer w
  | none =>
    rcases illegalWord_cases s with ⟨he, e⟩ | ⟨_, e⟩ <;> rw [readItem, e]
    · exact .illFormed (hv rfl) he
    · exact .raises s (by decide)

end

/-- Register numbers with no register are those of case I4 (30_encoding.md R98). -/
theorem legalReg_of_regValue_none {s : State} {r : BitVec 9} (h : regValue s r = none) : legalReg r = false := by
  by_contra hlegal
  have hlt : r.toNat < 5 := by simpa [legalReg, Config.regCount] using hlegal
  interval_cases hr : r.toNat <;> simp [regValue, hr] at h

/-- The node index with no node is that of case I8 (30_encoding.md R98). -/
theorem legalNode_of_nodeOperand_none {s : State} {idx : BitVec 9} {f : Node → Word}
    (h : (nodeOperand s idx).map f = none) : legalNode idx = false := by
  simpa [nodeOperand, legalNode] using h

/-- Everything a command can answer (47_flows.md R260). -/
theorem exec_cellAnswer (i : Instr) (s : State) : CellAnswer i s (phaseCell i s.phase) (exec i s) := by
  cases i with
  | nop => exact readSome_cellAnswer 0#64
  | rst => exact .succeeds 0#64 (by simp [State.reset])
  | finc y => exact inPhase_cellAnswer nofun fun h => by simpa [h] using fincBody_endsIn y s
  | fset y n =>
    exact inPhase_cellAnswer (body := fun s => .ok 0#64 (setFreq y n s)) nofun fun h => by simp [h]
  | build => exact inPhase_cellAnswer nofun fun _ => by simpa using buildBody_endsIn s
  | gen => exact inPhase_cellAnswer nofun fun _ => by simpa using genBody_endsIn s
  | hdrw => exact inPhase_cellAnswer nofun fun _ => by simpa using hdrwBody_endsIn s
  | enc y => exact inPhase_cellAnswer nofun fun h => by simpa [h] using encBody_endsIn y s
  | close => exact inPhase_cellAnswer nofun fun _ => by simpa using closeCmdBody_endsIn s
  | hdrr => exact inPhase_cellAnswer nofun fun _ => by simpa using hdrrBody_endsIn s
  | recon => exact inPhase_cellAnswer nofun fun _ => by simpa using reconBody_endsIn s
  | dstep => exact inPhase_cellAnswer nofun fun h => dstepBody_endsIn (by simp [decOrDone, h])
  | drun => exact inPhase_cellAnswer nofun fun h => runLoop_endsIn _ (by simp [decOrDone, h])
  | rdreg r => exact readItem_cellAnswer legalReg_of_regValue_none
  | rdtabF y => exact readSome_cellAnswer _
  | rdtabL y => exact readSome_cellAnswer _
  | rdtabB0 y => exact readSome_cellAnswer _
  | rdtabB1 y => exact readSome_cellAnswer _
  | rdtabB2 y => exact readSome_cellAnswer _
  | rdtabB3 y => exact readSome_cellAnswer _
  | rdnodeL idx => exact readItem_cellAnswer legalNode_of_nodeOperand_none
  | rdnodeF idx => exact readItem_cellAnswer legalNode_of_nodeOperand_none

/-! ### The clauses of the phase table, from the answers -/

/-- A fault entry answers `ok = 0`, a success `ok = 1`. -/
theorem respond_true_ne_raiseFault (v : Word) (c : SubCode) (s u : State) : respond true v s ≠ raiseFault c u := fun h => by
  simpa using congrArg (·.responses.getLast?) h

/-- Fault entries with different sub-codes differ in `ERRINFO` (60_exceptions.md R291). -/
theorem raiseFault_ne_badPhase {c : SubCode} (hc : c ≠ .badPhase) (s u : State) :
    raiseFault c s ≠ raiseFault .badPhase u := fun h =>
  subCodeBits_ne_badPhase hc (by simpa using congrArg State.errInfo h)

theorem not_answeredFail_respond_true (v : Word) (s u : State) : ¬ answeredFail s (respond true v u) := fun h => by
  simpa using congrArg List.getLast? h

theorem not_answeredOk_raiseFault (c : SubCode) (s u : State) (v : Word) : ¬ answeredOk s (raiseFault c u) v := fun h => by
  simpa using congrArg List.getLast? h

theorem not_answeredOk_ignore (s u : State) (v : Word) : ¬ answeredOk s (ignore u) v := fun h => by
  simpa using congrArg List.getLast? h

namespace CellAnswer

variable {i : Instr} {s t : State} {cell : Cell} {o : Out} {ps : List Phase}

theorem eq_of_blank (h : CellAnswer i s .blank o) : o = .next (raiseFault .badPhase s) := by
  cases h; rfl

theorem eq_of_ignored (h : CellAnswer i s .ignored o) : o = .next (ignore s) := by
  cases h; rfl

theorem ne_badPhase (h : CellAnswer i s (.to ps) o) (hlegal : i.wellFormed = true ∨ s.phase ≠ .err) (u : State) :
    o ≠ .next (raiseFault .badPhase u) := by
  intro ho
  cases h with
  | succeeds v _ => exact respond_true_ne_raiseFault v _ _ u (Host.Outcome.next.inj ho)
  | raises w hc => exact raiseFault_ne_badPhase hc w u (Host.Outcome.next.inj ho)
  | stops r => cases ho
  | illFormed hi he => simp [hi, he] at hlegal

theorem phase_mem_of_ok (h : CellAnswer i s (.to ps) (.next t)) {v : Word} (hok : answeredOk s t v) : t.phase ∈ ps := by
  cases h with
  | succeeds w hu => exact hu
  | raises u _ => exact absurd hok (not_answeredOk_raiseFault _ s u v)
  | illFormed _ _ => exact absurd hok (not_answeredOk_ignore s s v)

theorem phase_err_of_fail (h : CellAnswer i s cell (.next t)) (hfail : answeredFail s t) : t.phase = .err := by
  cases h with
  | ignored he => exact he
  | blank => exact raiseFault_phase .badPhase s
  | succeeds v _ => exact absurd hfail (not_answeredFail_respond_true v s _)
  | raises u _ => exact raiseFault_phase _ u
  | illFormed _ he => exact he

end CellAnswer

/-- Settles O8: every clause is read off the one list of answers each command can give in its cell. -/
theorem phaseTable : Obligations.PhaseTable := by
  unfold Obligations.PhaseTable
  intro i s
  have h : CellAnswer i s (phaseCell i s.phase) (exec i s) := exec_cellAnswer i s
  refine ⟨fun hc => ?blank, fun hc => ?ignored, fun ps u hc hlegal => ?legal, fun ps t v hc ht hok => ?success,
    fun t ht hfail => ?failure⟩
  case blank => exact (hc ▸ h).eq_of_blank
  case ignored => exact (hc ▸ h).eq_of_ignored
  case legal => exact (hc ▸ h).ne_badPhase hlegal u
  case success => exact (hc ▸ ht ▸ h).phase_mem_of_ok hok
  case failure => exact (ht ▸ h).phase_err_of_fail hfail

end Sys2Proof.Machine

/-! PROOFS. Exceptions: the fault entry, illegal words, and phase `ERR` with its two exits (60_exceptions.md R290 to R301;
30_encoding.md R93 to R98). -/

namespace Sys2Proof.Machine

/-! ### What the decoder accepts (30_encoding.md R93 to R98) -/

theorem decodeN_eq_ok {w : CmdWord} {i j : Instr} : decodeN w i = .ok j ↔ w.extractLsb' 0 12 = 0#12 ∧ i = j := by
  unfold decodeN; split <;> simp [*]

theorem decodeS_eq_ok {w : CmdWord} {i j : Instr} : decodeS w i = .ok j ↔ w.extractLsb' 8 4 = 0#4 ∧ i = j := by
  unfold decodeS; split <;> simp [*]

theorem decodeRdreg_eq_ok {w : CmdWord} {j : Instr} :
    decodeRdreg w = .ok j ↔ fField w = 0#3 ∧ legalReg (aField w) = true ∧ .rdreg (aField w) = j := by
  unfold decodeRdreg; split_ifs <;> simp_all

theorem decodeRdtab_eq_ok {w : CmdWord} {j : Instr} :
    decodeRdtab w = .ok j ↔ rdtabSelect (fField w) (symField w) = some j ∧ (aField w).getLsbD 8 = false := by
  unfold decodeRdtab; split
  · simp [*]
  · split_ifs <;> simp_all

theorem decodeRdnode_eq_ok {w : CmdWord} {j : Instr} :
    decodeRdnode w = .ok j ↔ rdnodeSelect (fField w) (aField w) = some j ∧ legalNode (aField w) = true := by
  unfold decodeRdnode; split
  · simp [*]
  · split_ifs <;> simp_all

/-- Every select of `RDTAB` names a read, whose symbol is always legal (R97). -/
theorem rdtabSelect_legalRead {f : BitVec 3} {y : Sym} {i : Instr} (h : rdtabSelect f y = some i) :
    isRead i = true ∧ i.wellFormed = true := by
  unfold rdtabSelect at h
  split at h <;> cases h <;> exact ⟨rfl, rfl⟩

/-- Every select of `RDNODE` names a read, legal when its node index is (R97). -/
theorem rdnodeSelect_legalRead {f : BitVec 3} {a : BitVec 9} {i : Instr} (h : rdnodeSelect f a = some i)
    (ha : legalNode a = true) : isRead i = true ∧ i.wellFormed = true := by
  unfold rdnodeSelect at h
  split at h <;> cases h <;> exact ⟨rfl, ha⟩

/-- The three read opcodes decode to legal reads. -/
theorem legalRead_of_decode {w : CmdWord} {i : Instr}
    (h : decodeRdreg w = .ok i ∨ decodeRdtab w = .ok i ∨ decodeRdnode w = .ok i) :
    isRead i = true ∧ i.wellFormed = true := by
  rcases h with h | h | h
  · obtain ⟨_, ha, rfl⟩ := decodeRdreg_eq_ok.mp h
    exact ⟨rfl, ha⟩
  · exact rdtabSelect_legalRead (decodeRdtab_eq_ok.mp h).1
  · obtain ⟨hi, ha⟩ := decodeRdnode_eq_ok.mp h
    exact rdnodeSelect_legalRead hi ha

theorem ne_rst_of_isRead {i : Instr} (h : isRead i = true) : i ≠ .rst := by
  rintro rfl
  cases h

/-- A command word is its opcode above its low 12 bits (R90). -/
theorem cmd_eq_opField_append (w : CmdWord) : w = opField w ++ w.extractLsb' 0 12 := by
  rw [opField, BitVec.extractLsb'_append_extractLsb'_eq_extractLsb' (by rfl), BitVec.extractLsb'_eq_self]

/-- A legal word is the one word of `RST`, or stands for another well-formed instruction. -/
theorem decode_ok_cases {c : Command} {i : Instr} (h : decode c = .ok i) :
    (i = .rst ∧ c.cmd = 0x1000#16) ∨ (i ≠ .rst ∧ i.wellFormed = true) := by
  simp only [decode] at h
  split at h
  case h_2 hop =>
    obtain ⟨hlow, rfl⟩ := decodeN_eq_ok.mp h
    refine .inl ⟨rfl, ?_⟩
    rw [cmd_eq_opField_append c.cmd, hlow, BitVec.eq_of_toNat_eq (y := 1#4) hop]
    rfl
  case h_14 => exact .inr ((legalRead_of_decode (.inl h)).imp_left ne_rst_of_isRead)
  case h_15 => exact .inr ((legalRead_of_decode (.inr (.inl h))).imp_left ne_rst_of_isRead)
  case h_16 => exact .inr ((legalRead_of_decode (.inr (.inr h))).imp_left ne_rst_of_isRead)
  all_goals
    simp only [decodeN_eq_ok, decodeS_eq_ok] at h
    obtain ⟨_, rfl⟩ := h
    exact .inr ⟨nofun, rfl⟩

/-- A legal word stands for a well-formed instruction (R96). -/
theorem wellFormed_of_decode {c : Command} {i : Instr} (h : decode c = .ok i) : i.wellFormed = true := by
  rcases decode_ok_cases h with ⟨rfl, _⟩ | ⟨_, hi⟩
  · rfl
  · exact hi

/-- `RST` has one command word (R93). -/
theorem cmd_of_decode_rst {c : Command} (h : decode c = .ok .rst) : c.cmd = 0x1000#16 := by
  rcases decode_ok_cases h with ⟨_, hw⟩ | ⟨hne, _⟩
  · exact hw
  · exact absurd rfl hne

/-! ### A command on the port -/

/-- A step whose next act is a legal command runs it (30_encoding.md R91). -/
theorem step_legal {s : State} {c : Command} {i : Instr} {rest : List HostAct} (h : s.host = .command c :: rest)
    (hd : decode c = .ok i) : step s = exec i { s with host := rest } := by
  rw [step_act h]
  simp [runAct, runCommand, hd]

/-- A step whose next act is an illegal command does what an illegal word does (30_encoding.md R99). -/
theorem step_illegal {s : State} {c : Command} {k : Illegal} {rest : List HostAct} (h : s.host = .command c :: rest)
    (hd : decode c = .error k) : step s = .next (illegalWord { s with host := rest }) := by
  rw [step_act h]
  simp [runAct, runCommand, hd]

theorem illegalWord_err {s : State} (h : s.phase = .err) : illegalWord s = ignore s := if_pos h

theorem illegalWord_not_err {s : State} (h : s.phase ≠ .err) : illegalWord s = raiseFault .badCmd s := if_neg h

/-! ### Commands in phase `ERR` (60_exceptions.md R298) -/

/-- A read of an item that exists answers it and changes nothing, in every phase (40_system_and_read.md R136). -/
theorem exec_read {i : Instr} (hread : isRead i = true) (hlegal : i.wellFormed = true) (s : State) :
    ∃ v, exec i s = .next (respond true v s) := by
  have item {v : Option Word} (hv : v = none → i.wellFormed = false) : ∃ w, readItem v s = .next (respond true w s) := by
    cases v with
    | some w => exact ⟨w, rfl⟩
    | none => simp [hv rfl] at hlegal
  cases i with
  | rdreg r => exact item legalReg_of_regValue_none
  | rdtabF y => exact ⟨_, rfl⟩
  | rdtabL y => exact ⟨_, rfl⟩
  | rdtabB0 y => exact ⟨_, rfl⟩
  | rdtabB1 y => exact ⟨_, rfl⟩
  | rdtabB2 y => exact ⟨_, rfl⟩
  | rdtabB3 y => exact ⟨_, rfl⟩
  | rdnodeL idx => exact item legalNode_of_nodeOperand_none
  | rdnodeF idx => exact item legalNode_of_nodeOperand_none
  | _ => cases hread

/-- `NOP` answers and changes nothing (40_system_and_read.md R130). -/
theorem exec_nop (s : State) : exec .nop s = .next (respond true 0#64 s) := rfl

/-- The cells of column `ERR` are `ign` but for `NOP`, `RST` and the reads (47_flows.md R260). -/
theorem phaseCell_err {i : Instr} (hrst : i ≠ .rst) (hnop : i ≠ .nop) (hread : isRead i = false) :
    phaseCell i .err = .ignored := by
  cases i <;> simp [phaseCell, cellOnly, isRead] at hrst hnop hread ⊢

/-- In phase `ERR` a command other than `NOP`, `RST` and the reads is ignored. -/
theorem exec_err_ignored {i : Instr} {s : State} (he : s.phase = .err) (hrst : i ≠ .rst) (hnop : i ≠ .nop)
    (hread : isRead i = false) : exec i s = .next (ignore s) := by
  have hcell : phaseCell i s.phase = .ignored := he ▸ phaseCell_err hrst hnop hread
  exact (hcell ▸ exec_cellAnswer i s).eq_of_ignored

/-- In phase `ERR` a legal command other than `RST` only answers: it succeeds as `NOP` or a read, or is ignored. -/
theorem exec_err_answers {i : Instr} {s : State} (he : s.phase = .err) (hlegal : i.wellFormed = true) (hrst : i ≠ .rst) :
    ∃ ok v, exec i s = .next (respond ok v s) := by
  by_cases hnop : i = .nop
  · exact ⟨true, 0#64, hnop ▸ exec_nop s⟩
  cases hread : isRead i
  · exact ⟨false, 0#64, exec_err_ignored he hrst hnop hread⟩
  · exact ⟨true, exec_read hread hlegal s⟩

/-! ### The statements -/

/-- Settles O6: the step runs `illegalWord`, which looks at the phase. -/
theorem illegalWordRaisesBadCmd : Obligations.IllegalWordRaisesBadCmd := by
  unfold Obligations.IllegalWordRaisesBadCmd
  intro s c k rest hhost hd
  rw [step_illegal hhost hd]
  exact ⟨fun he => congrArg _ (illegalWord_not_err he), fun he => congrArg _ (illegalWord_err he)⟩

/-- Settles O7: the table and the numbers by the list of the sub-codes, the entry sequence by its written-out form. -/
theorem faultEntrySequence : Obligations.FaultEntrySequence := by
  unfold Obligations.FaultEntrySequence
  refine ⟨fun c => ?table, rfl, fun c s => ⟨raiseFault_eq c s, ?nibble⟩⟩
  case table => cases c <;> decide
  case nibble => cases c <;> rfl

/-- Settles O9: each kind of command by its own rule; what is left is ignored, as an illegal word or by its cell. -/
theorem errPhaseIgnoresAllButReadsAndReset : Obligations.ErrPhaseIgnoresAllButReadsAndReset := by
  unfold Obligations.ErrPhaseIgnoresAllButReadsAndReset
  intro s c rest he hhost
  refine ⟨fun hd => ?rst, fun i hd hi => ?reads, fun hother => ?others⟩
  case rst =>
    rw [step_legal hhost hd, exec_rst]
    exact ⟨_, rfl, rfl, by simp [answeredOk]⟩
  case reads =>
    rw [step_legal hhost hd]
    rcases hi with rfl | hread
    · exact ⟨0#64, exec_nop _⟩
    · exact exec_read hread (wellFormed_of_decode hd) _
  case others =>
    cases hd : decode c with
    | ok i =>
      obtain ⟨hrst, hnop, hread⟩ := hother i hd
      rw [step_legal hhost hd]
      exact exec_err_ignored he hrst hnop hread
    | error k =>
      rw [step_illegal hhost hd]
      exact congrArg _ (illegalWord_err he)

/-- Settles O10: every other act of the host that has a move keeps phase `ERR`, and both resets end in `resetCore`. -/
theorem onlyResetLeavesErr : Obligations.OnlyResetLeavesErr := by
  unfold Obligations.OnlyResetLeavesErr
  intro s t a rest he hhost hstep hleft
  rcases step_eq_next hstep with ⟨hnone, _⟩ | ⟨c, i, rest', hc, hd, hexec⟩ | ⟨c, k, rest', _, _, rfl⟩ |
    ⟨rest', hh, rfl⟩ | ⟨_, _, _, _, _, rfl⟩ | ⟨_, _, _, _, rfl⟩
  · simp [hhost] at hnone
  · obtain ⟨rfl, rfl⟩ := List.cons.inj (hhost.symm.trans hc)
    by_cases hrst : i = .rst
    · subst hrst
      rw [exec_rst] at hexec
      cases hexec
      exact ⟨.inr ⟨c.wdata, by rw [← cmd_of_decode_rst hd]⟩, coreIsReset_respond (coreIsReset_resetCore _) ..⟩
    · obtain ⟨ok, v, hans⟩ := exec_err_answers (s := { s with host := rest }) he (wellFormed_of_decode hd) hrst
      cases hexec.symm.trans hans
      exact absurd he hleft
  · rw [illegalWord_err (s := { s with host := rest' }) he] at hleft
    exact absurd he hleft
  · exact ⟨.inl (List.cons.inj (hhost.symm.trans hh)).1, coreIsReset_resetCore _⟩
  · exact absurd he hleft
  · exact absurd he hleft

/-- Settles O14: the values of reset, and the step with no act left. -/
theorem nothingRunsWithoutACommand : Obligations.NothingRunsWithoutACommand := by
  unfold Obligations.NothingRunsWithoutACommand
  exact ⟨rfl, rfl, fun _ => step_idle⟩

end Sys2Proof.Machine

/-! PROOFS. The command words: decoding and encoding are inverse on legal words, and the words outside them are the eight
cases of R98 (30_encoding.md R90 to R101). -/

namespace Sys2Proof.Machine

/-! ### The fields of a word put together (R90) -/

@[simp] theorem opField_wordR (op : BitVec 4) (f : BitVec 3) (a : BitVec 9) : opField (wordR op f a) = op := by
  simp [opField, wordR, extractLsb'_append_high]

@[simp] theorem fField_wordR (op : BitVec 4) (f : BitVec 3) (a : BitVec 9) : fField (wordR op f a) = f := by
  simp [fField, wordR, extractLsb'_append_high, extractLsb'_append_low]

@[simp] theorem aField_wordR (op : BitVec 4) (f : BitVec 3) (a : BitVec 9) : aField (wordR op f a) = a := by
  simp [aField, wordR, extractLsb'_append_low]

@[simp] theorem opField_wordS (op : BitVec 4) (f : BitVec 3) (y : Sym) : opField (wordS op f y) = op := opField_wordR ..

@[simp] theorem fField_wordS (op : BitVec 4) (f : BitVec 3) (y : Sym) : fField (wordS op f y) = f := fField_wordR ..

@[simp] theorem symField_wordS (op : BitVec 4) (f : BitVec 3) (y : Sym) : symField (wordS op f y) = y := by
  simp [symField, wordS, wordR, extractLsb'_append_low]

/-- The bit above a symbol operand is 0 (R95). -/
theorem aField_wordS_high (op : BitVec 4) (f : BitVec 3) (y : Sym) : (aField (wordS op f y)).getLsbD 8 = false := by
  rw [wordS, aField_wordR, BitVec.getLsbD_append]
  rfl

/-! ### A word is its fields -/

/-- A bit vector is the one its value names. -/
theorem eq_ofNat_of_toNat_eq {n k : Nat} {w : BitVec n} (h : w.toNat = k) : w = BitVec.ofNat n k := by
  rw [← h, BitVec.ofNat_toNat, BitVec.setWidth_eq]

/-- A word is its three fields (R90). -/
theorem eq_wordR_fields (w : CmdWord) : w = wordR (opField w) (fField w) (aField w) := by
  rw [wordR, opField, fField, aField, BitVec.extractLsb'_append_extractLsb'_eq_extractLsb' (by rfl),
    BitVec.extractLsb'_append_extractLsb'_eq_extractLsb' (by rfl), BitVec.extractLsb'_eq_self]

/-- A word whose bits below the opcode are 0 is a word of format N (R93). -/
theorem eq_wordN_of_low {w : CmdWord} (h : w.extractLsb' 0 12 = 0#12) : w = wordN (opField w) := by
  have hcat : fField w ++ aField w = w.extractLsb' 0 12 :=
    BitVec.extractLsb'_append_extractLsb'_eq_extractLsb' (by rfl)
  rw [wordN, wordR, BitVec.append_assoc, ← show fField w ++ aField w = 0#3 ++ 0#9 from hcat.trans h]
  conv_lhs => rw [eq_wordR_fields w, wordR, BitVec.append_assoc]

/-- A word whose bit above the symbol operand is 0 is a word with a symbol operand (R95). -/
theorem eq_wordS_of_bit {w : CmdWord} (h : w.getLsbD 8 = false) : w = wordS (opField w) (fField w) (symField w) := by
  have hbit : w.extractLsb' 8 1 = 0#1 := by
    refine BitVec.eq_of_getLsbD_eq fun i hi => ?_
    obtain rfl : i = 0 := by omega
    simpa using h
  have hcat : aField w = 0#1 ++ symField w := by
    rw [← hbit, symField, BitVec.extractLsb'_append_extractLsb'_eq_extractLsb' (by rfl), aField]
  rw [wordS, ← hcat]
  exact eq_wordR_fields w

/-- The bits that format S wants to be 0: those of `f` and the one above the symbol (R94). -/
theorem extractLsb'_formatS (w : CmdWord) : w.extractLsb' 8 4 = fField w ++ (aField w).extractLsb' 8 1 := by
  rw [aField, BitVec.extractLsb'_extractLsb'_of_le (by decide), fField,
    BitVec.extractLsb'_append_extractLsb'_eq_extractLsb' (by rfl)]

/-- A word whose bits between the opcode and the symbol operand are 0 is a word of format S (R94). -/
theorem eq_wordS_of_low {w : CmdWord} (h : w.extractLsb' 8 4 = 0#4) : w = wordS (opField w) 0#3 (symField w) := by
  have hbit : w.getLsbD 8 = false := by simpa using congrArg (BitVec.getLsbD · 0) h
  have hf : fField w = 0#3 := by
    rw [extractLsb'_formatS] at h
    simpa [extractLsb'_append_high] using congrArg (BitVec.extractLsb' 1 3) h
  rw [← hf]
  exact eq_wordS_of_bit hbit

/-! ### Decoding the word of each format (R93 to R97) -/

theorem decodeN_wordN (op : BitVec 4) (i : Instr) : decodeN (wordN op) i = .ok i := by
  have hlow : (wordN op).extractLsb' 0 12 = 0#12 := by
    simp only [wordN, wordR, BitVec.append_assoc]
    exact BitVec.extractLsb'_append_eq_right
  exact decodeN_eq_ok.mpr ⟨hlow, rfl⟩

theorem decodeS_wordS (op : BitVec 4) (y : Sym) (i : Instr) : decodeS (wordS op 0#3 y) i = .ok i := by
  refine decodeS_eq_ok.mpr ⟨?_, rfl⟩
  rw [extractLsb'_formatS, fField_wordS, wordS, aField_wordR, BitVec.extractLsb'_append_eq_left]
  rfl

theorem decodeRdreg_wordR {r : BitVec 9} (op : BitVec 4) (h : legalReg r = true) :
    decodeRdreg (wordR op 0#3 r) = .ok (.rdreg r) := by
  rw [decodeRdreg_eq_ok, fField_wordR, aField_wordR]
  exact ⟨rfl, h, rfl⟩

theorem decodeRdtab_wordS {f : BitVec 3} {y : Sym} {i : Instr} (op : BitVec 4) (h : rdtabSelect f y = some i) :
    decodeRdtab (wordS op f y) = .ok i := by
  rw [decodeRdtab_eq_ok, fField_wordS, symField_wordS]
  exact ⟨h, aField_wordS_high op f y⟩

theorem decodeRdnode_wordR {f : BitVec 3} {a : BitVec 9} {i : Instr} (op : BitVec 4) (h : rdnodeSelect f a = some i)
    (ha : legalNode a = true) : decodeRdnode (wordR op f a) = .ok i := by
  rw [decodeRdnode_eq_ok, fField_wordR, aField_wordR]
  exact ⟨h, ha⟩

/-- Settles O1, format by format: the opcode field selects the format's decoder, which reads the operands back. -/
theorem decodeOfEncodeIsTheInstruction : Obligations.DecodeOfEncodeIsTheInstruction := by
  unfold Obligations.DecodeOfEncodeIsTheInstruction
  intro i hi
  cases i with
  | rdreg r => simpa [decode, encode] using decodeRdreg_wordR _ hi
  | rdnodeL a => simpa [decode, encode] using decodeRdnode_wordR _ rfl hi
  | rdnodeF a => simpa [decode, encode] using decodeRdnode_wordR _ rfl hi
  | finc y => simpa [decode, encode] using decodeS_wordS _ y _
  | fset y n => simpa [decode, encode] using decodeS_wordS _ y _
  | enc y => simpa [decode, encode] using decodeS_wordS _ y _
  | rdtabF y => simpa [decode, encode] using decodeRdtab_wordS _ rfl
  | rdtabL y => simpa [decode, encode] using decodeRdtab_wordS _ rfl
  | rdtabB0 y => simpa [decode, encode] using decodeRdtab_wordS _ rfl
  | rdtabB1 y => simpa [decode, encode] using decodeRdtab_wordS _ rfl
  | rdtabB2 y => simpa [decode, encode] using decodeRdtab_wordS _ rfl
  | rdtabB3 y => simpa [decode, encode] using decodeRdtab_wordS _ rfl
  | _ => exact decodeN_wordN _ _

/-! ### The word of a decoded instruction (R96) -/

theorem encode_of_rdtabSelect {f : BitVec 3} {y : Sym} {i : Instr} (h : rdtabSelect f y = some i) :
    (encode i).cmd = wordS 0xE#4 f y ∧ ∀ z n, i ≠ .fset z n := by
  unfold rdtabSelect at h
  split at h
  case h_7 => cases h
  all_goals
    next hf =>
      cases h
      rw [eq_ofNat_of_toNat_eq hf]
      exact ⟨rfl, nofun⟩

theorem encode_of_rdnodeSelect {f : BitVec 3} {a : BitVec 9} {i : Instr} (h : rdnodeSelect f a = some i) :
    (encode i).cmd = wordR 0xF#4 f a ∧ ∀ z n, i ≠ .fset z n := by
  unfold rdnodeSelect at h
  split at h
  case h_3 => cases h
  all_goals
    next hf =>
      cases h
      rw [eq_ofNat_of_toNat_eq hf]
      exact ⟨rfl, nofun⟩

/-- The opcodes by format (R93 to R95): which decoder the opcode selects, and the word of the instruction it gives. -/
theorem decode_formats (c : Command) :
    (∃ i, decode c = decodeN c.cmd i ∧ (opField c.cmd).toNat ∈ [0x0, 0x1, 0x4, 0x5, 0x6, 0x8, 0x9, 0xA, 0xB, 0xC] ∧
      (encode i).cmd = wordN (opField c.cmd) ∧ ∀ y n, i = .fset y n → n = c.wdata) ∨
    (∃ i, decode c = decodeS c.cmd i ∧ (opField c.cmd).toNat ∈ [0x2, 0x3, 0x7] ∧
      (encode i).cmd = wordS (opField c.cmd) 0#3 (symField c.cmd) ∧ ∀ y n, i = .fset y n → n = c.wdata) ∨
    (decode c = decodeRdreg c.cmd ∧ opField c.cmd = 0xD#4) ∨
    (decode c = decodeRdtab c.cmd ∧ opField c.cmd = 0xE#4) ∨
    (decode c = decodeRdnode c.cmd ∧ opField c.cmd = 0xF#4) := by
  have hlt : (opField c.cmd).toNat < 16 := (opField c.cmd).isLt
  obtain ⟨n, hop⟩ : ∃ n, (opField c.cmd).toNat = n := ⟨_, rfl⟩
  have hw := eq_ofNat_of_toNat_eq hop
  rw [hop] at hlt
  simp only [decode, hw]
  interval_cases n
  · exact .inl ⟨_, rfl, by simp, rfl, nofun⟩
  · exact .inl ⟨_, rfl, by simp, rfl, nofun⟩
  · exact .inr (.inl ⟨_, rfl, by simp, rfl, by simp⟩)
  · exact .inr (.inl ⟨_, rfl, by simp, rfl, by simp⟩)
  · exact .inl ⟨_, rfl, by simp, rfl, nofun⟩
  · exact .inl ⟨_, rfl, by simp, rfl, nofun⟩
  · exact .inl ⟨_, rfl, by simp, rfl, nofun⟩
  · exact .inr (.inl ⟨_, rfl, by simp, rfl, by simp⟩)
  · exact .inl ⟨_, rfl, by simp, rfl, nofun⟩
  · exact .inl ⟨_, rfl, by simp, rfl, nofun⟩
  · exact .inl ⟨_, rfl, by simp, rfl, nofun⟩
  · exact .inl ⟨_, rfl, by simp, rfl, nofun⟩
  · exact .inl ⟨_, rfl, by simp, rfl, nofun⟩
  · exact .inr (.inr (.inl ⟨rfl, rfl⟩))
  · exact .inr (.inr (.inr (.inl ⟨rfl, rfl⟩)))
  · exact .inr (.inr (.inr (.inr ⟨rfl, rfl⟩)))

/-- Settles O2, format by format: the checks a legal word passed leave it no bits but those its instruction encodes to. -/
theorem encodeOfDecodeIsTheWord : Obligations.EncodeOfDecodeIsTheWord := by
  unfold Obligations.EncodeOfDecodeIsTheWord
  intro c i h
  refine ⟨wellFormed_of_decode h, ?_⟩
  rcases decode_formats c with ⟨j, e, _, hw, hdata⟩ | ⟨j, e, _, hw, hdata⟩ | ⟨e, hop⟩ | ⟨e, hop⟩ | ⟨e, hop⟩ <;>
    rw [e] at h
  · obtain ⟨hlow, rfl⟩ := decodeN_eq_ok.mp h
    exact ⟨hw.trans (eq_wordN_of_low hlow).symm, hdata⟩
  · obtain ⟨hlow, rfl⟩ := decodeS_eq_ok.mp h
    exact ⟨hw.trans (eq_wordS_of_low hlow).symm, hdata⟩
  · obtain ⟨hf, _, rfl⟩ := decodeRdreg_eq_ok.mp h
    exact ⟨by rw [eq_wordR_fields c.cmd, hop, hf]; simp [encode], nofun⟩
  · obtain ⟨hi, hbit⟩ := decodeRdtab_eq_ok.mp h
    have hbit' : c.cmd.getLsbD 8 = false := by simpa [aField] using hbit
    obtain ⟨hw, hset⟩ := encode_of_rdtabSelect hi
    exact ⟨by rw [hw, ← hop, ← eq_wordS_of_bit hbit'], fun y n he => absurd he (hset y n)⟩
  · obtain ⟨hi, _⟩ := decodeRdnode_eq_ok.mp h
    obtain ⟨hw, hset⟩ := encode_of_rdnodeSelect hi
    exact ⟨by rw [hw, ← hop, ← eq_wordR_fields], fun y n he => absurd he (hset y n)⟩

/-! ### The words that are rejected (R98) -/

theorem decodeN_eq_error {w : CmdWord} {i : Instr} {k : Illegal} :
    decodeN w i = .error k ↔ k = .i1 ∧ w.extractLsb' 0 12 ≠ 0#12 := by
  unfold decodeN; split <;> simp [*, @eq_comm _ k]

theorem decodeS_eq_error {w : CmdWord} {i : Instr} {k : Illegal} :
    decodeS w i = .error k ↔ k = .i2 ∧ w.extractLsb' 8 4 ≠ 0#4 := by
  unfold decodeS; split <;> simp [*, @eq_comm _ k]

theorem decodeRdreg_eq_error {w : CmdWord} {k : Illegal} :
    decodeRdreg w = .error k ↔
      (k = .i3 ∧ fField w ≠ 0#3) ∨ (k = .i4 ∧ fField w = 0#3 ∧ 4 < (aField w).toNat) := by
  have hreg : legalReg (aField w) = true ↔ ¬ 4 < (aField w).toNat := by simp [legalReg, Config.regCount]; omega
  unfold decodeRdreg
  split_ifs <;> simp_all [@eq_comm _ k]

theorem rdtabSelect_eq_none {f : BitVec 3} {y : Sym} : rdtabSelect f y = none ↔ 6 ≤ f.toNat := by
  have hlt : f.toNat < 8 := f.isLt
  interval_cases h : f.toNat <;> simp [rdtabSelect, h]

theorem decodeRdtab_eq_error {w : CmdWord} {k : Illegal} :
    decodeRdtab w = .error k ↔
      (k = .i5 ∧ 6 ≤ (fField w).toNat) ∨ (k = .i6 ∧ (fField w).toNat < 6 ∧ (aField w).getLsbD 8 = true) := by
  unfold decodeRdtab
  rw [← not_le, ← rdtabSelect_eq_none (y := symField w)]
  split
  · simp [*, @eq_comm _ k]
  · split_ifs <;> simp_all [@eq_comm _ k]

theorem rdnodeSelect_eq_none {f : BitVec 3} {a : BitVec 9} : rdnodeSelect f a = none ↔ 2 ≤ f.toNat := by
  have hlt : f.toNat < 8 := f.isLt
  interval_cases h : f.toNat <;> simp [rdnodeSelect, h]

theorem legalNode_eq_false {a : BitVec 9} : legalNode a = false ↔ a = 511#9 := by
  have hlt := a.isLt
  rw [← BitVec.toNat_inj]
  simp [legalNode, Config.nodeCap]
  omega

theorem decodeRdnode_eq_error {w : CmdWord} {k : Illegal} :
    decodeRdnode w = .error k ↔
      (k = .i7 ∧ 2 ≤ (fField w).toNat) ∨ (k = .i8 ∧ (fField w).toNat < 2 ∧ aField w = 511#9) := by
  unfold decodeRdnode
  rw [← not_le, ← rdnodeSelect_eq_none (a := aField w), ← legalNode_eq_false]
  split
  · simp [*, @eq_comm _ k]
  · split_ifs <;> simp_all [@eq_comm _ k]

/-- The table of illegal words, on the fields the decoder reads (R98). -/
theorem illegalCase_iff (k : Illegal) (w : CmdWord) :
    illegalCase k w ↔
      match k with
      | .i1 => (opField w).toNat ∈ [0x0, 0x1, 0x4, 0x5, 0x6, 0x8, 0x9, 0xA, 0xB, 0xC] ∧ w.extractLsb' 0 12 ≠ 0#12
      | .i2 => (opField w).toNat ∈ [0x2, 0x3, 0x7] ∧ w.extractLsb' 8 4 ≠ 0#4
      | .i3 => opField w = 0xD#4 ∧ fField w ≠ 0#3
      | .i4 => opField w = 0xD#4 ∧ fField w = 0#3 ∧ 4 < (aField w).toNat
      | .i5 => opField w = 0xE#4 ∧ 6 ≤ (fField w).toNat
      | .i6 => opField w = 0xE#4 ∧ (fField w).toNat < 6 ∧ (aField w).getLsbD 8 = true
      | .i7 => opField w = 0xF#4 ∧ 2 ≤ (fField w).toNat
      | .i8 => opField w = 0xF#4 ∧ (fField w).toNat < 2 ∧ aField w = 511#9 := by
  have hbit : (aField w).getLsbD 8 = w.getLsbD 8 := by simp [aField]
  rw [hbit]
  cases k <;> exact Iff.rfl

/-- Settles O3, format by format: each format's decoder rejects exactly in its own rows of the table, and the opcodes tell the
formats apart. -/
theorem illegalWordsAreTheEightCases : Obligations.IllegalWordsAreTheEightCases := by
  unfold Obligations.IllegalWordsAreTheEightCases
  intro c k
  rw [illegalCase_iff]
  rcases decode_formats c with ⟨i, e, hop, _⟩ | ⟨i, e, hop, _⟩ | ⟨e, hop⟩ | ⟨e, hop⟩ | ⟨e, hop⟩ <;> rw [e]
  · have h : opField c.cmd ≠ 0xD#4 ∧ opField c.cmd ≠ 0xE#4 ∧ opField c.cmd ≠ 0xF#4 ∧ (opField c.cmd).toNat ∉ [0x2, 0x3, 0x7] := by
      revert hop; generalize opField c.cmd = op; revert op; decide
    rw [decodeN_eq_error]
    cases k <;> simp [hop, h]
  · have h : opField c.cmd ≠ 0xD#4 ∧ opField c.cmd ≠ 0xE#4 ∧ opField c.cmd ≠ 0xF#4 ∧
        (opField c.cmd).toNat ∉ [0x0, 0x1, 0x4, 0x5, 0x6, 0x8, 0x9, 0xA, 0xB, 0xC] := by
      revert hop; generalize opField c.cmd = op; revert op; decide
    rw [decodeS_eq_error]
    cases k <;> simp [hop, h]
  · rw [decodeRdreg_eq_error, hop]
    cases k <;> simp
  · rw [decodeRdtab_eq_error, hop]
    cases k <;> simp
  · rw [decodeRdnode_eq_error, hop]
    cases k <;> simp

/-- Settles O4: the eight words are constants, which the decoder evaluates. -/
theorem writtenWordsDecode : Obligations.WrittenWordsDecode := by
  unfold Obligations.WrittenWordsDecode
  decide

end Sys2Proof.Machine

/-! PROOFS. `GEN`: the walk stores the path of a leaf of each symbol, so of the codes it makes none begins another
(44_code_table.md R200 to R205). -/

namespace Sys2Proof.Machine

/-! ### The word of a path (R200) -/

/-- Bit `i` of the word, counted from the top, is bit `i - j` of the path put at `j`. -/
theorem getLsbD_packFrom (p : List Bool) : ∀ {j i : Nat}, j + p.length ≤ 256 → i < 256 →
    (packFrom j p).getLsbD (255 - i) = if j ≤ i then p[i - j]?.getD false else false := by
  induction p with
  | nil => intro j i _ _; simp [packFrom]
  | cons b p ih =>
    intro j i hj hi
    rw [List.length_cons] at hj
    rw [packFrom, getLsbD_setBit _ _ _ _ (by omega), ih (by omega) hi]
    rcases lt_trichotomy i j with h | rfl | h
    · rw [if_neg (by omega), if_neg (by omega), if_neg (by omega)]
    · simp
    · rw [if_neg (by omega), if_pos (by omega), if_pos (by omega), show i - j = (i - (j + 1)) + 1 by omega]
      simp

/-- The code in the word of a path of at most 255 bits is the path. -/
theorem codeView_packCode {p : List Bool} (h : p.length ≤ 255) : codeView (packCode p) p.length = p := by
  refine List.ext_getElem (by simp [codeView]) fun i h1 h2 => ?_
  have hbit := getLsbD_packFrom p (j := 0) (i := i) (by omega) (by omega)
  simpa [codeView, packCode, h2] using hbit

/-- The bits of the word below the path are 0. -/
theorem packCode_padded {p : List Bool} (h : p.length ≤ 255) {i : Nat} (hi : i < 256 - p.length) :
    (packCode p).getLsbD i = false := by
  have hbit := getLsbD_packFrom p (j := 0) (i := 255 - i) (by omega) (by omega)
  rw [show 255 - (255 - i) = i by omega] at hbit
  rw [packCode, hbit, if_pos (Nat.zero_le _), List.getElem?_eq_none (by omega)]
  rfl

/-! ### Everything the walk does -/

/-- The entry of `y` holds the code `c`, with zeros below it (10_state.md R27). -/
def holdsCode (t : State) (y : Sym) (c : List Bool) : Prop :=
  (clenOf t y).toNat = c.length ∧ codeOf t y = c ∧ ∀ i, i < 256 - c.length → (cbitsOf t y).getLsbD i = false

/-- The entry of `y` is the same in both states. -/
def sameCode (s t : State) (y : Sym) : Prop := clenOf t y = clenOf s y ∧ cbitsOf t y = cbitsOf s y

/-- For each symbol that has a path `q` with `P`, the CodeTable of `t` has one such path, after `p`; it is that of `s`
elsewhere. -/
def storesPaths (P : List Bool → Sym → Prop) (p : List Bool) (s t : State) : Prop :=
  ∀ y, (sameCode s t y ∧ ∀ q, ¬ P q y) ∨ ∃ q, P q y ∧ holdsCode t y (p ++ q)

/-- The paths to leaves by way of the child `c` of a node, from the child on. -/
def sidePath (s : State) (c : Ptr) (q : List Bool) (y : Sym) : Prop := ∃ k, c = some k ∧ leafPath s k q y

theorem holdsCode_setCode_packCode {p : List Bool} (h : p.length ≤ 255) (y : Sym) (s : State) :
    holdsCode (setCode y p.length (packCode p) s) y p := by
  have hlen : (BitVec.ofNat 8 p.length).toNat = p.length := by rw [BitVec.toNat_ofNat]; omega
  refine ⟨by rw [clenOf_setCode_self, hlen], ?_, fun i hi => ?_⟩
  · rw [codeOf, clenOf_setCode_self, cbitsOf_setCode_self, hlen, codeView_packCode h]
  · rw [cbitsOf_setCode_self]
    exact packCode_padded h hi

theorem holdsCode_of_sameCode {s t : State} {y : Sym} {c : List Bool} (h : sameCode s t y) (hc : holdsCode s y c) :
    holdsCode t y c := by
  obtain ⟨hl, hb⟩ := h
  unfold holdsCode codeOf
  rw [hl, hb]
  exact hc

/-- A path to a leaf from a leaf is empty, and the leaf's own symbol is at its end. -/
theorem leafPath_leaf {s : State} {i : NodeIdx} (ht : (nodeAt s i).tag = .leaf) {q : List Bool} {y : Sym} :
    leafPath s i q y ↔ q = [] ∧ y = (nodeAt s i).sym := by
  constructor
  · rintro ⟨j, hj, _, rfl⟩
    obtain ⟨rfl, rfl⟩ := follow_leaf ht hj
    exact ⟨rfl, rfl⟩
  · rintro ⟨rfl, rfl⟩
    exact ⟨i, rfl, ht, rfl⟩

/-- A path to a leaf from an internal node goes on from the child its first bit selects. -/
theorem leafPath_int {s : State} {i : NodeIdx} (ht : (nodeAt s i).tag = .int) {q : List Bool} {y : Sym} :
    leafPath s i q y ↔ ∃ b q', q = b :: q' ∧ sidePath s (child (nodeAt s i) b) q' y := by
  constructor
  · rintro ⟨j, hj, htj, hy⟩
    cases q with
    | nil =>
      obtain rfl : i = j := by simpa [follow] using hj
      rw [ht] at htj
      cases htj
    | cons b q =>
      obtain ⟨_, k, hk, hkj⟩ := follow_cons.mp hj
      exact ⟨b, q, rfl, k, hk, j, hkj, htj, hy⟩
  · rintro ⟨b, q', rfl, k, hk, j, hj, htj, hy⟩
    exact ⟨j, follow_cons.mpr ⟨ht, k, hk, hj⟩, htj, hy⟩

theorem storesPaths_refl {P : List Bool → Sym → Prop} (h : ∀ q y, ¬ P q y) (p : List Bool) (s : State) :
    storesPaths P p s s := fun y => .inl ⟨⟨rfl, rfl⟩, fun q => h q y⟩

/-- The walk to the left and then to the right stores the paths of both sides, the right one's last. -/
theorem storesPaths_both {P Q R : List Bool → Sym → Prop} {p : List Bool} {s u t : State}
    (hR : ∀ q y, R q y ↔ ∃ b q', q = b :: q' ∧ if b then Q q' y else P q' y)
    (hleft : storesPaths P (p ++ [false]) s u) (hright : storesPaths Q (p ++ [true]) u t) : storesPaths R p s t := by
  intro y
  rcases hright y with ⟨hsame, hnone⟩ | ⟨q, hq, hcode⟩
  · rcases hleft y with ⟨hsame', hnone'⟩ | ⟨q, hq, hcode⟩
    · refine .inl ⟨⟨hsame.1.trans hsame'.1, hsame.2.trans hsame'.2⟩, fun q hq => ?_⟩
      obtain ⟨b, q', rfl, hb⟩ := (hR q y).mp hq
      cases b
      · exact hnone' q' hb
      · exact hnone q' hb
    · exact .inr ⟨false :: q, (hR _ y).mpr ⟨false, q, rfl, hq⟩, by simpa using holdsCode_of_sameCode hsame hcode⟩
  · exact .inr ⟨true :: q, (hR _ y).mpr ⟨true, q, rfl, hq⟩, by simpa using hcode⟩

/-- Everything a walk that ends does: it stores the paths to the leaves below its node. -/
theorem genWalk_stores (d : Nat) : ∀ {i : NodeIdx} {p : List Bool} {s t : State}, p.length + d ≤ 256 →
    genWalk d i p s = .ok () t → t.node = s.node ∧ storesPaths (leafPath s i) p s t := by
  induction d with
  | zero => intro i p s t _ h; cases h
  | succ d ih =>
    intro i p s t hd h
    cases ht : (nodeAt s i).tag with
    | leaf =>
      rw [genWalk_leaf d p ht] at h
      obtain ⟨_, rfl⟩ := Res.ok.inj h
      refine ⟨rfl, fun y => ?_⟩
      by_cases hy : y = (nodeAt s i).sym
      · refine .inr ⟨[], (leafPath_leaf ht).mpr ⟨rfl, hy⟩, ?_⟩
        rw [List.append_nil, hy]
        exact holdsCode_setCode_packCode (by omega) _ s
      · exact .inl ⟨⟨clenOf_setCode_ne hy _ _ _, cbitsOf_setCode_ne hy _ _ _⟩, fun q hq => hy ((leafPath_leaf ht).mp hq).2⟩
    | int =>
      have side {c : Ptr} {b : Bool} {u v : State} (hu : u.node = s.node) (hside : genSide d c (p ++ [b]) u = .ok () v) :
          v.node = u.node ∧ storesPaths (sidePath s c) (p ++ [b]) u v := by
        cases c with
        | none =>
          obtain ⟨_, rfl⟩ := Res.ok.inj hside
          exact ⟨rfl, storesPaths_refl (by simp [sidePath]) _ _⟩
        | some k =>
          obtain ⟨hv, hstore⟩ := ih (by simp; omega) hside
          have hpath (q : List Bool) (y : Sym) : leafPath u k q y ↔ sidePath s (some k) q y := by
            simp [sidePath, leafPath_congr hu]
          exact ⟨hv, by simpa only [storesPaths, hpath] using hstore⟩
      rw [genWalk_int d p (by simp [ht])] at h
      obtain ⟨_, u, hl, hr⟩ := bind_eq_ok.mp h
      obtain ⟨hu, hleft⟩ := side rfl hl
      obtain ⟨hv, hright⟩ := side hu hr
      refine ⟨hv.trans hu, storesPaths_both (fun q y => ?_) hleft hright⟩
      simp [leafPath_int ht, child, apply_ite]

/-- The walk ends, having written the CodeTable only, where no path below its node is longer than the levels it may enter
(R204). -/
theorem genWalk_ends (d : Nat) : ∀ {i : NodeIdx} (p : List Bool) {s : State},
    (∀ q j, follow s i q = some j → q.length < d) → ∃ a b, genWalk d i p s = .ok () { s with clen := a, cbits := b } := by
  induction d with
  | zero => intro i p s h; exact absurd (h [] i rfl) (Nat.not_lt_zero _)
  | succ d ih =>
    intro i p s h
    cases ht : (nodeAt s i).tag with
    | leaf => exact ⟨_, _, genWalk_leaf d p ht⟩
    | int =>
      have side (b : Bool) {u : State} (hu : u.node = s.node) :
          ∃ x y, genSide d (child (nodeAt s i) b) (p ++ [b]) u = .ok () { u with clen := x, cbits := y } := by
        rcases hc : child (nodeAt s i) b with _ | k
        · exact ⟨u.clen, u.cbits, rfl⟩
        · refine ih _ fun q j hq => ?_
          rw [follow_congr hu] at hq
          exact Nat.lt_of_succ_lt_succ (h (b :: q) j (follow_cons.mpr ⟨ht, k, hc, hq⟩))
      obtain ⟨x, y, hleft⟩ := side false rfl
      obtain ⟨x', y', hright⟩ := side true (u := { s with clen := x, cbits := y }) rfl
      exact ⟨x', y', by rw [genWalk_int d p (by simp [ht])]; exact bind_eq_ok.mpr ⟨(), _, hleft, hright⟩⟩

/-! ### The command -/

/-- In phase `TREE` `GEN` answers as its body does (R200). -/
theorem exec_gen_tree {s : State} (h : s.phase = .tree) : exec .gen s = finish (genBody s) :=
  inPhase_legal h (by decide)

/-- A `GEN` that completes has stored the paths from the root and changed the CodeTable and the phase only. -/
theorem genBody_ok {s t : State} {v : Word} {r : NodeIdx} (hr : s.root = some r) (h : genBody s = .ok v t) :
    v = 0#64 ∧ t = { s with clen := t.clen, cbits := t.cbits, phase := .codes } ∧ storesPaths (leafPath s r) [] s t := by
  rcases genBody_cases s with ⟨hnil, _⟩ | ⟨r', hr', ⟨a, b, hwalk, e⟩ | e⟩
  · simp [hr] at hnil
  · obtain rfl := Option.some.inj (hr.symm.trans hr')
    obtain ⟨rfl, rfl⟩ := Res.ok.inj (h.symm.trans e)
    exact ⟨rfl, rfl, (genWalk_stores _ (by simp) hwalk).2⟩
  · simp [e] at h

/-- `GEN` completes on a tree whose paths are at most 255 bits long (R204). -/
theorem genBody_completes {s : State} {r : NodeIdx} (hr : s.root = some r)
    (h : ∀ p j, follow s r p = some j → p.length ≤ Config.codeMax) : ∃ t, genBody s = .ok 0#64 t := by
  obtain ⟨a, b, hwalk⟩ := genWalk_ends (Config.codeMax + 1) [] fun p j hp => Nat.lt_succ_of_le (h p j hp)
  exact ⟨{ s with clen := a, cbits := b, phase := .codes }, by simp only [genBody, hr, hwalk, bind_ok]⟩

/-- A `GEN` that ends in phase `CODES` completed. -/
theorem genBody_of_exec {s t : State} (hs : s.phase = .tree) (h : exec .gen s = .next t) (ht : t.phase = .codes) :
    ∃ u r, s.root = some r ∧ genBody s = .ok 0#64 u ∧ t = respond true 0#64 u := by
  rw [exec_gen_tree hs] at h
  rcases finish_eq_next.mp h with ⟨v, u, e, rfl⟩ | ⟨c, u, _, rfl⟩
  · rcases hr : s.root with _ | r
    · simp [genBody, hr] at e
    · obtain ⟨rfl, _⟩ := genBody_ok hr e
      exact ⟨u, r, rfl, e, rfl⟩
  · simp at ht

/-- Settles O30: the walk stores a path to a leaf of each symbol that has one, and each symbol has one path only. -/
theorem genWritesThePathsAsCodes : Obligations.GenWritesThePathsAsCodes := by
  unfold Obligations.GenWritesThePathsAsCodes
  intro s r htree hr hfit hone
  obtain ⟨u, e⟩ := genBody_completes hr hfit
  obtain ⟨_, hu, hstore⟩ := genBody_ok hr e
  refine ⟨respond true 0#64 u, by rw [exec_gen_tree htree, e, finish_ok], ?_, fun p y hp => ?_, fun y hnone => ?_⟩
  · rw [hu]; rfl
  · rcases hstore y with ⟨_, hno⟩ | ⟨q, hq, hcode⟩
    · exact absurd hp (hno p)
    · rw [hone p q y hp hq]
      exact hcode
  · rcases hstore y with ⟨hsame, _⟩ | ⟨q, hq, _⟩
    · exact hsame
    · exact absurd hq (hnone q)

/-- Where no entry had a code before, of the codes of a `GEN` that completes none begins another: two codes are paths to two leaves
(10_state.md R28). -/
theorem prefixFree_of_storesPaths {s t : State} {r : NodeIdx} (hempty : ∀ y, clenOf s y = 0#8)
    (h : storesPaths (leafPath s r) [] s t) : prefixFree t := by
  have path {y : Sym} (hy : clenOf t y ≠ 0#8) : leafPath s r (codeOf t y) y := by
    rcases h y with ⟨hsame, _⟩ | ⟨q, hq, _, hcode, _⟩
    · exact absurd (hsame.1.trans (hempty y)) hy
    · rwa [hcode]
  exact fun y z hne hy hz hpre => hne (leafPaths_prefix (path hy) (path hz) hpre).2

/-- Settles O31. -/
theorem genMakesAPrefixCode : Obligations.GenMakesAPrefixCode := by
  unfold Obligations.GenMakesAPrefixCode
  intro s t htree hempty h hcodes
  obtain ⟨u, r, hr, e, rfl⟩ := genBody_of_exec htree h hcodes
  obtain ⟨_, _, hstore⟩ := genBody_ok hr e
  exact prefixFree_of_storesPaths hempty hstore

end Sys2Proof.Machine

/-! PROOFS. The tree `BUILD` makes: its sizes, its leaves, its merges, and its paths (43_tree_builder.md R180 to R188). -/

namespace Sys2Proof.Machine

/-- A node has the child `j` on one side or the other. -/
theorem exists_child_iff {nd : Node} {j : NodeIdx} :
    (∃ b, child nd b = some j) ↔ nd.left = some j ∨ nd.right = some j := by simp [child]

/-! ### A `BUILD` that completes -/

/-- A `BUILD` that ends in phase `TREE` completed, on a table with an entry and a sum below `2^64` (R181, R185). -/
theorem buildBody_of_exec {s t : State} (hs : s.phase = .idle) (h : exec .build s = .next t) (ht : t.phase = .tree) :
    ∃ u, buildBody s = .ok 0#64 u ∧ t = respond true 0#64 u ∧ presentSyms s ≠ [] ∧ freqSum s < 2 ^ 64 := by
  rw [exec_build_idle hs] at h
  rcases finish_eq_next.mp h with ⟨v, u, e, rfl⟩ | ⟨c, u, _, rfl⟩
  · rcases buildBody_cases s with ⟨_, e'⟩ | ⟨_, _, e'⟩ | ⟨hne, hsum, ⟨_, _, _, e'⟩ | e'⟩
    · simp [e'] at e
    · simp [e'] at e
    · obtain ⟨rfl, rfl⟩ := Res.ok.inj (e.symm.trans e')
      exact ⟨_, e, rfl, hne, hsum⟩
    · simp [e'] at e
  · simp at ht

/-- A table with an entry has one present symbol or more. -/
theorem presentSyms_one_or_more {s : State} (h : presentSyms s ≠ []) :
    (∃ y, presentSyms s = [y]) ∨ 2 ≤ (presentSyms s).length := by
  have hpos := List.length_pos_iff.mpr h
  rcases Nat.lt_or_ge (presentSyms s).length 2 with h1 | h2
  · exact .inl (List.length_eq_one_iff.mp (by omega))
  · exact .inr h2

/-- The tree over the present symbols of `s`, one leaf each below the internal nodes, the root the last node made: what `BUILD`
leaves for one symbol and for more (R182, R184, R186). -/
structure BuiltTree (s t : State) (r : NodeIdx) : Prop where
  frame : t = { s with node := t.node, ncnt := t.ncnt, root := some r, total := (nodeAt t r).freq, phase := .tree }
  rest : ∀ j : NodeIdx, t.ncnt.toNat ≤ j.val → nodeAt t j = nodeAt s j
  leaf : ∀ (k : NodeIdx) (h : k.val < (presentSyms s).length), nodeAt t k =
    { tag := .leaf, sym := (presentSyms s)[k.val], freq := freqOf s (presentSyms s)[k.val], left := none, right := none }
  inner : ∀ i : NodeIdx, (presentSyms s).length ≤ i.val → i.val < t.ncnt.toNat → (nodeAt t i).tag = .int
  last : r.val + 1 = t.ncnt.toNat
  rootInner : (presentSyms s).length ≤ r.val
  height : r.val ≤ (presentSyms s).length + 254
  below : ∀ (i j : NodeIdx) (b : Bool), i.val < t.ncnt.toNat → child (nodeAt t i) b = some j → j.val < i.val
  parent : ∀ j : NodeIdx, j.val < r.val → ∃ i b, i.val < t.ncnt.toNat ∧ child (nodeAt t i) b = some j
  oneParent : ∀ (i i' j : NodeIdx) (b b' : Bool), i.val < t.ncnt.toNat → i'.val < t.ncnt.toNat →
    child (nodeAt t i) b = some j → child (nodeAt t i') b' = some j → i = i' ∧ b = b'

/-- The one-symbol alphabet: a leaf and its synthetic parent (R186). -/
theorem builtTree_single {s : State} {y : Sym} (h : presentSyms s = [y]) (hsum : freqSum s < 2 ^ 64) :
    ∃ t, buildBody s = .ok 0#64 t ∧ BuiltTree s t 1 ∧ t.ncnt = 2#9 ∧
      nodeAt t 1 = { tag := .int, sym := 0#8, freq := (nodeAt t 0).freq, left := some 0, right := none } := by
  obtain ⟨t, ht⟩ : ∃ t, buildBody s = .ok 0#64 t := ⟨_, buildBody_single h hsum⟩
  obtain ⟨_, hfin⟩ := Res.ok.inj (ht.symm.trans (buildBody_single h hsum))
  have n0 : nodeAt t 0 = { tag := .leaf, sym := y, freq := freqOf s y, left := none, right := none } := by
    rw [hfin]
    exact (nodeAt_setNode_ne (by decide) _ _).trans (nodeAt_setNode_self ..)
  have n1 : nodeAt t 1 = { tag := .int, sym := 0#8, freq := freqOf s y, left := some 0, right := none } := by
    rw [hfin]
    exact nodeAt_setNode_self ..
  have nrest (j : NodeIdx) (hj : 2 ≤ j.val) : nodeAt t j = nodeAt s j := by
    have h0 : j ≠ 0 := by rintro rfl; exact absurd hj (by decide)
    have h1 : j ≠ 1 := by rintro rfl; exact absurd hj (by decide)
    rw [hfin]
    exact (nodeAt_setNode_ne h1 _ _).trans (nodeAt_setNode_ne h0 _ _)
  have hlen : (presentSyms s).length = 1 := by rw [h]; rfl
  have hcnt : t.ncnt = 2#9 := by rw [hfin]
  have hcntN : t.ncnt.toNat = 2 := by rw [hcnt]; rfl
  have two (i : NodeIdx) (hi : i.val < t.ncnt.toNat) : i = 0 ∨ i = 1 := by
    rw [hcntN] at hi
    rcases Nat.lt_or_ge i.val 1 with h0 | h1
    · exact .inl (Fin.ext (Nat.lt_one_iff.mp h0))
    · exact .inr (Fin.ext (Nat.le_antisymm (Nat.le_of_lt_succ hi) h1))
  have hchild (i j : NodeIdx) (b : Bool) (hi : i.val < t.ncnt.toNat) (hc : child (nodeAt t i) b = some j) :
      i = 1 ∧ b = false ∧ j = 0 := by
    rcases two i hi with rfl | rfl
    · rw [n0] at hc
      cases b <;> simp [child] at hc
    · rw [n1] at hc
      cases b <;> simp [child, eq_comm] at hc ⊢
      exact hc
  refine ⟨t, ht, ⟨?frame, ?rest, ?leaf, ?inner, ?last, ?rootInner, ?height, ?below, ?parent, ?oneParent⟩, hcnt, by rw [n0, n1]⟩
  case frame =>
    have htot : t.total = (nodeAt t 1).freq := by rw [n1, hfin]
    have hroot : t.root = some 1 := by rw [hfin]
    rw [← htot, ← hroot, hfin]
    rfl
  case rest => exact fun j hj => nrest j (by omega)
  case leaf =>
    intro k hk
    obtain rfl : k = 0 := Fin.ext (by simpa [hlen] using hk)
    rw [n0]
    simp [h]
  case inner =>
    intro i hi hlt
    rcases two i hlt with rfl | rfl
    · simp [hlen] at hi
    · rw [n1]
  case last => rw [hcntN]; rfl
  case rootInner => rw [hlen]; exact Nat.le_refl 1
  case height => exact Nat.le_add_left 1 _
  case below =>
    intro i j b hi hc
    obtain ⟨rfl, _, rfl⟩ := hchild i j b hi hc
    decide
  case parent =>
    intro j hj
    obtain rfl : j = 0 := Fin.ext (Nat.lt_one_iff.mp hj)
    exact ⟨1, false, by rw [hcntN]; decide, by rw [n1]; rfl⟩
  case oneParent =>
    intro i i' j b b' hi hi' hc hc'
    obtain ⟨rfl, rfl, _⟩ := hchild i j b hi hc
    obtain ⟨rfl, rfl, _⟩ := hchild i' j b' hi' hc'
    exact ⟨rfl, rfl⟩

/-! #### Two symbols or more: the forest's merges (R184) -/

section
variable {n : Nat} {q : List NodeIdx} {t : State}

/-- A node with a child is a merge, and the child one of its two, made before it. -/
theorem Forest.child_merge (h : Forest n q t) {i j : NodeIdx} {b : Bool} (hi : i.val < t.ncnt.toNat)
    (hc : child (nodeAt t i) b = some j) : n ≤ i.val ∧ isRootBelow t i j ∧ child (nodeAt t i) (!b) ≠ some j := by
  have hn : n ≤ i.val := by
    by_contra hlt
    obtain ⟨_, hl, hr⟩ := h.leaf i (by omega)
    cases b <;> simp [child, hl, hr] at hc
  obtain ⟨a, c, e, _, ha, hcr, hlow, _⟩ := h.inner i hn hi
  have hne : a ≠ c := by
    rintro rfl
    unfold lowerPair at hlow
    omega
  rw [e] at hc ⊢
  cases b
  · obtain rfl : a = j := Option.some.inj hc
    exact ⟨hn, ha, by simpa [child, mergedNode] using hne.symm⟩
  · obtain rfl : c = j := Option.some.inj hc
    exact ⟨hn, hcr, by simpa [child, mergedNode] using hne⟩

/-- A node that is not in the queue has a parent. -/
theorem Forest.exists_parent (h : Forest n q t) {j : NodeIdx} (hj : j.val < t.ncnt.toNat) (hq : j ∉ q) :
    ∃ i b, i.val < t.ncnt.toNat ∧ child (nodeAt t i) b = some j := by
  have hnot := mt (h.members j).mpr hq
  push Not at hnot
  obtain ⟨i, hi, hside⟩ := hnot hj
  by_cases hl : (nodeAt t i).left = some j
  · exact ⟨i, false, hi, hl⟩
  · exact ⟨i, true, hi, hside hl⟩

/-- No node has two parents, and none is both children of its parent. -/
theorem Forest.oneParent (h : Forest n q t) {i i' j : NodeIdx} {b b' : Bool} (hi : i.val < t.ncnt.toNat)
    (hi' : i'.val < t.ncnt.toNat) (hc : child (nodeAt t i) b = some j) (hc' : child (nodeAt t i') b' = some j) :
    i = i' ∧ b = b' := by
  have first {i i' : NodeIdx} {b b' : Bool} (hi' : i'.val < t.ncnt.toNat) (hc : child (nodeAt t i) b = some j)
      (hc' : child (nodeAt t i') b' = some j) : ¬ i.val < i'.val := by
    intro hlt
    obtain ⟨hl, hr⟩ := (h.child_merge hi' hc').2.1.2 i hlt
    cases b
    · exact hl hc
    · exact hr hc
  obtain rfl : i = i' := Fin.ext (by have := first hi' hc hc'; have := first hi hc' hc; omega)
  refine ⟨rfl, ?_⟩
  by_contra hne
  obtain rfl : b' = !b := by cases b <;> cases b' <;> simp at hne ⊢
  exact (h.child_merge hi hc).2.2 hc'

end

/-- Two symbols or more: the tree of the merges, with a depth for each node that is minimal in cost (R184, R189). -/
theorem builtTree_merged {s : State} (h2 : 2 ≤ (presentSyms s).length) (hsum : freqSum s < 2 ^ 64) :
    ∃ r t, ∃ depth : NodeIdx → Nat, buildBody s = .ok 0#64 t ∧ BuiltTree s t r ∧ Forest (presentSyms s).length [r] t ∧
      depth r = 0 ∧ (∀ i j : NodeIdx, (presentSyms s).length ≤ i.val → i.val < t.ncnt.toNat →
        (nodeAt t i).left = some j ∨ (nodeAt t i).right = some j → depth j = depth i + 1) ∧
      ∃ leaves : List NodeIdx, leaves.map Fin.val = List.range (presentSyms s).length ∧
        ∀ l, kraftOk leaves.toFinset l → codeCost leaves.toFinset (freqAt t) depth ≤ codeCost leaves.toFinset (freqAt t) l := by
  obtain ⟨r, t, depth, e, hF, hframe, hrest, hleaf, hlast, hd0, hd, leaves, hidx, _, hopt⟩ := buildBody_forest h2 hsum
  have hcount := hF.count
  have hbound := hF.bound
  rw [List.length_singleton] at hcount
  refine ⟨r, t, depth, e, ⟨hframe, hrest, hleaf, ?inner, hlast, ?rootInner, ?height, ?below, ?parent, ?oneParent⟩, hF, hd0, hd,
    leaves, hidx, hopt⟩
  case inner =>
    intro i hi hlt
    obtain ⟨a, b, hm, _⟩ := hF.inner i hi hlt
    rw [hm]
    rfl
  case rootInner => omega
  case height => omega
  case below => exact fun i j b hi hc => (hF.child_merge hi hc).2.1.1
  case parent => exact fun j hj => hF.exists_parent (by omega) (by rw [List.mem_singleton]; rintro rfl; omega)
  case oneParent => exact fun i i' j b b' hi hi' hc hc' => hF.oneParent hi hi' hc hc'

/-- Every `BUILD` that completes makes such a tree. -/
theorem builtTree_of_exec {s t : State} (hs : s.phase = .idle) (h : exec .build s = .next t) (ht : t.phase = .tree) :
    ∃ u r, buildBody s = .ok 0#64 u ∧ t = respond true 0#64 u ∧ BuiltTree s u r := by
  obtain ⟨u, e, rfl, hne, hsum⟩ := buildBody_of_exec hs h ht
  rcases presentSyms_one_or_more hne with ⟨y, hy⟩ | h2
  · obtain ⟨v, e', hT, _⟩ := builtTree_single hy hsum
    obtain ⟨_, rfl⟩ := Res.ok.inj (e.symm.trans e')
    exact ⟨u, 1, e, rfl, hT⟩
  · obtain ⟨r, v, _, e', hT, _⟩ := builtTree_merged h2 hsum
    obtain ⟨_, rfl⟩ := Res.ok.inj (e.symm.trans e')
    exact ⟨u, r, e, rfl, hT⟩

/-! ### Its sizes, leaves and merges -/

/-- Settles O25: for one symbol the two nodes, for more the forest's count; the total by the exact sum. -/
theorem buildCompletes : Obligations.BuildCompletes := by
  unfold Obligations.BuildCompletes
  intro s hidle ⟨y, hy⟩ hsum
  rw [← freqSum_eq_sum] at hsum
  have hne : presentSyms s ≠ [] := List.ne_nil_of_mem ((mem_presentSyms s y).mpr hy)
  suffices h : ∃ t r, buildBody s = .ok 0#64 t ∧ BuiltTree s t r ∧
      ((presentSyms s).length = 1 → t.ncnt.toNat = 2 ∧ r.val = 1) ∧
      (2 ≤ (presentSyms s).length →
        t.ncnt.toNat = 2 * (presentSyms s).length - 1 ∧ r.val = 2 * (presentSyms s).length - 2) by
    obtain ⟨t, r, e, hT, hone, hmore⟩ := h
    refine ⟨respond true 0#64 t, r, by rw [exec_build_idle hidle, e, finish_ok], ?_, ?_, ?_, hone, hmore, hT.rest⟩
    · rw [hT.frame]; rfl
    · rw [hT.frame]; rfl
    · exact (buildBody_total e).trans (freqSum_eq_sum s)
  rcases presentSyms_one_or_more hne with ⟨z, hz⟩ | h2
  · obtain ⟨t, e, hT, hcnt, _⟩ := builtTree_single hz hsum
    exact ⟨t, 1, e, hT, fun _ => ⟨by rw [hcnt]; rfl, rfl⟩, fun h => by simp [hz] at h⟩
  · obtain ⟨r, t, _, e, hT, hF, _⟩ := builtTree_merged h2 hsum
    have hcount := hF.count
    have hlast := hT.last
    rw [List.length_singleton] at hcount
    exact ⟨t, r, e, hT, fun h => by omega, fun _ => by omega⟩

/-- Settles O26. -/
theorem buildSeedsTheLeavesInOrder : Obligations.BuildSeedsTheLeavesInOrder := by
  unfold Obligations.BuildSeedsTheLeavesInOrder
  intro s t hidle h htree
  obtain ⟨u, r, e, rfl, hT⟩ := builtTree_of_exec hidle h htree
  refine ⟨presentSyms_sorted s, mem_presentSyms s, hT.leaf, fun hone => ?_⟩
  obtain ⟨y, hy⟩ := List.length_eq_one_iff.mp hone
  obtain ⟨_, _, _, _, hsum⟩ := buildBody_of_exec hidle h htree
  obtain ⟨v, e', _, _, hparent⟩ := builtTree_single hy hsum
  obtain ⟨_, rfl⟩ := Res.ok.inj (e.symm.trans e')
  exact hparent

/-- Settles O27: the internal nodes are the forest's merges, and every node but the root has left the queue. -/
theorem buildMergesIntoOneStrictTree : Obligations.BuildMergesIntoOneStrictTree := by
  unfold Obligations.BuildMergesIntoOneStrictTree
  intro s t hidle h htree h2
  obtain ⟨u, e, rfl, _, hsum⟩ := buildBody_of_exec hidle h htree
  obtain ⟨r, v, _, e', hT, hF, _⟩ := builtTree_merged h2 hsum
  obtain ⟨_, rfl⟩ := Res.ok.inj (e.symm.trans e')
  have hcount := hF.count
  have hlast := hT.last
  rw [List.length_singleton] at hcount
  refine ⟨fun i hi hlt => ?merge, fun j hj => ?parent⟩
  case merge =>
    obtain ⟨a, b, hm, hfreq, ha, hb, hlow, hleast⟩ := hF.inner i hi (by omega)
    have hab : a ≠ b := by
      rintro rfl
      unfold lowerPair at hlow
      omega
    exact ⟨a, b, congrArg Node.tag hm, congrArg Node.sym hm, congrArg Node.left hm, congrArg Node.right hm, ha.1, hb.1, hab, hfreq,
      lowerPair_le hlow, ha, hb, hlow, hleast⟩
  case parent =>
    obtain ⟨i, b, hi, hc⟩ := hT.parent j (by omega)
    refine ⟨i, ⟨by omega, exists_child_iff.mp ⟨b, hc⟩⟩, fun i' ⟨hi', hside⟩ => ?_⟩
    obtain ⟨b', hc'⟩ := exists_child_iff.mpr hside
    exact (hT.oneParent i' i j b' b (by omega) hi hc' hc).1

end Sys2Proof.Machine

/-! PROOFS. The paths of the tree `BUILD` makes: each leaf has one, their lengths are those of a complete code, and no code
whose words do not begin one another costs less (43_tree_builder.md R188, R189; 44_code_table.md R203, R204). -/

namespace Sys2Proof.Machine

/-- A path ends with a step from an internal node to a child. -/
theorem follow_concat {t : State} {p : List Bool} {b : Bool} {i j : NodeIdx} :
    follow t i (p ++ [b]) = some j ↔ ∃ k, follow t i p = some k ∧ (nodeAt t k).tag = .int ∧ child (nodeAt t k) b = some j := by
  rw [follow_append]
  refine exists_congr fun k => and_congr_right fun _ => ?_
  rw [follow_cons]
  simp [follow]

theorem presentSyms_nodup (s : State) : (presentSyms s).Nodup :=
  (presentSyms_sorted s).imp fun hlt e => by simp [e] at hlt

namespace BuiltTree

variable {s t : State} {r : NodeIdx}

/-- A leaf of the tree is one of the first nodes (R182). -/
theorem index_of_leaf (h : BuiltTree s t r) {k : NodeIdx} (hk : k.val < t.ncnt.toNat) (hleaf : (nodeAt t k).tag = .leaf) :
    k.val < (presentSyms s).length := by
  by_contra hn
  have := h.inner k (by omega) hk
  rw [hleaf] at this
  cases this

/-- The first nodes are leaves. -/
theorem inner_index (h : BuiltTree s t r) {i : NodeIdx} (hi : (nodeAt t i).tag = .int) : (presentSyms s).length ≤ i.val := by
  by_contra hn
  rw [h.leaf i (by omega)] at hi
  cases hi

/-- Each step of a path goes to a node made before (R184). -/
theorem follow_below (h : BuiltTree s t r) (p : List Bool) : ∀ {i j : NodeIdx}, i.val < t.ncnt.toNat → follow t i p = some j →
    j.val + p.length ≤ i.val := by
  induction p with
  | nil =>
    intro i j _ hp
    obtain rfl : i = j := by simpa [follow] using hp
    exact Nat.le_refl _
  | cons b p ih =>
    intro i j hi hp
    obtain ⟨_, k, hk, hkj⟩ := follow_cons.mp hp
    have hlt := h.below i k b hi hk
    have := ih (by omega) hkj
    rw [List.length_cons]
    omega

theorem root_lt (h : BuiltTree s t r) : r.val < t.ncnt.toNat := by have := h.last; omega

/-- No path from the root is longer than 255 bits (R188; 44_code_table.md R204). -/
theorem length_path_le (h : BuiltTree s t r) {p : List Bool} {j : NodeIdx} (hp : follow t r p = some j) : p.length ≤ 255 := by
  rcases List.eq_nil_or_concat p with rfl | ⟨p, b, rfl⟩
  · exact Nat.zero_le _
  · rw [List.concat_eq_append] at hp ⊢
    obtain ⟨k, hk, hint, _⟩ := follow_concat.mp hp
    have := h.follow_below p h.root_lt hk
    have := h.inner_index hint
    have := h.height
    rw [List.length_append, List.length_singleton]
    omega

/-- Two paths from the root to one node are the same: read backwards, they come from the same parent each time. -/
theorem path_unique (h : BuiltTree s t r) (p : List Bool) : ∀ {q : List Bool} {j : NodeIdx}, follow t r p = some j →
    follow t r q = some j → p = q := by
  have root_end {q : List Bool} (hq : follow t r q = some r) : q = [] := by
    have := h.follow_below q h.root_lt hq
    exact List.length_eq_zero_iff.mp (by omega)
  induction p using List.reverseRecOn with
  | nil =>
    intro q j hp hq
    obtain rfl : r = j := by simpa [follow] using hp
    exact (root_end hq).symm
  | append_singleton p b ih =>
    intro q j hp hq
    rcases List.eq_nil_or_concat q with rfl | ⟨q, c, rfl⟩
    · obtain rfl : r = j := by simpa [follow] using hq
      exact root_end hp
    · rw [List.concat_eq_append] at hq ⊢
      obtain ⟨k, hk, _, hc⟩ := follow_concat.mp hp
      obtain ⟨k', hk', _, hc'⟩ := follow_concat.mp hq
      have hlt := h.follow_below p h.root_lt hk
      have hlt' := h.follow_below q h.root_lt hk'
      have hr := h.root_lt
      obtain ⟨rfl, rfl⟩ := h.oneParent k k' j b c (by omega) (by omega) hc hc'
      rw [ih hk hk']

/-- Every node is reached from the root, by way of its parent. -/
theorem exists_path (h : BuiltTree s t r) (d : Nat) : ∀ {j : NodeIdx}, j.val + d = r.val → ∃ p, follow t r p = some j := by
  induction d using Nat.strong_induction_on with
  | _ d ih =>
    intro j hd
    by_cases hj : j = r
    · exact ⟨[], by rw [hj]; rfl⟩
    · have hne : j.val ≠ r.val := fun e => hj (Fin.ext e)
      obtain ⟨i, b, hi, hc⟩ := h.parent j (by omega)
      have hlt := h.below i j b hi hc
      have hlast := h.last
      obtain ⟨p, hp⟩ := ih (r.val - i.val) (by omega) (j := i) (by omega)
      have hint : (nodeAt t i).tag = .int := by
        refine h.inner i ?_ hi
        by_contra hn
        rw [h.leaf i (by omega)] at hc
        cases b <;> simp [child] at hc
      exact ⟨p ++ [b], follow_concat.mpr ⟨i, hp, hint, hc⟩⟩

/-- The leaves that paths from the root end on, by their index. -/
theorem leafPath_iff (h : BuiltTree s t r) {p : List Bool} {y : Sym} :
    leafPath t r p y ↔
      ∃ (k : NodeIdx) (hk : k.val < (presentSyms s).length), follow t r p = some k ∧ (presentSyms s)[k.val] = y := by
  constructor
  · rintro ⟨k, hk, hleaf, rfl⟩
    have hlt := h.follow_below p h.root_lt hk
    have hn := h.index_of_leaf (by have := h.root_lt; omega) hleaf
    exact ⟨k, hn, hk, by rw [h.leaf k hn]⟩
  · rintro ⟨k, hn, hk, rfl⟩
    exact ⟨k, hk, by rw [h.leaf k hn], by rw [h.leaf k hn]⟩

/-- A path to the leaf of present symbol number `k` ends on node `k`. -/
theorem follow_of_leafPath (h : BuiltTree s t r) {k : NodeIdx} (hk : k.val < (presentSyms s).length) {p : List Bool}
    (hp : leafPath t r p (presentSyms s)[k.val]) : follow t r p = some k := by
  obtain ⟨k', hk', hkp, hsym⟩ := h.leafPath_iff.mp hp
  obtain rfl : k' = k := Fin.ext ((presentSyms_nodup s).getElem_inj_iff.mp hsym)
  exact hkp

/-- Each present symbol has one path (10_state.md section 5 (c)). -/
theorem existsUnique_leafPath (h : BuiltTree s t r) {y : Sym} (hy : freqOf s y ≠ 0#64) : ∃! p, leafPath t r p y := by
  obtain ⟨n, hn, rfl⟩ := List.mem_iff_getElem.mp ((mem_presentSyms s y).mpr hy)
  have hroot := h.rootInner
  obtain ⟨p, hp⟩ := h.exists_path (r.val - n) (j := ⟨n, by have := r.isLt; omega⟩) (by simp only; omega)
  refine ⟨p, h.leafPath_iff.mpr ⟨_, hn, hp, rfl⟩, fun q hq => ?_⟩
  exact h.path_unique q (h.follow_of_leafPath (k := ⟨n, _⟩) hn hq) hp

theorem leafPath_present (h : BuiltTree s t r) {p : List Bool} {y : Sym} (hp : leafPath t r p y) :
    freqOf s y ≠ 0#64 ∧ p ≠ [] := by
  obtain ⟨k, hk, hkp, rfl⟩ := h.leafPath_iff.mp hp
  refine ⟨(mem_presentSyms s _).mp (List.getElem_mem hk), ?_⟩
  rintro rfl
  obtain rfl : r = k := by simpa [follow] using hkp
  have := h.rootInner
  omega

end BuiltTree

/-- Settles O29. -/
theorem buildTreeReachesEachSymbolOnce : Obligations.BuildTreeReachesEachSymbolOnce := by
  unfold Obligations.BuildTreeReachesEachSymbolOnce
  intro s t hidle h htree
  obtain ⟨u, r, _, rfl, hT⟩ := builtTree_of_exec hidle h htree
  simp only [follow_congr (respond_node true 0#64 u), leafPath_congr (respond_node true 0#64 u)]
  exact ⟨r, by rw [hT.frame]; rfl, fun p j => hT.length_path_le, fun y => hT.existsUnique_leafPath,
    fun p y => hT.leafPath_present⟩

/-! ### The lengths `GEN` takes from it -/

/-- After `BUILD` and `GEN` from an empty CodeTable: the length of a present symbol's code is that of its path, and no other
symbol has a code. -/
theorem clenOf_gen {s t u : State} {r : NodeIdx} (hT : BuiltTree s t r) (hempty : ∀ y, clenOf s y = 0#8)
    (h : exec .gen (respond true 0#64 t) = .next u) :
    u.phase = .codes ∧ u.freq = s.freq ∧
      ∀ y, (freqOf s y = 0#64 ∧ clenOf u y = 0#8) ∨
        (freqOf s y ≠ 0#64 ∧ ∃ p, leafPath t r p y ∧ p ≠ [] ∧ (clenOf u y).toNat = p.length) := by
  have hnode : (respond true 0#64 t).node = t.node := rfl
  have hroot : (respond true 0#64 t).root = some r := by rw [hT.frame]; rfl
  have htree : (respond true 0#64 t).phase = .tree := by rw [hT.frame]; rfl
  obtain ⟨v, e⟩ := genBody_completes hroot fun p j hp => hT.length_path_le (by rwa [follow_congr hnode] at hp)
  obtain ⟨_, hv, hstore⟩ := genBody_ok hroot e
  rw [exec_gen_tree htree, e, finish_ok] at h
  obtain rfl := Host.Outcome.next.inj h
  refine ⟨by rw [hv]; rfl, by rw [hv, hT.frame]; rfl, fun y => ?_⟩
  rcases hstore y with ⟨hsame, hnone⟩ | ⟨p, hp, hlen, _⟩
  · refine .inl ⟨?_, hsame.1.trans (Eq.trans (by rw [hT.frame]; rfl) (hempty y))⟩
    by_contra hy
    obtain ⟨p, hp, _⟩ := hT.existsUnique_leafPath hy
    exact hnone p ((leafPath_congr hnode r p y).mpr hp)
  · have hp := (leafPath_congr hnode r p y).mp hp
    obtain ⟨hy, hne⟩ := hT.leafPath_present hp
    exact .inr ⟨hy, p, hp, hne, hlen⟩

/-- A sum over the leaves is one over the present symbols. -/
theorem sum_leaves {leaves : List NodeIdx} {ys : List Sym} {g : NodeIdx → Nat} {f : Sym → Nat}
    (hidx : leaves.map Fin.val = List.range ys.length) (h : ∀ (k : NodeIdx) (hk : k.val < ys.length), g k = f ys[k.val]) :
    ∑ k ∈ leaves.toFinset, g k = (ys.map f).sum := by
  have hnodup : leaves.Nodup := List.Nodup.of_map Fin.val (by rw [hidx]; exact List.nodup_range)
  have hlen : leaves.length = ys.length := by simpa using congrArg List.length hidx
  rw [List.sum_toFinset g hnodup]
  congr 1
  refine List.ext_getElem (by simp [hlen]) fun k h1 h2 => ?_
  rw [List.length_map] at h1 h2
  have hk : (leaves[k]).val = k := by
    rw [← List.getElem_map Fin.val (h := by simpa using h1)]
    simp [hidx]
  simp only [List.getElem_map, h leaves[k] (hk.trans_lt h2), hk]

/-- A sum over all symbols to which only the present ones add is one over the present symbols. -/
theorem sum_presentSyms {s : State} {f : Sym → Nat} (h : ∀ y, freqOf s y = 0#64 → f y = 0) :
    ((presentSyms s).map f).sum = (allSyms.map f).sum := by
  unfold presentSyms
  induction allSyms with
  | nil => rfl
  | cons y ys ih =>
    by_cases hy : freqOf s y = 0#64
    · rw [List.filter_cons_of_neg (by simp [hy]), List.map_cons, List.sum_cons, ih, h y hy, Nat.zero_add]
    · rw [List.filter_cons_of_pos (by simp [hy]), List.map_cons, List.map_cons, List.sum_cons, List.sum_cons, ih]

/-- Weights of the nodes, each the sum of those of its two children: the leaves' add up to the root's. -/
theorem sum_leaf_weights {s t : State} {r : NodeIdx} (hT : BuiltTree s t r) {w : NodeIdx → Nat}
    (hw : ∀ i : NodeIdx, (presentSyms s).length ≤ i.val → i.val < t.ncnt.toNat →
      ∃ a b, (nodeAt t i).left = some a ∧ (nodeAt t i).right = some b ∧ w i = w a + w b) :
    ∑ k with k.val < (presentSyms s).length, w k = w r := by
  set n := (presentSyms s).length with hn
  have hlast := hT.last
  have hroot := hT.rootInner
  have hchild {i : NodeIdx} (hi : n ≤ i.val ∧ i.val < t.ncnt.toNat) (b : Bool) :
      child (nodeAt t i) b = some ((child (nodeAt t i) b).getD r) := by
    obtain ⟨a, c, hl, hr, _⟩ := hw i hi.1 hi.2
    cases b <;> simp [child, hl, hr]
  have hinner : ∀ i : NodeIdx, i ∈ (Finset.univ.filter fun i : NodeIdx => n ≤ i.val ∧ i.val < t.ncnt.toNat) ↔
      n ≤ i.val ∧ i.val < t.ncnt.toNat := fun i => by simp
  generalize (Finset.univ.filter fun i : NodeIdx => n ≤ i.val ∧ i.val < t.ncnt.toNat) = inner at hinner
  -- each node but the root is the child of one internal node, on one side
  have hchildren : ∑ x ∈ inner ×ˢ (Finset.univ : Finset Bool),
      w ((child (nodeAt t x.1) x.2).getD r) = ∑ j : NodeIdx with j.val < r.val, w j := by
    refine Finset.sum_bij (fun x _ => (child (nodeAt t x.1) x.2).getD r) ?_ ?_ ?_ fun _ _ => rfl
    · intro ⟨i, b⟩ hx
      have hi := (hinner i).mp (Finset.mem_product.mp hx).1
      have := hT.below i _ b hi.2 (hchild hi b)
      exact Finset.mem_filter.mpr ⟨Finset.mem_univ _, by simp only; omega⟩
    · intro ⟨i, b⟩ hx ⟨i', b'⟩ hx' he
      have hi := (hinner i).mp (Finset.mem_product.mp hx).1
      have hi' := (hinner i').mp (Finset.mem_product.mp hx').1
      obtain ⟨rfl, rfl⟩ := hT.oneParent i i' _ b b' hi.2 hi'.2 (hchild hi b) (he ▸ hchild hi' b')
      rfl
    · intro j hj
      obtain ⟨i, b, hi, hc⟩ := hT.parent j (by simpa using hj)
      have hn' : n ≤ i.val := by
        by_contra hlt
        rw [hT.leaf i (by omega)] at hc
        cases b <;> simp [child] at hc
      exact ⟨(i, b), by simp [hinner, hn', hi], by simp [hc]⟩
  have hsplit : ∑ i ∈ inner, w i = ∑ j : NodeIdx with j.val < r.val, w j := by
    rw [← hchildren, Finset.sum_product]
    refine Finset.sum_congr rfl fun i hi => ?_
    obtain ⟨h1, h2⟩ := (hinner i).mp hi
    obtain ⟨a, b, hl, hr, hsum⟩ := hw i h1 h2
    simp [child, hl, hr, hsum, Nat.add_comm]
  have hrootIn : inner = insert r (Finset.univ.filter fun i : NodeIdx => n ≤ i.val ∧ i.val < r.val) := by
    ext i
    simp [hinner, Fin.ext_iff]
    omega
  have hbelow : (Finset.univ.filter fun j : NodeIdx => j.val < r.val) =
      (Finset.univ.filter fun j : NodeIdx => j.val < n) ∪ Finset.univ.filter fun i : NodeIdx => n ≤ i.val ∧ i.val < r.val := by
    ext i
    simp
    omega
  rw [hrootIn, Finset.sum_insert (by simp), hbelow, Finset.sum_union] at hsplit
  · omega
  · exact Finset.disjoint_filter.mpr fun i _ h1 h2 => by omega

/-- The leaves listed in order are the first nodes. -/
theorem toFinset_leaves {leaves : List NodeIdx} {n : Nat} (hidx : leaves.map Fin.val = List.range n) :
    leaves.toFinset = Finset.univ.filter fun k : NodeIdx => k.val < n := by
  ext k
  rw [List.mem_toFinset, Finset.mem_filter, ← List.mem_range, ← hidx, List.mem_map]
  simp only [Finset.mem_univ, true_and]
  exact ⟨fun h => ⟨k, h, rfl⟩, fun ⟨_, ha, e⟩ => Fin.ext e ▸ ha⟩

section
variable {s t : State} {r : NodeIdx} {depth : NodeIdx → Nat}

/-- Where each child is one deeper than its parent, a node is as deep as its path is long. -/
theorem BuiltTree.depth_eq_length (hT : BuiltTree s t r) (hd0 : depth r = 0)
    (hd : ∀ i j : NodeIdx, (presentSyms s).length ≤ i.val → i.val < t.ncnt.toNat →
      (nodeAt t i).left = some j ∨ (nodeAt t i).right = some j → depth j = depth i + 1)
    {p : List Bool} {j : NodeIdx} (hp : follow t r p = some j) : depth j = p.length := by
  have h := follow_depth (fun k hk => by rw [hT.leaf k hk])
    (fun i j _ hi hc => by obtain ⟨b, hb⟩ := exists_child_iff.mpr hc; exact hT.below i j b hi hb) hd p hT.root_lt hp
  rw [h, hd0, Nat.zero_add]

/-- The depths of the leaves of two symbols or more are the lengths of a complete code (44_code_table.md R203 (c)). -/
theorem sum_leaf_depths (hT : BuiltTree s t r) (hF : Forest (presentSyms s).length [r] t) (hd0 : depth r = 0)
    (hd : ∀ i j : NodeIdx, (presentSyms s).length ≤ i.val → i.val < t.ncnt.toNat →
      (nodeAt t i).left = some j ∨ (nodeAt t i).right = some j → depth j = depth i + 1) :
    ∑ k : NodeIdx with k.val < (presentSyms s).length, 2 ^ (255 - depth k) = 2 ^ 255 := by
  have hweight := sum_leaf_weights (w := fun k => 2 ^ (255 - depth k)) hT fun i hi hlt => by
    obtain ⟨a, b, e, _, ha, _⟩ := hF.inner i hi hlt
    have hleft : (nodeAt t i).left = some a := by rw [e]; rfl
    have hright : (nodeAt t i).right = some b := by rw [e]; rfl
    have hda := hd i a hi hlt (.inl hleft)
    have hdb := hd i b hi hlt (.inr hright)
    have hlast := hT.last
    obtain ⟨p, hp⟩ := hT.exists_path (r.val - a.val) (j := a) (by have := ha.1; omega)
    have hle : depth i + 1 ≤ 255 := by
      rw [← hda, hT.depth_eq_length hd0 hd hp]
      exact hT.length_path_le hp
    refine ⟨a, b, hleft, hright, ?_⟩
    simp only [hda, hdb]
    rw [show 255 - depth i = (255 - (depth i + 1)) + 1 by omega, pow_succ]
    omega
  rw [hweight, hd0]

end

/-- Settles O32: the code lengths are the depths of the leaves, which make a complete code. -/
theorem buildAndGenGiveACompleteCode : Obligations.BuildAndGenGiveACompleteCode := by
  unfold Obligations.BuildAndGenGiveACompleteCode
  intro s t u hidle hempty hbuild htree hgen
  obtain ⟨v, r, e, rfl, hT⟩ := builtTree_of_exec hidle hbuild htree
  obtain ⟨hcodes, hfreq, hlen⟩ := clenOf_gen hT hempty hgen
  have habsent (y : Sym) (hy : freqOf s y = 0#64) : clenOf u y = 0#8 := by
    rcases hlen y with ⟨_, h⟩ | ⟨h, _⟩
    · exact h
    · exact absurd hy h
  have hcoded (y : Sym) (hy : freqOf s y ≠ 0#64) : clenOf u y ≠ 0#8 := by
    rcases hlen y with ⟨h, _⟩ | ⟨_, p, _, hne, hl⟩
    · exact absurd h hy
    · exact fun h0 => hne (List.length_eq_zero_iff.mp (by rw [← hl, h0]; rfl))
  refine ⟨hcodes, fun y => ?_, fun h2 => ?_⟩
  · rw [show freqOf u y = freqOf s y by simp [freqOf, hfreq]]
    exact ⟨fun h hy => h (habsent y hy), hcoded y⟩
  · obtain ⟨_, _, _, _, hsum⟩ := buildBody_of_exec hidle hbuild htree
    obtain ⟨r', v', depth, e', hT', hF, hd0, hd, leaves, hidx, _⟩ := builtTree_merged h2 hsum
    obtain ⟨_, rfl⟩ := Res.ok.inj (e.symm.trans e')
    obtain rfl : r = r' := Fin.ext (by have := hT.last; have := hT'.last; omega)
    set f : Sym → Nat := fun y => if clenOf u y = 0#8 then 0 else 2 ^ (255 - (clenOf u y).toNat)
    have hterm (k : NodeIdx) (hk : k.val < (presentSyms s).length) : 2 ^ (255 - depth k) = f (presentSyms s)[k.val] := by
      have hy := (mem_presentSyms s _).mp (List.getElem_mem hk)
      rcases hlen (presentSyms s)[k.val] with ⟨h, _⟩ | ⟨_, p, hp, _, hl⟩
      · exact absurd h hy
      · simp only [f, if_neg (hcoded _ hy), hl, hT.depth_eq_length hd0 hd (hT.follow_of_leafPath hk hp)]
    calc ∑ y : Fin 256, f (BitVec.ofFin y) = (allSyms.map f).sum := (sum_allSyms f).symm
      _ = ((presentSyms s).map f).sum := (sum_presentSyms fun y hy => if_pos (habsent y hy)).symm
      _ = ∑ k ∈ leaves.toFinset, 2 ^ (255 - depth k) := (sum_leaves hidx hterm).symm
      _ = 2 ^ 255 := by rw [toFinset_leaves hidx]; exact sum_leaf_depths hT hF hd0 hd

/-! ### Optimality (R189) -/

/-- A cost over the leaves is one over the present symbols. -/
theorem codeCost_leaves {s t : State} {r : NodeIdx} (hT : BuiltTree s t r) {leaves : List NodeIdx}
    (hidx : leaves.map Fin.val = List.range (presentSyms s).length) {l : NodeIdx → Nat} {w : Sym → Nat}
    (h : ∀ (k : NodeIdx) (hk : k.val < (presentSyms s).length), l k = w (presentSyms s)[k.val]) :
    codeCost leaves.toFinset (freqAt t) l = bodyBits s w := by
  rw [← presentSum_eq]
  exact sum_leaves hidx fun k hk => by rw [h k hk, freqAt, hT.leaf k hk]

/-- Lengths that are those of the paths to the present symbols cost no more than any code whose words do not begin one another. -/
theorem minimalCost_of_paths {s t : State} {r : NodeIdx} {len : Sym → Nat} (hbuild : buildBody s = .ok 0#64 t)
    (hne : presentSyms s ≠ []) (hsum : freqSum s < 2 ^ 64) (hT : BuiltTree s t r)
    (hlen : ∀ y, freqOf s y ≠ 0#64 → ∃ p, leafPath t r p y ∧ len y = p.length) : minimalCost s len := by
  intro c hc
  rcases presentSyms_one_or_more hne with ⟨y, hy⟩ | h2
  case inl =>
    -- one symbol: its path has one bit, its word at least one
    have hpres : freqOf s y ≠ 0#64 := (mem_presentSyms s y).mp (by simp [hy])
    have hword := List.length_pos_iff.mpr (hc.word (by simp [hy]) y hpres)
    obtain ⟨t', e', hT', _⟩ := builtTree_single hy hsum
    obtain ⟨_, rfl⟩ := Res.ok.inj (hbuild.symm.trans e')
    obtain rfl : r = 1 := Fin.ext (by have := hT.last; have := hT'.last; omega)
    obtain ⟨p, ⟨j, hp, _⟩, hl⟩ := hlen y hpres
    have hone : j.val + p.length ≤ 1 := hT.follow_below p hT.root_lt hp
    rw [← presentSum_eq, ← presentSum_eq, hy]
    simp only [List.map_cons, List.map_nil, List.sum_cons, List.sum_nil, Nat.add_zero]
    exact Nat.mul_le_mul_left _ (by omega)
  case inr =>
    obtain ⟨r', t', depth, e', hT', _, hd0, hd, leaves, hidx, hopt⟩ := builtTree_merged h2 hsum
    obtain ⟨_, rfl⟩ := Res.ok.inj (hbuild.symm.trans e')
    obtain rfl : r = r' := Fin.ext (by have := hT.last; have := hT'.last; omega)
    have hleaf (k : NodeIdx) (hk : k ∈ leaves.toFinset) : ∃ h : k.val < (presentSyms s).length,
        (nodeAt t k).sym = (presentSyms s)[k.val] := by
      rw [toFinset_leaves hidx] at hk
      have hk := (Finset.mem_filter.mp hk).2
      exact ⟨hk, by rw [hT.leaf k hk]⟩
    have hkraft : kraftOk leaves.toFinset fun k => (c (nodeAt t k).sym).length := by
      refine kraftOk_of_prefixFree _ (fun k => c (nodeAt t k).sym) fun x hx z hz hne => ?_
      obtain ⟨hx, ex⟩ := hleaf x hx
      obtain ⟨hz, ez⟩ := hleaf z hz
      rw [ex, ez]
      refine hc.apart _ _ (fun h => hne (Fin.ext ((presentSyms_nodup s).getElem_inj_iff.mp h))) ?_ ?_
      · exact (mem_presentSyms s _).mp (List.getElem_mem hx)
      · exact (mem_presentSyms s _).mp (List.getElem_mem hz)
    have hcost := hopt _ hkraft
    rwa [codeCost_leaves (w := len) hT hidx fun k hk => ?_, codeCost_leaves (w := fun y => (c y).length) hT hidx fun k hk => ?_]
      at hcost
    · rw [hT.leaf k hk]
    · obtain ⟨p, hp, hl⟩ := hlen _ ((mem_presentSyms s _).mp (List.getElem_mem hk))
      rw [hl]
      exact hT.depth_eq_length hd0 hd (hT.follow_of_leafPath hk hp)

/-- Settles O60: the paths' lengths, and the code lengths `GEN` takes from them, are the depths of the merges. -/
theorem buildIsOptimal : Obligations.BuildIsOptimal := by
  unfold Obligations.BuildIsOptimal
  intro s t r hidle h htree hroot
  obtain ⟨_, _, _, hne, hsum⟩ := buildBody_of_exec hidle h htree
  obtain ⟨v, r', e, rfl, hT⟩ := builtTree_of_exec hidle h htree
  obtain rfl : r' = r := by
    have : v.root = some r := hroot
    rw [hT.frame] at this
    exact Option.some.inj this
  refine ⟨fun path hpath => ?_, fun u hempty hgen => ?_⟩
  · exact minimalCost_of_paths e hne hsum hT fun y hy =>
      ⟨path y, (leafPath_congr (respond_node true 0#64 v) _ _ _).mp (hpath y hy), rfl⟩
  · obtain ⟨_, _, hlen⟩ := clenOf_gen hT hempty hgen
    refine minimalCost_of_paths e hne hsum hT fun y hy => ?_
    rcases hlen y with ⟨h, _⟩ | ⟨_, p, hp, _, hl⟩
    · exact absurd h hy
    · exact ⟨p, hp, hl⟩

end Sys2Proof.Machine

/-! PROOFS. `RECON`: what the insertion of codes makes of the node memory, and what each of its two faults says of the codes
(46_decoder.md R235 to R239). -/

namespace Sys2Proof.Machine

/-! ### A tree and the paths of its nodes -/

/-- The nodes made so far, and the list of their paths from the root: node `i` has the path `L[i]`. -/
structure Trie (L : List (List Bool)) (t : State) : Prop where
  count : t.ncnt.toNat = L.length
  fits : L.length ≤ 511
  root : L[0]? = some []
  nodup : L.Nodup
  closed : ∀ p b, p ++ [b] ∈ L → p ∈ L
  child_iff : ∀ (i j : NodeIdx) (b : Bool) (p : List Bool), L[i.val]? = some p →
    (child (nodeAt t i) b = some j ↔ L[j.val]? = some (p ++ [b]))
  leaf : ∀ (i : NodeIdx) (b : Bool), i.val < L.length → (nodeAt t i).tag = .leaf → child (nodeAt t i) b = none
  freq : ∀ i : NodeIdx, i.val < L.length → (nodeAt t i).freq = 0#64

namespace Trie

variable {L : List (List Bool)} {t : State}

/-- With a path every beginning of it is the path of a node. -/
theorem mem_of_prefix (h : Trie L t) (q : List Bool) : ∀ {p : List Bool}, p <+: q → q ∈ L → p ∈ L := by
  induction q using List.reverseRecOn with
  | nil => intro p hp hq; rwa [List.prefix_nil.mp hp]
  | append_singleton q b ih =>
    intro p hp hq
    rcases List.prefix_concat_iff.mp hp with rfl | hp
    · exact hq
    · exact ih hp (h.closed q b hq)

/-- A path of the list is that of one node index. -/
theorem exists_index (h : Trie L t) {p : List Bool} (hp : p ∈ L) : ∃ j : NodeIdx, L[j.val]? = some p := by
  obtain ⟨n, hn, rfl⟩ := List.mem_iff_getElem.mp hp
  exact ⟨⟨n, Nat.lt_of_lt_of_le hn h.fits⟩, List.getElem?_eq_getElem hn⟩

theorem index_unique (h : Trie L t) {i j : NodeIdx} {p : List Bool} (hi : L[i.val]? = some p) (hj : L[j.val]? = some p) : i = j := by
  obtain ⟨hi', rfl⟩ := List.getElem?_eq_some_iff.mp hi
  obtain ⟨hj', e⟩ := List.getElem?_eq_some_iff.mp hj
  exact Fin.ext (h.nodup.getElem_inj_iff.mp e.symm)

/-- A child is absent where the path through it is no node's. -/
theorem child_eq_none_iff (h : Trie L t) {i : NodeIdx} {p : List Bool} (hi : L[i.val]? = some p) (b : Bool) :
    child (nodeAt t i) b = none ↔ p ++ [b] ∉ L := by
  constructor
  · intro hc hm
    obtain ⟨j, hj⟩ := h.exists_index hm
    simp [(h.child_iff i j b p hi).mpr hj] at hc
  · intro hm
    by_contra hc
    obtain ⟨j, hj⟩ := Option.ne_none_iff_exists'.mp hc
    exact hm (List.mem_of_getElem? ((h.child_iff i j b p hi).mp hj))

/-- Descending by a path of the list ends on its node, and no other path leads anywhere. -/
theorem follow_iff (h : Trie L t) (p : List Bool) : ∀ {j : NodeIdx}, follow t 0 p = some j ↔ L[j.val]? = some p := by
  induction p using List.reverseRecOn with
  | nil =>
    intro j
    rw [follow, Option.some.injEq]
    exact ⟨fun e => e ▸ h.root, fun hj => h.index_unique h.root hj⟩
  | append_singleton p b ih =>
    intro j
    rw [follow_concat]
    constructor
    · rintro ⟨k, hk, _, hc⟩
      exact (h.child_iff k j b p (ih.mp hk)).mp hc
    · intro hj
      obtain ⟨k, hk⟩ := h.exists_index (h.closed p b (List.mem_of_getElem? hj))
      have hc := (h.child_iff k j b p hk).mpr hj
      refine ⟨k, ih.mpr hk, ?_, hc⟩
      cases ht : (nodeAt t k).tag
      · rfl
      · have hlt := (List.getElem?_eq_some_iff.mp hk).1
        simp [h.leaf k b hlt ht] at hc

/-- Marking a node without children as the leaf of a symbol keeps the paths. -/
theorem mark (h : Trie L t) {i : NodeIdx} (hbare : isBare (nodeAt t i) = true) (y : Sym) :
    Trie L (setNode i { nodeAt t i with tag := .leaf, sym := y } t) := by
  obtain ⟨_, hl, hr⟩ : (nodeAt t i).tag = .int ∧ (nodeAt t i).left = none ∧ (nodeAt t i).right = none := by
    simpa [isBare] using hbare
  have hchild (k : NodeIdx) (b : Bool) :
      child (nodeAt (setNode i { nodeAt t i with tag := .leaf, sym := y } t) k) b = child (nodeAt t k) b := by
    by_cases hk : k = i
    · rw [hk, nodeAt_setNode_self]; rfl
    · rw [nodeAt_setNode_ne hk]
  refine ⟨h.count, h.fits, h.root, h.nodup, h.closed, fun k j b p hp => ?_, fun k b hk ht => ?_, fun k hk => ?_⟩
  · rw [hchild]; exact h.child_iff k j b p hp
  · rw [hchild]
    by_cases hki : k = i
    · rw [hki]; cases b <;> simp [child, hl, hr]
    · rw [nodeAt_setNode_ne hki] at ht
      exact h.leaf k b hk ht
  · by_cases hki : k = i
    · rw [hki, nodeAt_setNode_self]; exact h.freq i (hki ▸ hk)
    · rw [nodeAt_setNode_ne hki]; exact h.freq k hk

end Trie

/-! ### A new node (R235) -/

/-- What the new node and the pointer to it change: the new node is free, the one child is set, all else is as it was. -/
theorem nodeAt_grow {t u : State} {i j : NodeIdx} {b : Bool} (ha : allocNode Node.free t = some (j, u)) (hij : i ≠ j) :
    nodeAt (setChild i b (some j) u) j = Node.free ∧ child (nodeAt (setChild i b (some j) u) i) b = some j ∧
      (∀ k c, k ≠ j → ¬ (k = i ∧ c = b) → child (nodeAt (setChild i b (some j) u) k) c = child (nodeAt t k) c) ∧
      ∀ k, k ≠ j → (nodeAt (setChild i b (some j) u) k).tag = (nodeAt t k).tag ∧
        (nodeAt (setChild i b (some j) u) k).sym = (nodeAt t k).sym ∧
        (nodeAt (setChild i b (some j) u) k).freq = (nodeAt t k).freq := by
  obtain ⟨hnew, hold, _, _⟩ := nodeAt_allocNode ha
  have hni : nodeAt (setChild i b (some j) u) i =
      if b then { nodeAt t i with right := some j } else { nodeAt t i with left := some j } := by
    rw [nodeAt_setChild_self, hold i hij]
  have hnk (k : NodeIdx) (h1 : k ≠ i) (h2 : k ≠ j) : nodeAt (setChild i b (some j) u) k = nodeAt t k := by
    rw [nodeAt_setChild_ne h1, hold k h2]
  refine ⟨by rw [nodeAt_setChild_ne hij.symm, hnew], by rw [hni]; cases b <;> rfl, fun k c hk hkc => ?_, fun k hk => ?_⟩
  · by_cases hki : k = i
    · obtain rfl : c = !b := by cases c <;> cases b <;> simp [hki] at hkc ⊢
      rw [hki, hni]; cases b <;> rfl
    · rw [hnk k hki hk]
  · by_cases hki : k = i
    · rw [hki, hni]; cases b <;> exact ⟨rfl, rfl, rfl⟩
    · rw [hnk k hki hk]; exact ⟨rfl, rfl, rfl⟩

/-- The list with one more path, by index. -/
theorem getElem?_concat_ne {L : List (List Bool)} {q : List Bool} {j k : NodeIdx} (hj : j.val = L.length) (hk : k ≠ j) :
    (L ++ [q])[k.val]? = L[k.val]? := by
  have hne : k.val ≠ L.length := fun e => hk (Fin.ext (e.trans hj.symm))
  rcases Nat.lt_or_gt_of_ne hne with hlt | hgt
  · exact List.getElem?_append_left hlt
  · rw [List.getElem?_eq_none (by simp; omega), List.getElem?_eq_none (by omega)]

namespace Trie

section
variable {L : List (List Bool)} {t u : State} {i j : NodeIdx} {p : List Bool} {b : Bool}

/-- The children of the grown tree are those of the grown list. -/
theorem grow_child_iff (h : Trie L t) (hi : L[i.val]? = some p) (hnot : p ++ [b] ∉ L)
    (ha : allocNode Node.free t = some (j, u)) (hj : j.val = L.length) (k m : NodeIdx) (c : Bool) (q : List Bool)
    (hq : (L ++ [p ++ [b]])[k.val]? = some q) :
    child (nodeAt (setChild i b (some j) u) k) c = some m ↔ (L ++ [p ++ [b]])[m.val]? = some (q ++ [c]) := by
  have hilt : i.val < L.length := (List.getElem?_eq_some_iff.mp hi).1
  obtain ⟨hfree, hset, hsame, _⟩ := nodeAt_grow (b := b) ha (i := i) (fun e => by rw [e] at hilt; omega)
  have hjnew : (L ++ [p ++ [b]])[j.val]? = some (p ++ [b]) := by rw [hj]; simp
  by_cases hkj : k = j
  · -- the new node has no child, and no path goes through it
    subst hkj
    obtain rfl : p ++ [b] = q := Option.some.inj (hjnew.symm.trans hq)
    refine iff_of_false (by rw [hfree]; cases c <;> nofun) fun hm => ?_
    rcases List.mem_append.mp (List.mem_of_getElem? hm) with hm | hm
    · exact hnot (h.closed _ c hm)
    · have := congrArg List.length (List.mem_singleton.mp hm)
      simp at this
  · rw [getElem?_concat_ne hj hkj] at hq
    by_cases hkc : k = i ∧ c = b
    · -- the child that was set
      obtain ⟨rfl, rfl⟩ := hkc
      obtain rfl : p = q := Option.some.inj (hi.symm.trans hq)
      rw [hset, Option.some.injEq]
      refine ⟨fun e => e ▸ hjnew, fun hm => ?_⟩
      by_contra hne
      rw [getElem?_concat_ne hj (Ne.symm hne)] at hm
      exact hnot (List.mem_of_getElem? hm)
    · -- a child that was there
      rw [hsame k c hkj hkc, h.child_iff k m c q hq]
      by_cases hmj : m = j
      · subst hmj
        rw [hjnew, List.getElem?_eq_none (Nat.le_of_eq hj.symm)]
        refine iff_of_false nofun fun e => ?_
        obtain ⟨rfl, hcb⟩ := List.append_inj' (Option.some.inj e) rfl
        exact hkc ⟨h.index_unique hq hi, by simpa using hcb.symm⟩
      · rw [getElem?_concat_ne hj hmj]

/-- A new node below an internal one, where there was no child: its path is the last of the list. -/
theorem grow (h : Trie L t) (hi : L[i.val]? = some p) (htag : (nodeAt t i).tag ≠ .leaf) (hc : child (nodeAt t i) b = none)
    (ha : allocNode Node.free t = some (j, u)) :
    Trie (L ++ [p ++ [b]]) (setChild i b (some j) u) ∧ (L ++ [p ++ [b]])[j.val]? = some (p ++ [b]) := by
  obtain ⟨_, _, hj, hcnt⟩ := nodeAt_allocNode ha
  rw [h.count] at hj hcnt
  have hilt : i.val < L.length := (List.getElem?_eq_some_iff.mp hi).1
  obtain ⟨hfree, _, hsame, hfields⟩ := nodeAt_grow (b := b) ha (i := i) (fun e => by rw [e] at hilt; omega)
  have hnot : p ++ [b] ∉ L := (h.child_eq_none_iff hi b).mp hc
  have hold {k : NodeIdx} (hk : k.val < (L ++ [p ++ [b]]).length) (hkj : k ≠ j) : k.val < L.length := by
    have : k.val ≠ j.val := fun e => hkj (Fin.ext e)
    rw [List.length_append, List.length_singleton] at hk
    omega
  refine ⟨⟨?count, ?fits, ?root, ?nodup, ?closed, h.grow_child_iff hi hnot ha hj, ?leaf, ?freq⟩, by rw [hj]; simp⟩
  case count => rw [List.length_append]; exact hcnt
  case fits => have := j.isLt; rw [List.length_append, List.length_singleton]; omega
  case root => rw [List.getElem?_append_left (by omega)]; exact h.root
  case nodup => rw [← List.concat_eq_append]; exact (List.nodup_concat L _).mpr ⟨hnot, h.nodup⟩
  case closed =>
    intro q c hq
    rcases List.mem_append.mp hq with hq | hq
    · exact List.mem_append_left _ (h.closed q c hq)
    · obtain ⟨rfl, _⟩ := List.append_inj' (List.mem_singleton.mp hq) rfl
      exact List.mem_append_left _ (List.mem_of_getElem? hi)
  case leaf =>
    intro k c hk ht
    by_cases hkj : k = j
    · rw [hkj, hfree] at ht
      cases ht
    · rw [(hfields k hkj).1] at ht
      rw [hsame k c hkj fun hki => htag (hki.1 ▸ ht)]
      exact h.leaf k c (hold hk hkj) ht
  case freq =>
    intro k hk
    by_cases hkj : k = j
    · rw [hkj, hfree]; rfl
    · rw [(hfields k hkj).2.2]
      exact h.freq k (hold hk hkj)

end

end Trie

/-! ### Walking or creating the nodes of a code (R235) -/

/-- From tree `t` with paths `L` to tree `t'` with paths `L'`: the beginnings of `q` are added, as internal nodes. -/
structure Grown (L : List (List Bool)) (t : State) (q : List Bool) (L' : List (List Bool)) (t' : State) : Prop where
  trie : Trie L' t'
  prefix_list : L <+: L'
  mem_iff : ∀ p, p ∈ L' ↔ p ∈ L ∨ p <+: q
  old : ∀ k : NodeIdx, k.val < L.length → (nodeAt t' k).tag = (nodeAt t k).tag ∧ (nodeAt t' k).sym = (nodeAt t k).sym
  new : ∀ k : NodeIdx, L.length ≤ k.val → k.val < L'.length → (nodeAt t' k).tag = .int

/-- The three ways the insertion of the rest `c` of a path from node `i` ends: on the node of the whole path; at a leaf above
it; or with all 511 nodes in use and a path to spare. -/
theorem insertPath_trie (c : List Bool) : ∀ {L : List (List Bool)} {t : State} {i : NodeIdx} {p : List Bool}, Trie L t →
    L[i.val]? = some p →
    (∃ j t' L', insertPath i c t = .ok j t' ∧ Grown L t (p ++ c) L' t' ∧ L'[j.val]? = some (p ++ c)) ∨
    (∃ t' k q b, insertPath i c t = .raised .hdrPrefix t' ∧ L[k.val]? = some q ∧ (nodeAt t k).tag = .leaf ∧
      q ++ [b] <+: p ++ c) ∨
    (∃ t', ∃ M : List (List Bool), insertPath i c t = .raised .hdrNodes t' ∧ M.Nodup ∧ 511 < M.length ∧
      ∀ q ∈ M, q ∈ L ∨ q <+: p ++ c) := by
  induction c with
  | nil =>
    intro L t i p h hi
    have hp : p ∈ L := List.mem_of_getElem? hi
    refine .inl ⟨i, t, L, rfl, ⟨h, List.prefix_rfl, fun q => ?_, fun _ _ => ⟨rfl, rfl⟩, fun k h1 h2 => absurd h2 (by omega)⟩,
      by rwa [List.append_nil]⟩
    rw [List.append_nil]
    exact ⟨.inl, fun hq => hq.elim id fun hq => h.mem_of_prefix p hq hp⟩
  | cons b c ih =>
    intro L t i p h hi
    have hsplit : p ++ b :: c = (p ++ [b]) ++ c := by simp
    have hpre : p ++ [b] <+: p ++ b :: c := by rw [hsplit]; exact List.prefix_append _ _
    by_cases htag : (nodeAt t i).tag = .leaf
    · exact .inr (.inl ⟨t, i, p, b, insertPath_leaf b c htag, hi, htag, hpre⟩)
    rcases hc : child (nodeAt t i) b with _ | j
    · have hnot := (h.child_eq_none_iff hi b).mp hc
      rcases ha : allocNode Node.free t with _ | ⟨j, u⟩
      · -- no node is free: the paths in use and the one that has no node
        rcases allocNode_cases Node.free t with ⟨_, e, _⟩ | ⟨hfull, _⟩
        · simp [e] at ha
        · refine .inr (.inr ⟨t, (p ++ [b]) :: L, insertPath_full c htag hc ha, List.nodup_cons.mpr ⟨hnot, h.nodup⟩, ?_,
            fun q hq => ?_⟩)
          · rw [List.length_cons, ← h.count]; omega
          · rcases List.mem_cons.mp hq with rfl | hq
            · exact .inr hpre
            · exact .inl hq
      · -- a new node, and on from there
        obtain ⟨hgrow, hj⟩ := h.grow hi htag hc ha
        have hilt : i.val < L.length := (List.getElem?_eq_some_iff.mp hi).1
        have hjval : j.val = L.length := (nodeAt_allocNode ha).2.2.1.trans h.count
        obtain ⟨hfree, _, _, hfields⟩ := nodeAt_grow (b := b) ha (i := i) (fun e => by rw [e] at hilt; omega)
        have hmem (q : List Bool) : q ∈ L ++ [p ++ [b]] → q ∈ L ∨ q <+: p ++ b :: c := fun hq =>
          (List.mem_append.mp hq).imp_right fun hq => by rw [List.mem_singleton.mp hq]; exact hpre
        have hlt {k : NodeIdx} (hk : k.val < L.length) : k ≠ j := fun e => by rw [e] at hk; omega
        rw [insertPath_new c htag hc ha, hsplit]
        rw [hsplit] at hmem
        rcases ih hgrow hj with ⟨j', t', L', e, hG, hj'⟩ | ⟨t', k, q, d, e, hk, hleaf, hq⟩ | ⟨t', M, e, hM, hlen, hsub⟩
        · refine .inl ⟨j', t', L', e, ⟨hG.trie, (List.prefix_append L _).trans hG.prefix_list, fun q => ?_, fun k hk => ?_,
            fun k h1 h2 => ?_⟩, hj'⟩
          · rw [hG.mem_iff]
            exact ⟨fun hq => hq.elim (hmem q) .inr, fun hq => hq.imp_left (List.mem_append_left _)⟩
          · obtain ⟨e1, e2⟩ := hG.old k (by rw [List.length_append]; omega)
            exact ⟨e1.trans (hfields k (hlt hk)).1, e2.trans (hfields k (hlt hk)).2.1⟩
          · by_cases hkj : k = j
            · rw [hkj, (hG.old j (by simp [hjval])).1, hfree]; rfl
            · have : k.val ≠ j.val := fun e => hkj (Fin.ext e)
              exact hG.new k (by rw [List.length_append, List.length_singleton]; omega) h2
        · have hkj : k ≠ j := by rintro rfl; rw [hfree] at hleaf; cases hleaf
          rw [getElem?_concat_ne hjval hkj] at hk
          exact .inr (.inl ⟨t', k, q, d, e, hk, (hfields k hkj).1 ▸ hleaf, hq⟩)
        · exact .inr (.inr ⟨t', M, e, hM, hlen, fun q hq => (hsub q hq).elim (hmem q) .inr⟩)
    · rw [insertPath_down c htag hc, hsplit]
      exact ih h ((h.child_iff i j b p hi).mp hc)

/-! ### Inserting codes one after another -/

/-- The tree of the codes of the symbols `ys`: its paths are their beginnings and the empty one, its leaves the whole codes. -/
structure CodeTree (code : Sym → List Bool) (ys : List Sym) (L : List (List Bool)) (t : State) : Prop where
  trie : Trie L t
  mem_iff : ∀ p, p ∈ L ↔ p = [] ∨ ∃ y ∈ ys, p <+: code y
  leaf_iff : ∀ (i : NodeIdx) (p : List Bool), L[i.val]? = some p → ∀ y,
    ((nodeAt t i).tag = .leaf ∧ (nodeAt t i).sym = y) ↔ (y ∈ ys ∧ p = code y)

namespace CodeTree

variable {code : Sym → List Bool} {ys : List Sym} {L L' : List (List Bool)} {t t' : State} {y : Sym}

/-- The code of an inserted symbol is the path of a leaf that names it. -/
theorem leaf_of_mem (h : CodeTree code ys L t) {z : Sym} (hz : z ∈ ys) :
    ∃ i : NodeIdx, L[i.val]? = some (code z) ∧ (nodeAt t i).tag = .leaf ∧ (nodeAt t i).sym = z := by
  obtain ⟨i, hi⟩ := h.trie.exists_index ((h.mem_iff (code z)).mpr (.inr ⟨z, hz, List.prefix_rfl⟩))
  exact ⟨i, hi, (h.leaf_iff i _ hi z).mpr ⟨hz, rfl⟩⟩

/-- The beginnings of the codes with one code more. -/
theorem mem_concat_iff (h : CodeTree code ys L t) (q : List Bool) :
    (q ∈ L ∨ q <+: code y) ↔ q = [] ∨ ∃ z ∈ ys ++ [y], q <+: code z := by
  rw [h.mem_iff]
  simp [or_and_right, exists_or, or_assoc]

/-- A node on which the code of a new symbol ends becomes its leaf, where it has no child and is none itself. -/
theorem mark (h : CodeTree code ys L t) (hG : Grown L t (code y) L' t') {j : NodeIdx} (hj : L'[j.val]? = some (code y))
    (hbare : isBare (nodeAt t' j) = true) :
    CodeTree code (ys ++ [y]) L' (setNode j { nodeAt t' j with tag := .leaf, sym := y } t') := by
  have hkeep {i : NodeIdx} (hi : i.val < L.length) : L'[i.val]? = L[i.val]? := by
    obtain ⟨M, rfl⟩ := hG.prefix_list
    exact List.getElem?_append_left hi
  have hleaf {z : Sym} (hz : z ∈ ys) :
      ∃ i : NodeIdx, i.val < L.length ∧ L'[i.val]? = some (code z) ∧ (nodeAt t' i).tag = .leaf := by
    obtain ⟨i, hi, htag, _⟩ := h.leaf_of_mem hz
    have hlt := (List.getElem?_eq_some_iff.mp hi).1
    exact ⟨i, hlt, (hkeep hlt).trans hi, (hG.old i hlt).1.trans htag⟩
  refine ⟨hG.trie.mark hbare y, fun p => (hG.mem_iff p).trans (h.mem_concat_iff p), fun i p hp z => ?_⟩
  by_cases hij : i = j
  · -- the marked node: no symbol before had its path
    subst hij
    obtain rfl : code y = p := Option.some.inj (hj.symm.trans hp)
    rw [nodeAt_setNode_self]
    refine ⟨fun ⟨_, hz⟩ => by simp [← hz], fun ⟨hz, e⟩ => ⟨rfl, ?_⟩⟩
    rcases List.mem_append.mp hz with hz | hz
    · obtain ⟨k, _, hk, htag⟩ := hleaf hz
      rw [← e] at hk
      rw [hG.trie.index_unique hk hj] at htag
      simp [isBare, htag] at hbare
    · exact (List.mem_singleton.mp hz).symm
  · rw [nodeAt_setNode_ne hij]
    have hne : z = y → p ≠ code y := fun _ e => hij (hG.trie.index_unique (e ▸ hp) hj)
    by_cases hi : i.val < L.length
    · rw [(hG.old i hi).1, (hG.old i hi).2, h.leaf_iff i p ((hkeep hi).symm.trans hp) z, List.mem_append, List.mem_singleton]
      exact ⟨fun ⟨hz, e⟩ => ⟨.inl hz, e⟩, fun ⟨hz, e⟩ => ⟨hz.resolve_right fun ez => hne ez (ez ▸ e), e⟩⟩
    · rw [hG.new i (Nat.le_of_not_lt hi) (List.getElem?_eq_some_iff.mp hp).1]
      refine iff_of_false nofun fun ⟨hz, e⟩ => ?_
      rcases List.mem_append.mp hz with hz | hz
      · obtain ⟨k, hk, hkp, _⟩ := hleaf hz
        exact hi (hG.trie.index_unique (e ▸ hp) hkp ▸ hk)
      · rw [List.mem_singleton] at hz
        exact hne hz (hz ▸ e)

/-- Where the node of a new code is a leaf or has a child, the code goes on from one there is or is a beginning of one. -/
theorem clash (h : CodeTree code ys L t) (hG : Grown L t (code y) L' t') {j : NodeIdx} (hj : L'[j.val]? = some (code y))
    (hbare : isBare (nodeAt t' j) ≠ true) : ∃ z ∈ ys, code z <+: code y ∨ code y <+: code z := by
  by_cases htag : (nodeAt t' j).tag = .leaf
  · by_cases hlt : j.val < L.length
    · obtain ⟨M, rfl⟩ := hG.prefix_list
      rw [List.getElem?_append_left hlt] at hj
      rw [(hG.old j hlt).1] at htag
      obtain ⟨hz, e⟩ := (h.leaf_iff j _ hj _).mp ⟨htag, rfl⟩
      exact ⟨_, hz, .inl (e ▸ List.prefix_rfl)⟩
    · rw [hG.new j (Nat.le_of_not_lt hlt) (List.getElem?_eq_some_iff.mp hj).1] at htag
      cases htag
  · have hchild : ∃ b m, child (nodeAt t' j) b = some m := by
      by_contra hnone
      push Not at hnone
      refine hbare (decide_eq_true ⟨?_, ?_, ?_⟩)
      · cases ht : (nodeAt t' j).tag
        · rfl
        · exact absurd ht htag
      · exact Option.eq_none_iff_forall_ne_some.mpr (hnone false)
      · exact Option.eq_none_iff_forall_ne_some.mpr (hnone true)
    obtain ⟨b, m, hm⟩ := hchild
    have hmem := List.mem_of_getElem? ((hG.trie.child_iff j m b _ hj).mp hm)
    rcases (hG.mem_iff _).mp hmem with hmem | hmem
    · rcases (h.mem_iff _).mp hmem with e | ⟨z, hz, hpre⟩
      · simp at e
      · exact ⟨z, hz, .inr ((List.prefix_append _ _).trans hpre)⟩
    · have := hmem.length_le
      simp at this

end CodeTree

/-- The paths in `M` are different, too many for the node memory, and all beginnings of the codes of `ys`. -/
def tooManyPaths (code : Sym → List Bool) (ys : List Sym) (M : List (List Bool)) : Prop :=
  M.Nodup ∧ 511 < M.length ∧ ∀ q ∈ M, q = [] ∨ ∃ z ∈ ys, q <+: code z

/-- One code more (R235): it becomes a leaf; or it is a beginning of a code there is, or goes on from one; or the paths do not
fit the node memory. -/
theorem insertCode_codeTree {code : Sym → List Bool} {ys : List Sym} {L : List (List Bool)} {t : State} {y : Sym}
    (h : CodeTree code ys L t) (hcode : codeOf t y = code y) :
    (∃ t' L', insertCode y t = .ok () t' ∧ CodeTree code (ys ++ [y]) L' t') ∨
    (∃ t', insertCode y t = .raised .hdrPrefix t' ∧ ∃ z ∈ ys, code z <+: code y ∨ code y <+: code z) ∨
    (∃ t' M, insertCode y t = .raised .hdrNodes t' ∧ tooManyPaths code (ys ++ [y]) M) := by
  have hroot : L[(0 : NodeIdx).val]? = some [] := h.trie.root
  rw [insertCode, hcode]
  rcases insertPath_trie (code y) h.trie hroot with
    ⟨j, t1, L1, e, hG, hj⟩ | ⟨t1, k, q, b, e, hk, hleaf, hq⟩ | ⟨t1, M, e, hM, hlen, hsub⟩
  · rw [e, bind_ok]
    by_cases hbare : isBare (nodeAt t1 j) = true
    · exact .inl ⟨_, L1, if_pos hbare, h.mark hG hj hbare⟩
    · exact .inr (.inl ⟨t1, if_neg hbare, h.clash hG hj hbare⟩)
  · obtain ⟨hz, rfl⟩ := (h.leaf_iff k q hk _).mp ⟨hleaf, rfl⟩
    exact .inr (.inl ⟨t1, by rw [e, bind_raised], _, hz, .inl ((List.prefix_append _ _).trans hq)⟩)
  · exact .inr (.inr ⟨t1, M, by rw [e, bind_raised], hM, hlen, fun q hq => (h.mem_concat_iff q).mp (hsub q hq)⟩)

/-- The codes of a list, one after another: the tree of them all; or two of which one begins the other; or paths to spare. -/
theorem insertCodes_codeTree {code : Sym → List Bool} (zs : List Sym) : ∀ {ys : List Sym} {L : List (List Bool)} {t : State},
    CodeTree code ys L t → (∀ y, codeOf t y = code y) → (ys ++ zs).Nodup →
    (∃ t' L', insertCodes zs t = .ok () t' ∧ CodeTree code (ys ++ zs) L' t') ∨
    (∃ t', insertCodes zs t = .raised .hdrPrefix t' ∧ ∃ y ∈ ys ++ zs, ∃ z ∈ ys ++ zs, y ≠ z ∧ code y <+: code z) ∨
    (∃ t' M, insertCodes zs t = .raised .hdrNodes t' ∧ tooManyPaths code (ys ++ zs) M) := by
  induction zs with
  | nil => intro ys L t h _ _; exact .inl ⟨t, L, rfl, by rwa [List.append_nil]⟩
  | cons y zs ih =>
    intro ys L t h hcode hnd
    have hsplit : ys ++ y :: zs = (ys ++ [y]) ++ zs := by simp
    rw [insertCodes]
    rcases insertCode_codeTree h (hcode y) with ⟨t', L', e, h'⟩ | ⟨t', e, z, hz, hpre⟩ | ⟨t', M, e, hM, hlen, hsub⟩
    · have hcode' : ∀ z, codeOf t' z = code z := by
        obtain ⟨m, n, e' | e' | e'⟩ := insertCode_frame y t
        · obtain ⟨_, rfl⟩ := Res.ok.inj (e.symm.trans e')
          exact hcode
        · simp [e] at e'
        · simp [e] at e'
      rw [e, bind_ok, hsplit]
      exact ih h' hcode' (hsplit ▸ hnd)
    · have hne : z ≠ y := (List.nodup_append.mp hnd).2.2 z hz y (List.mem_cons_self ..)
      refine .inr (.inl ⟨t', by rw [e, bind_raised], ?_⟩)
      rcases hpre with hpre | hpre
      · exact ⟨z, by simp [hz], y, by simp, hne, hpre⟩
      · exact ⟨y, by simp, z, by simp [hz], hne.symm, hpre⟩
    · refine .inr (.inr ⟨t', M, by rw [e, bind_raised], hM, hlen, fun q hq => (hsub q hq).imp_right fun ⟨z, hz, hpre⟩ => ?_⟩)
      exact ⟨z, by rw [hsplit]; exact List.mem_append_left _ hz, hpre⟩

/-! ### `RECON` -/

/-- The tree before the first code: its root. -/
theorem emptyRoot_codeTree (code : Sym → List Bool) (s : State) : CodeTree code [] [[]] (emptyRoot s) := by
  have hzero {i : NodeIdx} {p : List Bool} (hp : [([] : List Bool)][i.val]? = some p) : i = 0 ∧ p = [] := by
    obtain ⟨hi, e⟩ := List.getElem?_eq_some_iff.mp hp
    have h0 : i.val = 0 := by simpa using hi
    exact ⟨Fin.ext h0, by simpa [h0] using e.symm⟩
  have hfree : nodeAt (emptyRoot s) 0 = Node.free := nodeAt_setNode_self ..
  have hin {i : NodeIdx} (hi : i.val < [([] : List Bool)].length) : i = 0 := Fin.ext (by simpa using hi)
  refine ⟨⟨rfl, by simp, rfl, by simp, fun p b hp => ?_, fun i j b p hp => ?_, fun i b hi ht => ?_, fun i hi => ?_⟩,
    fun p => by simp, fun i p hp y => ?_⟩
  · simp at hp
  · obtain ⟨rfl, rfl⟩ := hzero hp
    rw [hfree]
    refine iff_of_false (by cases b <;> nofun) fun hj => ?_
    simpa using (hzero hj).2
  · rw [hin hi, hfree] at ht
    cases ht
  · rw [hin hi, hfree]; rfl
  · rw [(hzero hp).1, hfree]
    exact iff_of_false nofun nofun

theorem codedSyms_nodup (s : State) : (codedSyms s).Nodup := (codedSyms_sorted s).imp fun h e => by simp [e] at h

/-- `RECON` past the common checks: the tree of the codes and the decode opened; or two codes that clash; or too many paths. -/
theorem reconBody_codeTree (s : State) :
    (∃ t L, reconBody s = .ok 0#64 t ∧ CodeTree (codeOf s) (codedSyms s) L t) ∨
    (∃ t, reconBody s = .raised .hdrPrefix t ∧ ¬ prefixFree s) ∨
    (∃ t M, reconBody s = .raised .hdrNodes t ∧ tooManyPaths (codeOf s) (codedSyms s) M) := by
  rcases insertCodes_codeTree (codedSyms s) (emptyRoot_codeTree (codeOf s) s) (fun _ => rfl) (codedSyms_nodup s) with
    ⟨t, L, e, h⟩ | ⟨t, e, y, hy, z, hz, hne, hpre⟩ | ⟨t, M, e, hM⟩
  · refine .inl ⟨_, L, by rw [reconBody, e, bind_ok], ?_⟩
    exact ⟨⟨h.trie.count, h.trie.fits, h.trie.root, h.trie.nodup, h.trie.closed, h.trie.child_iff, h.trie.leaf,
      h.trie.freq⟩, h.mem_iff, h.leaf_iff⟩
  · exact .inr (.inl ⟨t, by rw [reconBody, e, bind_raised],
      fun hpf => hpf y z hne ((mem_codedSyms s y).mp hy) ((mem_codedSyms s z).mp hz) hpre⟩)
  · exact .inr (.inr ⟨t, M, by rw [reconBody, e, bind_raised], hM⟩)

theorem nodup_codePrefixes (s : State) : (codePrefixes s).Nodup := List.nodup_dedup _

namespace CodeTree

variable {s t : State} {L : List (List Bool)}

/-- The codes lead to the leaves of their symbols, and no other path leads to a leaf. -/
theorem leafPath_iff (h : CodeTree (codeOf s) (codedSyms s) L t) (p : List Bool) (y : Sym) :
    leafPath t 0 p y ↔ clenOf s y ≠ 0#8 ∧ p = codeOf s y := by
  rw [← mem_codedSyms]
  constructor
  · rintro ⟨j, hj, hleaf⟩
    exact (h.leaf_iff j p ((h.trie.follow_iff p).mp hj) y).mp hleaf
  · rintro ⟨hy, rfl⟩
    obtain ⟨i, hi, hleaf⟩ := h.leaf_of_mem hy
    exact ⟨i, (h.trie.follow_iff _).mpr hi, hleaf⟩

/-- Of codes that have a tree none begins another: a leaf has no child, and names one symbol. -/
theorem prefixFree (h : CodeTree (codeOf s) (codedSyms s) L t) : prefixFree s := by
  intro y z hyz hy hz hpre
  obtain ⟨i, hi, htag, hsym⟩ := h.leaf_of_mem ((mem_codedSyms s y).mpr hy)
  obtain ⟨c, e⟩ := hpre
  cases c with
  | nil =>
    rw [List.append_nil] at e
    exact hyz (hsym.symm.trans ((h.leaf_iff i _ hi z).mpr ⟨(mem_codedSyms s z).mpr hz, e⟩).2)
  | cons b c =>
    have hmem : codeOf s y ++ [b] ∈ L :=
      (h.mem_iff _).mpr (.inr ⟨z, (mem_codedSyms s z).mpr hz, c, by simpa using e⟩)
    have hnone := h.trie.leaf i b (List.getElem?_eq_some_iff.mp hi).1 htag
    exact (h.trie.child_eq_none_iff hi b).mp hnone hmem

/-- The tree has a node for every beginning of a code, and its root. -/
theorem length_eq (h : CodeTree (codeOf s) (codedSyms s) L t) : L.length = max 1 (codePrefixes s).length := by
  by_cases hcoded : ∃ y, clenOf s y ≠ 0#8
  · obtain ⟨y, hy⟩ := hcoded
    have hperm : L.Perm (codePrefixes s) := (List.perm_ext_iff_of_nodup h.trie.nodup (nodup_codePrefixes s)).mpr fun p => by
      rw [h.mem_iff, mem_codePrefixes]
      simp only [mem_codedSyms]
      exact or_iff_right_of_imp fun e => ⟨y, hy, e ▸ List.nil_prefix⟩
    have hpos : 0 < L.length := (List.getElem?_eq_some_iff.mp h.trie.root).1
    rw [← hperm.length_eq]
    omega
  · have hnone : codePrefixes s = [] := List.eq_nil_iff_forall_not_mem.mpr fun p hp => by
      obtain ⟨y, hy, _⟩ := (mem_codePrefixes s p).mp hp
      exact hcoded ⟨y, hy⟩
    have hperm : L.Perm [[]] := (List.perm_ext_iff_of_nodup h.trie.nodup (by simp)).mpr fun p => by
      rw [h.mem_iff, List.mem_singleton]
      exact or_iff_left fun ⟨y, hy, _⟩ => hcoded ⟨y, (mem_codedSyms s y).mp hy⟩
    rw [hperm.length_eq, hnone]
    rfl

end CodeTree

/-- Different paths, too many for the node memory, are beginnings of codes. -/
theorem lt_length_codePrefixes {s : State} {M : List (List Bool)} (h : tooManyPaths (codeOf s) (codedSyms s) M) :
    511 < (codePrefixes s).length := by
  obtain ⟨hnd, hlen, hmem⟩ := h
  have hcoded : ∃ y, clenOf s y ≠ 0#8 := by
    by_contra hnone
    have hsub : M ⊆ [[]] := fun q hq => by
      rcases hmem q hq with rfl | ⟨y, hy, _⟩
      · exact List.mem_singleton.mpr rfl
      · exact absurd ⟨y, (mem_codedSyms s y).mp hy⟩ hnone
    have := (List.subperm_of_subset hnd hsub).length_le
    rw [List.length_singleton] at this
    omega
  obtain ⟨y, hy⟩ := hcoded
  have hsub : M ⊆ codePrefixes s := fun q hq => by
    rw [mem_codePrefixes]
    rcases hmem q hq with rfl | ⟨z, hz, hpre⟩
    · exact ⟨y, hy, List.nil_prefix⟩
    · exact ⟨z, (mem_codedSyms s z).mp hz, hpre⟩
  have := (List.subperm_of_subset hnd hsub).length_le
  omega

/-- `RECON` raises `HDR_PREFIX` only where a code begins another. -/
theorem not_prefixFree_of_hdrPrefix {s t : State} (e : reconBody s = .raised .hdrPrefix t) : ¬ prefixFree s := by
  rcases reconBody_codeTree s with ⟨u, L, e', _⟩ | ⟨u, _, h⟩ | ⟨u, M, e', _⟩
  · simp [e] at e'
  · exact h
  · simp [e] at e'

/-- `RECON` raises `HDR_NODES` only where the paths do not fit the node memory. -/
theorem lt_of_hdrNodes {s t : State} (e : reconBody s = .raised .hdrNodes t) : 511 < (codePrefixes s).length := by
  rcases reconBody_codeTree s with ⟨u, L, e', _⟩ | ⟨u, e', _⟩ | ⟨u, M, _, h⟩
  · simp [e] at e'
  · simp [e] at e'
  · exact lt_length_codePrefixes h

/-- `RECON` that completes has made the tree of the codes. -/
theorem codeTree_of_recon {s t : State} {v : Word} (e : reconBody s = .ok v t) :
    ∃ L, CodeTree (codeOf s) (codedSyms s) L t := by
  rcases reconBody_codeTree s with ⟨u, L, e', h⟩ | ⟨u, e', _⟩ | ⟨u, M, e', _⟩
  · obtain ⟨_, rfl⟩ := Res.ok.inj (e.symm.trans e')
    exact ⟨L, h⟩
  · simp [e] at e'
  · simp [e] at e'

theorem exec_recon_hdr {s : State} (h : s.phase = .hdr) : exec .recon s = finish (reconBody s) :=
  inPhase_legal h (by decide)

/-- Settles O45: `RECON` of a table that fits and whose codes do not begin one another raises neither of its faults, so its tree is that of the codes. -/
theorem reconBuildsTheTreeOfTheCodes : Obligations.ReconBuildsTheTreeOfTheCodes := by
  unfold Obligations.ReconBuildsTheTreeOfTheCodes
  intro s hph hpf hfit
  obtain ⟨m, n, e | e | e⟩ := reconBody_cases s
  · obtain ⟨L, h⟩ := codeTree_of_recon e
    refine ⟨_, (exec_recon_hdr hph).trans (congrArg finish e), rfl, h.trie.count.trans h.length_eq, fun i hi => ?_,
      fun y hy => ?_, fun p y hp => ?_⟩
    · exact h.trie.freq i (h.trie.count ▸ hi)
    · exact (leafPath_congr (respond_node true 0#64 _) ..).mpr ((h.leafPath_iff _ y).mpr ⟨hy, rfl⟩)
    · exact (h.leafPath_iff p y).mp ((leafPath_congr (respond_node true 0#64 _) ..).mp hp)
  · exact absurd hpf (not_prefixFree_of_hdrPrefix e)
  · exact absurd (lt_of_hdrNodes e) (Nat.not_lt.mpr hfit)

/-- Settles O46: a table that `RECON` accepts has no code that begins another and fits, and each of the two faults says which of the two fails. -/
theorem reconRejectsBadCodeTables : Obligations.ReconRejectsBadCodeTables := by
  unfold Obligations.ReconRejectsBadCodeTables
  intro s hph
  rw [exec_recon_hdr hph]
  obtain ⟨m, n, e | e | e⟩ := reconBody_cases s
  · obtain ⟨L, h⟩ := codeTree_of_recon e
    have hpf := h.prefixFree
    have hfit : (codePrefixes s).length ≤ 511 := (le_max_right _ _).trans (h.length_eq ▸ h.trie.fits)
    exact ⟨fun hno => absurd hpf hno, fun _ hbig => absurd hfit (Nat.not_le.mpr hbig), fun hno => absurd hpf hno⟩
  · have hno := not_prefixFree_of_hdrPrefix e
    rw [e, finish_raised]
    exact ⟨fun _ _ => ⟨_, rfl, raiseFault_phase .., raiseFault_err .., raiseFault_errInfo ..⟩, fun hpf => absurd hpf hno,
      fun _ _ => ⟨_, rfl, raiseFault_phase .., raiseFault_err .., .inl (raiseFault_errInfo ..)⟩⟩
  · have hbig := lt_of_hdrNodes e
    rw [e, finish_raised]
    exact ⟨fun _ hfit => absurd hbig (Nat.not_lt.mpr hfit),
      fun _ _ => ⟨_, rfl, raiseFault_phase .., raiseFault_err .., raiseFault_errInfo ..⟩,
      fun _ _ => ⟨_, rfl, raiseFault_phase .., raiseFault_err .., .inr (raiseFault_errInfo ..)⟩⟩

end Sys2Proof.Machine

/-! PROOFS. What one step does with an act of the host, the reads, the frequency table, the port primitives, and the invariant
at reset (30_encoding.md R91; 70_reset_and_hazards.md R330; 40_system_and_read.md; 42_frequency.md; 20_memory.md R62 to R64). -/

namespace Sys2Proof.Machine

/-! ### The acts of the host -/

/-- Settles O5: the step takes the command from the port, and a legal one is executed. -/
theorem stepRunsTheDecodedCommand : Obligations.StepRunsTheDecodedCommand := by
  unfold Obligations.StepRunsTheDecodedCommand
  intro s c i rest hhost hd
  exact step_legal hhost hd

theorem sourceInUse_iff (s : State) : sourceInUse s = true ↔ s.phase = .hdr ∨ s.phase = .dec := decide_eq_true_iff

theorem sinkInUse_iff (s : State) : sinkInUse s = true ↔ s.phase = .enc ∨ s.phase = .dec := decide_eq_true_iff

/-- Settles O15: binding a stream looks at whether the core owns it, and sets that stream only. -/
theorem streamsAreBoundOnlyBetweenRuns : Obligations.StreamsAreBoundOnlyBetweenRuns := by
  unfold Obligations.StreamsAreBoundOnlyBetweenRuns
  refine fun s rest => ⟨fun bytes fails hhost => ?_, fun fails hhost => ?_⟩ <;> rw [step_act hhost]
  · exact ⟨fun h1 h2 => if_neg (by rw [sourceInUse_iff]; exact not_or.mpr ⟨h1, h2⟩),
      fun h => if_pos ((sourceInUse_iff _).mpr h)⟩
  · exact ⟨fun h1 h2 => if_neg (by rw [sinkInUse_iff]; exact not_or.mpr ⟨h1, h2⟩),
      fun h => if_pos ((sinkInUse_iff _).mpr h)⟩

/-! ### The reads (40_system_and_read.md) -/

/-- A read of an item that does not exist is an illegal word: `BAD_CMD`, or ignored in `ERR` (30_encoding.md R99). -/
theorem readItem_none (s : State) :
    (s.phase ≠ .err → readItem none s = .next (raiseFault .badCmd s)) ∧
    (s.phase = .err → readItem none s = .next (ignore s)) :=
  ⟨fun he => congrArg _ (illegalWord_not_err he), fun he => congrArg _ (illegalWord_err he)⟩

/-- No register has a number above 4 (10_state.md R38). -/
theorem regValue_eq_none {r : BitVec 9} (h : 4 < r.toNat) (s : State) : regValue s r = none := by
  unfold regValue
  split
  case h_6 => rfl
  all_goals omega

/-- Settles O17: `NOP` and the two counters are answered as they stand; a number above 4 names no register. -/
theorem nopAndCounterRegisters : Obligations.NopAndCounterRegisters := by
  unfold Obligations.NopAndCounterRegisters
  refine fun s => ⟨exec_nop s, exec_rdreg rfl, exec_rdreg rfl, fun r hr => ?_⟩
  have hexec : exec (.rdreg r) s = readItem none s := congrArg (readItem · s) (regValue_eq_none hr s)
  rw [hexec]
  exact readItem_none s

/-- Bit `63 - j` of word `k` of the code bits is code bit `64k + j` (R134). -/
theorem getLsbD_cbitsWord (s : State) (y : Sym) {k j : Nat} (hk : k < 4) (hj : j < 64) :
    (cbitsWord s y k).getLsbD (63 - j) = (cbitsOf s y).getLsbD (255 - (64 * k + j)) := by
  rw [cbitsWord, BitVec.getLsbD_extractLsb', decide_eq_true (by omega), Bool.true_and]
  congr 1
  omega

/-- Settles O18: the three kinds of table read answer the count, the length widened, and a slice of the code bits. -/
theorem tableReads : Obligations.TableReads := by
  unfold Obligations.TableReads
  refine fun s y => ⟨rfl, ⟨(clenOf s y).setWidth 64, ?len, rfl⟩, fun k i hki => ?word⟩
  case len => exact BitVec.toNat_setWidth_of_le (by decide)
  case word =>
    obtain ⟨hk, hexec⟩ : k < 4 ∧ exec i s = .next (respond true (cbitsWord s y k) s) := by
      simp only [List.mem_cons, Prod.mk.injEq, List.not_mem_nil, or_false] at hki
      rcases hki with ⟨rfl, rfl⟩ | ⟨rfl, rfl⟩ | ⟨rfl, rfl⟩ | ⟨rfl, rfl⟩ <;> exact ⟨by decide, rfl⟩
    refine ⟨_, hexec, fun j hj => ⟨getLsbD_cbitsWord s y hk hj, fun hpad hlen => ?_⟩⟩
    rw [getLsbD_cbitsWord s y hk hj]
    exact hpad y _ (by omega)

/-- The fields of a link word (10_state.md R42). -/
theorem linkWord_fields (nd : Node) :
    ((linkWord nd).getLsbD 0 = true ↔ nd.tag = .leaf) ∧ (linkWord nd).extractLsb' 1 8 = nd.sym ∧
    (linkWord nd).extractLsb' 9 9 = ptrBits nd.left ∧ (linkWord nd).extractLsb' 18 9 = ptrBits nd.right ∧
    (linkWord nd).extractLsb' 27 37 = 0#37 := by
  have htag : tagBits nd.tag = 1#1 ↔ nd.tag = .leaf := by cases nd.tag <;> decide
  rw [BitVec.getLsbD_eq_extractLsb']
  simp [linkWord, extractLsb'_append_high, extractLsb'_append_low, htag]

/-- An index below 511 names a node; both words of it are answered (R135). -/
theorem exec_rdnode {s : State} {idx : BitVec 9} (h : idx.toNat < 511) :
    exec (.rdnodeL idx) s = .next (respond true (linkWord (nodeAt s ⟨idx.toNat, h⟩)) s) ∧
    exec (.rdnodeF idx) s = .next (respond true (nodeAt s ⟨idx.toNat, h⟩).freq s) := by
  have hop : nodeOperand s idx = some (nodeAt s ⟨idx.toNat, h⟩) := dif_pos h
  exact ⟨congrArg (fun o => readItem (Option.map linkWord o) s) hop, congrArg (fun o => readItem (Option.map freqWord o) s) hop⟩

/-- Settles O19: both words of a node are answered, and index 511 names none. -/
theorem nodeReads : Obligations.NodeReads := by
  unfold Obligations.NodeReads
  intro s idx
  refine ⟨fun h => ?node, ?_, ?_⟩
  case node =>
    obtain ⟨htag, hsym, hleft, hright, hhigh⟩ := linkWord_fields (nodeAt s ⟨idx.toNat, h⟩)
    refine ⟨_, (exec_rdnode h).1, (exec_rdnode h).2, htag, hsym, hleft, hright, hhigh, fun hfree hle => ?_⟩
    rw [hfree ⟨idx.toNat, h⟩ hle]
    exact ⟨by decide, rfl⟩
  · rintro rfl he
    exact ⟨(readItem_none s).1 he, (readItem_none s).1 he⟩
  · rintro rfl he
    exact ⟨(readItem_none s).2 he, (readItem_none s).2 he⟩

/-! ### The frequency table (42_frequency.md) -/

/-- Below the greatest count `FINC` adds one (R170). -/
theorem fincBody_ok {s : State} {y : Sym} (h : (freqOf s y).toNat < 2 ^ 64 - 1) :
    fincBody y s = .ok 0#64 (setFreq y (freqOf s y + 1#64) s) :=
  if_neg fun hfull => by simp [hfull] at h

/-- Settles O20: below the greatest count the addition does not wrap. -/
theorem fincCountsOne : Obligations.FincCountsOne := by
  unfold Obligations.FincCountsOne
  intro s y hidle hlt
  refine ⟨_, (exec_finc_idle hidle y).trans (congrArg finish (fincBody_ok hlt)), rfl, ?_, fun z hz => freqOf_setFreq_ne hz _ s⟩
  calc (freqOf (setFreq y (freqOf s y + 1#64) s) y).toNat = (freqOf s y + 1#64).toNat := by rw [freqOf_setFreq_self]
    _ = (freqOf s y).toNat + 1 := by bv_omega

/-- Settles O22: `FSET` stores its operand whatever it is. -/
theorem fsetStoresTheCount : Obligations.FsetStoresTheCount := by
  unfold Obligations.FsetStoresTheCount
  intro s y n hidle
  have hexec : exec (.fset y n) s = finish (.ok 0#64 (setFreq y n s)) :=
    inPhase_legal (body := fun s => .ok 0#64 (setFreq y n s)) hidle (by decide)
  exact ⟨_, hexec, rfl, freqOf_setFreq_self y n s,
    fun z hz => freqOf_setFreq_ne hz n s⟩

/-! ### The port primitives (20_memory.md R62 to R64) -/

/-- A read whose draw fails returns no byte and leaves the position (R62). -/
theorem srcRead_fails {s : State} {rest : List Bool} (h : s.srcFail = true :: rest) :
    srcRead s = (.fail, { s with srcFail := rest }) := by
  rcases srcRead_cases s with ⟨e, _⟩ | ⟨_, hd, _⟩ | ⟨_, hd, _⟩
  · rw [e, h]; rfl
  · simp [h, draw] at hd
  · simp [h, draw] at hd

/-- A read that passes at the end of the source is `eos` (R62). -/
theorem srcRead_eos {s : State} (h : passes 1 s.srcFail) (hend : s.src.length ≤ s.spos) :
    srcRead s = (.eos, { s with srcFail := s.srcFail.drop 1 }) := by
  rcases srcRead_cases s with ⟨_, hd⟩ | ⟨e, _⟩ | ⟨hlt, _⟩
  · simp [(draw_of_passes h).1] at hd
  · rw [e, (draw_of_passes h).1]
  · omega

/-- A read that passes before the end takes the next byte (R62). -/
theorem srcRead_byte {s : State} (h : passes 1 s.srcFail) (hlt : s.spos < s.src.length) :
    srcRead s = (.byte s.src[s.spos], { s with srcFail := s.srcFail.drop 1, spos := s.spos + 1 }) := by
  rcases srcRead_cases s with ⟨_, hd⟩ | ⟨_, _, hend⟩ | ⟨_, _, e⟩
  · simp [(draw_of_passes h).1] at hd
  · omega
  · rw [e, (draw_of_passes h).1]

/-- A write whose draw fails leaves the sink (R63). -/
theorem sinkWrite_fails {s : State} {rest : List Bool} (h : s.sinkFail = true :: rest) (b : Byte) :
    sinkWrite b s = (false, { s with sinkFail := rest }) := by
  rcases sinkWrite_cases b s with ⟨e, _⟩ | ⟨_, hd⟩
  · rw [e, h]; rfl
  · simp [h, draw] at hd

/-- A write that passes appends its byte (R63). -/
theorem sinkWrite_ok {s : State} (h : passes 1 s.sinkFail) (b : Byte) :
    sinkWrite b s = (true, { s with sinkFail := s.sinkFail.drop 1, sink := s.sink ++ [b] }) := by
  rcases sinkWrite_cases b s with ⟨_, hd⟩ | ⟨e, _⟩
  · simp [(draw_of_passes h).1] at hd
  · rw [e, (draw_of_passes h).1]

/-- Settles O54: the outcome of an access is that of its draw and, for a read, of the position. -/
theorem portPrimitives : Obligations.PortPrimitives := by
  unfold Obligations.PortPrimitives
  exact fun s b => ⟨fun _ h => srcRead_fails h, srcRead_eos, fun hlt h => srcRead_byte h hlt, fun _ h => sinkWrite_fails h b,
    fun h => sinkWrite_ok h b, rfl⟩

/-! ### The invariant at reset (10_state.md R47) -/

/-- A core at its reset values meets the invariant, wherever its source stands. -/
theorem CoreIsReset.inv {s : State} (h : CoreIsReset s) (hpos : s.spos ≤ s.src.length) : Inv s where
  errRecorded := ⟨fun _ => ⟨h.err, h.errInfo, h.ePhase⟩, fun he => by simp [h.phase] at he⟩
  sinkFlag := by simp [sinkFlag, h.sinkOpen, h.phase]
  countersOk := by simp [countersOk, h.phase]
  writerOk := by simp [writerOk, lowBitsZero, h.phase, h.wacc, h.wcnt]
  readerOk _ _ _ := ⟨h.rbuf, h.rcnt⟩
  codesPadded y i _ := by simp [h.cbits y]
  freeAbove i _ := h.node i
  noTreeYet _ := ⟨h.root, h.cur, h.ncnt⟩
  noCodesYet _ y := h.clen y
  treeWalks ht := by simp [h.phase] at ht
  prefixCode hp := by simp [h.phase] at hp
  cursorOk hd := by simp [h.phase] at hd
  position := hpos

/-- Settles O57: the state after reset has the core's reset values and an empty source. -/
theorem resetMeetsTheInvariant : Obligations.ResetMeetsTheInvariant := by
  unfold Obligations.ResetMeetsTheInvariant
  exact coreIsReset_reset.inv (Nat.le_refl 0)

end Sys2Proof.Machine

/-! PROOFS. The encoder when its writes pass, and the bits it writes read back (45_encoder.md; 30_encoding.md R111 to R115;
41_bit_io.md R153, R155). -/

namespace Sys2Proof.Machine

/-! ### `HDRW` (R210) -/

/-- Settles O33: the header is one run of writes, and the command then opens the BitWriter. -/
theorem hdrwWritesTheHeader : Obligations.HdrwWritesTheHeader := by
  unfold Obligations.HdrwWritesTheHeader
  intro s hcodes hpass
  rw [exec_hdrw_codes hcodes, hdrwBody, putAll_ok (headerBytes s) (s := { s with sinkOpen := true }) hpass, bind_ok,
    finish_ok]
  rfl

/-! ### The layout of the header (30_encoding.md R111 to R115) -/

/-- A length of 8 bits in two bytes: the high one is 0. -/
theorem shortBytes_toNat (c : Byte) : shortBytes c.toNat = [0#8, c] := by
  have h := c.isLt
  have hhigh : (BitVec.ofNat 16 c.toNat).extractLsb' 8 8 = 0#8 := by
    apply BitVec.eq_of_toNat_eq
    rw [BitVec.extractLsb'_toNat, BitVec.toNat_ofNat, Nat.shiftRight_eq_div_pow, BitVec.toNat_ofNat]
    omega
  have hlow : (BitVec.ofNat 16 c.toNat).extractLsb' 0 8 = c := by
    apply BitVec.eq_of_toNat_eq
    rw [BitVec.extractLsb'_toNat, BitVec.toNat_ofNat, Nat.shiftRight_eq_div_pow]
    omega
  rw [shortBytes, hhigh, hlow]

/-- The two fields before the records take ten bytes. -/
theorem length_headerFields (s : State) : (totalBytes s.total ++ shortBytes (codedSyms s).length).length = 10 := by simp

/-- The bytes after the two fields are the records (R111). -/
theorem headerBytes_drop (s : State) :
    (headerBytes s).drop 10 = (codedSyms s).flatMap fun y => recordBytes y (clenOf s y).toNat (cbitsOf s y) :=
  List.drop_left' (length_headerFields s)

/-- Settles O34: the header is its two big-endian fields and a record for each coded symbol. -/
theorem headerLayout : Obligations.HeaderLayout := by
  unfold Obligations.HeaderLayout
  refine fun s => ⟨?length, ?total, ?count, ?records, codedSyms_sorted s, mem_codedSyms s⟩
  case length =>
    rw [headerBytes, List.length_append, length_headerFields, List.length_flatMap]
    congr 3
    funext y
    simp [recordBytes, codeBytes]
    omega
  case total =>
    rw [headerBytes, List.append_assoc, List.take_left' (length_totalBytes _), beNat_totalBytes]
  case count =>
    have hle := length_codedSyms_le s
    rw [headerBytes, List.append_assoc, List.drop_left' (length_totalBytes _), List.take_left' (length_shortBytes _),
      beNat_shortBytes (by omega)]
  case records =>
    rw [headerBytes_drop]
    congr 1
    funext y
    rw [recordBytes, shortBytes_toNat]
    rfl

/-! ### `ENC` (R213) -/

theorem length_codeOf (s : State) (y : Sym) : (codeOf s y).length = (clenOf s y).toNat := by simp [codeOf, codeView]

/-- Settles O36: the code's bits go through the BitWriter, which passes or stops at the byte whose write fails. -/
theorem encAppendsTheCode : Obligations.EncAppendsTheCode := by
  unfold Obligations.EncAppendsTheCode
  intro s y henc hcode hcount hzero
  have hlen : (codeOf s y).length = (clenOf s y).toNat := length_codeOf s y
  have hbody : encBody y s =
      (writeBits (codeOf s y) s).bind fun _ s1 => .ok 0#64 { s1 with scnt := s1.scnt + 1#64 } := by
    rw [encBody, if_neg hcode, if_neg hcount]
  rw [exec_enc_enc henc, hbody]
  refine ⟨fun hpass => ?ok, fun k rest hk hfail => ?fails⟩
  case ok =>
    obtain ⟨a, n, t, ht, hw, hn, hpend, hlow⟩ := writeBits_ok (codeOf s y) s (hlen ▸ hpass) hzero
    rw [hlen] at ht hn hpend
    subst ht
    refine ⟨_, by rw [hw, bind_ok, finish_ok], ?_⟩
    exact ⟨rfl, hn, hpend, hlow⟩
  case fails =>
    obtain ⟨b, hb, e⟩ := writeBits_fails (codeOf s y) s k rest (hlen ▸ hk) hfail
    exact ⟨b, hb, by rw [e, bind_raised, finish_raised, raiseFault_eq]; rfl⟩

/-! ### `CLOSE` (R153, R215) -/

/-- The flush and the close when the write of a partial byte passes (R153). -/
theorem closeBody_ok {s : State} (h : s.wcnt ≠ 0#3 → passes 1 s.sinkFail) :
    closeBody s = .ok ()
      { s with
        sink := if s.wcnt = 0#3 then s.sink else s.sink ++ [s.wacc]
        sinkFail := if s.wcnt = 0#3 then s.sinkFail else s.sinkFail.drop 1
        wacc := if s.wcnt = 0#3 then s.wacc else 0#8
        wcnt := 0#3
        sinkClosed := true
        sinkOpen := false } := by
  rcases closeBody_cases s with ⟨hw, e⟩ | ⟨hw, hd, _⟩ | ⟨hw, _, e⟩
  · rw [e]; simp [← hw]
  · simp [(draw_of_passes (h hw)).1] at hd
  · rw [e, (draw_of_passes (h hw)).1]; simp [hw]

/-- The flush whose write fails (R153). -/
theorem closeBody_fails {s : State} {rest : List Bool} (hw : s.wcnt ≠ 0#3) (h : s.sinkFail = true :: rest) :
    closeBody s = .raised .sinkWrite { s with sinkFail := rest } := by
  rcases closeBody_cases s with ⟨hw0, _⟩ | ⟨_, _, e⟩ | ⟨_, hd, _⟩
  · exact absurd hw0 hw
  · rw [e, h]; rfl
  · simp [h, draw] at hd

/-- Settles O38: after `TOTAL` symbols the command is the flush and the close. -/
theorem closeFlushesAndCloses : Obligations.CloseFlushesAndCloses := by
  unfold Obligations.CloseFlushesAndCloses
  intro s henc hcount
  have hbody : closeCmdBody s = (closeBody s).bind fun _ s1 => .ok 0#64 { s1 with phase := .done } :=
    if_neg (not_not.mpr hcount)
  rw [exec_close_enc henc, hbody]
  refine ⟨fun hpass => ?_, fun hzero _ => bitsOfByte_pending hzero, fun rest hw hfail => ?_⟩
  · rw [closeBody_ok hpass, bind_ok, finish_ok]; rfl
  · rw [closeBody_fails hw hfail, bind_raised, finish_raised, raiseFault_eq]; rfl

/-! ### The bits written are the bits read (R155) -/

/-- The bits written from an empty BitWriter and closed: their whole bytes, and a last byte where some are left over. -/
theorem writeBits_close {s : State} {c : List Bool} (hw : s.wcnt = 0#3) (ha : s.wacc = 0#8)
    (hpass : passes ((c.length + 7) / 8) s.sinkFail) :
    ∃ t ys, ((writeBits c s).bind fun _ s1 => closeBody s1) = .ok () t ∧ t.sink = s.sink ++ ys ∧
      ys.length = (c.length + 7) / 8 ∧ bitsOfBytes ys = c ++ List.replicate ((8 - c.length % 8) % 8) false := by
  have hw0 : s.wcnt.toNat = 0 := by rw [hw]; rfl
  obtain ⟨a, n, t, ht, hwrite, hn, hpend, hlow⟩ :=
    writeBits_ok c s (passes_mono hpass (by omega)) (lowBitsZero_empty ha)
  rw [hw0, Nat.zero_add] at ht hn hpend
  rw [pendingBits_empty hw, List.nil_append] at ht hpend
  have hcnt : t.wcnt = n := by rw [ht]
  have hsink : t.sink = s.sink ++ wholeBytes c := by rw [ht]
  have hfail : t.sinkFail = s.sinkFail.drop (c.length / 8) := by rw [ht]
  have hflush : t.wcnt ≠ 0#3 → passes 1 t.sinkFail := fun hne => by
    have hpos : n.toNat ≠ 0 := fun e => hne (hcnt.trans (BitVec.eq_of_toNat_eq e))
    rw [hfail]
    exact passes_drop (m := c.length / 8) (passes_mono hpass (by omega))
  rw [hwrite, bind_ok, closeBody_ok hflush, hsink]
  by_cases hzero : n = 0#3
  · have hmod : c.length % 8 = 0 := by rw [← hn, hzero]; rfl
    refine ⟨_, wholeBytes c, rfl, if_pos (hcnt.trans hzero), ?_, ?_⟩
    · rw [length_wholeBytes]; omega
    · rw [bitsOfBytes_wholeBytes, List.take_of_length_le (by omega), hmod]
      simp
  · have hmod : c.length % 8 ≠ 0 := fun e => hzero (BitVec.eq_of_toNat_eq (hn.trans e))
    refine ⟨_, wholeBytes c ++ [t.wacc], rfl, ?_, ?_, ?_⟩
    · simp [hcnt, hzero]
    · rw [List.length_append, length_wholeBytes, List.length_singleton]; omega
    · rw [bitsOfBytes_append, bitsOfBytes_wholeBytes, bitsOfBytes_cons, bitsOfBytes_nil, List.append_nil,
        bitsOfByte_pending hlow, hpend, ← List.append_assoc, List.take_append_drop, hcnt, hn]
      congr 2
      omega

/-- Settles O40: the writer by `writeBits_close`, the reader bit by bit. -/
theorem bitsWrittenAreBitsRead : Obligations.BitsWrittenAreBitsRead := by
  unfold Obligations.BitsWrittenAreBitsRead
  refine ⟨fun s c hw ha hpass => writeBits_close hw ha hpass, fun s b rest hpass hbits => ?_, fun s hpass hbits => ?_⟩
  · obtain ⟨y, n, t, e, hrest, ht, _⟩ := readBit_ok hpass hbits
    subst ht
    exact ⟨_, e, hrest, rfl⟩
  · exact ⟨_, readBit_eos hpass hbits, rfl⟩

end Sys2Proof.Machine

/-! PROOFS. The header parser: a source that ends inside a header, and the checks in their order (46_decoder.md R230, R232,
R233). -/

namespace Sys2Proof.Machine

/-! ### The end of the source inside a header (R233) -/

/-- The source has the bytes `bs` left and no more, and no access up to its end fails. -/
def endsAfter (bs : List Byte) (s : State) : Prop :=
  passes (bs.length + 1) s.srcFail ∧ s.spos ≤ s.src.length ∧ s.src.drop s.spos = bs

section
variable {bs cs : List Byte} {s t : State}

theorem endsAfter.passes (h : endsAfter (bs ++ cs) s) : passes bs.length s.srcFail :=
  passes_mono h.1 (by rw [List.length_append]; omega)

/-- Once the bytes `bs` are read, the end is as much nearer. -/
theorem endsAfter.advance (h : endsAfter (bs ++ cs) s) (hsrc : t.src = s.src) (hspos : t.spos = s.spos + bs.length)
    (hfail : t.srcFail = s.srcFail.drop bs.length) : endsAfter cs t := by
  obtain ⟨hpass, hpos, hbytes⟩ := h
  have hlen := congrArg List.length hbytes
  rw [List.length_drop, List.length_append] at hlen
  refine ⟨?_, by rw [hsrc, hspos]; omega, by rw [hsrc, hspos, ← List.drop_drop, hbytes, List.drop_left]⟩
  rw [hfail]
  exact passes_drop (passes_mono hpass (by rw [List.length_append]; omega))

/-- A `get()` at the end of the source. -/
theorem getByte_ends (h : endsAfter [] s) :
    ∃ u, getByte s = .raised .hdrEos u ∧ u.spos = s.src.length := by
  obtain ⟨hpass, hpos, hbytes⟩ := h
  have hle := List.drop_eq_nil_iff.mp hbytes
  exact ⟨_, getByte_eos hpass hle, Nat.le_antisymm hpos hle⟩

/-- A run of reads before the end of the source. -/
theorem getBytes_beforeEnd {n : Nat} (h : endsAfter (bs ++ cs) s) (hn : bs.length = n) :
    getBytes n s = .ok bs { s with srcFail := s.srcFail.drop n, spos := s.spos + n } ∧
      endsAfter cs { s with srcFail := s.srcFail.drop n, spos := s.spos + n } := by
  subst hn
  exact ⟨getBytes_ok bs h.passes h.2.2, h.advance rfl rfl rfl⟩

/-- A run of reads that the end of the source is in. -/
theorem getBytes_ends {n : Nat} (h : endsAfter bs s) (hn : bs.length < n) :
    ∃ u, getBytes n s = .raised .hdrEos u ∧ u.spos = s.src.length := by
  obtain ⟨hpass, hpos, hbytes⟩ := h
  have hlen := congrArg List.length hbytes
  rw [List.length_drop] at hlen
  obtain ⟨l, e⟩ := getBytes_eos n (hlen ▸ hpass) hpos (hlen ▸ hn)
  exact ⟨_, e, rfl⟩

/-- The source ends inside a good record: at the symbol, in the length or in the code's bytes. -/
theorem readRecord_ends {prev : Int} {r : HdrRecord} (h : endsAfter bs s) (hbs : bs <+: r.bytes)
    (hlt : bs.length < r.bytes.length) (hp : prev < (r.sym.toNat : Int)) (hg : r.good) :
    ∃ u, readRecord prev s = .raised .hdrEos u ∧ u.spos = s.src.length := by
  obtain ⟨h1, h255, hcode, _⟩ := hg
  cases bs with
  | nil =>
    obtain ⟨u, e, hu⟩ := getByte_ends h
    exact ⟨u, by rw [readRecord, e, bind_raised], hu⟩
  | cons y bs =>
    obtain ⟨rfl, hafter⟩ : y = r.sym ∧ bs <+: [r.lenHigh, r.lenLow] ++ r.code := List.cons_prefix_cons.mp hbs
    have h' : endsAfter ([r.sym] ++ bs) s := h
    have hlen : endsAfter bs { s with srcFail := s.srcFail.drop 1, spos := s.spos + 1 } := h'.advance rfl rfl rfl
    rw [readRecord, getByte_ok h'.passes h'.2.2, bind_ok, if_neg (not_le.mpr hp)]
    rcases prefix_append_cases hafter with ⟨_, hin⟩ | ⟨cs, rfl, _⟩
    · obtain ⟨u, e, hu⟩ := getBytes_ends (n := Config.hdrShortBytes) hlen hin
      exact ⟨u, by rw [e, bind_raised], hu⟩
    · obtain ⟨elen, hcs⟩ := getBytes_beforeEnd (n := Config.hdrShortBytes) hlen rfl
      have hgood : ¬ (r.len = 0 ∨ r.len > Config.codeMax) := by
        have : Config.codeMax = 255 := rfl
        omega
      have hin : cs.length < codeBytes r.len := by
        simp at hlt
        unfold codeBytes
        omega
      obtain ⟨u, e, hu⟩ := getBytes_ends hcs hin
      exact ⟨u, by rw [elen, bind_ok, show beNat [r.lenHigh, r.lenLow] = r.len from rfl, if_neg hgood, e, bind_raised], hu⟩

/-- The source ends inside a run of good records. -/
theorem readRecords_ends (rs : List HdrRecord) : ∀ {prev : Int} {s : State} {bs : List Byte}, endsAfter bs s →
    bs <+: rs.flatMap HdrRecord.bytes → bs.length < (rs.flatMap HdrRecord.bytes).length →
    (∀ r ∈ rs, prev < (r.sym.toNat : Int)) → goodRecords rs →
    ∃ u, readRecords rs.length prev s = .raised .hdrEos u ∧ u.spos = s.src.length := by
  induction rs with
  | nil => intro prev s bs _ _ hlt; simp at hlt
  | cons r rs ih =>
    intro prev s bs h hbs hlt hp ⟨hgood, hasc⟩
    obtain ⟨hnext, hasc⟩ := List.pairwise_cons.mp hasc
    have hpr : prev < (r.sym.toNat : Int) := hp r List.mem_cons_self
    have hgr : r.good := hgood r List.mem_cons_self
    rw [List.length_cons, readRecords]
    rw [List.flatMap_cons] at hbs hlt
    rcases prefix_append_cases hbs with ⟨hpre, hin⟩ | ⟨cs, rfl, hcs⟩
    · obtain ⟨u, e, hu⟩ := readRecord_ends h hpre hin hpr hgr
      exact ⟨u, by rw [e, bind_raised], hu⟩
    · obtain ⟨u, e, hu, -⟩ := readRecord_good h.passes h.2.2 hpr hgr
      have hend : endsAfter cs u := h.advance (by rw [hu]) (by rw [hu]) (by rw [hu])
      obtain ⟨v, e', hv⟩ := ih (prev := (r.sym.toNat : Int)) hend hcs (by simpa using hlt)
        (fun r' hr => Int.ofNat_lt.mpr (hnext r' hr)) ⟨fun r' hr => hgood r' (List.mem_cons_of_mem r hr), hasc⟩
      exact ⟨v, by rw [e, bind_ok, e'], hv.trans (by rw [hu])⟩

/-- The source ends inside a header that `HDRW` writes: in `H_TOTAL`, in `H_N` or in the records. -/
theorem hdrrBody_ends {w : State} (htotal : w.total ≠ 0#64) (hpad : codesPadded w) (hcoded : codedSyms w ≠ [])
    (h : endsAfter bs s) (hbs : bs <+: headerBytes w) (hlt : bs.length < (headerBytes w).length) :
    ∃ u, hdrrBody s = .raised .hdrEos u ∧ u.spos = s.src.length := by
  rw [headerBytes_eq] at hbs hlt
  rcases prefix_append_cases hbs with ⟨hfields, hcountIn⟩ | ⟨cs, rfl, hcs⟩
  · rcases prefix_append_cases hfields with ⟨_, htotalIn⟩ | ⟨ds, rfl, _⟩
    · obtain ⟨u, e, hu⟩ := getBytes_ends (n := Config.hdrTotalBytes) h htotalIn
      exact ⟨u, by rw [hdrrBody, e, bind_raised], hu⟩
    · obtain ⟨etotal, hds⟩ := getBytes_beforeEnd (n := Config.hdrTotalBytes) h (length_totalBytes _)
      have hcount : endsAfter ds
          { s with total := w.total, srcFail := s.srcFail.drop Config.hdrTotalBytes,
                   spos := s.spos + Config.hdrTotalBytes } := hds
      have hin : ds.length < Config.hdrShortBytes := by
        rw [List.length_append, List.length_append, length_totalBytes, length_shortBytes] at hcountIn
        exact Nat.lt_of_add_lt_add_left hcountIn
      obtain ⟨u, e, hu⟩ := getBytes_ends hcount hin
      exact ⟨u, by rw [hdrrBody, etotal, bind_ok, if_neg (beNat_totalBytes_ne_zero htotal), ofNat_beNat_totalBytes, e,
        bind_raised], hu⟩
  · have hten := length_headerFields w
    obtain ⟨u, e, hu⟩ := readRecords_ends (headerRecords w) (prev := -1)
      (s := { s with total := w.total, spos := s.spos + 10, srcFail := s.srcFail.drop 10 })
      (h.advance rfl (by rw [hten]) (by rw [hten])) hcs (by simpa using hlt) (fun r _ => by omega) (headerRecords_good hpad)
    exact ⟨u, by rw [hdrrBody_headerFields htotal hcoded (hten ▸ h.passes) h.2.2, e, bind_raised], hu⟩

end

/-- Settles O43: the end of the source is in one of the three parts of the header, and each reads to it. -/
theorem truncatedHeaderIsCorrupt : Obligations.TruncatedHeaderIsCorrupt := by
  unfold Obligations.TruncatedHeaderIsCorrupt
  intro w s k htotal hpad hcoded hk hidle hpass hpos hbytes
  have hlen : ((headerBytes w).take k).length = k := List.length_take_of_le (Nat.le_of_lt hk)
  obtain ⟨u, e, hu⟩ := hdrrBody_ends htotal hpad hcoded (bs := (headerBytes w).take k) (s := s)
    ⟨by rwa [hlen], hpos, hbytes⟩ (List.take_prefix k _) (by rwa [hlen])
  have hphase : u.phase = .idle := by
    obtain ⟨v, a, b, p, l, _, _, ⟨e', _⟩ | ⟨c, e'⟩⟩ := hdrrBody_frame s
    · simp [e] at e'
    · obtain ⟨_, rfl⟩ := Res.raised.inj (e.symm.trans e')
      exact hidle
  refine ⟨raiseFault .hdrEos u, by rw [exec_hdrr_idle hidle, e, finish_raised], raiseFault_phase .., ?_, raiseFault_err ..,
    raiseFault_errInfo .., (raiseFault_spos ..).trans hu⟩
  rw [raiseFault_ePhase, hphase]

/-! ### The checks of the parser in their order (R230, R232) -/

/-- Reading on without storing. -/
theorem readTo.advance {s u : State} {total n k : Nat} (h : readTo s total n u) :
    readTo s total (n + k) { u with srcFail := u.srcFail.drop k, spos := u.spos + k } := by
  obtain ⟨hu, ht⟩ := h
  refine ⟨?_, ht⟩
  rw [hu]
  simp [Nat.add_assoc, List.drop_drop]

/-- The value of `H_TOTAL` fits a word. -/
theorem toNat_ofNat_beNat {tb : List Byte} (h : tb.length = 8) : (BitVec.ofNat 64 (beNat tb)).toNat = beNat tb := by
  have hlt := beNat_lt tb
  rw [h] at hlt
  exact (BitVec.toNat_ofNat ..).trans (Nat.mod_eq_of_lt (hlt.trans_le (by decide)))

/-- The pad bits of a record after its code: the test of R230 fails exactly where one of them is 1. -/
theorem packBytes_not_padded {bs : List Byte} {len : Nat} (h : bs.length ≤ 32)
    (hone : ∃ b ∈ (bitsOfBytes bs).drop len, b = true) : packBytes bs <<< len ≠ 0#256 := fun hzero => by
  obtain ⟨b, hb, rfl⟩ := hone
  exact absurd ((packBytes_padded h).mp hzero _ hb) (by decide)

/-- `H_TOTAL` 0 is the first check. -/
theorem hdrrBody_total0 {s : State} {tb rest : List Byte} (hpass : passes 8 s.srcFail) (hlen : tb.length = 8)
    (hs : s.src.drop s.spos = tb ++ rest) (hzero : beNat tb = 0) :
    hdrrBody s = .raised .hdrTotal0 { s with srcFail := s.srcFail.drop 8, spos := s.spos + 8 } := by
  have e := (getBytes_take (n := Config.hdrTotalBytes) hpass hlen hs).1
  rw [hdrrBody, e, bind_ok, if_pos hzero]

section
variable {s : State} {tb nb tail : List Byte} {rs : List HdrRecord}

/-- Legal fields and good records: `HDRR` stores them and goes on with the last symbol read. -/
theorem hdrrBody_goodRecords (htb : tb.length = 8) (hnb : nb.length = 2) (htotal : beNat tb ≠ 0) (hlo : 1 ≤ beNat nb)
    (hhi : beNat nb ≤ 256) (hrs : goodRecords rs) (hs : s.src.drop s.spos = tb ++ nb ++ rs.flatMap HdrRecord.bytes ++ tail)
    (hle : rs.length ≤ beNat nb) (hpass : passes (10 + (rs.flatMap HdrRecord.bytes).length) s.srcFail) :
    ∃ last u, hdrrBody s = ((readRecords (beNat nb - rs.length) last u).bind fun _ s3 => .ok 0#64 { s3 with phase := .hdr }) ∧
      readTo s (beNat tb) (10 + (rs.flatMap HdrRecord.bytes).length) u ∧ holdsRecords rs s u ∧
      (∀ r ∈ rs, (r.sym.toNat : Int) ≤ last) ∧ ((rs = [] ∧ last = -1) ∨ ∃ r ∈ rs, last = (r.sym.toNat : Int)) := by
  rw [List.append_assoc (tb ++ nb)] at hs
  have hcount : ¬ (beNat nb = 0 ∨ beNat nb > Config.nsym) := by
    have : Config.nsym = 256 := rfl
    omega
  have hrecs : s.src.drop (s.spos + 10) = rs.flatMap HdrRecord.bytes ++ tail := by
    rw [← List.drop_drop, hs, List.drop_left' (by simp [htb, hnb])]
  obtain ⟨last, u, e, hu, hholds, hlast, hwhich⟩ := readRecords_good (beNat nb - rs.length) rs (-1)
    { s with total := BitVec.ofNat 64 (beNat tb), spos := s.spos + 10, srcFail := s.srcFail.drop 10 } tail hrs
    (fun r _ => by omega) hrecs (passes_drop hpass)
  rw [Nat.add_sub_cancel' hle] at e
  refine ⟨last, u, ?_, ⟨?_, ?_⟩, hholds, hlast, hwhich⟩
  · rw [hdrrBody_fields (passes_mono hpass (by omega)) htb hnb hs htotal, if_neg hcount, e]
  · rw [hu]; simp [Nat.add_assoc, List.drop_drop]
  · rw [hu]; exact toNat_ofNat_beNat htb

/-- The checks of the next record are those of the command. -/
theorem hdrrBody_record {last : Int} {u v : State} {n : Nat} {c : SubCode} (hn : rs.length < n)
    (h : hdrrBody s = ((readRecords (n - rs.length) last u).bind fun _ s3 => .ok 0#64 { s3 with phase := .hdr }))
    (e : readRecord last u = .raised c v) : hdrrBody s = .raised c v := by
  obtain ⟨m, hm⟩ : ∃ m, n - rs.length = m + 1 := ⟨n - rs.length - 1, by omega⟩
  rw [h, hm, readRecords, e, bind_raised, bind_raised]

end

/-- Where the parser stands after reading `n` bytes. -/
theorem readTo.source {s u : State} {total n : Nat} {bs tail : List Byte} (h : readTo s total n u) (hn : bs.length = n)
    (hs : s.src.drop s.spos = bs ++ tail) : u.src.drop u.spos = tail := by
  rw [h.1]
  simp only
  rw [← List.drop_drop, hs, List.drop_left' hn]

theorem readTo.draws {s u : State} {total n k : Nat} (h : readTo s total n u) (hpass : passes (n + k) s.srcFail) :
    passes k u.srcFail := by
  rw [h.1]
  exact passes_drop hpass

/-- A record whose code has a pad bit that is 1 (R232). -/
theorem readRecord_pad {prev : Int} {s : State} {r : HdrRecord} {rest : List Byte} (hpass : passes r.bytes.length s.srcFail)
    (hs : s.src.drop s.spos = r.bytes ++ rest) (hp : prev < (r.sym.toNat : Int)) (h1 : 1 ≤ r.len) (h255 : r.len ≤ 255)
    (hcode : r.code.length = (r.len + 7) / 8) (hone : ∃ b ∈ (bitsOfBytes r.code).drop r.len, b = true) :
    readRecord prev s = .raised .hdrPad
      { s with srcFail := s.srcFail.drop r.bytes.length, spos := s.spos + r.bytes.length } := by
  rw [length_hdrRecord_bytes] at hpass ⊢
  have e := readRecord_bits (l1 := r.lenHigh) (l2 := r.lenLow) hpass hs hp h1 h255 hcode
  rw [if_pos (show packBytes r.code <<< beNat [r.lenHigh, r.lenLow] ≠ 0#256 from packBytes_not_padded (by omega) hone)] at e
  rw [e, Nat.add_assoc]

/-- A body that raises, with the fault entry written out (60_exceptions.md R296). -/
theorem finish_eq_faulted {x : Res Word} {c : SubCode} {t : State} (h : x = .raised c t) :
    finish x = .next (faulted (subCodeKind c) (subCodeBits c) t) := by
  rw [h, finish_raised, raiseFault_eq]

/-- The last symbol read, -1 before the first, is below a symbol that is above all those read. -/
theorem last_lt {rs : List HdrRecord} {last : Int} {y : Byte}
    (h : (rs = [] ∧ last = -1) ∨ ∃ r ∈ rs, last = (r.sym.toNat : Int)) (hord : ∀ r ∈ rs, r.sym.toNat < y.toNat) :
    last < (y.toNat : Int) := by
  rcases h with ⟨_, rfl⟩ | ⟨r, hr, rfl⟩
  · omega
  · exact Int.ofNat_lt.mpr (hord r hr)

/-- Settles O44: the two fields first; then each record after the good ones is checked for its symbol, its length and its pad, by
the rule of one record. -/
theorem headerChecksInOrder : Obligations.HeaderChecksInOrder := by
  unfold Obligations.HeaderChecksInOrder
  refine ⟨?total, ?count, ?records, ?one⟩
  case total =>
    intro s tb rest hidle hpass hlen hs hzero
    exact (exec_hdrr_idle hidle).trans (finish_eq_faulted (hdrrBody_total0 hpass hlen hs hzero))
  case count =>
    intro s tb nb rest hidle hpass htb hnb hs htotal hbad
    rw [exec_hdrr_idle hidle]
    exact ⟨_, finish_eq_faulted ((hdrrBody_fields hpass htb hnb hs htotal).trans (if_pos hbad)),
      ⟨rfl, toNat_ofNat_beNat htb⟩, holdsRecords_nil _ _ rfl rfl⟩
  case records =>
    intro s tb nb rs tail hidle htb hnb htotal hlo hhi hrs hs
    have hlen : (tb ++ nb ++ rs.flatMap HdrRecord.bytes).length = 10 + (rs.flatMap HdrRecord.bytes).length := by
      simp [htb, hnb]
      omega
    rw [exec_hdrr_idle hidle]
    refine ⟨fun hall hpass => ?all, fun y rest hlt htail hord hpass => ?order, fun y l1 l2 rest hlt htail hord hbad hpass => ?len,
      fun r rest hlt htail hord h1 h255 hcode hone hpass => ?pad⟩
    case all =>
      obtain ⟨last, u, e, hread, hholds, -⟩ := hdrrBody_goodRecords htb hnb htotal hlo hhi hrs hs hall.le hpass
      have hresp : u.responses = s.responses := by rw [hread.1]
      rw [hall, Nat.sub_self, readRecords, bind_ok] at e
      exact ⟨u, by rw [e, finish_ok, respond, hresp], hread, hholds⟩
    case order =>
      subst htail
      obtain ⟨last, u, e, hread, hholds, hlast, -⟩ :=
        hdrrBody_goodRecords htb hnb htotal hlo hhi hrs hs hlt.le (passes_mono hpass (by omega))
      obtain ⟨r, hr, hle⟩ := hord
      have hrec := readRecord_order (prev := last) (hread.draws hpass) (hread.source hlen hs)
        ((Int.ofNat_le.mpr hle).trans (hlast r hr))
      exact ⟨_, finish_eq_faulted (hdrrBody_record hlt e hrec), hread.advance, hholds⟩
    case len =>
      subst htail
      obtain ⟨last, u, e, hread, hholds, -, hwhich⟩ :=
        hdrrBody_goodRecords htb hnb htotal hlo hhi hrs hs hlt.le (passes_mono hpass (by omega))
      have hrec := readRecord_len (prev := last) (hread.draws hpass) (hread.source hlen hs) (last_lt hwhich hord) hbad
      exact ⟨_, finish_eq_faulted (hdrrBody_record hlt e hrec), hread.advance, hholds⟩
    case pad =>
      subst htail
      obtain ⟨last, u, e, hread, hholds, -, hwhich⟩ :=
        hdrrBody_goodRecords htb hnb htotal hlo hhi hrs hs hlt.le (passes_mono hpass (by omega))
      have hrec := readRecord_pad (prev := last) (hread.draws hpass) (hread.source hlen hs) (last_lt hwhich hord) h1 h255 hcode hone
      exact ⟨_, finish_eq_faulted (hdrrBody_record hlt e hrec), hread.advance, hholds⟩
  case one =>
    intro s prev y l1 l2 bs rest hs
    refine ⟨fun hle hpass => ⟨_, readRecord_order hpass hs hle, rfl⟩,
      fun hlt hbad hpass => ⟨_, readRecord_len hpass hs hlt hbad, rfl⟩,
      fun hlt h1 h255 hcode hpass => ⟨fun hone => ?_, fun hzero => ?_⟩⟩
    · exact ⟨_, readRecord_pad (r := ⟨y, l1, l2, bs⟩) (by simpa using hpass) hs hlt h1 h255 hcode hone⟩
    · obtain ⟨u, e, hu, hholds⟩ := readRecord_good (r := ⟨y, l1, l2, bs⟩) (by simpa using hpass) hs hlt
        ⟨h1, h255, hcode, hzero⟩
      obtain ⟨hlen, hcode', -⟩ := hholds.1 _ (List.mem_singleton.mpr rfl)
      refine ⟨u, e, hlen, hcode', hu.trans (by simp [Nat.add_assoc]), fun z hz => hholds.2 z fun r hr hrz => hz ?_⟩
      rw [← hrz, List.mem_singleton.mp hr]

end Sys2Proof.Machine

/-! PROOFS. The decoder's walk: one step at an internal node, at a leaf and at an absent child, the end of `DRUN`, and the
decoding of a body of paths (46_decoder.md R240 to R244). -/

namespace Sys2Proof.Machine

/-! ### One step -/

/-- A step with a bit to read and the cursor on a node descends from it, the bit consumed (R240). -/
theorem dstepBody_next {s : State} {b : Bool} {rest : List Bool} {i : NodeIdx} (hpass : s.rcnt = 0 → passes 1 s.srcFail)
    (hbits : unreadBits s = b :: rest) (hcur : s.cur = some i) :
    ∃ y n u, dstepBody s = descend i b u ∧ unreadBits u = rest ∧
      u = { s with rbuf := y, rcnt := n, spos := if s.rcnt = 0 then s.spos + 1 else s.spos,
                   srcFail := if s.rcnt = 0 then s.srcFail.drop 1 else s.srcFail } := by
  obtain ⟨y, n, u, e, hrest, hu, _⟩ := readBit_ok hpass hbits
  exact ⟨y, n, u, dstepBody_bit e (by rw [hu]; exact hcur), hrest, hu⟩

/-- A step whose bit needs a byte that cannot be read (41_bit_io.md R154). -/
theorem dstepBody_fails {s : State} {rest : List Bool} (hr : s.rcnt = 0) (hfail : s.srcFail = true :: rest) :
    dstepBody s = .raised .srcRead { s with srcFail := rest } := dstepBody_raised (readBit_fails hr hfail)

section
variable {s : State} {i j : NodeIdx} {b : Bool}

theorem descend_absent (hc : child (nodeAt s i) b = none) : descend i b s = .raised .walkNil s := by
  simp only [descend, hc]

theorem descend_int (hc : child (nodeAt s i) b = some j) (ht : (nodeAt s j).tag = .int) :
    descend i b s = .ok 0#64 { s with cur := some j } := by simp [descend, hc, ht]

theorem descend_leaf (hc : child (nodeAt s i) b = some j) (ht : (nodeAt s j).tag = .leaf) :
    descend i b s = emitLeaf (nodeAt s j).sym { s with cur := some j } := by simp [descend, hc, ht]

end

/-- Settles O47: the bit is consumed and the cursor moves; or the byte it needs cannot be read. -/
theorem dstepDescendsOneBit : Obligations.DstepDescendsOneBit := by
  unfold Obligations.DstepDescendsOneBit
  refine ⟨fun s b rest i j hdec hpass hbits hcur hchild hint => ?_, fun s rest hdec hr hfail => ?_⟩
  · obtain ⟨y, n, u, e, hrest, rfl⟩ := dstepBody_next hpass hbits hcur
    refine ⟨_, (exec_dstep_dec hdec).trans (congrArg finish (e.trans (descend_int hchild hint))), ?_⟩
    exact ⟨hrest, rfl⟩
  · have hraised := dstepBody_fails hr hfail
    rw [exec_dstep_dec hdec, hraised, exec_drun_raised hdec hraised, finish_raised, raiseFault_eq]
    exact ⟨rfl, rfl⟩

/-- Settles O50: the absent child is met after the bit is read and before the cursor moves. -/
theorem absentChildFaults : Obligations.AbsentChildFaults := by
  unfold Obligations.AbsentChildFaults
  intro s b rest i hdec hpass hbits hcur hchild
  obtain ⟨y, n, u, e, hrest, rfl⟩ := dstepBody_next hpass hbits hcur
  refine ⟨_, (exec_dstep_dec hdec).trans (congrArg finish (e.trans (descend_absent hchild))), ?_⟩
  exact ⟨hrest, rfl⟩

/-! ### At a leaf (R240) -/

/-- The symbol's write passes: it is counted, the cursor is back at the root, and the run ends with its last symbol. -/
theorem emitLeaf_ok {s : State} (h : passes 1 s.sinkFail) (y : Sym) :
    emitLeaf y s = .ok 0#64
      { s with
        cur := s.root
        sink := s.sink ++ [y]
        sinkFail := s.sinkFail.drop 1
        scnt := s.scnt + 1#64
        phase := if s.scnt + 1#64 = s.total then .done else s.phase
        sinkOpen := if s.scnt + 1#64 = s.total then false else s.sinkOpen
        sinkClosed := if s.scnt + 1#64 = s.total then true else s.sinkClosed } := by
  have hd := (draw_of_passes h).1
  rcases emitLeaf_cases y s with ⟨_, hfail⟩ | ⟨_, hne, e⟩ | ⟨_, heq, e⟩
  · simp [hd] at hfail
  · rw [e, hd]; simp [hne]
  · rw [e, hd]; simp [heq]

/-- The symbol's write fails: nothing is counted and the cursor stays. -/
theorem emitLeaf_fails {s : State} {rest : List Bool} (h : s.sinkFail = true :: rest) (y : Sym) :
    emitLeaf y s = .raised .sinkWrite { s with sinkFail := rest } := by
  rcases emitLeaf_cases y s with ⟨e, _⟩ | ⟨hd, _⟩ | ⟨hd, _⟩
  · rw [e, h]; rfl
  · simp [h, draw] at hd
  · simp [h, draw] at hd

/-- Settles O48: the step descends to the leaf and emits its symbol, or stops there when the write fails. -/
theorem dstepEmitsAtALeaf : Obligations.DstepEmitsAtALeaf := by
  unfold Obligations.DstepEmitsAtALeaf
  intro s b rest i j hdec hpass hbits hcur hchild hleaf
  obtain ⟨y, n, u, e, hrest, rfl⟩ := dstepBody_next hpass hbits hcur
  have hstep := e.trans (descend_leaf hchild hleaf)
  refine ⟨fun hsink => ?_, fun fails hfail => ?_⟩
  · rw [emitLeaf_ok (s := { s with rbuf := y, rcnt := n, cur := some j, spos := _, srcFail := _ }) hsink] at hstep
    refine ⟨_, (exec_dstep_dec hdec).trans (congrArg finish hstep), ?_⟩
    refine ⟨hrest, ?_⟩
    simp only [respond, hdec, nodeAt]
  · have hraised := hstep.trans (emitLeaf_fails (s := { s with rbuf := y, rcnt := n, cur := some j, spos := _, srcFail := _ }) hfail _)
    refine ⟨_, (exec_dstep_dec hdec).trans (finish_eq_faulted hraised),
      (exec_drun_raised hdec hraised).trans (congrArg _ (raiseFault_eq _ _)), ?_⟩
    exact ⟨hrest, rfl⟩

/-! ### Where a step that succeeds leaves the run -/

/-- A step that succeeds is at an internal node with the count unchanged; or it is back at the root with one symbol more, and the
run goes on, or it ended with its last symbol. -/
theorem dstepBody_ok_cases {s t : State} {v : Word} (h : dstepBody s = .ok v t) :
    (∃ j, (nodeAt s j).tag = .int ∧ t.cur = some j ∧ t.scnt = s.scnt ∧ t.phase = s.phase ∧ t.sinkOpen = s.sinkOpen) ∨
    (t.cur = s.root ∧ t.scnt = s.scnt + 1#64 ∧ t.scnt ≠ s.total ∧ t.phase = s.phase ∧ t.sinkOpen = s.sinkOpen) ∨
    (t.cur = s.root ∧ t.scnt = s.scnt + 1#64 ∧ t.scnt = s.total ∧ t.phase = .done ∧ t.sinkOpen = false) := by
  rcases readBit_frame s with ⟨l, e⟩ | ⟨l, e, _⟩ | ⟨b, y, n, p, l, e, _⟩
  · simp [dstepBody_raised e] at h
  · simp [dstepBody_eos e] at h
  · rcases hc : s.cur with _ | i
    · simp [dstepBody_nil e hc] at h
    · rw [dstepBody_bit e hc] at h
      rcases descend_cases i b { s with rbuf := y, rcnt := n, spos := p, srcFail := l } with
        ⟨_, e'⟩ | ⟨j, _, ⟨hint, e'⟩ | ⟨_, e'⟩⟩
      · simp [e'] at h
      · obtain ⟨_, rfl⟩ := Res.ok.inj (e'.symm.trans h)
        exact .inl ⟨j, hint, rfl, rfl, rfl, rfl⟩
      · rcases emitLeaf_cases _ _ with ⟨e2, _⟩ | ⟨_, hne, e2⟩ | ⟨_, heq, e2⟩
        · simp [e'.trans e2] at h
        · obtain ⟨_, rfl⟩ := Res.ok.inj ((e'.trans e2).symm.trans h)
          exact .inr (.inl ⟨rfl, rfl, hne, rfl, rfl⟩)
        · obtain ⟨_, rfl⟩ := Res.ok.inj ((e'.trans e2).symm.trans h)
          exact .inr (.inr ⟨rfl, rfl, heq, rfl, rfl⟩)

/-- The root is no part of the walk. -/
theorem Walked.root_eq {s t : State} (h : Walked s t) : t.root = s.root := by
  obtain ⟨_, _, _, _, _, _, _, _, _, _, _, _, _, _, rfl⟩ := h
  rfl

/-- What a step that succeeds may have changed. -/
theorem walked_of_dstepBody {s t : State} {v : Word} (h : dstepBody s = .ok v t) : Walked s t := by
  rcases dstepBody_frame s with ⟨u, hw, e, _⟩ | ⟨_, _, _, e, _⟩ | ⟨_, e⟩
  · obtain ⟨_, rfl⟩ := Res.ok.inj (h.symm.trans e)
    exact hw
  · simp [h] at e
  · simp [h] at e

/-! ### `DRUN` terminates (R244) -/

/-- With a root and a cursor no step of the loop meets `NIL`. -/
theorem runLoop_ne_nilPointer (n : Nat) : ∀ {s : State}, s.root ≠ none → s.cur ≠ none → runLoop n s ≠ .stuck .nilPointer := by
  induction n with
  | zero =>
    intro s _ _
    rw [runLoop]
    split <;> simp
  | succ n ih =>
    intro s hroot hcur
    by_cases hdec : s.phase = .dec
    · rw [runLoop, if_pos hdec]
      rcases dstepBody_frame s with ⟨t, hw, e, _⟩ | ⟨c, t, _, e, _⟩ | ⟨hnil, _⟩
      · have hroot' : t.root ≠ none := by rwa [hw.root_eq]
        have hcur' : t.cur ≠ none := by
          rcases dstepBody_ok_cases e with ⟨j, _, hj, _⟩ | ⟨hj, _⟩ | ⟨hj, _⟩ <;> rw [hj]
          · simp
          · exact hroot
          · exact hroot
        rw [e, bind_ok]
        exact ih hroot' hcur'
      · rw [e, bind_raised]; simp
      · exact absurd hnil hcur
    · rw [runLoop_left hdec]; simp

/-- Settles O52: each step uses up one of the bits the bound counts, and the cursor never meets `NIL`. -/
theorem drunTerminates : Obligations.DrunTerminates := by
  unfold Obligations.DrunTerminates
  refine ⟨fun s => ?bound, fun s hdec hroot hcur => ?ends⟩
  case bound =>
    by_cases hdec : s.phase = .dec
    · rcases runLoop_frame _ s (Nat.lt_succ_self _) (.inl hdec) with ⟨t, _, e, _⟩ | ⟨c, t, _, e, _⟩ | e <;> simp [e]
    · rw [runLoop_left hdec]; simp
  case ends =>
    have hnext : ∃ t, exec .drun s = .next t := by
      rw [exec_drun_dec hdec]
      rcases runLoop_frame (runBound s) s (Nat.lt_succ_self _) (.inl hdec) with ⟨t, _, e, _⟩ | ⟨c, t, _, e, _⟩ | e
      · exact ⟨_, congrArg finish e⟩
      · exact ⟨_, congrArg finish e⟩
      · exact absurd e (runLoop_ne_nilPointer _ hroot hcur)
    obtain ⟨t, ht⟩ := hnext
    exact ⟨t, ht, (exec_drun_ends hdec ht).imp And.left And.left⟩

/-! ### The body decoded (R240, R243) -/

/-- A count below another one does not wrap when it grows. -/
theorem toNat_add_one {v w : Word} (h : v.toNat < w.toNat) : (v + 1#64).toNat = v.toNat + 1 := by bv_omega

theorem length_unreadBits (s : State) : (unreadBits s).length = s.rcnt.val + 8 * (s.src.length - s.spos) := by
  simp [unreadBits]

/-- From an internal node the path to a leaf is not empty. -/
theorem leafPath_ne_nil {s : State} {r : NodeIdx} {p : List Bool} {y : Sym} (hint : (nodeAt s r).tag = .int)
    (h : leafPath s r p y) : p ≠ [] := by
  rintro rfl
  obtain ⟨j, hj, hleaf, _⟩ := h
  obtain rfl : r = j := Option.some.inj hj
  simp [hint] at hleaf

/-- The state the decode of `xs`, over `n` bits, ends in: the run's last symbols. -/
def decoded (s : State) (xs : List Sym) (n : Nat) (y : Byte) (m : Fin 9) : State :=
  { s with
    rbuf := y
    rcnt := m
    spos := s.spos + bytesNeeded s n
    srcFail := s.srcFail.drop (bytesNeeded s n)
    sink := s.sink ++ xs
    sinkFail := s.sinkFail.drop xs.length
    scnt := s.total
    sinkOpen := false
    sinkClosed := true
    phase := .done }

/-- The loop over the paths of the last symbols of a run: each path to its leaf, and back to the root. -/
theorem runLoop_paths {r : NodeIdx} {path : Sym → List Bool} {rest : List Bool} (n : Nat) (xs : List Sym) : ∀ {s : State},
    s.phase = .dec → s.root = some r → s.cur = some r → (nodeAt s r).tag = .int → xs ≠ [] →
    s.scnt.toNat + xs.length = s.total.toNat → (∀ x ∈ xs, leafPath s r (path x) x) → unreadBits s = xs.flatMap path ++ rest →
    passes (bytesNeeded s (xs.flatMap path).length) s.srcFail → passes xs.length s.sinkFail →
    ∃ y m, runLoop (n + (xs.flatMap path).length) s = .ok 0#64 (decoded s xs (xs.flatMap path).length y m) ∧
      unreadBits (decoded s xs (xs.flatMap path).length y m) = rest := by
  induction xs with
  | nil => intro s _ _ _ _ hne; exact absurd rfl hne
  | cons x xs ih =>
    intro s hdec hroot hcur hint _ hcount hpaths hbits hsrc hsink
    rw [List.flatMap_cons, List.append_assoc] at hbits
    rw [List.flatMap_cons, List.length_append] at hsrc ⊢
    rw [List.length_cons] at hcount hsink
    have hx := hpaths x List.mem_cons_self
    have hfirst : passes (bytesNeeded s (path x).length) s.srcFail := passes_mono hsrc (by unfold bytesNeeded; omega)
    obtain ⟨y, m, t, ht, hrest, hm, e⟩ := runLoop_path (n + (xs.flatMap path).length) x (path x) _ s r hdec hcur
      (leafPath_ne_nil hint hx) hx hbits hfirst (passes_mono hsink (by omega))
    have hsucc : (s.scnt + 1#64).toNat = s.scnt.toNat + 1 := toNat_add_one (w := s.total) (by omega)
    rw [show n + ((path x).length + (xs.flatMap path).length) = n + (xs.flatMap path).length + (path x).length by omega, e]
    by_cases hlast : xs = []
    · -- the last symbol: the run is done
      subst hlast
      have hend : s.scnt + 1#64 = s.total := BitVec.eq_of_toNat_eq (hsucc.trans (by simpa using hcount))
      simp only [hend, if_true] at ht
      obtain rfl : t = decoded s [x] (path x).length y m := by rw [ht, decoded, hroot, ← hcur]; rfl
      exact ⟨y, m, runLoop_left (by simp [decoded]) _, by simpa using hrest⟩
    · -- more symbols: the rest of the body from the root
      have hpos := List.length_pos_iff.mpr hlast
      have hmore : s.scnt + 1#64 ≠ s.total := fun h => by
        rw [← h, hsucc] at hcount
        omega
      simp only [hmore, if_false] at ht
      have hadd := bytesNeeded_add (t := t) (by rw [ht]; exact hm) (xs.flatMap path).length
      rw [hadd] at hsrc
      obtain ⟨y', m', e', hrest'⟩ := ih (s := t) (by rw [ht]) (by rw [ht]; exact hroot) (by rw [ht]; exact hroot)
        (by rw [ht]; exact hint) hlast (by rw [ht]; simp only [hsucc]; omega)
        (fun z hz => (leafPath_congr (by rw [ht]) ..).mpr (hpaths z (List.mem_cons_of_mem x hz))) hrest
        (by rw [show t.srcFail = s.srcFail.drop (bytesNeeded s (path x).length) by rw [ht]]; exact passes_drop hsrc)
        (by rw [show t.sinkFail = s.sinkFail.drop 1 by rw [ht]]; exact passes_drop (m := 1) (by rwa [Nat.add_comm]))
      have hstate : decoded t xs (xs.flatMap path).length y' m' =
          decoded s (x :: xs) ((path x).length + (xs.flatMap path).length) y' m' := by
        unfold decoded
        rw [hadd]
        generalize bytesNeeded t _ = k
        rw [ht]
        simp only [hroot, hcur, List.drop_drop, List.append_assoc, List.singleton_append, List.length_cons, Nat.add_assoc, Nat.add_comm 1]
      rw [hstate] at e' hrest'
      exact ⟨y', m', e', hrest'⟩

/-- Settles O53: the body holds more bits than the paths have, so the bound of `DRUN` is enough. -/
theorem drunDecodesTheBody : Obligations.DrunDecodesTheBody := by
  unfold Obligations.DrunDecodesTheBody
  intro s r path xs rest hdec hroot hcur hint hne hcount hpaths hbits hsrc hsink
  have hfuel : (xs.flatMap path).length ≤ runBound s := by
    have hlen := congrArg List.length hbits
    rw [length_unreadBits, List.length_append] at hlen
    unfold runBound
    omega
  obtain ⟨y, m, e, hrest⟩ := runLoop_paths (runBound s - (xs.flatMap path).length) xs hdec hroot hcur hint hne hcount hpaths
    hbits hsrc hsink
  rw [Nat.sub_add_cancel hfuel] at e
  refine ⟨_, (exec_drun_dec hdec).trans (congrArg finish e), ?_⟩
  exact ⟨hrest, rfl⟩

end Sys2Proof.Machine

/-! PROOFS. What every command may change: its row of the access matrix, its one response, the streams that only move forward
(10_state.md R45; 30_encoding.md R92; 20_memory.md R60 to R64). -/

namespace Sys2Proof.Machine

/-! ### What a command's body may touch -/

/-- From `s` to `t` only items of `ws` changed, no response was given, and the streams moved forward if they moved. -/
structure Touches (ws : List Item) (s t : State) : Prop where
  same : ∀ x, x ∈ ws ∨ sameItem x s t
  responses : t.responses = s.responses
  sink : s.sink <+: t.sink
  closed : s.sinkClosed = true → t.sinkClosed = true
  spos : s.spos ≤ t.spos

theorem Touches.refl (ws : List Item) (s : State) : Touches ws s s where
  same x := .inr (by cases x <;> simp [sameItem])
  responses := rfl
  sink := List.prefix_rfl
  closed := id
  spos := Nat.le_refl _

/-- A body that touches only items of `ws`, whether it returns, with value 0, or raises. -/
def Res.touches (ws : List Item) (s : State) : Res Word → Prop
  | .ok v t => v = 0#64 ∧ Touches ws s t
  | .raised _ t => Touches ws s t
  | .stuck _ => True

theorem fincBody_touches (y : Sym) (s : State) : (fincBody y s).touches (writes (.finc y)) s := by
  unfold fincBody
  split
  · exact .refl _ s
  · exact ⟨rfl, fun x => by cases x <;> simp [writes, sameItem], rfl, List.prefix_rfl, id, Nat.le_refl _⟩

theorem fsetBody_touches (y : Sym) (n : Word) (s : State) : (Res.ok 0#64 (setFreq y n s)).touches (writes (.fset y n)) s :=
  ⟨rfl, fun x => by cases x <;> simp [writes, sameItem], rfl, List.prefix_rfl, id, Nat.le_refl _⟩

theorem buildBody_touches (s : State) : (buildBody s).touches (writes .build) s := by
  rcases buildBody_cases s with ⟨_, e⟩ | ⟨_, _, e⟩ | ⟨_, _, ⟨r, m, n, e⟩ | e⟩ <;> rw [e]
  · exact .refl _ s
  · exact .refl _ s
  · exact ⟨rfl, fun x => by cases x <;> simp [writes, sameItem], rfl, List.prefix_rfl, id, Nat.le_refl _⟩
  · trivial

theorem genBody_touches (s : State) : (genBody s).touches (writes .gen) s := by
  rcases genBody_cases s with ⟨_, e⟩ | ⟨r, _, ⟨a, b, _, e⟩ | e⟩ <;> rw [e]
  · trivial
  · exact ⟨rfl, fun x => by cases x <;> simp [writes, sameItem], rfl, List.prefix_rfl, id, Nat.le_refl _⟩
  · trivial

theorem hdrwBody_touches (s : State) : (hdrwBody s).touches (writes .hdrw) s := by
  rcases hdrwBody_cases s with ⟨l, e⟩ | ⟨l, k, _, e⟩ <;> rw [e]
  · exact ⟨rfl, fun x => by cases x <;> simp [writes, sameItem], rfl, List.prefix_append _ _, id, Nat.le_refl _⟩
  · exact ⟨fun x => by cases x <;> simp [writes, sameItem], rfl, List.prefix_append _ _, id, Nat.le_refl _⟩

theorem encBody_touches (y : Sym) (s : State) : (encBody y s).touches (writes (.enc y)) s := by
  rcases encBody_cases y s with ⟨_, e⟩ | ⟨_, _, e⟩ | ⟨_, _, a, n, l, ys, e | e⟩ <;> rw [e]
  · exact .refl _ s
  · exact .refl _ s
  · exact ⟨rfl, fun x => by cases x <;> simp [writes, sameItem], rfl, List.prefix_append _ _, id, Nat.le_refl _⟩
  · exact ⟨fun x => by cases x <;> simp [writes, sameItem], rfl, List.prefix_append _ _, id, Nat.le_refl _⟩

theorem closeCmdBody_touches (s : State) : (closeCmdBody s).touches (writes .close) s := by
  rcases closeCmdBody_cases s with ⟨_, e⟩ | ⟨_, a, n, l, ys, e, _⟩ | ⟨_, l, e⟩ <;> rw [e]
  · exact .refl _ s
  · exact ⟨rfl, fun x => by cases x <;> simp [writes, sameItem], rfl, List.prefix_append _ _, fun _ => rfl, Nat.le_refl _⟩
  · exact ⟨fun x => by cases x <;> simp [writes, sameItem], rfl, List.prefix_rfl, id, Nat.le_refl _⟩

theorem hdrrBody_touches (s : State) : (hdrrBody s).touches (writes .hdrr) s := by
  obtain ⟨v, a, b, p, l, hp, _, ⟨e, _⟩ | ⟨c, e⟩⟩ := hdrrBody_frame s <;> rw [e]
  · exact ⟨rfl, fun x => by cases x <;> simp [writes, sameItem], rfl, List.prefix_rfl, id, hp⟩
  · exact ⟨fun x => by cases x <;> simp [writes, sameItem], rfl, List.prefix_rfl, id, hp⟩

theorem reconBody_touches (s : State) : (reconBody s).touches (writes .recon) s := by
  obtain ⟨m, n, e | e | e⟩ := reconBody_cases s <;> rw [e]
  · exact ⟨rfl, fun x => by cases x <;> simp [writes, sameItem], rfl, List.prefix_rfl, id, Nat.le_refl _⟩
  · exact ⟨fun x => by cases x <;> simp [writes, sameItem], rfl, List.prefix_rfl, id, Nat.le_refl _⟩
  · exact ⟨fun x => by cases x <;> simp [writes, sameItem], rfl, List.prefix_rfl, id, Nat.le_refl _⟩

/-- What a walk may change are the items of `DSTEP`, which are those of `DRUN`. -/
theorem Walked.touches {s t : State} (h : Walked s t) : Touches (writes .dstep) s t := by
  obtain ⟨c, y, n, p, l, m, ys, k, o, d, q, hp, _, hd, rfl⟩ := h
  exact ⟨fun x => by cases x <;> simp [writes, sameItem], rfl, List.prefix_append _ _, hd, hp⟩

theorem dstepBody_touches (s : State) : (dstepBody s).touches (writes .dstep) s := by
  rcases dstepBody_frame s with ⟨t, hw, e, _⟩ | ⟨c, t, hw, e, _⟩ | ⟨_, e⟩ <;> rw [e]
  · exact ⟨rfl, hw.touches⟩
  · exact hw.touches
  · trivial

theorem runLoop_touches {s : State} (h : s.phase = .dec) : (runLoop (runBound s) s).touches (writes .drun) s := by
  rcases runLoop_frame (runBound s) s (Nat.lt_succ_self _) (.inl h) with ⟨t, hw, e, _⟩ | ⟨c, t, hw, e, _⟩ | e <;> rw [e]
  · exact ⟨rfl, hw.touches⟩
  · exact hw.touches
  · trivial

/-- `RST` keeps the streams but for closing an open sink. -/
theorem reset_touches (s : State) : Touches (writes .rst) s (resetCore (releaseSink s)) where
  same x := by cases x <;> simp [writes, sameItem, resetCore]
  responses := by simp
  sink := by simp
  closed h := by simp [h]
  spos := by simp

/-! ### Every command's answer, by what its body touched -/

/-- Command `i` took the core from `s` to `u` and answered in `t`: with success, with a fault, or as ignored in `ERR`. It touched
something only in a phase where it is legal. -/
structure AnswersFrom (i : Instr) (s u t : State) : Prop where
  touches : Touches (writes i) s u
  legal : u = s ∨ ∃ ps, phaseCell i s.phase = .to ps
  answer : (∃ v, t = respond true v u ∧ (v ≠ 0#64 → isRead i = true)) ∨ (∃ c, t = raiseFault c u) ∨
    (t = ignore u ∧ u.phase = .err)

section
variable {i : Instr} {s t : State}

/-- A command with one legal phase. -/
theorem inPhase_answersFrom {p : Phase} {body : State → Res Word} (hp : p ≠ .err) (ps : List Phase)
    (hcell : phaseCell i s.phase = cellOnly p ps s.phase) (hbody : s.phase = p → (body s).touches (writes i) s)
    (h : inPhase p body s = .next t) : ∃ u, AnswersFrom i s u t := by
  have hlegal : s.phase = p → ∃ ps, phaseCell i s.phase = .to ps := fun hs => ⟨ps, by
    rw [hcell, cellOnly, if_neg (hs ▸ hp), if_pos hs]⟩
  rcases inPhase_eq_next hp h with ⟨he, rfl⟩ | ⟨_, _, rfl⟩ | ⟨hs, v, u, e, rfl⟩ | ⟨hs, c, u, e, rfl⟩
  · exact ⟨s, .refl _ s, .inl rfl, .inr (.inr ⟨rfl, he⟩)⟩
  · exact ⟨s, .refl _ s, .inl rfl, .inr (.inl ⟨_, rfl⟩)⟩
  · have hb := hbody hs
    rw [e] at hb
    obtain ⟨hv, htouch⟩ := hb
    exact ⟨u, htouch, .inr (hlegal hs), .inl ⟨v, rfl, fun hne => absurd hv hne⟩⟩
  · have hb := hbody hs
    rw [e] at hb
    exact ⟨u, hb, .inr (hlegal hs), .inr (.inl ⟨c, rfl⟩)⟩

/-- A read touches nothing. -/
theorem readItem_answersFrom {v : Option Word} (hread : isRead i = true) (h : readItem v s = .next t) :
    ∃ u, AnswersFrom i s u t := by
  refine ⟨s, .refl _ s, .inl rfl, ?_⟩
  rcases readItem_eq_next h with ⟨w, _, rfl⟩ | ⟨_, rfl⟩
  · exact .inl ⟨w, rfl, fun _ => hread⟩
  · rcases illegalWord_cases s with ⟨he, e⟩ | ⟨_, e⟩
    · exact .inr (.inr ⟨e, he⟩)
    · exact .inr (.inl ⟨_, e⟩)

end

/-- Every command that answers touches only its row of the access matrix before the answer. -/
theorem exec_answersFrom {i : Instr} {s t : State} (h : exec i s = .next t) : ∃ u, AnswersFrom i s u t := by
  cases i with
  | nop =>
    obtain rfl := Host.Outcome.next.inj h
    exact ⟨s, .refl _ s, .inl rfl, .inl ⟨_, rfl, fun hne => absurd rfl hne⟩⟩
  | rst =>
    obtain rfl := Host.Outcome.next.inj h
    exact ⟨_, reset_touches s, .inr ⟨_, rfl⟩, .inl ⟨_, rfl, fun hne => absurd rfl hne⟩⟩
  | finc y => exact inPhase_answersFrom (p := .idle) nofun _ rfl (fun _ => fincBody_touches y s) h
  | fset y n =>
    exact inPhase_answersFrom (p := .idle) (body := fun s => .ok 0#64 (setFreq y n s)) nofun _ rfl (fun _ => fsetBody_touches y n s) h
  | build => exact inPhase_answersFrom (p := .idle) nofun _ rfl (fun _ => buildBody_touches s) h
  | gen => exact inPhase_answersFrom (p := .tree) nofun _ rfl (fun _ => genBody_touches s) h
  | hdrw => exact inPhase_answersFrom (p := .codes) nofun _ rfl (fun _ => hdrwBody_touches s) h
  | enc y => exact inPhase_answersFrom (p := .enc) nofun _ rfl (fun _ => encBody_touches y s) h
  | close => exact inPhase_answersFrom (p := .enc) nofun _ rfl (fun _ => closeCmdBody_touches s) h
  | hdrr => exact inPhase_answersFrom (p := .idle) nofun _ rfl (fun _ => hdrrBody_touches s) h
  | recon => exact inPhase_answersFrom (p := .hdr) nofun _ rfl (fun _ => reconBody_touches s) h
  | dstep => exact inPhase_answersFrom (p := .dec) nofun _ rfl (fun _ => dstepBody_touches s) h
  | drun => exact inPhase_answersFrom (p := .dec) nofun _ rfl runLoop_touches h
  | rdreg r => exact readItem_answersFrom rfl h
  | rdtabF y => exact readItem_answersFrom (v := some _) rfl h
  | rdtabL y => exact readItem_answersFrom (v := some _) rfl h
  | rdtabB0 y => exact readItem_answersFrom (v := some _) rfl h
  | rdtabB1 y => exact readItem_answersFrom (v := some _) rfl h
  | rdtabB2 y => exact readItem_answersFrom (v := some _) rfl h
  | rdtabB3 y => exact readItem_answersFrom (v := some _) rfl h
  | rdnodeL idx => exact readItem_answersFrom rfl h
  | rdnodeF idx => exact readItem_answersFrom rfl h

/-- Settles O11: an answer is one response on what the body left, and only a read's value is not 0. -/
theorem everyCommandAnswersOnce : Obligations.EveryCommandAnswersOnce := by
  unfold Obligations.EveryCommandAnswersOnce
  intro i s t h
  obtain ⟨u, htouch, _, ⟨v, rfl, hv⟩ | ⟨c, rfl⟩ | ⟨rfl, he⟩⟩ := exec_answersFrom h
  · exact ⟨true, v, by rw [respond_responses, htouch.responses], fun hne => ⟨rfl, hv hne⟩, nofun⟩
  · exact ⟨false, 0#64, by rw [raiseFault_responses, htouch.responses], fun hne => absurd rfl hne, fun _ => raiseFault_phase c u⟩
  · exact ⟨false, 0#64, by rw [ignore_responses, htouch.responses], fun hne => absurd rfl hne, fun _ => he⟩

/-! ### The access matrix -/

theorem sameItem_respond {x : Item} {s u : State} (ok : Bool) (v : Word) :
    sameItem x s (respond ok v u) ↔ sameItem x s u := by cases x <;> rfl

/-- The fault entry writes its four items only (60_exceptions.md R296). -/
theorem sameItem_raiseFault {x : Item} {s u : State} (c : SubCode) (hx : x ∉ faultWrites) :
    sameItem x s (raiseFault c u) ↔ sameItem x s u := by
  revert hx
  rw [raiseFault_eq]
  cases x <;> simp [faultWrites, sameItem, faulted]

/-- Settles O12: the body touches the command's row only, the answer nothing but what a fault writes. -/
theorem accessMatrix : Obligations.AccessMatrix := by
  unfold Obligations.AccessMatrix
  intro i s t x h hx hfault
  obtain ⟨u, htouch, _, hans⟩ := exec_answersFrom h
  have hu : sameItem x s u := (htouch.same x).resolve_left hx
  rcases hans with ⟨v, rfl, _⟩ | ⟨c, rfl⟩ | ⟨rfl, _⟩
  · exact (sameItem_respond true v).mpr hu
  · have hnot : x ∉ faultWrites := fun hmem => by
      obtain ⟨v, hok⟩ := hfault hmem
      exact not_answeredOk_raiseFault c s u v hok
    exact (sameItem_raiseFault c hnot).mpr hu
  · exact (sameItem_respond false 0#64).mpr hu

/-- An item that neither the command nor a fault writes is the same after it. -/
theorem exec_sameItem {i : Instr} {s t : State} {x : Item} (h : exec i s = .next t) (hx : x ∉ writes i) (hf : x ∉ faultWrites) :
    sameItem x s t :=
  accessMatrix i s t x h hx fun hmem => absurd hmem hf

/-! ### The tables -/

/-- A command in a phase where it is not legal changes no item but those of the fault entry. -/
theorem exec_sameItem_of_phase {i : Instr} {s t : State} {x : Item} (h : exec i s = .next t)
    (hcell : ∀ ps, phaseCell i s.phase ≠ .to ps) (hf : x ∉ faultWrites) : sameItem x s t := by
  obtain ⟨u, _, hlegal, hans⟩ := exec_answersFrom h
  obtain rfl : u = s := hlegal.resolve_right fun ⟨ps, hps⟩ => hcell ps hps
  have hu : sameItem x u u := ((Touches.refl [] u).same x).resolve_left List.not_mem_nil
  rcases hans with ⟨v, rfl, _⟩ | ⟨c, rfl⟩ | ⟨rfl, _⟩
  · exact (sameItem_respond true v).mpr hu
  · exact (sameItem_raiseFault c hf).mpr hu
  · exact (sameItem_respond false 0#64).mpr hu

/-- A cell of a command with one legal phase is legal there only. -/
theorem cellOnly_ne_to {p q : Phase} (h : q ≠ p) (ps qs : List Phase) : cellOnly p ps q ≠ .to qs := by
  rw [cellOnly, if_neg h]
  split <;> nofun

/-- Settles O23: only `FINC` and `FSET`, legal in `IDLE`, write `FREQ`, and only `GEN` and `HDRR` in their phases the CodeTable. -/
theorem tablesAreReadOnlyAfterTheirPhase : Obligations.TablesAreReadOnlyAfterTheirPhase := by
  unfold Obligations.TablesAreReadOnlyAfterTheirPhase
  intro i s t h hrst
  refine ⟨fun hidle => ?freq, fun hchanged => ?code⟩
  case freq =>
    have hsame : sameItem .freq s t := by
      cases i with
      | rst => exact absurd rfl hrst
      | finc y => exact exec_sameItem_of_phase h (cellOnly_ne_to hidle _) (by decide)
      | fset y n => exact exec_sameItem_of_phase h (cellOnly_ne_to hidle _) (by decide)
      | _ => exact exec_sameItem h (by simp [writes]) (by decide)
    exact hsame
  case code =>
    by_contra hnot
    have hsame : sameItem .codeTable s t := by
      cases i with
      | rst => exact absurd rfl hrst
      | gen => exact exec_sameItem_of_phase h (cellOnly_ne_to (fun hp => hnot (.inl ⟨rfl, hp⟩)) _) (by decide)
      | hdrr => exact exec_sameItem_of_phase h (cellOnly_ne_to (fun hp => hnot (.inr ⟨rfl, hp⟩)) _) (by decide)
      | _ => exact exec_sameItem h (by simp [writes]) (by decide)
    obtain ⟨hclen, hcbits⟩ := hsame
    exact hchanged.elim (absurd hclen) (absurd hcbits)

/-! ### The streams -/

/-- A command appends to the sink, keeps it closed, keeps the bytes of the source and consumes it. -/
theorem exec_forward {i : Instr} {s t : State} (h : exec i s = .next t) :
    s.sink <+: t.sink ∧ (s.sinkClosed = true → t.sinkClosed = true) ∧ t.src = s.src ∧ s.spos ≤ t.spos := by
  have hsrc : sameItem .hostSide s t := exec_sameItem h (by cases i <;> simp [writes]) (by decide)
  obtain ⟨u, htouch, _, hans⟩ := exec_answersFrom h
  refine ⟨?_, fun hc => ?_, hsrc.1, ?_⟩
  · rcases hans with ⟨v, rfl, _⟩ | ⟨c, rfl⟩ | ⟨rfl, _⟩
    · exact htouch.sink
    · rw [raiseFault_sink]; exact htouch.sink
    · exact htouch.sink
  · have hu := htouch.closed hc
    rcases hans with ⟨v, rfl, _⟩ | ⟨c, rfl⟩ | ⟨rfl, _⟩
    · exact hu
    · simp [hu]
    · exact hu
  · rcases hans with ⟨v, rfl, _⟩ | ⟨c, rfl⟩ | ⟨rfl, _⟩
    · exact htouch.spos
    · rw [raiseFault_spos]; exact htouch.spos
    · exact htouch.spos

/-- Settles O55: by the act. A command moves the streams forward, an illegal word and the resets leave them, and a binding sets its
own stream only. -/
theorem streamsOnlyMoveForward : Obligations.StreamsOnlyMoveForward := by
  unfold Obligations.StreamsOnlyMoveForward
  intro s t a rest hhost h
  rcases step_eq_next h with ⟨hnil, _⟩ | ⟨c, i, rest', hc, _, he⟩ | ⟨c, k, rest', hc, _, rfl⟩ | ⟨rest', hc, rfl⟩ |
    ⟨bytes, fails, rest', hc, _, rfl⟩ | ⟨fails, rest', hc, _, rfl⟩
  · simp [hhost] at hnil
  · obtain ⟨hsink, hclosed, hsrc, hspos⟩ := exec_forward he
    exact ⟨fun _ => ⟨hsink, hclosed⟩, fun _ => ⟨hsrc, hspos⟩⟩
  · rcases illegalWord_cases { s with host := rest' } with ⟨_, e⟩ | ⟨_, e⟩ <;> rw [e]
    · exact ⟨fun _ => ⟨List.prefix_rfl, id⟩, fun _ => ⟨rfl, Nat.le_refl _⟩⟩
    · exact ⟨fun _ => ⟨by simp, fun hcl => by simp [hcl]⟩, fun _ => ⟨by simp, by simp⟩⟩
  · exact ⟨fun _ => ⟨List.prefix_rfl, id⟩, fun _ => ⟨rfl, Nat.le_refl _⟩⟩
  · obtain ⟨rfl, _⟩ := List.cons.inj (hhost.symm.trans hc)
    exact ⟨fun _ => ⟨List.prefix_rfl, id⟩, fun hno => absurd rfl (hno bytes fails)⟩
  · obtain ⟨rfl, _⟩ := List.cons.inj (hhost.symm.trans hc)
    exact ⟨fun hno => absurd rfl (hno fails), fun _ => ⟨rfl, Nat.le_refl _⟩⟩

/-- Settles O56: a command that writes the sink is legal only in a phase with the sink open, or is `HDRW`. -/
theorem sinkIsWrittenOnlyWhileOpen : Obligations.SinkIsWrittenOnlyWhileOpen := by
  unfold Obligations.SinkIsWrittenOnlyWhileOpen
  intro i s t hflag h hsink
  have hchanged : ¬ sameItem .sinkStream s t := fun hsame => hsink hsame.1
  have hphase {p : Phase} {ps : List Phase} (hcell : phaseCell i s.phase = cellOnly p ps s.phase) : s.phase = p := by
    by_contra hne
    exact hchanged (exec_sameItem_of_phase h (fun qs => hcell ▸ cellOnly_ne_to hne ps qs) (by decide))
  cases i with
  | hdrw => exact .inr ⟨rfl, hphase rfl⟩
  | enc y => exact .inl (hflag.mpr (.inl (hphase rfl)))
  | close => exact .inl (hflag.mpr (.inl (hphase rfl)))
  | dstep => exact .inl (hflag.mpr (.inr (hphase rfl)))
  | drun => exact .inl (hflag.mpr (.inr (hphase rfl)))
  | _ => exact absurd (exec_sameItem h (by simp [writes]) (by decide)) hchanged

end Sys2Proof.Machine

/-! PROOFS. What a command's body keeps of the state whether it returns or raises: the zeros below the codes, the free nodes above
`NCNT`, the zeros below the pending bits (10_state.md R27, R30, R33). -/

namespace Sys2Proof.Machine

/-- A piece of pseudocode that leaves `P`, whether it returns or raises (60_exceptions.md R297). -/
def Res.leaves {α : Type} (P : State → Prop) : Res α → Prop
  | .ok _ t => P t
  | .raised _ t => P t
  | .stuck _ => True

theorem leaves_bind {α β : Type} {P : State → Prop} {x : Res α} {f : α → State → Res β} (hx : x.leaves P)
    (hf : ∀ v t, P t → (f v t).leaves P) : (x.bind f).leaves P := by
  cases x with
  | ok v t => exact hf v t hx
  | raised c t => exact hx
  | stuck r => trivial

/-! ### The zeros below the codes (R27) -/

/-- A word that `len` shifts empty has zeros below its first `len` bits. -/
theorem getLsbD_of_shiftLeft_eq_zero {w : CodeBits} {len i : Nat} (h : w <<< len = 0#256) (hi : i < 256 - len) :
    w.getLsbD i = false := by
  have hbit := congrArg (fun v => BitVec.getLsbD v (i + len)) h
  rw [BitVec.getLsbD_shiftLeft, BitVec.getLsbD_zero] at hbit
  simpa only [show i + len < 256 by omega, show ¬ i + len < len by omega, Nat.add_sub_cancel, decide_true, decide_false,
    Bool.not_false, Bool.true_and] using hbit

theorem codesPadded_setCode {s : State} (h : codesPadded s) {y : Sym} {len : Nat} {w : CodeBits} (hlen : len ≤ 255)
    (hw : w <<< len = 0#256) : codesPadded (setCode y len w s) := by
  intro z i hi
  by_cases hz : z = y
  · subst hz
    rw [clenOf_setCode_self, BitVec.toNat_ofNat, Nat.mod_eq_of_lt (by omega)] at hi
    rw [cbitsOf_setCode_self]
    exact getLsbD_of_shiftLeft_eq_zero hw hi
  · rw [clenOf_setCode_ne hz] at hi
    rw [cbitsOf_setCode_ne hz]
    exact h z i hi

theorem getBytes_leaves_codesPadded (n : Nat) {s : State} (h : codesPadded s) : (getBytes n s).leaves codesPadded := by
  rcases getBytes_frame n s with ⟨bs, l, _, _, e⟩ | ⟨c, l, k, _, _, _, e⟩ <;> rw [e] <;> exact h

/-- A record is stored only when its pad bits are 0 (R232). -/
theorem readRecord_leaves_codesPadded (prev : Int) {s : State} (h : codesPadded s) : (readRecord prev s).leaves codesPadded := by
  have hbyte : (getByte s).leaves codesPadded := by
    rcases getByte_cases s with ⟨e, _⟩ | ⟨e, _, _⟩ | ⟨_, _, e⟩ <;> rw [e] <;> exact h
  refine leaves_bind hbyte fun y s1 h1 => ?_
  split
  · exact h1
  refine leaves_bind (getBytes_leaves_codesPadded _ h1) fun lb s2 h2 => ?_
  split
  · exact h2
  next hlen =>
    refine leaves_bind (getBytes_leaves_codesPadded _ h2) fun cb s3 h3 => ?_
    split
    · exact h3
    next hpad =>
      refine codesPadded_setCode h3 ?_ (not_not.mp hpad)
      have : Config.codeMax = 255 := rfl
      omega

theorem readRecords_leaves_codesPadded (n : Nat) : ∀ (prev : Int) {s : State}, codesPadded s →
    (readRecords n prev s).leaves codesPadded := by
  induction n with
  | zero => exact fun _ _ h => h
  | succ n ih => exact fun prev _ h => leaves_bind (readRecord_leaves_codesPadded prev h) fun p _ h1 => ih p h1

theorem hdrrBody_leaves_codesPadded {s : State} (h : codesPadded s) : (hdrrBody s).leaves codesPadded := by
  refine leaves_bind (getBytes_leaves_codesPadded _ h) fun tb s1 h1 => ?_
  split
  · exact h1
  refine leaves_bind (getBytes_leaves_codesPadded (s := { s1 with total := BitVec.ofNat 64 (beNat tb) }) _ h1) fun nb s2 h2 => ?_
  split
  · exact h2
  exact leaves_bind (readRecords_leaves_codesPadded _ _ h2) fun _ _ h3 => h3

/-- The paths `GEN` stores are padded; the other entries are as before. -/
theorem codesPadded_of_storesPaths {P : List Bool → Sym → Prop} {s t : State} (h : codesPadded s)
    (hstore : storesPaths P [] s t) : codesPadded t := by
  intro y i hi
  rcases hstore y with ⟨⟨hlen, hbits⟩, _⟩ | ⟨q, _, hlen, _, hzero⟩
  · rw [hbits]
    exact h y i (hlen ▸ hi)
  · exact hzero i (hlen ▸ hi)

/-! ### The free nodes above `NCNT` (R30) -/

/-- There is a node, entries from `NCNT` up are free, and every child is below `NCNT`. -/
structure TreeBelow (s : State) : Prop where
  root : 0 < s.ncnt.toNat
  free : freeAbove s
  child_lt : ∀ (i j : NodeIdx) (b : Bool), child (nodeAt s i) b = some j → j.val < s.ncnt.toNat

namespace TreeBelow

variable {s u : State} {i j : NodeIdx} {b : Bool}

/-- A new node below a node in use (R235). -/
theorem grow (h : TreeBelow s) (hi : i.val < s.ncnt.toNat) (ha : allocNode Node.free s = some (j, u)) :
    TreeBelow (setChild i b (some j) u) ∧ j.val < (setChild i b (some j) u).ncnt.toNat := by
  obtain ⟨_, hold, hj, hcnt⟩ := nodeAt_allocNode ha
  have hcnt' : (setChild i b (some j) u).ncnt.toNat = s.ncnt.toNat + 1 := hcnt
  obtain ⟨hfree, hset, hsame, _⟩ := nodeAt_grow (b := b) ha (i := i) (fun e => by rw [e] at hi; omega)
  refine ⟨⟨by omega, fun k hk => ?_, fun k m c hc => ?_⟩, by omega⟩
  · rw [hcnt'] at hk
    rw [nodeAt_setChild_ne (fun e => by rw [e] at hk; omega), hold k (fun e => by rw [e] at hk; omega)]
    exact h.free k (by omega)
  · rw [hcnt']
    by_cases hkj : k = j
    · rw [hkj, hfree] at hc
      cases c <;> simp [child, Node.free] at hc
    · by_cases hkc : k = i ∧ c = b
      · obtain ⟨rfl, rfl⟩ := hkc
        obtain rfl : j = m := Option.some.inj (hset.symm.trans hc)
        omega
      · rw [hsame k c hkj hkc] at hc
        exact Nat.lt_succ_of_lt (h.child_lt k m c hc)

/-- Marking a node in use as a leaf changes no pointer. -/
theorem mark (h : TreeBelow s) (hi : i.val < s.ncnt.toNat) (y : Sym) :
    TreeBelow (setNode i { nodeAt s i with tag := .leaf, sym := y } s) := by
  refine ⟨h.root, fun k hk => ?_, fun k m c hc => ?_⟩
  · have hk' : s.ncnt.toNat ≤ k.val := hk
    rw [nodeAt_setNode_ne (fun e => by rw [e] at hk'; omega)]
    exact h.free k hk
  · by_cases hk : k = i
    · rw [hk, nodeAt_setNode_self] at hc
      exact h.child_lt i m c hc
    · rw [nodeAt_setNode_ne hk] at hc
      exact h.child_lt k m c hc

/-- A piece of pseudocode that leaves the tree below `NCNT`, and whose value, if it returns, is a node in use. -/
def reaches : Res NodeIdx → Prop
  | .ok j t => TreeBelow t ∧ j.val < t.ncnt.toNat
  | .raised _ t => TreeBelow t
  | .stuck _ => True

theorem insertPath_reaches (c : List Bool) : ∀ {s : State} {i : NodeIdx}, TreeBelow s → i.val < s.ncnt.toNat →
    reaches (insertPath i c s) := by
  induction c with
  | nil => exact fun h hi => ⟨h, hi⟩
  | cons b c ih =>
    intro s i h hi
    by_cases htag : (nodeAt s i).tag = .leaf
    · rw [insertPath_leaf b c htag]
      exact h
    rcases hc : child (nodeAt s i) b with _ | j
    · rcases ha : allocNode Node.free s with _ | ⟨j, u⟩
      · rw [insertPath_full c htag hc ha]
        exact h
      · rw [insertPath_new c htag hc ha]
        obtain ⟨hgrow, hj⟩ := h.grow hi ha
        exact ih hgrow hj
    · rw [insertPath_down c htag hc]
      exact ih h (h.child_lt i j b hc)

theorem insertCode_leaves {s : State} (h : TreeBelow s) (y : Sym) : (insertCode y s).leaves TreeBelow := by
  have hpath := insertPath_reaches (codeOf s y) (i := 0) h h.root
  rw [insertCode]
  cases hr : insertPath 0 (codeOf s y) s with
  | ok j t =>
    rw [hr] at hpath
    obtain ⟨ht, hj⟩ := hpath
    rw [bind_ok]
    split
    · exact ht.mark hj y
    · exact ht
  | raised c t =>
    rw [hr] at hpath
    exact hpath
  | stuck r => trivial

theorem insertCodes_leaves (ys : List Sym) : ∀ {s : State}, TreeBelow s → (insertCodes ys s).leaves TreeBelow := by
  induction ys with
  | nil => exact fun h => h
  | cons y ys ih => exact fun h => leaves_bind (h.insertCode_leaves y) fun _ _ h1 => ih h1

/-- The empty root over a free node memory. -/
theorem of_free (h : ∀ i, nodeAt s i = Node.free) : TreeBelow (emptyRoot s) := by
  have hfree (k : NodeIdx) : nodeAt (emptyRoot s) k = Node.free := by
    by_cases hk : k = 0
    · rw [hk]; exact nodeAt_setNode_self ..
    · exact (nodeAt_setNode_ne hk ..).trans (h k)
  refine ⟨Nat.one_pos, fun k _ => hfree k, fun k m c hc => ?_⟩
  rw [hfree] at hc
  cases c <;> simp [child, Node.free] at hc

end TreeBelow

/-- `RECON` over a free node memory leaves the entries from `NCNT` up free. -/
theorem reconBody_leaves_freeAbove {s : State} (h : ∀ i, nodeAt s i = Node.free) : (reconBody s).leaves freeAbove := by
  have htree := (TreeBelow.of_free h).insertCodes_leaves (codedSyms s)
  rw [reconBody]
  cases hr : insertCodes (codedSyms s) (emptyRoot s) with
  | ok v t => rw [hr] at htree; exact htree.free
  | raised c t => rw [hr] at htree; exact htree.free
  | stuck r => trivial

/-! ### The zeros below the pending bits (R33) -/

/-- A bit written keeps them: it goes into the accumulator, or completes the byte and empties it. -/
theorem writeBit_lowBitsZero {b : Bool} {s t : State} {v : Unit} (hz : lowBitsZero s) (h : writeBit b s = .ok v t) :
    lowBitsZero t := by
  by_cases hfull : s.wcnt = 7#3
  · rcases writeBit_full hfull b with ⟨e, _⟩ | ⟨e, _⟩
    · simp [e] at h
    · obtain ⟨_, rfl⟩ := Res.ok.inj (e.symm.trans h)
      exact lowBitsZero_empty rfl
  · obtain ⟨_, rfl⟩ := Res.ok.inj ((writeBit_hold hfull b).symm.trans h)
    exact lowBitsZero_hold b hz rfl (pendingBits_hold b hfull rfl rfl).2

theorem writeBits_lowBitsZero (c : List Bool) : ∀ {s t : State} {v : Unit}, lowBitsZero s → writeBits c s = .ok v t →
    lowBitsZero t := by
  induction c with
  | nil =>
    intro s t v hz h
    obtain ⟨_, rfl⟩ := Res.ok.inj h
    exact hz
  | cons b c ih =>
    intro s t v hz h
    obtain ⟨_, u, hb, hc⟩ := bind_eq_ok.mp h
    exact ih (writeBit_lowBitsZero hz hb) hc

/-- With no bit pending the accumulator is 0. -/
theorem wacc_eq_zero {s : State} (hz : lowBitsZero s) (h : s.wcnt = 0#3) : s.wacc = 0#8 := by
  apply BitVec.eq_of_getLsbD_eq
  intro i hi
  rw [hz i (by simpa [h] using hi), BitVec.getLsbD_zero]

end Sys2Proof.Machine

/-! PROOFS. The invariant: what every command, every other act of the host and the fault entry keep, and that a machine in it
answers (10_state.md section 12; 20_memory.md R74). -/

namespace Sys2Proof.Machine

/-! ### What a fault entry needs -/

/-- The state at a raise, from which the fault entry makes a state of the invariant (60_exceptions.md R296). -/
structure FaultsWell (s : State) : Prop where
  phase : s.phase ≠ .err
  writer : s.phase ≠ .enc → s.wacc = 0#8 ∧ s.wcnt = 0#3
  reader : s.phase ≠ .dec → s.phase ≠ .done → s.rbuf = 0#8 ∧ s.rcnt = 0
  padded : codesPadded s
  free : freeAbove s
  position : s.spos ≤ s.src.length

theorem FaultsWell.inv {s : State} (h : FaultsWell s) (c : SubCode) : Inv (raiseFault c s) := by
  rw [raiseFault_eq]
  exact {
    errRecorded := ⟨fun hne => absurd rfl hne, fun _ => ⟨h.phase, c, rfl, rfl⟩⟩
    sinkFlag := by simp [sinkFlag, faulted]
    countersOk := by simp [countersOk, faulted]
    writerOk := ⟨fun hne => absurd rfl hne, fun _ hne => h.writer fun he => hne ⟨rfl, he⟩⟩
    readerOk := fun _ _ hne => h.reader (fun hd => hne ⟨rfl, .inl hd⟩) fun hd => hne ⟨rfl, .inr hd⟩
    codesPadded := h.padded
    freeAbove := h.free
    noTreeYet := by simp [noTreeYet, faulted]
    noCodesYet := by simp [noCodesYet, faulted]
    treeWalks := by simp [faulted]
    prefixCode := by simp [prefixCode, faulted]
    cursorOk := by simp [cursorOk, faulted]
    position := h.position }

/-- The longest path depends on the node memory and the root only. -/
theorem walkFits_congr {s t : State} (hnode : t.node = s.node) (hroot : t.root = s.root) (h : walkFits s) : walkFits t := by
  obtain ⟨r, hr, hfit⟩ := h
  exact ⟨r, hroot.trans hr, fun p j hp => hfit p j ((follow_congr hnode p r).symm.trans hp)⟩

namespace Inv

variable {s : State}

/-- In any phase but `ERR` a fault may be raised on the state as it is. -/
theorem faultsWell (h : Inv s) (hp : s.phase ≠ .err) : FaultsWell s where
  phase := hp
  writer he := h.writerOk.2 he fun ⟨herr, _⟩ => hp herr
  reader hd hdone := h.readerOk hd hdone fun ⟨herr, _⟩ => hp herr
  padded := h.codesPadded
  free := h.freeAbove
  position := h.position

/-- The frequency table, the streams, the host and the responses are free but for the position in the source. -/
theorem withEnv (h : Inv s) {f : Vector Word 256} {bs ys : List Byte} {p : Nat} {d : Bool} {l m : List Bool}
    {hs : List HostAct} {rs : List Response} (hp : p ≤ bs.length) :
    Inv { s with freq := f, src := bs, spos := p, sink := ys, sinkClosed := d, srcFail := l, sinkFail := m, host := hs,
                 responses := rs } :=
  { h with
    treeWalks := fun ht => walkFits_congr (s := s) rfl rfl (h.treeWalks ht)
    position := hp }

theorem respond (h : Inv s) (ok : Bool) (v : Word) : Inv (respond ok v s) := h.withEnv h.position

/-- With the zeros below the pending bits and none pending, as outside `ENC` and `ERR`, the BitWriter is empty. -/
theorem writer_empty (h : Inv s) (hp : s.phase ≠ .err) (he : s.phase ≠ .enc) : s.wacc = 0#8 ∧ s.wcnt = 0#3 :=
  (h.faultsWell hp).writer he

theorem noError (h : Inv s) (hp : s.phase ≠ .err) : s.err = .noError ∧ s.errInfo = 0#8 ∧ s.ePhase = .idle :=
  h.errRecorded.1 hp

theorem sink_closed (h : Inv s) (he : s.phase ≠ .enc) (hd : s.phase ≠ .dec) : s.sinkOpen = false := by
  by_contra hopen
  exact (h.sinkFlag.mp (by simpa using hopen)).elim he hd

/-- In `IDLE` and `HDR` every node is free. -/
theorem nodes_free (h : Inv s) (hp : s.phase = .idle ∨ s.phase = .hdr) (i : NodeIdx) : nodeAt s i = Node.free := by
  obtain ⟨_, _, hcnt⟩ := h.noTreeYet hp
  exact h.freeAbove i (by simp [hcnt])

end Inv

/-- A command's body keeps the invariant where it returns, and where it raises leaves what the fault entry needs. -/
def Res.keepsInv : Res Word → Prop
  | .ok _ t => Inv t
  | .raised _ t => FaultsWell t
  | .stuck _ => True

/-- Outside `ERR` no fault is recorded. -/
theorem errRecorded_of {s : State} (hp : s.phase ≠ .err) (h : s.err = .noError ∧ s.errInfo = 0#8 ∧ s.ePhase = .idle) :
    errRecorded s := ⟨fun _ => h, fun he => absurd he hp⟩

/-! ### The commands of phase `IDLE` -/

section
variable {s : State} (h : Inv s)
include h

theorem fincBody_keepsInv (y : Sym) (hp : s.phase = .idle) : (fincBody y s).keepsInv := by
  unfold fincBody
  split
  · exact h.faultsWell (by simp [hp])
  · exact h.withEnv h.position

theorem buildBody_keepsInv (hp : s.phase = .idle) : (buildBody s).keepsInv := by
  have hne : s.phase ≠ .err := by simp [hp]
  rcases buildBody_cases s with ⟨_, e⟩ | ⟨_, _, e⟩ | ⟨hsome, hsum, ⟨r, m, n, e⟩ | e⟩
  · rw [e]; exact h.faultsWell hne
  · rw [e]; exact h.faultsWell hne
  · have hexec := (exec_build_idle hp).trans (congrArg finish e)
    obtain ⟨t, r', e', _, hT⟩ := builtTree_of_exec hp hexec rfl
    have htotal : t.total ≠ 0#64 := fun h0 => hsome <| (freqSum_eq_zero_iff s).mp <| by
      rw [← buildBody_total e', h0]; rfl
    rw [e']
    show Inv t
    have hframe := hT.frame
    have hphase : t.phase = .tree := by rw [hframe]
    have hsink := h.sink_closed (by simp [hp]) (by simp [hp])
    exact {
      errRecorded := errRecorded_of (by simp [hphase]) (by rw [hframe]; exact h.noError hne)
      sinkFlag := by rw [sinkFlag, hphase, hframe]; simp [hsink]
      countersOk := by simp [countersOk, hphase, htotal]
      writerOk := by rw [hframe]; exact ⟨fun _ => h.writerOk.1 hne, fun _ _ => h.writer_empty hne (by simp [hp])⟩
      readerOk := by rw [hframe]; exact fun _ _ _ => (h.faultsWell hne).reader (by simp [hp]) (by simp [hp])
      codesPadded := by rw [hframe]; exact h.codesPadded
      freeAbove := fun i hi => (hT.rest i hi).trans (h.nodes_free (.inl hp) i)
      noTreeYet := by simp [noTreeYet, hphase]
      noCodesYet := by rw [hframe]; exact fun _ => h.noCodesYet (.inl hp)
      treeWalks := fun _ => ⟨r', by rw [hframe], fun p j hq => hT.length_path_le hq⟩
      prefixCode := by simp [prefixCode, hphase]
      cursorOk := by simp [cursorOk, hphase]
      position := by rw [hframe]; exact h.position }
  · rw [e]; trivial

theorem hdrrBody_keepsInv (hp : s.phase = .idle) : (hdrrBody s).keepsInv := by
  have hne : s.phase ≠ .err := by simp [hp]
  have hpad := hdrrBody_leaves_codesPadded h.codesPadded
  have hsink := h.sink_closed (by simp [hp]) (by simp [hp])
  have hwell := h.faultsWell hne
  obtain ⟨v, a, b, p, l, _, hle, ⟨e, hv⟩ | ⟨c, e⟩⟩ := hdrrBody_frame s <;> rw [e] at hpad ⊢
  · exact {
      errRecorded := errRecorded_of nofun (h.noError hne)
      sinkFlag := by simp [sinkFlag, hsink]
      countersOk := by simp [countersOk, hv]
      writerOk := ⟨fun _ => h.writerOk.1 hne, fun _ _ => h.writer_empty hne (by simp [hp])⟩
      readerOk := fun _ _ _ => hwell.reader (by simp [hp]) (by simp [hp])
      codesPadded := hpad
      freeAbove := h.freeAbove
      noTreeYet := fun _ => h.noTreeYet (.inl hp)
      noCodesYet := by simp [noCodesYet]
      treeWalks := nofun
      prefixCode := by simp [prefixCode]
      cursorOk := by simp [cursorOk]
      position := hle h.position }
  · exact { hwell with padded := hpad, position := hle h.position }

/-! ### `GEN` and `HDRW` -/

theorem genBody_keepsInv (hp : s.phase = .tree) : (genBody s).keepsInv := by
  have hne : s.phase ≠ .err := by simp [hp]
  obtain ⟨r, hr, hfit⟩ := h.treeWalks hp
  obtain ⟨t, e⟩ := genBody_completes hr hfit
  obtain ⟨_, hframe, hstore⟩ := genBody_ok hr e
  have hphase : t.phase = .codes := by rw [hframe]
  have hsink := h.sink_closed (by simp [hp]) (by simp [hp])
  rw [e]
  exact {
    errRecorded := errRecorded_of (by simp [hphase]) (by rw [hframe]; exact h.noError hne)
    sinkFlag := by rw [sinkFlag, hphase, hframe]; simp [hsink]
    countersOk := by
      have htotal : t.total ≠ 0#64 := by rw [hframe]; exact h.countersOk.1 (by simp [hp]) hne
      simp [countersOk, hphase, htotal]
    writerOk := by rw [hframe]; exact ⟨fun _ => h.writerOk.1 hne, fun _ _ => h.writer_empty hne (by simp [hp])⟩
    readerOk := by rw [hframe]; exact fun _ _ _ => (h.faultsWell hne).reader (by simp [hp]) (by simp [hp])
    codesPadded := codesPadded_of_storesPaths h.codesPadded hstore
    freeAbove := by rw [hframe]; exact h.freeAbove
    noTreeYet := by simp [noTreeYet, hphase]
    noCodesYet := by simp [noCodesYet, hphase]
    treeWalks := by simp [hphase]
    prefixCode := fun _ => prefixFree_of_storesPaths (h.noCodesYet (.inr hp)) hstore
    cursorOk := by simp [cursorOk, hphase]
    position := by rw [hframe]; exact h.position }

theorem hdrwBody_keepsInv (hp : s.phase = .codes) : (hdrwBody s).keepsInv := by
  have hne : s.phase ≠ .err := by simp [hp]
  have hwell := h.faultsWell hne
  rcases hdrwBody_cases s with ⟨l, e⟩ | ⟨l, k, _, e⟩ <;> rw [e]
  · exact {
      errRecorded := errRecorded_of nofun (h.noError hne)
      sinkFlag := by simp [sinkFlag]
      countersOk := by
        have htotal := h.countersOk.1 (by simp [hp]) hne
        simp [countersOk, htotal]
      writerOk := ⟨fun _ => lowBitsZero_empty rfl, fun _ _ => ⟨rfl, rfl⟩⟩
      readerOk := fun _ _ _ => hwell.reader (by simp [hp]) (by simp [hp])
      codesPadded := h.codesPadded
      freeAbove := h.freeAbove
      noTreeYet := by simp [noTreeYet]
      noCodesYet := by simp [noCodesYet]
      treeWalks := nofun
      prefixCode := fun _ => h.prefixCode (.inl hp)
      cursorOk := by simp [cursorOk]
      position := h.position }
  · exact { hwell with }

/-! ### `ENC` and `CLOSE` -/

/-- A count below `TOTAL` does not wrap when it grows. -/
theorem scnt_succ_le (hp : s.phase = .enc) (hne : s.scnt ≠ s.total) : (s.scnt + 1#64).toNat ≤ s.total.toNat := by
  have hle := h.countersOk.2.1 hp
  have hlt : s.scnt.toNat < s.total.toNat := lt_of_le_of_ne hle fun e => hne (BitVec.eq_of_toNat_eq e)
  rw [toNat_add_one hlt]
  exact hlt

theorem encBody_keepsInv (y : Sym) (hp : s.phase = .enc) : (encBody y s).keepsInv := by
  have hne : s.phase ≠ .err := by simp [hp]
  have hwell := h.faultsWell hne
  rcases encBody_cases y s with ⟨_, e⟩ | ⟨_, _, e⟩ | ⟨hcode, hcount, a, n, l, ys, e | e⟩
  · rw [e]; exact hwell
  · rw [e]; exact hwell
  · have hlow : lowBitsZero { s with wacc := a, wcnt := n, sinkFail := l, sink := s.sink ++ ys, scnt := s.scnt + 1#64 } := by
      rw [encBody, if_neg hcode, if_neg hcount] at e
      obtain ⟨_, u, hw, hu⟩ := bind_eq_ok.mp e
      obtain ⟨_, hu⟩ := Res.ok.inj hu
      have hz : lowBitsZero u := writeBits_lowBitsZero _ (h.writerOk.1 hne) hw
      rw [← hu]
      exact hz
    rw [e]
    exact {
      errRecorded := errRecorded_of hne (h.noError hne)
      sinkFlag := h.sinkFlag
      countersOk := ⟨h.countersOk.1, fun _ => scnt_succ_le h hp hcount, by simp [hp], by simp [hp]⟩
      writerOk := ⟨fun _ => hlow, fun he => absurd hp he⟩
      readerOk := h.readerOk
      codesPadded := h.codesPadded
      freeAbove := h.freeAbove
      noTreeYet := by simp [noTreeYet, hp]
      noCodesYet := by simp [noCodesYet, hp]
      treeWalks := by simp [hp]
      prefixCode := h.prefixCode
      cursorOk := by simp [cursorOk, hp]
      position := h.position }
  · rw [e]
    exact { hwell with writer := fun he => absurd hp he }

theorem closeCmdBody_keepsInv (hp : s.phase = .enc) : (closeCmdBody s).keepsInv := by
  have hne : s.phase ≠ .err := by simp [hp]
  have hwell := h.faultsWell hne
  rcases closeCmdBody_cases s with ⟨_, e⟩ | ⟨hcount, a, n, l, ys, e, hn, hempty, hflushed⟩ | ⟨_, l, e⟩ <;> rw [e]
  · exact hwell
  · have ha : a = 0#8 := by
      by_cases hw : s.wcnt = 0#3
      · rw [hempty hw, wacc_eq_zero (h.writerOk.1 hne) hw]
      · exact hflushed hw
    exact {
      errRecorded := errRecorded_of nofun (h.noError hne)
      sinkFlag := by simp [sinkFlag]
      countersOk := ⟨fun _ _ => h.countersOk.1 (by simp [hp]) hne, nofun, nofun, fun _ => hcount⟩
      writerOk := ⟨fun _ => lowBitsZero_empty ha, fun _ _ => ⟨ha, hn⟩⟩
      readerOk := fun _ hdone => absurd rfl hdone
      codesPadded := h.codesPadded
      freeAbove := h.freeAbove
      noTreeYet := by simp [noTreeYet]
      noCodesYet := by simp [noCodesYet]
      treeWalks := nofun
      prefixCode := fun _ => h.prefixCode (.inr (.inl hp))
      cursorOk := by simp [cursorOk]
      position := h.position }
  · exact { hwell with }

/-! ### `RECON` -/

omit h in
/-- The root of the tree of the codes is internal: no code is empty. -/
theorem CodeTree.root_int {t : State} {L : List (List Bool)} (hT : CodeTree (codeOf s) (codedSyms s) L t) :
    (nodeAt t 0).tag = .int := by
  cases htag : (nodeAt t 0).tag
  · rfl
  · obtain ⟨hy, hcode⟩ := (hT.leaf_iff 0 [] hT.trie.root _).mp ⟨htag, rfl⟩
    have hlen := length_codeOf s (nodeAt t 0).sym
    rw [← hcode, List.length_nil] at hlen
    exact absurd (BitVec.eq_of_toNat_eq hlen.symm) ((mem_codedSyms s _).mp hy)

theorem reconBody_keepsInv (hp : s.phase = .hdr) : (reconBody s).keepsInv := by
  have hne : s.phase ≠ .err := by simp [hp]
  have hwell := h.faultsWell hne
  have hfree := reconBody_leaves_freeAbove (h.nodes_free (.inr hp))
  obtain ⟨m, n, e | e | e⟩ := reconBody_cases s
  · obtain ⟨L, hT⟩ := codeTree_of_recon e
    rw [e] at hfree ⊢
    exact {
      errRecorded := errRecorded_of nofun (h.noError hne)
      sinkFlag := by simp [sinkFlag]
      countersOk := by
        have htotal := h.countersOk.1 (by simp [hp]) hne
        have hpos : 0 < s.total.toNat := Nat.pos_of_ne_zero fun h0 => htotal (BitVec.eq_of_toNat_eq h0)
        simp [countersOk, htotal, hpos]
      writerOk := ⟨fun _ => h.writerOk.1 hne, fun _ _ => h.writer_empty hne (by simp [hp])⟩
      readerOk := fun hd => absurd rfl hd
      codesPadded := h.codesPadded
      freeAbove := hfree
      noTreeYet := by simp [noTreeYet]
      noCodesYet := by simp [noCodesYet]
      treeWalks := nofun
      prefixCode := fun _ => hT.prefixFree
      cursorOk := fun _ => ⟨0, 0, rfl, rfl, hT.root_int, hT.root_int⟩
      position := h.position }
  · rw [e] at hfree ⊢
    exact { hwell with free := hfree }
  · rw [e] at hfree ⊢
    exact { hwell with free := hfree }

/-! ### `DSTEP` and `DRUN` -/

/-- Where a walk from phase `DEC` stands: in `DEC` with symbols left and the cursor on an internal node, or in `DONE` with none
left and the sink closed. -/
def walkStands (s t : State) : Prop :=
  (t.phase = .dec ∧ t.sinkOpen = true ∧ t.scnt.toNat < s.total.toNat ∧ ∃ j, t.cur = some j ∧ (nodeAt s j).tag = .int) ∨
  (t.phase = .done ∧ t.sinkOpen = false ∧ t.scnt = s.total)

theorem Walked.inv {t : State} (hw : Walked s t) (hp : s.phase = .dec) (hstands : walkStands s t) : Inv t := by
  have hne : s.phase ≠ .err := by simp [hp]
  have hwriter := h.writer_empty hne (by simp [hp])
  have htotal := h.countersOk.1 (by simp [hp]) hne
  have hdecOrDone : t.phase = .dec ∨ t.phase = .done := hstands.imp And.left And.left
  have hother {q : Phase} (hd : q ≠ .dec) (hdone : q ≠ .done) : t.phase ≠ q := fun e =>
    hdecOrDone.elim (fun e' => hd (e.symm.trans e')) fun e' => hdone (e.symm.trans e')
  obtain ⟨r, _, hr, _, hrint, _⟩ := h.cursorOk hp
  obtain ⟨c, y, n, p, l, m, ys, k, o, d, q, _, hle, _, rfl⟩ := hw
  exact {
    errRecorded := errRecorded_of (hother nofun nofun) (h.noError hne)
    sinkFlag := by
      rcases hstands with ⟨hq, ho, _⟩ | ⟨hq, ho, _⟩ <;> simp_all [sinkFlag]
    countersOk := by
      rcases hstands with ⟨hq, _, hlt, _⟩ | ⟨hq, _, heq⟩ <;> simp_all [countersOk]
    writerOk := ⟨fun _ => h.writerOk.1 hne, fun _ _ => hwriter⟩
    readerOk := fun hd hdone => absurd hdecOrDone (not_or.mpr ⟨hd, hdone⟩)
    codesPadded := h.codesPadded
    freeAbove := h.freeAbove
    noTreeYet := fun hq => absurd hq (not_or.mpr ⟨hother nofun nofun, hother nofun nofun⟩)
    noCodesYet := fun hq => absurd hq (not_or.mpr ⟨hother nofun nofun, hother nofun nofun⟩)
    treeWalks := fun hq => absurd hq (hother nofun nofun)
    prefixCode := fun _ => h.prefixCode (.inr (.inr (.inl hp)))
    cursorOk := fun hq => by
      rcases hstands with ⟨_, _, _, j, hj, hjint⟩ | ⟨hdone, _⟩
      · exact ⟨r, j, hr, hj, hrint, hjint⟩
      · simp_all
    position := hle h.position }

/-- A walk that raises in phase `DEC`. -/
theorem Walked.faultsWell {t : State} (hw : Walked s t) (hp : s.phase = .dec) (hdec : t.phase = .dec) : FaultsWell t := by
  have hne : s.phase ≠ .err := by simp [hp]
  obtain ⟨c, y, n, p, l, m, ys, k, o, d, q, _, hle, _, rfl⟩ := hw
  exact {
    phase := by rw [hdec]; nofun
    writer := fun _ => h.writer_empty hne (by simp [hp])
    reader := fun hd => absurd hdec hd
    padded := h.codesPadded
    free := h.freeAbove
    position := hle h.position }

theorem dstepBody_keepsInv (hp : s.phase = .dec) : (dstepBody s).keepsInv := by
  rcases dstepBody_frame s with ⟨t, hw, e, _⟩ | ⟨c, t, hw, e, hq⟩ | ⟨_, e⟩
  · have hcases := dstepBody_ok_cases e
    rw [e]
    obtain ⟨r, i, hr, hi, hrint, hiint⟩ := h.cursorOk hp
    have hlt := h.countersOk.2.2.1 hp
    have hopen := h.sinkFlag.mpr (.inr hp)
    have hsucc := toNat_add_one hlt
    refine hw.inv h hp ?_
    rcases hcases with ⟨j, hint, hcur, hcnt, hphase, hsink⟩ | ⟨hcur, hcnt, hmore, hphase, hsink⟩ |
      ⟨hcur, _, hlast, hphase, hsink⟩
    · exact .inl ⟨hphase.trans hp, hsink.trans hopen, by rw [hcnt]; exact hlt, j, hcur, hint⟩
    · refine .inl ⟨hphase.trans hp, hsink.trans hopen, ?_, r, hcur.trans hr, hrint⟩
      have : t.scnt.toNat ≠ s.total.toNat := fun e' => hmore (BitVec.eq_of_toNat_eq e')
      rw [hcnt, hsucc] at this ⊢
      omega
    · exact .inr ⟨hphase, hsink, hlast⟩
  · rw [e]
    exact hw.faultsWell h hp (hq.trans hp)
  · rw [e]; trivial

omit h in
/-- `DRUN` is a run of walk steps, each from a state of the invariant. -/
theorem runLoop_keepsInv (n : Nat) : ∀ {s : State}, Inv s → (runLoop n s).keepsInv := by
  induction n with
  | zero =>
    intro s h
    rw [runLoop]
    split
    · trivial
    · exact h
  | succ n ih =>
    intro s h
    rw [runLoop]
    split
    next hp =>
      have hstep := dstepBody_keepsInv h hp
      cases hr : dstepBody s with
      | ok v t => rw [hr] at hstep; exact ih hstep
      | raised c t => rw [hr] at hstep; exact hstep
      | stuck r => trivial
    · exact h

/-! ### Every command -/

/-- An illegal word keeps the invariant. -/
theorem illegalWord_inv : Inv (illegalWord s) := by
  rcases illegalWord_cases s with ⟨_, e⟩ | ⟨he, e⟩ <;> rw [e]
  · exact h.respond false 0#64
  · exact (h.faultsWell he).inv _

/-- A command whose body keeps the invariant in its phase keeps it. -/
theorem inPhase_inv {p : Phase} (hp : p ≠ .err) {body : State → Res Word} (hbody : s.phase = p → (body s).keepsInv) {t : State}
    (hnext : inPhase p body s = .next t) : Inv t := by
  rcases inPhase_eq_next hp hnext with ⟨_, rfl⟩ | ⟨he, _, rfl⟩ | ⟨hs, v, u, e, rfl⟩ | ⟨hs, c, u, e, rfl⟩
  · exact h.respond false 0#64
  · exact (h.faultsWell he).inv _
  · have hb := hbody hs
    rw [e] at hb
    exact Inv.respond hb true v
  · have hb := hbody hs
    rw [e] at hb
    exact FaultsWell.inv hb c

/-- A read keeps the invariant. -/
theorem readItem_inv {v : Option Word} {t : State} (hnext : readItem v s = .next t) : Inv t := by
  rcases readItem_eq_next hnext with ⟨w, _, rfl⟩ | ⟨_, rfl⟩
  · exact h.respond true w
  · exact illegalWord_inv h

theorem exec_inv {i : Instr} {t : State} (hnext : exec i s = .next t) : Inv t := by
  cases i with
  | nop => exact Host.Outcome.next.inj hnext ▸ h.respond true 0#64
  | rst =>
    obtain rfl := Host.Outcome.next.inj ((exec_rst s).symm.trans hnext)
    exact ((coreIsReset_resetCore _).inv (by simpa using h.position)).respond true 0#64
  | finc y => exact inPhase_inv h (p := .idle) nofun (fincBody_keepsInv h y) hnext
  | fset y n =>
    exact inPhase_inv h (p := .idle) (body := fun s => .ok 0#64 (setFreq y n s)) nofun (fun _ => h.withEnv h.position) hnext
  | build => exact inPhase_inv h (p := .idle) nofun (buildBody_keepsInv h) hnext
  | gen => exact inPhase_inv h (p := .tree) nofun (genBody_keepsInv h) hnext
  | hdrw => exact inPhase_inv h (p := .codes) nofun (hdrwBody_keepsInv h) hnext
  | enc y => exact inPhase_inv h (p := .enc) nofun (encBody_keepsInv h y) hnext
  | close => exact inPhase_inv h (p := .enc) nofun (closeCmdBody_keepsInv h) hnext
  | hdrr => exact inPhase_inv h (p := .idle) nofun (hdrrBody_keepsInv h) hnext
  | recon => exact inPhase_inv h (p := .hdr) nofun (reconBody_keepsInv h) hnext
  | dstep => exact inPhase_inv h (p := .dec) nofun (dstepBody_keepsInv h) hnext
  | drun => exact inPhase_inv h (p := .dec) nofun (fun _ => runLoop_keepsInv _ h) hnext
  | rdreg r => exact readItem_inv h hnext
  | rdtabF y => exact readItem_inv h (v := some _) hnext
  | rdtabL y => exact readItem_inv h (v := some _) hnext
  | rdtabB0 y => exact readItem_inv h (v := some _) hnext
  | rdtabB1 y => exact readItem_inv h (v := some _) hnext
  | rdtabB2 y => exact readItem_inv h (v := some _) hnext
  | rdtabB3 y => exact readItem_inv h (v := some _) hnext
  | rdnodeL idx => exact readItem_inv h hnext
  | rdnodeF idx => exact readItem_inv h hnext

end

/-- Settles O58, by the act: a command by its body, an illegal word and a binding by the items they write, hardware reset by its
values. -/
theorem stepKeepsTheInvariant : Obligations.StepKeepsTheInvariant := by
  unfold Obligations.StepKeepsTheInvariant
  intro s t h hnext
  rcases step_eq_next hnext with ⟨_, rfl⟩ | ⟨c, i, rest, _, _, he⟩ | ⟨c, k, rest, _, _, rfl⟩ | ⟨rest, _, rfl⟩ |
    ⟨bytes, fails, rest, _, _, rfl⟩ | ⟨fails, rest, _, _, rfl⟩
  · exact h
  · exact exec_inv (h.withEnv h.position) he
  · exact illegalWord_inv (h.withEnv h.position)
  · exact (coreIsReset_resetCore _).inv h.position
  · exact h.withEnv (Nat.zero_le _)
  · exact h.withEnv h.position

/-! ### A machine in the invariant answers (20_memory.md R74) -/

theorem runsOn_next (t : State) : runsOn (.next t) := ⟨t, rfl⟩

/-- A body that does not stop. -/
theorem finish_runs {x : Res Word} (h : ∀ r, x ≠ .stuck r) : runsOn (finish x) := by
  cases x with
  | ok v t => exact runsOn_next _
  | raised c t => exact runsOn_next _
  | stuck r => exact absurd rfl (h r)

theorem inPhase_runs {p : Phase} (hp : p ≠ .err) {body : State → Res Word} {s : State}
    (h : s.phase = p → ∀ r, body s ≠ .stuck r) : runsOn (inPhase p body s) := by
  rcases inPhase_cases hp body s with ⟨_, e⟩ | ⟨hs, e⟩ | ⟨_, _, e⟩ <;> rw [e]
  · exact runsOn_next _
  · exact finish_runs (h hs)
  · exact runsOn_next _

/-- `BUILD` never needs more nodes than there are (log 15). -/
theorem buildBody_ne_stuck (s : State) (r : Fault) : buildBody s ≠ .stuck r := by
  rcases buildBody_cases s with ⟨_, e⟩ | ⟨_, _, e⟩ | ⟨hne, hsum, _⟩
  · simp [e]
  · simp [e]
  · rcases presentSyms_one_or_more hne with ⟨y, hy⟩ | h2
    · simp [buildBody_single hy hsum]
    · obtain ⟨r', t, _, e, _⟩ := builtTree_merged h2 hsum
      simp [e]

section
variable {s : State} (h : Inv s)
include h

/-- In the invariant the walk of `GEN` has a root and never goes below 255 levels (log 13). -/
theorem genBody_ne_stuck (hp : s.phase = .tree) (r : Fault) : genBody s ≠ .stuck r := by
  obtain ⟨i, hi, hfit⟩ := h.treeWalks hp
  obtain ⟨t, e⟩ := genBody_completes hi hfit
  simp [e]

/-- In the invariant a walk step has a cursor (log 14). -/
theorem dstepBody_ne_stuck (hp : s.phase = .dec) (r : Fault) : dstepBody s ≠ .stuck r := by
  obtain ⟨_, i, _, hi, _⟩ := h.cursorOk hp
  rcases dstepBody_frame s with ⟨t, _, e, _⟩ | ⟨c, t, _, e, _⟩ | ⟨hnil, _⟩
  · simp [e]
  · simp [e]
  · simp [hi] at hnil

/-- In the invariant `DRUN` ends (log 16). -/
theorem runLoop_ne_stuck (hp : s.phase = .dec) (r : Fault) : runLoop (runBound s) s ≠ .stuck r := by
  obtain ⟨j, i, hj, hi, _⟩ := h.cursorOk hp
  rcases runLoop_frame (runBound s) s (Nat.lt_succ_self _) (.inl hp) with ⟨t, _, e, _⟩ | ⟨c, t, _, e, _⟩ | e
  · simp [e]
  · simp [e]
  · exact absurd e (runLoop_ne_nilPointer _ (by simp [hj]) (by simp [hi]))

theorem exec_runs (i : Instr) : runsOn (exec i s) := by
  cases i with
  | nop => exact runsOn_next _
  | rst => exact runsOn_next _
  | finc y =>
    exact inPhase_runs (p := .idle) nofun fun _ r => by
      unfold fincBody
      split <;> nofun
  | fset y n => exact inPhase_runs (p := .idle) (body := fun s => .ok 0#64 (setFreq y n s)) nofun fun _ r => nofun
  | build => exact inPhase_runs (p := .idle) nofun fun _ => buildBody_ne_stuck s
  | gen => exact inPhase_runs (p := .tree) nofun (genBody_ne_stuck h)
  | hdrw =>
    exact inPhase_runs (p := .codes) nofun fun _ r => by
      rcases hdrwBody_cases s with ⟨_, e⟩ | ⟨_, _, _, e⟩ <;> simp [e]
  | enc y =>
    exact inPhase_runs (p := .enc) nofun fun _ r => by
      rcases encBody_cases y s with ⟨_, e⟩ | ⟨_, _, e⟩ | ⟨_, _, _, _, _, _, e | e⟩ <;> simp [e]
  | close =>
    exact inPhase_runs (p := .enc) nofun fun _ r => by
      rcases closeCmdBody_cases s with ⟨_, e⟩ | ⟨_, _, _, _, _, e, _⟩ | ⟨_, _, e⟩ <;> simp [e]
  | hdrr =>
    exact inPhase_runs (p := .idle) nofun fun _ r => by
      obtain ⟨_, _, _, _, _, _, _, ⟨e, _⟩ | ⟨_, e⟩⟩ := hdrrBody_frame s <;> simp [e]
  | recon =>
    exact inPhase_runs (p := .hdr) nofun fun _ r => by
      obtain ⟨_, _, e | e | e⟩ := reconBody_cases s <;> simp [e]
  | dstep => exact inPhase_runs (p := .dec) nofun (dstepBody_ne_stuck h)
  | drun => exact inPhase_runs (p := .dec) nofun (runLoop_ne_stuck h)
  | rdreg r => exact readItem_runs _ s
  | rdtabF y => exact readItem_runs (some _) s
  | rdtabL y => exact readItem_runs (some _) s
  | rdtabB0 y => exact readItem_runs (some _) s
  | rdtabB1 y => exact readItem_runs (some _) s
  | rdtabB2 y => exact readItem_runs (some _) s
  | rdtabB3 y => exact readItem_runs (some _) s
  | rdnodeL idx => exact readItem_runs _ s
  | rdnodeF idx => exact readItem_runs _ s

end

/-- Settles O59, by the act: no command's body stops in the invariant, and a binding is refused only where the core owns the
stream. -/
theorem machineNeverStops : Obligations.MachineNeverStops := by
  unfold Obligations.MachineNeverStops
  intro s h hbinds
  rcases hhost : s.host with _ | ⟨a, rest⟩
  · rw [step_idle hhost]
    exact runsOn_next s
  rw [step_act hhost]
  cases a with
  | command c =>
    rw [runAct, runCommand]
    split
    · exact exec_runs (h.withEnv h.position) _
    · exact runsOn_next _
  | hardReset => exact runsOn_next _
  | bindSource bytes fails =>
    have hfree : ¬ sourceInUse { s with host := rest } = true := fun hu => hbinds (.inl ⟨bytes, fails, rest, hhost, hu⟩)
    rw [runAct, bindSource, if_neg hfree]
    exact runsOn_next _
  | bindSink fails =>
    have hfree : ¬ sinkInUse { s with host := rest } = true := fun hu => hbinds (.inr ⟨fails, rest, hhost, hu⟩)
    rw [runAct, bindSink, if_neg hfree]
    exact runsOn_next _

end Sys2Proof.Machine
